-- ==== Sys2Proof/Word.lean ====
section
/-! DEFINITION. The machine's words (spec 00_scope.md R8, R10): 8-bit bytes and 16-bit addresses. -/

namespace Sys2Proof

/-- The CPU data width: 8 bits (R8). -/
abbrev Byte := BitVec 8

/-- The CPU address width: 16 bits (R8). PPU addresses are addresses masked to 14 bits (R73). -/
abbrev Addr := BitVec 16

end Sys2Proof
end

