-- ==== Sys2Proof/Syntax.lean ====
section
/-! DEFINITION. The instruction set as syntax (spec 30_encoding.md R100 to R126; one constructor per mnemonic of
spec/opcode_table.json, its operand form an argument, log 1). -/

namespace Sys2Proof

/-- The addressing-mode tags (R101). -/
inductive Mode where
  | imp | acc | zp | zpx | zpy | imm | abs | abx | aby | izx | izy | ind | rel
  deriving DecidableEq, Repr

/-- An operand form with its operand bytes assembled (R101, R117): a byte `d`, or a 16-bit `h : l`. -/
inductive Operand where
  | acc
  | imm (d : Byte)
  | zp  (d : Byte)
  | zpx (d : Byte)
  | zpy (d : Byte)
  | abs (w : Addr)
  | abx (w : Addr)
  | aby (w : Addr)
  | izx (d : Byte)
  | izy (d : Byte)
  | ind (w : Addr)
  deriving DecidableEq, Repr

/-- The instructions (R121 and R123). `illegal op` is the row of an opcode outside the 151 admitted ones. -/
inductive Instr where
  -- 41_load_store_transfer.md
  | lda (o : Operand)
  | ldx (o : Operand)
  | ldy (o : Operand)
  | sta (o : Operand)
  | stx (o : Operand)
  | sty (o : Operand)
  | tax
  | tay
  | tsx
  | txa
  | txs
  | tya
  -- 42_arithmetic_logic.md
  | adc (o : Operand)
  | sbc (o : Operand)
  | and (o : Operand)
  | ora (o : Operand)
  | eor (o : Operand)
  | bit (o : Operand)
  | cmp (o : Operand)
  | cpx (o : Operand)
  | cpy (o : Operand)
  | inc (o : Operand)
  | dec (o : Operand)
  | inx
  | iny
  | dex
  | dey
  -- 43_shift_rotate.md
  | asl (o : Operand)
  | lsr (o : Operand)
  | rol (o : Operand)
  | ror (o : Operand)
  -- 44_control_transfer.md
  | bcc (d : Byte)
  | bcs (d : Byte)
  | beq (d : Byte)
  | bmi (d : Byte)
  | bne (d : Byte)
  | bpl (d : Byte)
  | bvc (d : Byte)
  | bvs (d : Byte)
  | jmp (o : Operand)
  | jsr (target : Addr)
  | rts
  | brk
  | rti
  -- 45_stack_flag_misc.md
  | pha
  | php
  | pla
  | plp
  | clc
  | cld
  | cli
  | clv
  | sec
  | sed
  | sei
  | nop
  -- 30_encoding.md R123
  | illegal (op : Byte)
  deriving DecidableEq, Repr

end Sys2Proof
end

