-- ==== Sys2Proof/WellFormed.lean ====
section
/-! DEFINITION. Which instructions are well formed: an operand form is one of those the instruction's rule lists under
"Encoding", and an illegal opcode is one of the 105 of 30_encoding.md R123. -/

namespace Sys2Proof

/-- The mode of an operand form (R101). -/
def Operand.mode : Operand → Mode
  | .acc   => .acc
  | .imm _ => .imm
  | .zp _  => .zp
  | .zpx _ => .zpx
  | .zpy _ => .zpy
  | .abs _ => .abs
  | .abx _ => .abx
  | .aby _ => .aby
  | .izx _ => .izx
  | .izy _ => .izy
  | .ind _ => .ind

/-- The eight forms of LDA, ADC, SBC, AND, ORA, EOR and CMP (R150, R173 to R177, R179). -/
def accumulatorModes : List Mode := [.imm, .zp, .zpx, .abs, .abx, .aby, .izx, .izy]

/-- The forms of ASL, LSR, ROL and ROR (R201 to R204). -/
def shiftModes : List Mode := [.acc, .zp, .zpx, .abs, .abx]

/-- The opcodes R123 lists as illegal, row by row of the opcode map. -/
def illegalOpcodes : List Byte :=
  [0x02#8, 0x03#8, 0x04#8, 0x07#8, 0x0B#8, 0x0C#8, 0x0F#8] ++
  [0x12#8, 0x13#8, 0x14#8, 0x17#8, 0x1A#8, 0x1B#8, 0x1C#8, 0x1F#8] ++
  [0x22#8, 0x23#8, 0x27#8, 0x2B#8, 0x2F#8] ++
  [0x32#8, 0x33#8, 0x34#8, 0x37#8, 0x3A#8, 0x3B#8, 0x3C#8, 0x3F#8] ++
  [0x42#8, 0x43#8, 0x44#8, 0x47#8, 0x4B#8, 0x4F#8] ++
  [0x52#8, 0x53#8, 0x54#8, 0x57#8, 0x5A#8, 0x5B#8, 0x5C#8, 0x5F#8] ++
  [0x62#8, 0x63#8, 0x64#8, 0x67#8, 0x6B#8, 0x6F#8] ++
  [0x72#8, 0x73#8, 0x74#8, 0x77#8, 0x7A#8, 0x7B#8, 0x7C#8, 0x7F#8] ++
  [0x80#8, 0x82#8, 0x83#8, 0x87#8, 0x89#8, 0x8B#8, 0x8F#8] ++
  [0x92#8, 0x93#8, 0x97#8, 0x9B#8, 0x9C#8, 0x9E#8, 0x9F#8] ++
  [0xA3#8, 0xA7#8, 0xAB#8, 0xAF#8] ++
  [0xB2#8, 0xB3#8, 0xB7#8, 0xBB#8, 0xBF#8] ++
  [0xC2#8, 0xC3#8, 0xC7#8, 0xCB#8, 0xCF#8] ++
  [0xD2#8, 0xD3#8, 0xD4#8, 0xD7#8, 0xDA#8, 0xDB#8, 0xDC#8, 0xDF#8] ++
  [0xE2#8, 0xE3#8, 0xE7#8, 0xEB#8, 0xEF#8] ++
  [0xF2#8, 0xF3#8, 0xF4#8, 0xF7#8, 0xFA#8, 0xFB#8, 0xFC#8, 0xFF#8]

/-- Whether an instruction has one of the operand forms its rule gives it. -/
def Instr.wellFormed : Instr → Bool
  | .lda o => accumulatorModes.contains o.mode
  | .ldx o => [Mode.imm, .zp, .zpy, .abs, .aby].contains o.mode
  | .ldy o => [Mode.imm, .zp, .zpx, .abs, .abx].contains o.mode
  | .sta o => [Mode.zp, .zpx, .abs, .abx, .aby, .izx, .izy].contains o.mode
  | .stx o => [Mode.zp, .zpy, .abs].contains o.mode
  | .sty o => [Mode.zp, .zpx, .abs].contains o.mode
  | .adc o => accumulatorModes.contains o.mode
  | .sbc o => accumulatorModes.contains o.mode
  | .and o => accumulatorModes.contains o.mode
  | .ora o => accumulatorModes.contains o.mode
  | .eor o => accumulatorModes.contains o.mode
  | .bit o => [Mode.zp, .abs].contains o.mode
  | .cmp o => accumulatorModes.contains o.mode
  | .cpx o => [Mode.imm, .zp, .abs].contains o.mode
  | .cpy o => [Mode.imm, .zp, .abs].contains o.mode
  | .inc o => [Mode.zp, .zpx, .abs, .abx].contains o.mode
  | .dec o => [Mode.zp, .zpx, .abs, .abx].contains o.mode
  | .asl o => shiftModes.contains o.mode
  | .lsr o => shiftModes.contains o.mode
  | .rol o => shiftModes.contains o.mode
  | .ror o => shiftModes.contains o.mode
  | .jmp o => [Mode.abs, .ind].contains o.mode
  | .illegal op => illegalOpcodes.contains op
  | .tax => true
  | .tay => true
  | .tsx => true
  | .txa => true
  | .txs => true
  | .tya => true
  | .inx => true
  | .iny => true
  | .dex => true
  | .dey => true
  | .bcc _ => true
  | .bcs _ => true
  | .beq _ => true
  | .bmi _ => true
  | .bne _ => true
  | .bpl _ => true
  | .bvc _ => true
  | .bvs _ => true
  | .jsr _ => true
  | .rts => true
  | .brk => true
  | .rti => true
  | .pha => true
  | .php => true
  | .pla => true
  | .plp => true
  | .clc => true
  | .cld => true
  | .cli => true
  | .clv => true
  | .sec => true
  | .sed => true
  | .sei => true
  | .nop => true

end Sys2Proof
end

