-- ==== Sys2Proof/Decode.lean ====
section
/-! DEFINITION. Decoding and encoding (spec 30_encoding.md R100, R101, R120 to R123). The decoder indexes the opcode map of
R121 with the whole opcode byte; the encoder's opcodes come from the "Encoding" lines of the instruction rules R150 to R241. -/

namespace Sys2Proof

/-! ## Byte order (20_memory.md R60) -/

/-- `h : l`, the 16-bit value of a low byte and a high byte (R10, R117). -/
def leWord (l h : Byte) : Addr := h ++ l

/-- Bits 7:0. -/
def loByte (w : Addr) : Byte := w.extractLsb' 0 8

/-- Bits 15:8, the page of an address. -/
def hiByte (w : Addr) : Byte := w.extractLsb' 8 8

/-! ## The descriptor table -/

/-- An instruction descriptor (R120): the illegal marker, or the addressing mode, the base cycle count and the operation.
`implied` is IMP, `relative` is REL, `target` is the ABS form of JSR, `operand` is every other mode. -/
inductive Descriptor where
  | illegal
  | implied (base : Nat) (i : Instr)
  | operand (m : Mode) (base : Nat) (build : Operand → Instr)
  | relative (base : Nat) (build : Byte → Instr)
  | target (base : Nat) (build : Addr → Instr)

/-- Row 0x of R121. -/
def opcodeRow0 : List Descriptor :=
  [.implied 7 .brk, .operand .izx 6 .ora, .illegal, .illegal,
   .illegal, .operand .zp 3 .ora, .operand .zp 5 .asl, .illegal,
   .implied 3 .php, .operand .imm 2 .ora, .operand .acc 2 .asl, .illegal,
   .illegal, .operand .abs 4 .ora, .operand .abs 6 .asl, .illegal]

/-- Row 1x of R121. -/
def opcodeRow1 : List Descriptor :=
  [.relative 2 .bpl, .operand .izy 5 .ora, .illegal, .illegal,
   .illegal, .operand .zpx 4 .ora, .operand .zpx 6 .asl, .illegal,
   .implied 2 .clc, .operand .aby 4 .ora, .illegal, .illegal,
   .illegal, .operand .abx 4 .ora, .operand .abx 7 .asl, .illegal]

/-- Row 2x of R121. -/
def opcodeRow2 : List Descriptor :=
  [.target 6 .jsr, .operand .izx 6 .and, .illegal, .illegal,
   .operand .zp 3 .bit, .operand .zp 3 .and, .operand .zp 5 .rol, .illegal,
   .implied 4 .plp, .operand .imm 2 .and, .operand .acc 2 .rol, .illegal,
   .operand .abs 4 .bit, .operand .abs 4 .and, .operand .abs 6 .rol, .illegal]

/-- Row 3x of R121. -/
def opcodeRow3 : List Descriptor :=
  [.relative 2 .bmi, .operand .izy 5 .and, .illegal, .illegal,
   .illegal, .operand .zpx 4 .and, .operand .zpx 6 .rol, .illegal,
   .implied 2 .sec, .operand .aby 4 .and, .illegal, .illegal,
   .illegal, .operand .abx 4 .and, .operand .abx 7 .rol, .illegal]

/-- Row 4x of R121. -/
def opcodeRow4 : List Descriptor :=
  [.implied 6 .rti, .operand .izx 6 .eor, .illegal, .illegal,
   .illegal, .operand .zp 3 .eor, .operand .zp 5 .lsr, .illegal,
   .implied 3 .pha, .operand .imm 2 .eor, .operand .acc 2 .lsr, .illegal,
   .operand .abs 3 .jmp, .operand .abs 4 .eor, .operand .abs 6 .lsr, .illegal]

/-- Row 5x of R121. -/
def opcodeRow5 : List Descriptor :=
  [.relative 2 .bvc, .operand .izy 5 .eor, .illegal, .illegal,
   .illegal, .operand .zpx 4 .eor, .operand .zpx 6 .lsr, .illegal,
   .implied 2 .cli, .operand .aby 4 .eor, .illegal, .illegal,
   .illegal, .operand .abx 4 .eor, .operand .abx 7 .lsr, .illegal]

/-- Row 6x of R121. -/
def opcodeRow6 : List Descriptor :=
  [.implied 6 .rts, .operand .izx 6 .adc, .illegal, .illegal,
   .illegal, .operand .zp 3 .adc, .operand .zp 5 .ror, .illegal,
   .implied 4 .pla, .operand .imm 2 .adc, .operand .acc 2 .ror, .illegal,
   .operand .ind 5 .jmp, .operand .abs 4 .adc, .operand .abs 6 .ror, .illegal]

/-- Row 7x of R121. -/
def opcodeRow7 : List Descriptor :=
  [.relative 2 .bvs, .operand .izy 5 .adc, .illegal, .illegal,
   .illegal, .operand .zpx 4 .adc, .operand .zpx 6 .ror, .illegal,
   .implied 2 .sei, .operand .aby 4 .adc, .illegal, .illegal,
   .illegal, .operand .abx 4 .adc, .operand .abx 7 .ror, .illegal]

/-- Row 8x of R121. -/
def opcodeRow8 : List Descriptor :=
  [.illegal, .operand .izx 6 .sta, .illegal, .illegal,
   .operand .zp 3 .sty, .operand .zp 3 .sta, .operand .zp 3 .stx, .illegal,
   .implied 2 .dey, .illegal, .implied 2 .txa, .illegal,
   .operand .abs 4 .sty, .operand .abs 4 .sta, .operand .abs 4 .stx, .illegal]

/-- Row 9x of R121. -/
def opcodeRow9 : List Descriptor :=
  [.relative 2 .bcc, .operand .izy 6 .sta, .illegal, .illegal,
   .operand .zpx 4 .sty, .operand .zpx 4 .sta, .operand .zpy 4 .stx, .illegal,
   .implied 2 .tya, .operand .aby 5 .sta, .implied 2 .txs, .illegal,
   .illegal, .operand .abx 5 .sta, .illegal, .illegal]

/-- Row Ax of R121. -/
def opcodeRowA : List Descriptor :=
  [.operand .imm 2 .ldy, .operand .izx 6 .lda, .operand .imm 2 .ldx, .illegal,
   .operand .zp 3 .ldy, .operand .zp 3 .lda, .operand .zp 3 .ldx, .illegal,
   .implied 2 .tay, .operand .imm 2 .lda, .implied 2 .tax, .illegal,
   .operand .abs 4 .ldy, .operand .abs 4 .lda, .operand .abs 4 .ldx, .illegal]

/-- Row Bx of R121. -/
def opcodeRowB : List Descriptor :=
  [.relative 2 .bcs, .operand .izy 5 .lda, .illegal, .illegal,
   .operand .zpx 4 .ldy, .operand .zpx 4 .lda, .operand .zpy 4 .ldx, .illegal,
   .implied 2 .clv, .operand .aby 4 .lda, .implied 2 .tsx, .illegal,
   .operand .abx 4 .ldy, .operand .abx 4 .lda, .operand .aby 4 .ldx, .illegal]

/-- Row Cx of R121. -/
def opcodeRowC : List Descriptor :=
  [.operand .imm 2 .cpy, .operand .izx 6 .cmp, .illegal, .illegal,
   .operand .zp 3 .cpy, .operand .zp 3 .cmp, .operand .zp 5 .dec, .illegal,
   .implied 2 .iny, .operand .imm 2 .cmp, .implied 2 .dex, .illegal,
   .operand .abs 4 .cpy, .operand .abs 4 .cmp, .operand .abs 6 .dec, .illegal]

/-- Row Dx of R121. -/
def opcodeRowD : List Descriptor :=
  [.relative 2 .bne, .operand .izy 5 .cmp, .illegal, .illegal,
   .illegal, .operand .zpx 4 .cmp, .operand .zpx 6 .dec, .illegal,
   .implied 2 .cld, .operand .aby 4 .cmp, .illegal, .illegal,
   .illegal, .operand .abx 4 .cmp, .operand .abx 7 .dec, .illegal]

/-- Row Ex of R121. -/
def opcodeRowE : List Descriptor :=
  [.operand .imm 2 .cpx, .operand .izx 6 .sbc, .illegal, .illegal,
   .operand .zp 3 .cpx, .operand .zp 3 .sbc, .operand .zp 5 .inc, .illegal,
   .implied 2 .inx, .operand .imm 2 .sbc, .implied 2 .nop, .illegal,
   .operand .abs 4 .cpx, .operand .abs 4 .sbc, .operand .abs 6 .inc, .illegal]

/-- Row Fx of R121. -/
def opcodeRowF : List Descriptor :=
  [.relative 2 .beq, .operand .izy 5 .sbc, .illegal, .illegal,
   .illegal, .operand .zpx 4 .sbc, .operand .zpx 6 .inc, .illegal,
   .implied 2 .sed, .operand .aby 4 .sbc, .illegal, .illegal,
   .illegal, .operand .abx 4 .sbc, .operand .abx 7 .inc, .illegal]

/-- The 256 descriptors, indexed by the opcode byte (R120, R121). -/
def opcodeTable : List Descriptor :=
  opcodeRow0 ++ opcodeRow1 ++ opcodeRow2 ++ opcodeRow3 ++ opcodeRow4 ++ opcodeRow5 ++ opcodeRow6 ++ opcodeRow7 ++
  opcodeRow8 ++ opcodeRow9 ++ opcodeRowA ++ opcodeRowB ++ opcodeRowC ++ opcodeRowD ++ opcodeRowE ++ opcodeRowF

/-- The descriptor of an opcode byte (R122). -/
def descriptorOf (op : Byte) : Descriptor := opcodeTable.getD op.toNat .illegal

/-- How many operand bytes follow the opcode in a mode (R101). -/
def operandCount : Mode → Nat
  | .imp => 0
  | .acc => 0
  | .zp => 1
  | .zpx => 1
  | .zpy => 1
  | .imm => 1
  | .abs => 2
  | .abx => 2
  | .aby => 2
  | .izx => 1
  | .izy => 1
  | .ind => 2
  | .rel => 1

/-- How many operand bytes a descriptor's mode takes (R100: the opcode alone fixes the length). -/
def descriptorOperands : Descriptor → Nat
  | .illegal => 0
  | .implied _ _ => 0
  | .operand m _ _ => operandCount m
  | .relative _ _ => 1
  | .target _ _ => 2

/-- A descriptor's base cycle count (R121); an illegal opcode has none. -/
def descriptorBase : Descriptor → Nat
  | .illegal => 0
  | .implied b _ => b
  | .operand _ b _ => b
  | .relative b _ => b
  | .target b _ => b

/-! ## The decoder -/

/-- Why no instruction can be read from some bytes. -/
inductive DecodeReject where
  /-- There is no opcode byte. -/
  | noOpcode
  /-- The operand bytes the opcode's mode asks for are not all there. -/
  | truncated (op : Byte)
  deriving DecidableEq, Repr

/-- The operand of a mode from the bytes after the opcode, with the bytes left (R101, R117); `none` where a byte is missing,
and for IMP and REL, which have no operand form. -/
def takeOperand : Mode → List Byte → Option (Operand × List Byte)
  | .acc, r => some (.acc, r)
  | .imm, d :: r => some (.imm d, r)
  | .zp, d :: r => some (.zp d, r)
  | .zpx, d :: r => some (.zpx d, r)
  | .zpy, d :: r => some (.zpy d, r)
  | .izx, d :: r => some (.izx d, r)
  | .izy, d :: r => some (.izy d, r)
  | .abs, l :: h :: r => some (.abs (leWord l h), r)
  | .abx, l :: h :: r => some (.abx (leWord l h), r)
  | .aby, l :: h :: r => some (.aby (leWord l h), r)
  | .ind, l :: h :: r => some (.ind (leWord l h), r)
  | _, _ => none

/-- The instruction of a descriptor and the bytes after its opcode `op`. -/
def buildInstr (op : Byte) (d : Descriptor) (rest : List Byte) : Except DecodeReject (Instr × List Byte) :=
  match d with
  | .illegal => .ok (.illegal op, rest)
  | .implied _ i => .ok (i, rest)
  | .operand m _ build =>
    match takeOperand m rest with
    | some (o, r) => .ok (build o, r)
    | none => .error (.truncated op)
  | .relative _ build =>
    match rest with
    | d :: r => .ok (build d, r)
    | [] => .error (.truncated op)
  | .target _ build =>
    match rest with
    | l :: h :: r => .ok (build (leWord l h), r)
    | _ => .error (.truncated op)

/-- Reads one instruction from the front of a byte list (R100, R122), with the bytes left after it. -/
def decode : List Byte → Except DecodeReject (Instr × List Byte)
  | [] => .error .noOpcode
  | op :: rest => buildInstr op (descriptorOf op) rest

/-- The three bytes of an instruction whose bits are `w`: byte 0 is bits 7:0, byte 1 bits 15:8, byte 2 bits 23:16, and every
bit from `nbits` up is 0. -/
def wordBytes (nbits w : Nat) : List Byte :=
  let v := w % 2 ^ nbits
  [BitVec.ofNat 8 v, BitVec.ofNat 8 (v / 0x100), BitVec.ofNat 8 (v / 0x10000)]

/-- The instruction the decoder reads from an instruction whose bits are `w`, laid out as the hardware stores it. -/
def decodeTableWord (nbits w : Nat) : Option Instr :=
  match decode (wordBytes nbits w) with
  | .ok (i, _) => some i
  | .error _ => none

/-! ## The encoder -/

/-- The opcode a rule's "Encoding" line gives the mode of an operand. -/
def opcodeIn (l : List (Mode × Byte)) (o : Operand) : Option Byte := l.lookup o.mode

/-- The opcode of an instruction, from the "Encoding" line of its rule (R150 to R241); `none` for an operand form the rule
does not list. -/
def opcodeOf : Instr → Option Byte
  | .lda o => opcodeIn [(.imm, 0xA9#8), (.zp, 0xA5#8), (.zpx, 0xB5#8), (.abs, 0xAD#8), (.abx, 0xBD#8), (.aby, 0xB9#8), (.izx, 0xA1#8), (.izy, 0xB1#8)] o
  | .ldx o => opcodeIn [(.imm, 0xA2#8), (.zp, 0xA6#8), (.zpy, 0xB6#8), (.abs, 0xAE#8), (.aby, 0xBE#8)] o
  | .ldy o => opcodeIn [(.imm, 0xA0#8), (.zp, 0xA4#8), (.zpx, 0xB4#8), (.abs, 0xAC#8), (.abx, 0xBC#8)] o
  | .sta o => opcodeIn [(.zp, 0x85#8), (.zpx, 0x95#8), (.abs, 0x8D#8), (.abx, 0x9D#8), (.aby, 0x99#8), (.izx, 0x81#8), (.izy, 0x91#8)] o
  | .stx o => opcodeIn [(.zp, 0x86#8), (.zpy, 0x96#8), (.abs, 0x8E#8)] o
  | .sty o => opcodeIn [(.zp, 0x84#8), (.zpx, 0x94#8), (.abs, 0x8C#8)] o
  | .tax => some 0xAA#8
  | .tay => some 0xA8#8
  | .tsx => some 0xBA#8
  | .txa => some 0x8A#8
  | .txs => some 0x9A#8
  | .tya => some 0x98#8
  | .adc o => opcodeIn [(.imm, 0x69#8), (.zp, 0x65#8), (.zpx, 0x75#8), (.abs, 0x6D#8), (.abx, 0x7D#8), (.aby, 0x79#8), (.izx, 0x61#8), (.izy, 0x71#8)] o
  | .sbc o => opcodeIn [(.imm, 0xE9#8), (.zp, 0xE5#8), (.zpx, 0xF5#8), (.abs, 0xED#8), (.abx, 0xFD#8), (.aby, 0xF9#8), (.izx, 0xE1#8), (.izy, 0xF1#8)] o
  | .and o => opcodeIn [(.imm, 0x29#8), (.zp, 0x25#8), (.zpx, 0x35#8), (.abs, 0x2D#8), (.abx, 0x3D#8), (.aby, 0x39#8), (.izx, 0x21#8), (.izy, 0x31#8)] o
  | .ora o => opcodeIn [(.imm, 0x09#8), (.zp, 0x05#8), (.zpx, 0x15#8), (.abs, 0x0D#8), (.abx, 0x1D#8), (.aby, 0x19#8), (.izx, 0x01#8), (.izy, 0x11#8)] o
  | .eor o => opcodeIn [(.imm, 0x49#8), (.zp, 0x45#8), (.zpx, 0x55#8), (.abs, 0x4D#8), (.abx, 0x5D#8), (.aby, 0x59#8), (.izx, 0x41#8), (.izy, 0x51#8)] o
  | .bit o => opcodeIn [(.zp, 0x24#8), (.abs, 0x2C#8)] o
  | .cmp o => opcodeIn [(.imm, 0xC9#8), (.zp, 0xC5#8), (.zpx, 0xD5#8), (.abs, 0xCD#8), (.abx, 0xDD#8), (.aby, 0xD9#8), (.izx, 0xC1#8), (.izy, 0xD1#8)] o
  | .cpx o => opcodeIn [(.imm, 0xE0#8), (.zp, 0xE4#8), (.abs, 0xEC#8)] o
  | .cpy o => opcodeIn [(.imm, 0xC0#8), (.zp, 0xC4#8), (.abs, 0xCC#8)] o
  | .inc o => opcodeIn [(.zp, 0xE6#8), (.zpx, 0xF6#8), (.abs, 0xEE#8), (.abx, 0xFE#8)] o
  | .dec o => opcodeIn [(.zp, 0xC6#8), (.zpx, 0xD6#8), (.abs, 0xCE#8), (.abx, 0xDE#8)] o
  | .inx => some 0xE8#8
  | .iny => some 0xC8#8
  | .dex => some 0xCA#8
  | .dey => some 0x88#8
  | .asl o => opcodeIn [(.acc, 0x0A#8), (.zp, 0x06#8), (.zpx, 0x16#8), (.abs, 0x0E#8), (.abx, 0x1E#8)] o
  | .lsr o => opcodeIn [(.acc, 0x4A#8), (.zp, 0x46#8), (.zpx, 0x56#8), (.abs, 0x4E#8), (.abx, 0x5E#8)] o
  | .rol o => opcodeIn [(.acc, 0x2A#8), (.zp, 0x26#8), (.zpx, 0x36#8), (.abs, 0x2E#8), (.abx, 0x3E#8)] o
  | .ror o => opcodeIn [(.acc, 0x6A#8), (.zp, 0x66#8), (.zpx, 0x76#8), (.abs, 0x6E#8), (.abx, 0x7E#8)] o
  | .bcc _ => some 0x90#8
  | .bcs _ => some 0xB0#8
  | .beq _ => some 0xF0#8
  | .bmi _ => some 0x30#8
  | .bne _ => some 0xD0#8
  | .bpl _ => some 0x10#8
  | .bvc _ => some 0x50#8
  | .bvs _ => some 0x70#8
  | .jmp o => opcodeIn [(.abs, 0x4C#8), (.ind, 0x6C#8)] o
  | .jsr _ => some 0x20#8
  | .rts => some 0x60#8
  | .brk => some 0x00#8
  | .rti => some 0x40#8
  | .pha => some 0x48#8
  | .php => some 0x08#8
  | .pla => some 0x68#8
  | .plp => some 0x28#8
  | .clc => some 0x18#8
  | .cld => some 0xD8#8
  | .cli => some 0x58#8
  | .clv => some 0xB8#8
  | .sec => some 0x38#8
  | .sed => some 0xF8#8
  | .sei => some 0x78#8
  | .nop => some 0xEA#8
  | .illegal op => if illegalOpcodes.contains op then some op else none

/-- The operand bytes of an operand form, low byte first (R101). -/
def Operand.bytes : Operand → List Byte
  | .acc => []
  | .imm d => [d]
  | .zp d => [d]
  | .zpx d => [d]
  | .zpy d => [d]
  | .izx d => [d]
  | .izy d => [d]
  | .abs w => [loByte w, hiByte w]
  | .abx w => [loByte w, hiByte w]
  | .aby w => [loByte w, hiByte w]
  | .ind w => [loByte w, hiByte w]

/-- The bytes after the opcode. -/
def operandBytes : Instr → List Byte
  | .lda o => o.bytes
  | .ldx o => o.bytes
  | .ldy o => o.bytes
  | .sta o => o.bytes
  | .stx o => o.bytes
  | .sty o => o.bytes
  | .tax => []
  | .tay => []
  | .tsx => []
  | .txa => []
  | .txs => []
  | .tya => []
  | .adc o => o.bytes
  | .sbc o => o.bytes
  | .and o => o.bytes
  | .ora o => o.bytes
  | .eor o => o.bytes
  | .bit o => o.bytes
  | .cmp o => o.bytes
  | .cpx o => o.bytes
  | .cpy o => o.bytes
  | .inc o => o.bytes
  | .dec o => o.bytes
  | .inx => []
  | .iny => []
  | .dex => []
  | .dey => []
  | .asl o => o.bytes
  | .lsr o => o.bytes
  | .rol o => o.bytes
  | .ror o => o.bytes
  | .bcc d => [d]
  | .bcs d => [d]
  | .beq d => [d]
  | .bmi d => [d]
  | .bne d => [d]
  | .bpl d => [d]
  | .bvc d => [d]
  | .bvs d => [d]
  | .jmp o => o.bytes
  | .jsr target => [loByte target, hiByte target]
  | .rts => []
  | .brk => []
  | .rti => []
  | .pha => []
  | .php => []
  | .pla => []
  | .plp => []
  | .clc => []
  | .cld => []
  | .cli => []
  | .clv => []
  | .sec => []
  | .sed => []
  | .sei => []
  | .nop => []
  | .illegal _ => []

/-- The bytes of a well-formed instruction (R100); nothing for an operand form its rule does not list. -/
def encode (i : Instr) : List Byte :=
  match opcodeOf i with
  | some op => op :: operandBytes i
  | none => []

/-! ## What the instruction cycle reads from the descriptor (R141, R142) -/

/-- The length in bytes (R100, R101). -/
def instrSize (i : Instr) : Nat := 1 + (operandBytes i).length

/-- The base cycle count of the instruction's descriptor (R121); 0 for a form that has no opcode (log 17). -/
def baseCycles (i : Instr) : Nat :=
  match opcodeOf i with
  | some op => descriptorBase (descriptorOf op)
  | none => 0

/-- `opExtra`: whether the operation accepts the page-cross cycle (R119). -/
def acceptsExtra : Instr → Bool
  | .lda _ => true
  | .ldx _ => true
  | .ldy _ => true
  | .sta _ => false
  | .stx _ => false
  | .sty _ => false
  | .tax => false
  | .tay => false
  | .tsx => false
  | .txa => false
  | .txs => false
  | .tya => false
  | .adc _ => true
  | .sbc _ => true
  | .and _ => true
  | .ora _ => true
  | .eor _ => true
  | .bit _ => false
  | .cmp _ => true
  | .cpx _ => false
  | .cpy _ => false
  | .inc _ => false
  | .dec _ => false
  | .inx => false
  | .iny => false
  | .dex => false
  | .dey => false
  | .asl _ => false
  | .lsr _ => false
  | .rol _ => false
  | .ror _ => false
  | .bcc _ => false
  | .bcs _ => false
  | .beq _ => false
  | .bmi _ => false
  | .bne _ => false
  | .bpl _ => false
  | .bvc _ => false
  | .bvs _ => false
  | .jmp _ => false
  | .jsr _ => false
  | .rts => false
  | .brk => false
  | .rti => false
  | .pha => false
  | .php => false
  | .pla => false
  | .plp => false
  | .clc => false
  | .cld => false
  | .cli => false
  | .clv => false
  | .sec => false
  | .sed => false
  | .sei => false
  | .nop => false
  | .illegal _ => false

end Sys2Proof
end

