-- ==== Sys2Proof/Config.lean ====
section
/-! DEFINITION. What the spec leaves open as a value: the draws (00_scope.md R15), the answers of the host's I/O device
(20_memory.md R68), and which of two rules that disagree holds (55_cartridge_mappers.md R354, R362). They have no body, so
nothing can be proved of their values.

The other parameters of R9 are arguments of `Machine.construct` and fields of State (log 3). -/

namespace Sys2Proof

/-- What the external device behind 0x4000-0x4017 has seen, one event an access (R68). -/
inductive IoEvent where
  | read (a : Addr) (v : Byte)
  | write (a : Addr) (v : Byte)
  deriving DecidableEq, Repr

/-- FREE VALUE. `draw(8)` of R15, the undriven bits of the `n`-th open-bus read (log 6). -/
opaque Config.openBus (n : Nat) : Byte

/-- FREE VALUE. The host oracle's answer to a read of the address `a` after the events `history`, when the host has
supplied no answer of its own (R68; log 7). -/
opaque Config.ioAnswer (history : List IoEvent) (a : Addr) : Byte

/-- FREE VALUE. Whether MMC1's 32 KiB modes reduce the number of the 32 KiB bank, as R354 says, or the number of each half's
16 KiB bank, as the pseudocode of R362 says: the two differ for an odd bank count, and no ruling settles it (log 12). -/
opaque Config.mmc1Reduces32K : Bool

end Sys2Proof
end

