-- ==== Sys2Proof/Machine/State.lean ====
section
/-! DEFINITION. Every piece of state the spec gives the machine (10_state.md), as plain data, and the state right after power-on
and reset() (R55). INVENTORY.md lists each field with its rule. -/

namespace Sys2Proof.Machine

/-- A memory of `w`-bit entries as (index, value) pairs, strictly rising and without zeros; an unlisted entry reads 0
(log 5, 14). A memory of bytes is a list of `Host.Cell`. -/
abbrev Memory (w : Nat) := List (Nat × BitVec w)

/-- The CPU's registers and hidden state (R20 to R33). -/
structure Cpu where
  a  : Byte
  x  : Byte
  y  : Byte
  sp : Byte
  pc : Addr
  /-- The status byte, bits 0 to 7: C Z I D B U V N (R24). -/
  p  : Byte
  cyclesRemaining : Nat
  nmiPending : Bool
  deriving DecidableEq, Repr

/-- The per-dot sprite buffers, indexed by the column 0..255 (R47). -/
structure SpriteBuffers where
  pix    : Memory 2
  pal    : Memory 2
  behind : Memory 1
  zero   : Memory 1
  deriving DecidableEq, Repr

/-- The PPU's state (R36 to R48). -/
structure Ppu where
  ctrl : Byte
  mask : Byte
  vblank         : Bool
  spriteZeroHit  : Bool
  spriteOverflow : Bool
  oamAddr : Byte
  oam     : Memory 8
  readBuffer : Byte
  /-- The current VRAM address (R41). -/
  v : BitVec 16
  /-- The temporary VRAM address (R41). -/
  t : BitVec 16
  /-- The fine-X scroll `x` of R42. -/
  fineX : BitVec 3
  /-- The write toggle (R42). -/
  w : Bool
  palette : Memory 6
  vram    : Memory 8
  scanline : Nat
  dot      : Nat
  oddFrame   : Bool
  frameReady : Bool
  bgPatLo : BitVec 16
  bgPatHi : BitVec 16
  bgAttLo : BitVec 16
  bgAttHi : BitVec 16
  ntLatch    : Byte
  atLatch    : BitVec 2
  patLoLatch : Byte
  patHiLatch : Byte
  spr : SpriteBuffers
  /-- Row `s`, column `c` is entry `256 * s + c` (R48). -/
  frame : Memory 6
  deriving DecidableEq, Repr

/-- A nametable mirroring (50_ppu_registers.md R276). -/
inductive Mirroring where
  | horizontal
  | vertical
  | oneScreenLower
  | oneScreenUpper
  deriving DecidableEq, Repr

/-- The immutable record the cartridge header is parsed into (55_cartridge_mappers.md R341). -/
structure Header where
  /-- PRG ROM size in 16 KiB banks. -/
  prgBanks : Nat
  /-- CHR ROM size in 8 KiB banks; 0 means CHR RAM (R346). -/
  chrBanks : Nat
  mirroring : Mirroring
  hasNvram   : Bool
  hasTrainer : Bool
  /-- The mapper number (R343). -/
  mapper : Nat
  deriving DecidableEq, Repr

/-- The part of the cartridge that never changes: its configuration and its PRG ROM (R35, R50). -/
structure Cart where
  header : Header
  prgRom : Memory 8
  deriving DecidableEq, Repr

/-- MMC1's registers (R52). -/
structure Mmc1 where
  shift      : BitVec 5
  shiftCount : Nat
  control    : BitVec 5
  chrBank0   : BitVec 5
  chrBank1   : BitVec 5
  prgBank    : BitVec 5
  deriving DecidableEq, Repr

/-- The mapper with its bank-select state (R51 to R53). -/
inductive Mapper where
  | nrom
  | mmc1 (r : Mmc1)
  | uxrom (bankSelect : Byte)
  deriving DecidableEq, Repr

/-- The direction of a bus access. -/
inductive Access where
  | read
  | write
  deriving DecidableEq, Repr

/-- Why a cartridge does not load (R344). -/
inductive LoadCause where
  | fileMissing
  | truncatedHeader
  | badMagic
  | fileTooShort
  | noPrgBanks
  | unsupportedMapper (number : Nat)
  | nromBankCount (prgBanks : Nat)
  deriving DecidableEq, Repr

/-- The kinds of fault with their information (60_exceptions.md R395). -/
inductive FaultCause where
  | wiring (first last : Nat)
  | unmappedAccess (a : Addr) (k : Access)
  | illegalOpcode (op : Byte)
  | load (cause : LoadCause)
  | save
  | deviceRange (a : Addr) (k : Access)
  deriving DecidableEq, Repr

/-- A fault record: its cause, and the address of the instruction (or of the interrupted instruction) it arose in; none for
a fault of the setup (R395; log 18). -/
structure FaultRecord where
  cause : FaultCause
  pc    : Option Addr
  deriving DecidableEq, Repr

/-- The machine's state. -/
structure State where
  cpu : Cpu
  ppu : Ppu
  /-- The 2048 bytes of internal RAM (R49). -/
  ram : Memory 8
  cart   : Cart
  mapper : Mapper
  /-- The 8192 bytes of PRG RAM, present iff the header says so (R50). -/
  prgRam : Memory 8
  /-- CHR ROM or CHR RAM (R50). -/
  chrMem : Memory 8
  /-- The sticky fault (R34). -/
  fault : Option FaultRecord
  /-- Whether reset() has been called; before that a step is refused (70_reset_and_hazards.md R425; log 10). -/
  resetDone : Bool
  /-- The parameter ODD_SKIP_NEEDS_RENDERING (R9; log 3). -/
  oddSkipNeedsRendering : Bool
  /-- THE MODEL'S OWN: the IRQ levels the host will supply, the coming tick's first; false after the last (log 8). -/
  irqLine : List Bool
  /-- THE MODEL'S OWN: the answers the host will give to reads of 0x4000-0x4017, the next first (log 7). -/
  ioAnswers : List Byte
  /-- THE MODEL'S OWN: what the external I/O device has seen, newest first (log 7). -/
  ioLog : List IoEvent
  /-- THE MODEL'S OWN: how many open-bus draws were taken; it indexes `Config.openBus` (log 6). -/
  draws : Nat
  deriving DecidableEq, Repr

/-- The PPU after reset() on zeroed memories (R55, R421). -/
def Ppu.reset : Ppu where
  ctrl := 0#8
  mask := 0#8
  vblank := false
  spriteZeroHit := false
  spriteOverflow := false
  oamAddr := 0#8
  oam := []
  readBuffer := 0#8
  v := 0#16
  t := 0#16
  fineX := 0#3
  w := false
  palette := []
  vram := []
  scanline := 0
  dot := 0
  oddFrame := false
  frameReady := false
  bgPatLo := 0#16
  bgPatHi := 0#16
  bgAttLo := 0#16
  bgAttHi := 0#16
  ntLatch := 0#8
  atLatch := 0#2
  patLoLatch := 0#8
  patHiLatch := 0#8
  spr := ⟨[], [], [], []⟩
  frame := []

/-- The CPU after reset() when the reset vector holds `pc` (R55, R420). -/
def Cpu.reset (pc : Addr) : Cpu where
  a := 0#8
  x := 0#8
  y := 0#8
  sp := 0xFD#8
  pc := pc
  p := 0x24#8
  cyclesRemaining := 8
  nmiPending := false

/-- A blank cartridge: the sizes and the mapper of the spec's load example (R373: two PRG banks, mapper 0), every ROM byte
zero (log 4). DESIGN CHOICE. -/
def Cart.blank : Cart where
  header := { prgBanks := 2, chrBanks := 1, mirroring := .horizontal, hasNvram := false, hasTrainer := false, mapper := 0 }
  prgRom := []

/-- The machine right after power-on and reset(), with the blank cartridge, every parameter at its default and every memory
zero (R55, R425; log 4, 5). `Sys2Proof.Laws.reset_of_construct` shows it is what construct and reset() make. -/
def State.reset : State where
  cpu := Cpu.reset 0#16
  ppu := Ppu.reset
  ram := []
  cart := Cart.blank
  mapper := .nrom
  prgRam := []
  chrMem := []
  fault := none
  resetDone := true
  oddSkipNeedsRendering := false
  irqLine := []
  ioAnswers := []
  ioLog := []
  draws := 0

/-- Why a step stops for good (60_exceptions.md R395 to R400). `left` is the state the machine is left in: `fault` set, the CPU
registers as at the start of the slot, the bus effects kept (R400; log 9). -/
inductive Fault where
  /-- Raised by an instruction or interrupt entry that touches a CPU address no device owns (R397). SAFE: it is the spec's own. -/
  | unmappedAccess (a : Addr) (k : Access) (left : State)
  /-- Raised by ILLEGAL (R396). SAFE: it is the spec's own. -/
  | illegalOpcode (op : Byte) (left : State)
  /-- Raised by a cartridge access to an address the cartridge does not implement (R398). SAFE: it is the spec's own. -/
  | deviceRange (a : Addr) (k : Access) (left : State)
  /-- Raised by a step of a machine whose `fault` is already set (R34: it has no further step). SAFE: it is the spec's own. -/
  | alreadyStopped (r : FaultRecord)
  deriving DecidableEq, Repr

/-- Why a step is not admitted. -/
inductive Refusal where
  /-- Raised by exec for an instruction without a meaning (none is left). SAFE: nothing runs. -/
  | notModelled (mnemonic : String)
  /-- Raised by a step before the first reset() (70_reset_and_hazards.md R425). SAFE: it is the spec's own. -/
  | beforeReset
  deriving DecidableEq, Repr

end Sys2Proof.Machine
end

