-- ==== Sys2Proof/Machine/Flags.lean ====
section
/-! DEFINITION. The status byte (spec 10_state.md R24) and every flag computation: SetNZ (00_scope.md R14), the adder and the
comparator (42_arithmetic_logic.md R171, R172), BIT (R178), the shifts' results (43_shift_rotate.md R201 to R204). -/

namespace Sys2Proof.Machine

/-- The flags of P (R24). -/
inductive Flag where
  | carry
  | zero
  | interrupt
  | decimal
  | brk
  | unused
  | overflow
  | negative
  deriving DecidableEq, Repr

/-- A flag's bit position (R24). -/
def flagBit : Flag → Nat
  | .carry => 0
  | .zero => 1
  | .interrupt => 2
  | .decimal => 3
  | .brk => 4
  | .unused => 5
  | .overflow => 6
  | .negative => 7

/-- A flag of a status byte. -/
def getFlag (p : Byte) (f : Flag) : Bool := p.getLsbD (flagBit f)

/-- A status byte with one flag written. -/
def setFlag (p : Byte) (f : Flag) (b : Bool) : Byte :=
  if b then p ||| (1#8 <<< flagBit f) else p &&& ~~~(1#8 <<< flagBit f)

/-- `SetNZ(v)` (R14). -/
def setNZ (p v : Byte) : Byte := setFlag (setFlag p .zero (v == 0#8)) .negative (v.getLsbD 7)

/-! ## The adder and the comparator -/

/-- The 16-bit sum of R171. -/
def adderSum (a b : Byte) (cin : Bool) : BitVec 16 :=
  a.setWidth 16 + b.setWidth 16 + (if cin then 1#16 else 0#16)

/-- The adder's result (R171). -/
def adderResult (a b : Byte) (cin : Bool) : Byte := (adderSum a b cin).setWidth 8

/-- The adder's flags: C is bit 8 of the sum, V says that both operands have one sign and the result the other (R171;
90_conflicts.md C3). -/
def adderFlags (p a b : Byte) (cin : Bool) : Byte :=
  let r := adderResult a b cin
  setFlag (setFlag (setNZ p r) .carry ((adderSum a b cin).getLsbD 8))
    .overflow (((a ^^^ r) &&& (b ^^^ r)).getLsbD 7)

/-- The comparator's flags (R172): V is not written. -/
def compareFlags (p reg m : Byte) : Byte :=
  setFlag (setFlag (setFlag p .carry (m.ule reg)) .zero (reg == m)) .negative ((reg - m).getLsbD 7)

/-- BIT's flags: Z from A & M, N and V from bits 7 and 6 of M (R178). -/
def bitFlags (p a m : Byte) : Byte :=
  setFlag (setFlag (setFlag p .zero (a &&& m == 0#8)) .negative (m.getLsbD 7)) .overflow (m.getLsbD 6)

/-! ## Shifts and rotates -/

/-- ASL's result (R201). -/
def aslResult (m : Byte) : Byte := m <<< 1

/-- LSR's result (R202). -/
def lsrResult (m : Byte) : Byte := m >>> 1

/-- ROL's result: the old carry enters bit 0 (R203). -/
def rolResult (m : Byte) (c : Bool) : Byte := (m <<< 1) ||| (if c then 1#8 else 0#8)

/-- ROR's result: the old carry enters bit 7 (R204). -/
def rorResult (m : Byte) (c : Bool) : Byte := (if c then 0x80#8 else 0#8) ||| (m >>> 1)

/-- The flags of a left shift or rotate of `m` with result `r`: C is the old bit 7 (R201, R203). -/
def shiftLeftFlags (p m r : Byte) : Byte := setNZ (setFlag p .carry (m.getLsbD 7)) r

/-- The flags of a right shift or rotate of `m` with result `r`: C is the old bit 0 (R202, R204). -/
def shiftRightFlags (p m r : Byte) : Byte := setNZ (setFlag p .carry (m.getLsbD 0)) r

end Sys2Proof.Machine
end

