-- ==== Sys2Proof/Machine/Memory.lean ====
section
/-! DEFINITION. The canonical memory (log 14): reading one entry, writing one entry, and the form every operation keeps. -/

namespace Sys2Proof.Machine

/-- The entry at an index; an unlisted entry is 0 (log 5). -/
def Memory.read {w : Nat} : Memory w → Nat → BitVec w
  | [], _ => 0#w
  | (k, u) :: rest, a => if k = a then u else Memory.read rest a

/-- Lists a non-zero entry in its place. -/
def Memory.insert {w : Nat} (a : Nat) (v : BitVec w) : Memory w → Memory w
  | [] => [(a, v)]
  | (k, u) :: rest =>
    if a < k then (a, v) :: (k, u) :: rest
    else if a = k then (a, v) :: rest
    else (k, u) :: Memory.insert a v rest

/-- Writes an entry: zero removes it, any other value is listed. -/
def Memory.write {w : Nat} (m : Memory w) (a : Nat) (v : BitVec w) : Memory w :=
  if v = 0#w then m.filter (fun c => c.1 != a) else Memory.insert a v m

/-- The canonical form: indexes strictly rising, no entry equal to what an unlisted one reads as. -/
def Memory.wf {w : Nat} : Memory w → Bool
  | [] => true
  | (k, u) :: rest => u != 0#w && rest.all (fun c => k < c.1) && Memory.wf rest

/-- Every listed index is below the memory's size. -/
def Memory.fits {w : Nat} (m : Memory w) (size : Nat) : Bool := m.all (fun c => c.1 < size)

/-- The memory whose first entries are a list of values. -/
def Memory.ofList {w : Nat} (start : Nat) : List (BitVec w) → Memory w
  | [] => []
  | v :: vs => if v = 0#w then Memory.ofList (start + 1) vs else (start, v) :: Memory.ofList (start + 1) vs

/-- The first `n` entries as a list. -/
def Memory.toList {w : Nat} (m : Memory w) (n : Nat) : List (BitVec w) := (List.range n).map (Memory.read m)

end Sys2Proof.Machine
end

