-- ==== Sys2Proof/Machine/Cartridge.lean ====
section
/-! DEFINITION. The mapper contract and the three mappers (spec 55_cartridge_mappers.md R346 to R370). -/

namespace Sys2Proof.Machine

/-! ## Program side -/

/-- The number of 32 KiB banks of a program memory: half its 16 KiB banks, at least 1 (R354). -/
def prgBanks32 (prgBanks : Nat) : Nat := max (prgBanks / 2) 1

/-- The 32 KiB bank MMC1 selects, as the number of its lower 16 KiB half: the low bit of `prgBank` is ignored (R362). With an odd
bank count the free `Config.mmc1Reduces32K` says whether the 32 KiB bank number itself is reduced (R354; log 12). -/
def mmc1Bank32 (pb prgBanks : Nat) : Nat :=
  if prgBanks % 2 = 1 ∧ Config.mmc1Reduces32K = true then pb / 2 % prgBanks32 prgBanks * 2 else pb / 2 * 2

/-- The 16 KiB bank MMC1 puts at an address, before its reduction modulo the bank count (R362, R354; log 12). -/
def mmc1PrgBank (r : Mmc1) (prgBanks : Nat) (a : Addr) : Nat :=
  let pm := (r.control.extractLsb' 2 2).toNat
  let pb := (r.prgBank &&& 0x0F#5).toNat
  let half := (a.getLsbD 14).toNat
  if pm = 3 then (if half = 0 then pb else prgBanks - 1)
  else if pm = 2 then (if half = 0 then 0 else pb)
  else mmc1Bank32 pb prgBanks + half

/-- `PrgOffset(a)`: the offset in PRG ROM of a CPU address in 0x8000-0xFFFF (R355, R362, R367; bank numbers modulo the bank
count, R354; log 12). -/
def prgOffset (m : Mapper) (prgBanks : Nat) (a : Addr) : Nat :=
  match m with
  | .nrom => (a.toNat - 0x8000) % (prgBanks * 16384)
  | .mmc1 r => mmc1PrgBank r prgBanks a % prgBanks * 16384 + a.toNat % 16384
  | .uxrom b =>
    (if a.getLsbD 14 then prgBanks - 1 else (b &&& 0x0F#8).toNat % prgBanks) * 16384 + a.toNat % 16384

/-- Whether the cartridge implements a CPU address of 0x4020-0xFFFF: PRG RAM if there is any, PRG ROM while the offset lies
inside it (R349, R350, R354, R398). A write to 0x8000-0xFFFF is a mapper write and needs no offset. -/
def cartImplements (s : State) (k : Access) (a : Addr) : Bool :=
  if a.toNat < 0x6000 then false
  else if a.toNat < 0x8000 then s.cart.header.hasNvram
  else match k with
    | .write => true
    | .read => prgOffset s.mapper s.cart.header.prgBanks a < s.cart.header.prgBanks * 16384

/-- The byte `read_program(a)` returns at an address the cartridge implements (R349). -/
def cartByte (s : State) (a : Addr) : Byte :=
  if a.toNat < 0x8000 then s.prgRam.read (a.toNat - 0x6000)
  else s.cart.prgRom.read (prgOffset s.mapper s.cart.header.prgBanks a)

/-- The register a fifth MMC1 write commits to, by bits 14:13 of its address (R360). -/
def mmc1Commit (r : Mmc1) (a : Addr) (value : BitVec 5) : Mmc1 :=
  match (a.extractLsb' 13 2).toNat with
  | 0 => { r with control := value }
  | 1 => { r with chrBank0 := value }
  | 2 => { r with chrBank1 := value }
  | _ => { r with prgBank := value }

/-- An MMC1 register write: reset of the shift register by bit 7, else one serial bit, the fifth of which commits
(R358, R359). -/
def mmc1Write (r : Mmc1) (a : Addr) (d : Byte) : Mmc1 :=
  if d.getLsbD 7 then { r with shift := 0#5, shiftCount := 0, control := r.control ||| 0x0C#5 }
  else
    let shift := (r.shift >>> 1) ||| (if d.getLsbD 0 then 0x10#5 else 0#5)
    if r.shiftCount + 1 = 5 then { mmc1Commit r a shift with shift := 0#5, shiftCount := 0 }
    else { r with shift := shift, shiftCount := r.shiftCount + 1 }

/-- `MapperRegisterWrite(a, d)` (R357 for NROM, R358 to R360 for MMC1, R366 for UxROM). -/
def mapperWrite (m : Mapper) (a : Addr) (d : Byte) : Mapper :=
  match m with
  | .nrom => .nrom
  | .mmc1 r => .mmc1 (mmc1Write r a d)
  | .uxrom _ => .uxrom d

/-- `write_program(a, d)` at an address the cartridge implements (R350). -/
def cartWrite (s : State) (a : Addr) (d : Byte) : State :=
  if a.toNat < 0x8000 then { s with prgRam := s.prgRam.write (a.toNat - 0x6000) d }
  else { s with mapper := mapperWrite s.mapper a d }

/-! ## Graphics side -/

/-- The size of `ChrMem`: the header's CHR ROM, or 8192 bytes of CHR RAM (R346). -/
def chrSize (h : Header) : Nat := if h.chrBanks = 0 then 8192 else h.chrBanks * 8192

/-- `ChrOffset(a)`: the offset in `ChrMem` of a PPU address in 0x0000-0x1FFF (R356, R363, R368). -/
def chrOffset (m : Mapper) (size : Nat) (a : Addr) : Nat :=
  match m with
  | .nrom => a.toNat % 8192
  | .uxrom _ => a.toNat % 8192
  | .mmc1 r =>
    let half := (a.getLsbD 12).toNat
    let bank4 :=
      if r.control.getLsbD 4 then (if half = 0 then r.chrBank0.toNat else r.chrBank1.toNat)
      else r.chrBank0.toNat / 2 * 2 + half
    bank4 % (size / 4096) * 4096 + a.toNat % 4096

/-- `read_graphics(a)` (R351). -/
def chrRead (s : State) (a : Addr) : Byte := s.chrMem.read (chrOffset s.mapper (chrSize s.cart.header) a)

/-- `write_graphics(a, d)`: CHR RAM is written, CHR ROM is not (R352). -/
def chrWrite (s : State) (a : Addr) (d : Byte) : State :=
  if s.cart.header.chrBanks = 0 then
    { s with chrMem := s.chrMem.write (chrOffset s.mapper (chrSize s.cart.header) a) d }
  else s

/-- `Mirroring()`: the header's for NROM and UxROM, MMC1's control bits 1:0 (R353, R361, R364). -/
def mirroringOf (s : State) : Mirroring :=
  match s.mapper with
  | .nrom => s.cart.header.mirroring
  | .uxrom _ => s.cart.header.mirroring
  | .mmc1 r =>
    match (r.control.extractLsb' 0 2).toNat with
    | 0 => .oneScreenLower
    | 1 => .oneScreenUpper
    | 2 => .vertical
    | _ => .horizontal

/-! ## The mapper's kind -/

/-- MMC1 at construction (R365). -/
def mmc1Initial : Mmc1 where
  shift := 0#5
  shiftCount := 0
  control := 0x0C#5
  chrBank0 := 0#5
  chrBank1 := 0#5
  prgBank := 0#5

/-- The mapper number a mapper stands for (00_scope.md R3). -/
def mapperNumber : Mapper → Nat
  | .nrom => 0
  | .mmc1 _ => 1
  | .uxrom _ => 2

/-- The mapper a number selects, as it is at construction; none for a number out of scope (R344, R348). -/
def mapperOfNumber (n : Nat) : Option Mapper :=
  match n with
  | 0 => some .nrom
  | 1 => some (.mmc1 mmc1Initial)
  | 2 => some (.uxrom 0#8)
  | _ => none

end Sys2Proof.Machine
end

