-- ==== Sys2Proof/Machine/PpuBus.lean ====
section
/-! DEFINITION. The PPU bus, nametable memory and palette memory (spec 20_memory.md R73; 50_ppu_registers.md R254, R276 to R279). -/

namespace Sys2Proof.Machine

/-- A PPU address masked to 14 bits (R73). -/
def ppuMask (a : Addr) : Addr := a &&& 0x3FFF#16

/-- `NtIndex(a)`: the entry of `Vram` behind a nametable address under a mirroring (R276). -/
def ntIndex (m : Mirroring) (a : Addr) : Nat :=
  let n := (a.toNat - 0x2000) % 0x1000
  let o := n % 0x400
  match m with
  | .horizontal => n / 0x800 % 2 * 0x400 + o
  | .vertical => n / 0x400 % 2 * 0x400 + o
  | .oneScreenLower => o
  | .oneScreenUpper => 0x400 + o

/-- `PalIndex(a)`: the palette entry behind a palette address; 0x10, 0x14, 0x18 and 0x1C mirror 0x00, 0x04, 0x08
and 0x0C (R277). -/
def palIndex (a : Addr) : Nat :=
  let i := a &&& 0x1F#16
  if i &&& 0x13#16 = 0x10#16 then (i &&& 0x0F#16).toNat else i.toNat

/-- `PpuRead(a)` (R254); a palette entry is zero-extended. -/
def ppuBusRead (s : State) (addr : Addr) : Byte :=
  let a := ppuMask addr
  if a.toNat < 0x2000 then chrRead s a
  else if a.toNat < 0x3F00 then s.ppu.vram.read (ntIndex (mirroringOf s) a)
  else (s.ppu.palette.read (palIndex a)).setWidth 8

/-- `PpuWrite(a, v)` (R254, R279). -/
def ppuBusWrite (s : State) (addr : Addr) (d : Byte) : State :=
  let a := ppuMask addr
  if a.toNat < 0x2000 then chrWrite s a d
  else if a.toNat < 0x3F00 then
    { s with ppu := { s.ppu with vram := s.ppu.vram.write (ntIndex (mirroringOf s) a) d } }
  else { s with ppu := { s.ppu with palette := s.ppu.palette.write (palIndex a) (d.setWidth 6) } }

end Sys2Proof.Machine
end

