-- ==== Sys2Proof/Machine/PpuRegs.lean ====
section
/-! DEFINITION. The eight PPU registers the CPU sees (spec 50_ppu_registers.md R250 to R270). -/

namespace Sys2Proof.Machine

/-- A draw of eight undriven bits: the next free value, and the counter advanced (00_scope.md R15; log 6). -/
def drawByte (s : State) : Byte × State := (Config.openBus s.draws, { s with draws := s.draws + 1 })

/-- Rendering is enabled: background or sprites are shown (R257). -/
def renderingEnabled (p : Ppu) : Bool := p.mask.getLsbD 3 || p.mask.getLsbD 4

/-- `IncrementV()` (R268). -/
def incrementV (p : Ppu) : BitVec 16 := (p.v + (if p.ctrl.getLsbD 2 then 32#16 else 1#16)) &&& 0x7FFF#16

/-! ## Writes -/

/-- The NMI edge of a PPUCTRL write: vblank is set and bit 7 goes from 0 to 1 (R259). -/
def nmiEdge (p : Ppu) (d : Byte) : Bool := p.vblank && !p.ctrl.getLsbD 7 && d.getLsbD 7

/-- PPUCTRL write (R258, R259); the request sets the CPU's latch at once (R253). -/
def writeCtrl (s : State) (d : Byte) : State :=
  { s with
    ppu := { s.ppu with ctrl := d, t := (s.ppu.t &&& ~~~0x0C00#16) ||| ((d &&& 0x03#8).setWidth 16 <<< 10) }
    cpu := { s.cpu with nmiPending := s.cpu.nmiPending || nmiEdge s.ppu d } }

/-- OAMDATA write (R262). -/
def writeOamData (p : Ppu) (d : Byte) : Ppu :=
  { p with oam := p.oam.write p.oamAddr.toNat d, oamAddr := p.oamAddr + 1#8 }

/-- PPUSCROLL write: first X, then Y (R264). -/
def writeScroll (p : Ppu) (d : Byte) : Ppu :=
  if p.w then
    { p with
      t := (p.t &&& ~~~0x73E0#16) ||| ((d &&& 0x07#8).setWidth 16 <<< 12) ||| ((d >>> 3).setWidth 16 <<< 5)
      w := false }
  else
    { p with t := (p.t &&& ~~~0x001F#16) ||| (d >>> 3).setWidth 16, fineX := d.setWidth 3, w := true }

/-- PPUADDR write: first the high byte, then the low byte, which also loads `v` (R265). -/
def writeAddr (p : Ppu) (d : Byte) : Ppu :=
  if p.w then
    let t := (p.t &&& 0x7F00#16) ||| d.setWidth 16
    { p with t := t, v := t, w := false }
  else
    { p with t := (p.t &&& 0x00FF#16) ||| ((d &&& 0x3F#8).setWidth 16 <<< 8), w := true }

/-- PPUDATA write (R267). -/
def writeData (s : State) (d : Byte) : State :=
  let s1 := ppuBusWrite s s.ppu.v d
  { s1 with ppu := { s1.ppu with v := incrementV s1.ppu } }

/-- A CPU write to PPU register `r` (R250); PPUSTATUS ignores it (R251). -/
def ppuRegWrite (s : State) (r : Nat) (d : Byte) : State :=
  match r with
  | 0 => writeCtrl s d
  | 1 => { s with ppu := { s.ppu with mask := d } }
  | 2 => s
  | 3 => { s with ppu := { s.ppu with oamAddr := d } }
  | 4 => { s with ppu := writeOamData s.ppu d }
  | 5 => { s with ppu := writeScroll s.ppu d }
  | 6 => { s with ppu := writeAddr s.ppu d }
  | _ => writeData s d

/-! ## Reads -/

/-- The three status flags in bits 7:5 over five undriven bits (R260). -/
def statusByte (p : Ppu) (undriven : Byte) : Byte :=
  (if p.vblank then 0x80#8 else 0#8) ||| (if p.spriteZeroHit then 0x40#8 else 0#8) |||
    (if p.spriteOverflow then 0x20#8 else 0#8) ||| (undriven &&& 0x1F#8)

/-- PPUSTATUS read: it clears vblank and the write toggle (R260). -/
def readStatus (s : State) : Byte × State :=
  let (bits, s1) := drawByte s
  (statusByte s.ppu bits, { s1 with ppu := { s1.ppu with vblank := false, w := false } })

/-- PPUDATA read: buffered below palette space, immediate in it with two undriven bits (R266, R278). -/
def readData (s : State) : Byte × State :=
  let a := ppuMask s.ppu.v
  if a.toNat < 0x3F00 then
    (s.ppu.readBuffer, { s with ppu := { s.ppu with readBuffer := ppuBusRead s a, v := incrementV s.ppu } })
  else
    let (bits, s1) := drawByte s
    ((bits &&& 0xC0#8) ||| ppuBusRead s a,
      { s1 with ppu := { s1.ppu with readBuffer := ppuBusRead s (a - 0x1000#16), v := incrementV s.ppu } })

/-- A CPU read of PPU register `r` (R250); a write-only register gives a draw and changes nothing (R251). -/
def ppuRegRead (s : State) (r : Nat) : Byte × State :=
  match r with
  | 2 => readStatus s
  | 4 => (s.ppu.oam.read s.ppu.oamAddr.toNat, s)
  | 7 => readData s
  | _ => drawByte s

end Sys2Proof.Machine
end

