-- ==== Sys2Proof/Machine/PpuDot.lean ====
section
/-! DEFINITION. One PPU dot (spec 51_ppu_rendering.md R290 to R325): sprite evaluation, pixel output, background shift, fetch,
scroll updates, flag events and the dot advance, in that order. -/

namespace Sys2Proof.Machine

/-- A two-bit value from its high and its low bit. -/
def twoBits (hi lo : Bool) : BitVec 2 := BitVec.ofBool hi ++ BitVec.ofBool lo

/-- Lines 0 to 239 (R291). -/
def visibleLine (p : Ppu) : Bool := p.scanline < 240

/-- Lines on which the pipeline fetches: the visible ones and the pre-render line (R291). -/
def fetchLine (p : Ppu) : Bool := p.scanline < 240 || p.scanline == 261

/-- Dots at which the background pipeline shifts and fetches (R290, R293, R302). -/
def pipelineDot (p : Ppu) : Bool := fetchLine p && (p.dot < 256 || (320 ≤ p.dot && p.dot ≤ 335))

/-! ## Sprites -/

/-- The sprite height: 8x8 or 8x16 by PPUCTRL bit 5 (R305). -/
def spriteHeight (p : Ppu) : Nat := if p.ctrl.getLsbD 5 then 16 else 8

/-- A byte of OAM entry `i`: 0 is Y, 1 the tile, 2 the attributes, 3 X (R39). -/
def oamByte (p : Ppu) (i k : Nat) : Byte := p.oam.read (4 * i + k)

/-- The row of the sprite with OAM byte `y` shown on a line, if the line is in its range (R305: `row <- L - 1 - Y`,
`0 <= row < h`). -/
def spriteRow (h line y : Nat) : Option Nat :=
  if y + 1 ≤ line ∧ line - 1 - y < h then some (line - 1 - y) else none

/-- The pattern address of a sprite row (R306). -/
def spritePatternAddr (ctrl attr tile : Byte) (h row : Nat) : Addr :=
  let r := if attr.getLsbD 7 then h - 1 - row else row
  if h = 8 then
    (if ctrl.getLsbD 3 then 0x1000#16 else 0#16) + BitVec.ofNat 16 (tile.toNat * 16 + r)
  else
    (if tile.getLsbD 0 then 0x1000#16 else 0#16) + BitVec.ofNat 16 ((tile.toNat / 2 * 2 + r / 8) * 16 + r % 8)

/-- Puts pixel `k` of a sprite row into the buffers: dropped beyond column 255, where it is transparent, and where an
earlier sprite is opaque (R307). -/
def fillPixel (attr lo hi : Byte) (x : Nat) (isZero : Bool) (b : SpriteBuffers) (k : Nat) : SpriteBuffers :=
  let bit := if attr.getLsbD 6 then k else 7 - k
  let pix := twoBits (hi.getLsbD bit) (lo.getLsbD bit)
  let c := x + k
  if c ≤ 255 ∧ pix ≠ 0#2 ∧ b.pix.read c = 0#2 then
    { pix := b.pix.write c pix
      pal := b.pal.write c (attr.extractLsb' 0 2)
      behind := b.behind.write c (attr.extractLsb' 5 1)
      zero := b.zero.write c (BitVec.ofBool isZero) }
  else b

/-- `FillSprite(i, row)` (R306, R307). -/
def fillSprite (s : State) (b : SpriteBuffers) (i row : Nat) : SpriteBuffers :=
  let attr := oamByte s.ppu i 2
  let addr := spritePatternAddr s.ppu.ctrl attr (oamByte s.ppu i 1) (spriteHeight s.ppu) row
  let lo := ppuBusRead s addr
  let hi := ppuBusRead s (addr + 8#16)
  (List.range 8).foldl (fillPixel attr lo hi (oamByte s.ppu i 3).toNat (i == 0)) b

/-- The scan over OAM entries: up to eight in-range ones are filled in, a ninth ends the scan with overflow (R305, R308). -/
def scanSprites (s : State) (line : Nat) : List Nat → Nat → SpriteBuffers → SpriteBuffers × Bool
  | [], _, b => (b, false)
  | i :: rest, count, b =>
    match spriteRow (spriteHeight s.ppu) line (oamByte s.ppu i 0).toNat with
    | none => scanSprites s line rest count b
    | some row =>
      if count = 8 then (b, true)
      else scanSprites s line rest (count + 1) (fillSprite s b i row)

/-- Sprite evaluation for the current line (R305). -/
def evaluateSprites (s : State) : State :=
  let (b, overflow) := scanSprites s s.ppu.scanline (List.range 64) 0 ⟨[], [], [], []⟩
  { s with ppu := { s.ppu with spr := b, spriteOverflow := s.ppu.spriteOverflow || overflow } }

/-! ## Pixel output -/

/-- The background pixel at a column, 0 where hidden (R303). -/
def bgPixel (p : Ppu) (c : Nat) : BitVec 2 :=
  let sel := 15 - p.fineX.toNat
  if !p.mask.getLsbD 3 || (c < 8 && !p.mask.getLsbD 1) then 0#2
  else twoBits (p.bgPatHi.getLsbD sel) (p.bgPatLo.getLsbD sel)

/-- The palette number of the background pixel (R303). -/
def bgPalette (p : Ppu) : BitVec 2 :=
  let sel := 15 - p.fineX.toNat
  twoBits (p.bgAttHi.getLsbD sel) (p.bgAttLo.getLsbD sel)

/-- The sprite pixel at a column, 0 where hidden (R309). -/
def spritePixel (p : Ppu) (c : Nat) : BitVec 2 :=
  if !p.mask.getLsbD 4 || (c < 8 && !p.mask.getLsbD 2) then 0#2 else p.spr.pix.read c

/-- The palette address of the composited pixel (R311, R312). -/
def compositeAddr (p : Ppu) (c : Nat) : Addr :=
  let sp := spritePixel p c
  let bp := bgPixel p c
  if sp ≠ 0#2 ∧ (p.spr.behind.read c = 0#1 ∨ bp = 0#2) then
    0x3F10#16 + (p.spr.pal.read c ++ sp).setWidth 16
  else if bp ≠ 0#2 then 0x3F00#16 + (bgPalette p ++ bp).setWidth 16
  else 0x3F00#16

/-- The palette address shown while rendering is disabled (R313). -/
def disabledAddr (p : Ppu) : Addr :=
  if 0x3F00 ≤ (ppuMask p.v).toNat then ppuMask p.v else 0x3F00#16

/-- Both layers are opaque and the sprite pixel comes from OAM entry 0 (R310). -/
def zeroHitAt (p : Ppu) (c : Nat) : Bool :=
  p.spr.zero.read c == 1#1 && spritePixel p c != 0#2 && bgPixel p c != 0#2

/-- The colour number of a palette address, after grayscale (R315, R316). -/
def pixelColour (p : Ppu) (addr : Addr) : BitVec 6 :=
  p.palette.read (palIndex addr) &&& (if p.mask.getLsbD 0 then 0x30#6 else 0x3F#6)

/-- Pixel output at the current dot of a visible line (R303, R309 to R316). -/
def outputPixel (p : Ppu) : Ppu :=
  let c := p.dot
  let enabled := renderingEnabled p
  let addr := if enabled then compositeAddr p c else disabledAddr p
  { p with
    spriteZeroHit := p.spriteZeroHit || (enabled && zeroHitAt p c)
    frame := p.frame.write (256 * p.scanline + c) (pixelColour p addr) }

/-! ## Background pipeline -/

/-- The background shift (R302). -/
def shiftBackground (p : Ppu) : Ppu :=
  { p with bgPatLo := p.bgPatLo <<< 1, bgPatHi := p.bgPatHi <<< 1, bgAttLo := p.bgAttLo <<< 1, bgAttHi := p.bgAttHi <<< 1 }

/-- The attribute address (R300). -/
def attributeAddr (v : BitVec 16) : Addr :=
  0x23C0#16 ||| (v &&& 0x0C00#16) ||| ((v >>> 4) &&& 0x38#16) ||| ((v >>> 2) &&& 0x07#16)

/-- The position of the quadrant's palette number in its attribute byte (R300). -/
def attributeShift (v : BitVec 16) : Nat := (((v >>> 4) &&& 0x04#16) ||| (v &&& 0x02#16)).toNat

/-- `BgPatternAddr()` (R301). -/
def bgPatternAddr (p : Ppu) : Addr :=
  (if p.ctrl.getLsbD 4 then 0x1000#16 else 0#16) + (p.ntLatch.setWidth 16 <<< 4) + ((p.v >>> 12) &&& 7#16)

/-- The shifter load of phase 7 (R294). -/
def loadShifters (p : Ppu) : Ppu :=
  { p with
    bgPatLo := (p.bgPatLo &&& 0xFF00#16) ||| p.patLoLatch.setWidth 16
    bgPatHi := (p.bgPatHi &&& 0xFF00#16) ||| p.patHiLatch.setWidth 16
    bgAttLo := (p.bgAttLo &&& 0xFF00#16) ||| (if p.atLatch.getLsbD 0 then 0xFF#16 else 0#16)
    bgAttHi := (p.bgAttHi &&& 0xFF00#16) ||| (if p.atLatch.getLsbD 1 then 0xFF#16 else 0#16) }

/-- Coarse X increment (R296). -/
def incrementCoarseX (v : BitVec 16) : BitVec 16 :=
  if v &&& 0x001F#16 = 31#16 then (v &&& ~~~0x001F#16) ^^^ 0x0400#16 else v + 1#16

/-- The fetch action of phase `dot mod 8` (R293 to R301). -/
def fetchPhase (s : State) : Ppu :=
  let p := s.ppu
  match p.dot % 8 with
  | 0 => { p with ntLatch := ppuBusRead s (0x2000#16 ||| (p.v &&& 0x0FFF#16)) }
  | 2 => { p with atLatch := (ppuBusRead s (attributeAddr p.v) >>> attributeShift p.v).setWidth 2 }
  | 4 => { p with patLoLatch := ppuBusRead s (bgPatternAddr p) }
  | 6 => { p with patHiLatch := ppuBusRead s (bgPatternAddr p + 8#16) }
  | 7 => { loadShifters p with v := incrementCoarseX p.v }
  | _ => p

/-! ## Scroll updates -/

/-- Vertical increment (R297). -/
def incrementY (v : BitVec 16) : BitVec 16 :=
  if v &&& 0x7000#16 ≠ 0x7000#16 then v + 0x1000#16
  else
    let v0 := v &&& ~~~0x7000#16
    let cy := (v0 >>> 5) &&& 31#16
    let v1 := if cy = 29#16 then v0 ^^^ 0x0800#16 else v0
    let cy1 := if cy = 29#16 ∨ cy = 31#16 then 0#16 else cy + 1#16
    (v1 &&& ~~~0x03E0#16) ||| (cy1 <<< 5)

/-- Horizontal copy (R298). -/
def copyHorizontal (p : Ppu) : BitVec 16 := (p.v &&& ~~~0x041F#16) ||| (p.t &&& 0x041F#16)

/-- Vertical copy (R299). -/
def copyVertical (p : Ppu) : BitVec 16 := (p.v &&& ~~~0x7BE0#16) ||| (p.t &&& 0x7BE0#16)

/-- The scroll updates of a dot of a fetching line (R290 step 5). -/
def scrollUpdates (p : Ppu) : Ppu :=
  if p.dot = 248 then { p with v := incrementY p.v }
  else if p.dot = 256 then { p with v := copyHorizontal p }
  else if p.scanline = 261 ∧ 280 ≤ p.dot ∧ p.dot ≤ 304 then { p with v := copyVertical p }
  else p

/-! ## Flag events and the dot advance -/

/-- Vblank start and pre-render clear, with the NMI request (R318, R319). -/
def flagEvents (p : Ppu) : Ppu × Bool :=
  if p.scanline = 241 ∧ p.dot = 1 then ({ p with vblank := true }, p.ctrl.getLsbD 7)
  else if p.scanline = 261 ∧ p.dot = 1 then
    ({ p with vblank := false, spriteZeroHit := false, spriteOverflow := false }, false)
  else (p, false)

/-- The dot after this one on an odd frame's pre-render line skips dot 340 (R322, R325). -/
def nextDot (p : Ppu) (skipNeedsRendering : Bool) : Nat :=
  if p.scanline = 261 ∧ p.dot = 339 ∧ p.oddFrame ∧ (!skipNeedsRendering || renderingEnabled p) then 341 else p.dot + 1

/-- The dot advance (R321). -/
def advanceDot (p : Ppu) (skipNeedsRendering : Bool) : Ppu :=
  let d := nextDot p skipNeedsRendering
  if d = 341 then
    if p.scanline + 1 = 262 then { p with dot := 0, scanline := 0, frameReady := true, oddFrame := !p.oddFrame }
    else { p with dot := 0, scanline := p.scanline + 1 }
  else { p with dot := d }

/-- Steps 1 to 5 of a dot: everything that depends on rendering or draws the pixel (R290, R292). -/
def renderDot (s : State) : State :=
  let on := renderingEnabled s.ppu
  let s1 := if s.ppu.dot == 0 && visibleLine s.ppu && on then evaluateSprites s else s
  let s2 := if visibleLine s1.ppu && s1.ppu.dot < 256 then { s1 with ppu := outputPixel s1.ppu } else s1
  let s3 := if on && pipelineDot s2.ppu then { s2 with ppu := shiftBackground s2.ppu } else s2
  let s4 := if on && pipelineDot s3.ppu then { s3 with ppu := fetchPhase s3 } else s3
  if on && fetchLine s4.ppu then { s4 with ppu := scrollUpdates s4.ppu } else s4

/-- One PPU step, and whether it requests an NMI (R290). -/
def ppuDot (s : State) : State × Bool :=
  let s1 := renderDot s
  let (p, nmi) := flagEvents s1.ppu
  ({ s1 with ppu := advanceDot p s1.oddSkipNeedsRendering }, nmi)

/-- One dot of the driving loop, which applies the request to the CPU (70_reset_and_hazards.md R426). -/
def tickDot (s : State) : State :=
  let (s1, nmi) := ppuDot s
  { s1 with cpu := { s1.cpu with nmiPending := s1.cpu.nmiPending || nmi } }

end Sys2Proof.Machine
end

