-- ==== Sys2Proof/Machine/Ops.lean ====
section
/-! DEFINITION. The named operations over registers and the CPU bus (spec 20_memory.md R60 to R71), the stack (00_scope.md R13),
faults (60_exceptions.md R400), interrupt entry (R385 to R389) and the return from it (44_control_transfer.md R223). -/

namespace Sys2Proof.Machine

/-- What a step or an instruction answers. -/
abbrev StepOutcome := Host.Outcome State Fault Refusal

/-! ## Registers -/

/-- Writes all the CPU's registers. -/
def setCpu (c : Cpu) (s : State) : State := { s with cpu := c }

/-- Writes A. -/
def setA (v : Byte) (s : State) : State := { s with cpu := { s.cpu with a := v } }

/-- Writes X. -/
def setX (v : Byte) (s : State) : State := { s with cpu := { s.cpu with x := v } }

/-- Writes Y. -/
def setY (v : Byte) (s : State) : State := { s with cpu := { s.cpu with y := v } }

/-- Writes SP. -/
def setSp (v : Byte) (s : State) : State := { s with cpu := { s.cpu with sp := v } }

/-- Writes PC. -/
def setPc (v : Addr) (s : State) : State := { s with cpu := { s.cpu with pc := v } }

/-- Writes P. -/
def setP (v : Byte) (s : State) : State := { s with cpu := { s.cpu with p := v } }

/-- Writes the remaining-cycle counter. -/
def setCycles (n : Nat) (s : State) : State := { s with cpu := { s.cpu with cyclesRemaining := n } }

/-- Writes the NMI latch. -/
def setNmiPending (b : Bool) (s : State) : State := { s with cpu := { s.cpu with nmiPending := b } }

/-! ## The CPU bus -/

/-- Why a bus access fails (R397, R398). -/
inductive BusFault where
  | unmapped
  | deviceRange
  deriving DecidableEq, Repr

/-- The result of an operation over the bus: a value and the state after it, or the failed access and the state the
accesses before it left. -/
inductive Bus (α : Type) where
  | ok (v : α) (s : State)
  | fault (f : BusFault) (a : Addr) (k : Access) (s : State)
  deriving Repr, DecidableEq

/-- Runs one bus operation after another; a fault ends the sequence (R78, R400). -/
def busBind {α β : Type} (x : Bus α) (f : α → State → Bus β) : Bus β :=
  match x with
  | .ok v s => f v s
  | .fault e a k s => .fault e a k s

/-- The devices of the CPU bus (R65). -/
inductive Device where
  | ram
  | ppu
  | io
  | cartridge
  deriving DecidableEq, Repr

/-- The device that owns an address of the CPU bus (R65, R70). -/
def cpuDevice (a : Addr) : Option Device :=
  if a.toNat < 0x2000 then some .ram
  else if a.toNat < 0x4000 then some .ppu
  else if a.toNat < 0x4018 then some .io
  else if a.toNat < 0x4020 then none
  else some .cartridge

/-- A read handed to the host's device: the host's next answer, or a free value when it has supplied none (R68; log 7). -/
def ioRead (a : Addr) (s : State) : Byte × State :=
  match s.ioAnswers with
  | v :: rest => (v, { s with ioAnswers := rest, ioLog := .read a v :: s.ioLog })
  | [] =>
    let v := Config.ioAnswer s.ioLog a
    (v, { s with ioLog := .read a v :: s.ioLog })

/-- Whether some device takes an access at an address: the mapped addresses (R64), less those the cartridge does not
implement (R398). -/
def accessOk (s : State) (k : Access) (a : Addr) : Bool :=
  match cpuDevice a with
  | some .ram => true
  | some .ppu => true
  | some .io => true
  | some .cartridge => cartImplements s k a
  | none => false

/-- The byte a read gives where the access is taken, and the state after its side effects (R66 to R71). -/
def busValue (a : Addr) (s : State) : Byte × State :=
  match cpuDevice a with
  | some .ram => (s.ram.read (a.toNat % 2048), s)
  | some .ppu => ppuRegRead s (a.toNat % 8)
  | some .io => ioRead a s
  | some .cartridge => (cartByte s a, s)
  | none => (0#8, s)

/-- The state a write leaves where the access is taken (R66 to R71). -/
def busStore (a : Addr) (v : Byte) (s : State) : State :=
  match cpuDevice a with
  | some .ram => { s with ram := s.ram.write (a.toNat % 2048) v }
  | some .ppu => ppuRegWrite s (a.toNat % 8) v
  | some .io => { s with ioLog := .write a v :: s.ioLog }
  | some .cartridge => cartWrite s a v
  | none => s

/-- The fault of an access that is not taken: no device owns the address, or its device refuses it (R397, R398). -/
def busFaultAt (a : Addr) : BusFault :=
  match cpuDevice a with
  | none => .unmapped
  | some _ => .deviceRange

/-- `Read(a)` (R12, R64). -/
def cpuRead (a : Addr) (s : State) : Bus Byte :=
  if accessOk s .read a then .ok (busValue a s).1 (busValue a s).2 else .fault (busFaultAt a) a .read s

/-- `Write(a, v)` (R12, R64). -/
def cpuWrite (a : Addr) (v : Byte) (s : State) : Bus Unit :=
  if accessOk s .write a then .ok () (busStore a v s) else .fault (busFaultAt a) a .write s

/-- A 16-bit quantity as two byte reads, the low byte first (R60, R61). -/
def readPair (low high : Addr) (s : State) : Bus Addr :=
  busBind (cpuRead low s) fun l s => busBind (cpuRead high s) fun h s => .ok (leWord l h) s

/-! ## The stack -/

/-- The stack address `0x0100 | SP` (10_state.md R28). DEDUCED: so the first push after reset() writes 0x01FD, where R430 item 2
writes of a stack from 0x01FE (log 21). -/
def stackAddr (s : State) : Addr := 0x0100#16 ||| s.cpu.sp.setWidth 16

/-- `Push(v)` (R13). -/
def push (v : Byte) (s : State) : Bus Unit :=
  busBind (cpuWrite (stackAddr s) v s) fun _ s => .ok () (setSp (s.cpu.sp - 1#8) s)

/-- `Pull()` (R13). -/
def pull (s : State) : Bus Byte :=
  let s1 := setSp (s.cpu.sp + 1#8) s
  cpuRead (stackAddr s1) s1

/-! ## The end of a slot -/

/-- The numeric code of a fault's kind: the position of its class in the source's taxonomy (60_exceptions.md R395). -/
def faultCode (c : FaultCause) : Nat :=
  match c with
  | .wiring _ _ => 1
  | .unmappedAccess _ _ => 1
  | .illegalOpcode _ => 2
  | .load _ => 3
  | .save => 4
  | .deviceRange _ _ => 5

/-- The code of a fault record, which with its cause (the kind and its information) and its `pc` makes up the record of R395. -/
def recordCode (r : FaultRecord) : Nat := faultCode r.cause

/-- The state a run-time fault leaves (R400): `fault` set, every CPU register as at the start of the slot, the bus effects
kept. The NMI latch is no register of that rule's list (log 19). -/
def stopState (start : State) (c : FaultCause) (s : State) : State :=
  { s with
    cpu := { start.cpu with nmiPending := s.cpu.nmiPending }
    fault := some { cause := c, pc := some start.cpu.pc } }

/-- The outcome of a failed bus access in a slot that began at `start` (R397, R398, R400). -/
def busStop (start : State) (f : BusFault) (a : Addr) (k : Access) (s : State) : StepOutcome :=
  match f with
  | .unmapped => .fault (.unmappedAccess a k (stopState start (.unmappedAccess a k) s))
  | .deviceRange => .fault (.deviceRange a k (stopState start (.deviceRange a k) s))

/-- The outcome of a slot that began at `start`. -/
def endSlot (start : State) (r : Bus Unit) : StepOutcome :=
  match r with
  | .ok _ s => .next s
  | .fault f a k s => busStop start f a k s

/-- PC moved past the instruction's bytes (10_state.md R30). -/
def advance (i : Instr) (s : State) : State := setPc (s.cpu.pc + BitVec.ofNat 16 (instrSize i)) s

/-- The end of `ExecuteInstruction`: the cycles charged and P.U set (30_encoding.md R141, R142). -/
def finish (i : Instr) (extra : Nat) (s : State) : State :=
  setP (setFlag s.cpu.p .unused true) (setCycles (baseCycles i + extra) s)

/-! ## Taking an interrupt, and returning -/

/-- The interrupt vectors (R389). -/
def vectorNmi : Addr := 0xFFFA#16

/-- The reset vector (R389). -/
def vectorReset : Addr := 0xFFFC#16

/-- The vector of IRQ and BRK (R389). -/
def vectorIrq : Addr := 0xFFFE#16

/-- `ReadVector(vec)` (R389). -/
def readVector (vec : Addr) (s : State) : Bus Addr := readPair vec (vec + 1#16) s

/-- The status byte an entry pushes: bit 4 tells BRK from an interrupt, bit 5 is 1 (R388). -/
def pushedStatus (p : Byte) (b : Bool) : Byte := setFlag (setFlag p .brk b) .unused true

/-- The status byte after an entry (R388). -/
def enteredStatus (p : Byte) (b : Bool) : Byte := setFlag (setFlag p .brk b) .interrupt true

/-- `InterruptSequence(vec, b)` (R388): the one operation by which BRK, IRQ and NMI enter their handler. -/
def interruptSequence (vec : Addr) (b : Bool) (s : State) : Bus Unit :=
  busBind (push (hiByte s.cpu.pc) s) fun _ s =>
  busBind (push (loByte s.cpu.pc) s) fun _ s =>
  busBind (push (pushedStatus s.cpu.p b) s) fun _ s =>
  busBind (readVector vec (setP (enteredStatus s.cpu.p b) s)) fun pc s => .ok () (setPc pc s)

/-- IRQ entry (R385). -/
def enterIrq (s : State) : StepOutcome :=
  endSlot s (busBind (interruptSequence vectorIrq false s) fun _ s => .ok () (setCycles 7 s))

/-- NMI entry (R386). -/
def enterNmi (s : State) : StepOutcome :=
  endSlot s (busBind (interruptSequence vectorNmi false (setNmiPending false s)) fun _ s => .ok () (setCycles 8 s))

/-- The status byte a pull loads: bit 5 forced to 1 (R223, R233). -/
def pulledStatus (p : Byte) : Byte := setFlag p .unused true

/-- The pulls of a return from interrupt: P, then PC low and high (R223, R393). -/
def returnFromInterrupt (s : State) : Bus Unit :=
  busBind (pull s) fun p s =>
  busBind (pull (setP (pulledStatus p) s)) fun lo s =>
  busBind (pull s) fun hi s => .ok () (setPc (leWord lo hi) s)

end Sys2Proof.Machine
end

