-- ==== Sys2Proof/Machine/Operands.lean ====
section
/-! DEFINITION. Operand forms: effective addresses (spec 30_encoding.md R102 to R114), operand access (R115, R116) and the shapes
of instruction that share it. The operand bytes are fetched before the instruction runs (log 2). -/

namespace Sys2Proof.Machine

/-- Where an operand form's operand is. -/
inductive Place where
  | accumulator
  | value (d : Byte)
  | memory (ea : Addr)
  deriving DecidableEq, Repr

/-- An operand form's place and its page-cross indication `addrExtra` (R118). -/
structure Resolved where
  place   : Place
  crossed : Bool
  deriving DecidableEq, Repr

/-- A zero-page address (R104). -/
def zeroPage (d : Byte) : Addr := d.setWidth 16

/-- `base + index` as a 16-bit sum, and whether its page differs from the base's (R109, R110, R112). -/
def indexed (base : Addr) (i : Byte) : Resolved :=
  let ea := base + i.setWidth 16
  { place := .memory ea, crossed := hiByte ea != hiByte base }

/-- The two addresses of a JMP pointer: the second stays in the first's page (R113). -/
def pointerHigh (w : Addr) : Addr := leWord (loByte w + 1#8) (hiByte w)

/-- The addressing-mode functions (R103 to R113), with their pointer reads. -/
def resolve (o : Operand) (s : State) : Bus Resolved :=
  match o with
  | .acc => .ok { place := .accumulator, crossed := false } s
  | .imm d => .ok { place := .value d, crossed := false } s
  | .zp d => .ok { place := .memory (zeroPage d), crossed := false } s
  | .zpx d => .ok { place := .memory (zeroPage (d + s.cpu.x)), crossed := false } s
  | .zpy d => .ok { place := .memory (zeroPage (d + s.cpu.y)), crossed := false } s
  | .abs w => .ok { place := .memory w, crossed := false } s
  | .abx w => .ok (indexed w s.cpu.x) s
  | .aby w => .ok (indexed w s.cpu.y) s
  | .izx d =>
    busBind (readPair (zeroPage (d + s.cpu.x)) (zeroPage (d + s.cpu.x + 1#8)) s) fun ea s =>
      .ok { place := .memory ea, crossed := false } s
  | .izy d =>
    busBind (readPair (zeroPage d) (zeroPage (d + 1#8)) s) fun base s => .ok (indexed base s.cpu.y) s
  | .ind w =>
    busBind (readPair w (pointerHigh w) s) fun ea s => .ok { place := .memory ea, crossed := false } s

/-- `Operand()` (R116); an immediate byte is the operand itself (R107). -/
def loadPlace (l : Place) (s : State) : Bus Byte :=
  match l with
  | .accumulator => .ok s.cpu.a s
  | .value d => .ok d s
  | .memory ea => cpuRead ea s

/-- `WriteBack(v)` and the stores' `Write(ea, v)` (R116); no instruction writes an immediate (log 17). -/
def storePlace (l : Place) (v : Byte) (s : State) : Bus Unit :=
  match l with
  | .accumulator => .ok () (setA v s)
  | .value _ => .ok () s
  | .memory ea => cpuWrite ea v s

/-- The page-cross cycle charged: `addrExtra AND opExtra` (R142). -/
def crossExtra (i : Instr) (crossed : Bool) : Nat := if crossed && acceptsExtra i then 1 else 0

/-! ## Instruction shapes (R115) -/

/-- The read class: the operand is read once, then `f` gives the CPU after the instruction's effect. -/
def readShape (i : Instr) (o : Operand) (f : Byte → State → State) (s : State) : StepOutcome :=
  endSlot s <|
    busBind (resolve o (advance i s)) fun r s =>
    busBind (loadPlace r.place s) fun m s => .ok () (finish i (crossExtra i r.crossed) (f m s))

/-- The read-modify-write class: one read, one write of `f m`, then the flags `g m` gives. -/
def modifyShape (i : Instr) (o : Operand) (f : Byte → Cpu → Byte) (g : Byte → Cpu → Byte) (s : State) : StepOutcome :=
  endSlot s <|
    busBind (resolve o (advance i s)) fun r s =>
    busBind (loadPlace r.place s) fun m s0 =>
    busBind (storePlace r.place (f m s0.cpu) s0) fun _ s =>
      .ok () (finish i (crossExtra i r.crossed) (setP (g m s0.cpu) s))

/-- The write class: the value is written once and the place is not read. -/
def storeShape (i : Instr) (o : Operand) (v : Byte) (s : State) : StepOutcome :=
  endSlot s <|
    busBind (resolve o (advance i s)) fun r s =>
    busBind (storePlace r.place v s) fun _ s => .ok () (finish i (crossExtra i r.crossed) s)

/-- The implied class without bus accesses. -/
def impliedShape (i : Instr) (f : State → State) (s : State) : StepOutcome := .next (finish i 0 (f (advance i s)))

/-- The implied class with stack accesses. -/
def stackShape (i : Instr) (f : State → Bus Unit) (s : State) : StepOutcome :=
  endSlot s (busBind (f (advance i s)) fun _ s => .ok () (finish i 0 s))

/-- The target of a branch: the next instruction's address plus the signed offset (R114). -/
def branchTarget (next : Addr) (d : Byte) : Addr := next + d.signExtend 16

/-- `Branch(cond)` (44_control_transfer.md R210). -/
def branchShape (i : Instr) (d : Byte) (cond : Bool) (s : State) : StepOutcome :=
  let s1 := advance i s
  let ea := branchTarget s1.cpu.pc d
  if cond then .next (finish i (1 + (if hiByte ea != hiByte s1.cpu.pc then 1 else 0)) (setPc ea s1))
  else .next (finish i 0 s1)

end Sys2Proof.Machine
end

