-- ==== Sys2Proof/Machine/Arith.lean ====
section
/-! DEFINITION. Arithmetic, logic, compare, increment and decrement (spec 42_arithmetic_logic.md R173 to R187). -/

namespace Sys2Proof.Machine

/-- ADC: the adder of R171 on A, the operand and C; binary whatever D holds (R173). -/
def execAdc (o : Operand) (s : State) : StepOutcome :=
  readShape (.adc o) o
    (fun m s =>
      setP (adderFlags s.cpu.p s.cpu.a m (getFlag s.cpu.p .carry)) (setA (adderResult s.cpu.a m (getFlag s.cpu.p .carry)) s)) s

/-- SBC: the adder on A, the inverted operand and C (R174). -/
def execSbc (o : Operand) (s : State) : StepOutcome :=
  readShape (.sbc o) o
    (fun m s =>
      setP (adderFlags s.cpu.p s.cpu.a (~~~m) (getFlag s.cpu.p .carry))
        (setA (adderResult s.cpu.a (~~~m) (getFlag s.cpu.p .carry)) s)) s

/-- AND: bitwise AND into A; Z and N follow it (R175). -/
def execAnd (o : Operand) (s : State) : StepOutcome :=
  readShape (.and o) o (fun m s => setP (setNZ s.cpu.p (s.cpu.a &&& m)) (setA (s.cpu.a &&& m) s)) s

/-- ORA: bitwise OR into A; Z and N follow it (R176). -/
def execOra (o : Operand) (s : State) : StepOutcome :=
  readShape (.ora o) o (fun m s => setP (setNZ s.cpu.p (s.cpu.a ||| m)) (setA (s.cpu.a ||| m) s)) s

/-- EOR: bitwise exclusive OR into A; Z and N follow it (R177). -/
def execEor (o : Operand) (s : State) : StepOutcome :=
  readShape (.eor o) o (fun m s => setP (setNZ s.cpu.p (s.cpu.a ^^^ m)) (setA (s.cpu.a ^^^ m) s)) s

/-- BIT: Z from A & M, N and V from M; A unchanged (R178). -/
def execBit (o : Operand) (s : State) : StepOutcome := readShape (.bit o) o (fun m s => setP (bitFlags s.cpu.p s.cpu.a m) s) s

/-- CMP: the comparator of R172 on A and the operand (R179). -/
def execCmp (o : Operand) (s : State) : StepOutcome :=
  readShape (.cmp o) o (fun m s => setP (compareFlags s.cpu.p s.cpu.a m) s) s

/-- CPX: the comparator of R172 on X and the operand (R180). -/
def execCpx (o : Operand) (s : State) : StepOutcome :=
  readShape (.cpx o) o (fun m s => setP (compareFlags s.cpu.p s.cpu.x m) s) s

/-- CPY: the comparator of R172 on Y and the operand (R181). -/
def execCpy (o : Operand) (s : State) : StepOutcome :=
  readShape (.cpy o) o (fun m s => setP (compareFlags s.cpu.p s.cpu.y m) s) s

/-- INC: the memory byte + 1, one read and one write; Z and N follow the result (R182). -/
def execInc (o : Operand) (s : State) : StepOutcome :=
  modifyShape (.inc o) o (fun m _ => m + 1#8) (fun m c => setNZ c.p (m + 1#8)) s

/-- DEC: the memory byte - 1, one read and one write; Z and N follow the result (R183). -/
def execDec (o : Operand) (s : State) : StepOutcome :=
  modifyShape (.dec o) o (fun m _ => m - 1#8) (fun m c => setNZ c.p (m - 1#8)) s

/-- INX: X + 1; Z and N follow the result (R184). -/
def execInx (s : State) : StepOutcome :=
  impliedShape .inx (fun s => setP (setNZ s.cpu.p (s.cpu.x + 1#8)) (setX (s.cpu.x + 1#8) s)) s

/-- INY: Y + 1; Z and N follow the result (R185). -/
def execIny (s : State) : StepOutcome :=
  impliedShape .iny (fun s => setP (setNZ s.cpu.p (s.cpu.y + 1#8)) (setY (s.cpu.y + 1#8) s)) s

/-- DEX: X - 1; Z and N follow the result (R186). -/
def execDex (s : State) : StepOutcome :=
  impliedShape .dex (fun s => setP (setNZ s.cpu.p (s.cpu.x - 1#8)) (setX (s.cpu.x - 1#8) s)) s

/-- DEY: Y - 1; Z and N follow the result (R187). -/
def execDey (s : State) : StepOutcome :=
  impliedShape .dey (fun s => setP (setNZ s.cpu.p (s.cpu.y - 1#8)) (setY (s.cpu.y - 1#8) s)) s

end Sys2Proof.Machine
end

