-- ==== Sys2Proof/Machine/Control.lean ====
section
/-! DEFINITION. Branches, jumps, calls, returns and BRK (spec 44_control_transfer.md R210 to R223). -/

namespace Sys2Proof.Machine

/-- BCC: branch if C is clear (R211). -/
def execBcc (d : Byte) (s : State) : StepOutcome := branchShape (.bcc d) d (!getFlag s.cpu.p .carry) s

/-- BCS: branch if C is set (R212). -/
def execBcs (d : Byte) (s : State) : StepOutcome := branchShape (.bcs d) d (getFlag s.cpu.p .carry) s

/-- BEQ: branch if Z is set (R213). -/
def execBeq (d : Byte) (s : State) : StepOutcome := branchShape (.beq d) d (getFlag s.cpu.p .zero) s

/-- BMI: branch if N is set (R214). -/
def execBmi (d : Byte) (s : State) : StepOutcome := branchShape (.bmi d) d (getFlag s.cpu.p .negative) s

/-- BNE: branch if Z is clear (R215). -/
def execBne (d : Byte) (s : State) : StepOutcome := branchShape (.bne d) d (!getFlag s.cpu.p .zero) s

/-- BPL: branch if N is clear (R216). -/
def execBpl (d : Byte) (s : State) : StepOutcome := branchShape (.bpl d) d (!getFlag s.cpu.p .negative) s

/-- BVC: branch if V is clear (R217). -/
def execBvc (d : Byte) (s : State) : StepOutcome := branchShape (.bvc d) d (!getFlag s.cpu.p .overflow) s

/-- BVS: branch if V is set (R218). -/
def execBvs (d : Byte) (s : State) : StepOutcome := branchShape (.bvs d) d (getFlag s.cpu.p .overflow) s

/-- The jump of JMP: PC becomes the effective address, which is not read (R219); a place that is no address changes nothing
(log 17). -/
def jumpTo (l : Place) (s : State) : State :=
  match l with
  | .memory ea => setPc ea s
  | .value _ => s
  | .accumulator => s

/-- JMP: PC becomes the effective address (R219). -/
def execJmp (o : Operand) (s : State) : StepOutcome :=
  endSlot s (busBind (resolve o (advance (.jmp o) s)) fun r s => .ok () (finish (.jmp o) 0 (jumpTo r.place s)))

/-- The effect of JSR after its operand: the address of its last byte is pushed, high byte first, and PC becomes the
target (R220). -/
def callSubroutine (target : Addr) (s : State) : Bus Unit :=
  busBind (push (hiByte (s.cpu.pc - 1#16)) s) fun _ s1 =>
  busBind (push (loByte (s.cpu.pc - 1#16)) s1) fun _ s2 => .ok () (setPc target s2)

/-- JSR: jump to subroutine (R220). -/
def execJsr (target : Addr) (s : State) : StepOutcome := stackShape (.jsr target) (callSubroutine target) s

/-- The effect of RTS: PC becomes the pulled word plus 1 (R221). -/
def returnFromSubroutine (s : State) : Bus Unit :=
  busBind (pull s) fun lo s =>
  busBind (pull s) fun hi s => .ok () (setPc (leWord lo hi + 1#16) s)

/-- RTS: return from subroutine (R221). -/
def execRts (s : State) : StepOutcome := stackShape .rts returnFromSubroutine s

/-- The effect of BRK: its padding byte is skipped and the interrupt sequence entered with B = 1 (R222). -/
def breakSequence (s : State) : Bus Unit := interruptSequence vectorIrq true (setPc (s.cpu.pc + 1#16) s)

/-- BRK: software interrupt (R222). -/
def execBrk (s : State) : StepOutcome := stackShape .brk breakSequence s

/-- RTI: return from interrupt (R223). -/
def execRti (s : State) : StepOutcome := stackShape .rti returnFromInterrupt s

end Sys2Proof.Machine
end

