-- ==== Sys2Proof/Machine/Illegal.lean ====
section
/-! DEFINITION. The 105 illegal opcodes (spec 30_encoding.md R123; 60_exceptions.md R396). -/

namespace Sys2Proof.Machine

/-- ILLEGAL: the fault IllegalOpcode, before PC advances; no register, flag or memory changes (R123). -/
def execIllegal (op : Byte) (s : State) : StepOutcome :=
  .fault (.illegalOpcode op (stopState s (.illegalOpcode op) s))

end Sys2Proof.Machine
end

