-- ==== Sys2Proof/Machine/Loads.lean ====
section
/-! DEFINITION. Loads, stores and register transfers (spec 41_load_store_transfer.md R150 to R161). -/

namespace Sys2Proof.Machine

/-- LDA: A becomes the operand; Z and N follow it (R150). -/
def execLda (o : Operand) (s : State) : StepOutcome :=
  readShape (.lda o) o (fun m s => setP (setNZ s.cpu.p m) (setA m s)) s

/-- LDX: X becomes the operand; Z and N follow it (R151). -/
def execLdx (o : Operand) (s : State) : StepOutcome :=
  readShape (.ldx o) o (fun m s => setP (setNZ s.cpu.p m) (setX m s)) s

/-- LDY: Y becomes the operand; Z and N follow it (R152). -/
def execLdy (o : Operand) (s : State) : StepOutcome :=
  readShape (.ldy o) o (fun m s => setP (setNZ s.cpu.p m) (setY m s)) s

/-- STA: A is written to the effective address, which is not read; no flag changes (R153). -/
def execSta (o : Operand) (s : State) : StepOutcome := storeShape (.sta o) o s.cpu.a s

/-- STX: X is written to the effective address, which is not read; no flag changes (R154). -/
def execStx (o : Operand) (s : State) : StepOutcome := storeShape (.stx o) o s.cpu.x s

/-- STY: Y is written to the effective address, which is not read; no flag changes (R155). -/
def execSty (o : Operand) (s : State) : StepOutcome := storeShape (.sty o) o s.cpu.y s

/-- TAX: A is copied to X; Z and N follow it (R156). -/
def execTax (s : State) : StepOutcome :=
  impliedShape .tax (fun s => setP (setNZ s.cpu.p s.cpu.a) (setX s.cpu.a s)) s

/-- TAY: A is copied to Y; Z and N follow it (R157). -/
def execTay (s : State) : StepOutcome :=
  impliedShape .tay (fun s => setP (setNZ s.cpu.p s.cpu.a) (setY s.cpu.a s)) s

/-- TSX: SP is copied to X; Z and N follow it (R158). -/
def execTsx (s : State) : StepOutcome :=
  impliedShape .tsx (fun s => setP (setNZ s.cpu.p s.cpu.sp) (setX s.cpu.sp s)) s

/-- TXA: X is copied to A; Z and N follow it (R159). -/
def execTxa (s : State) : StepOutcome :=
  impliedShape .txa (fun s => setP (setNZ s.cpu.p s.cpu.x) (setA s.cpu.x s)) s

/-- TXS: X is copied to SP; no flag changes (R160). -/
def execTxs (s : State) : StepOutcome := impliedShape .txs (fun s => setSp s.cpu.x s) s

/-- TYA: Y is copied to A; Z and N follow it (R161). -/
def execTya (s : State) : StepOutcome :=
  impliedShape .tya (fun s => setP (setNZ s.cpu.p s.cpu.y) (setA s.cpu.y s)) s

end Sys2Proof.Machine
end

