-- ==== Sys2Proof/Machine/Shifts.lean ====
section
/-! DEFINITION. Shifts and rotates (spec 43_shift_rotate.md R200 to R204). -/

namespace Sys2Proof.Machine

/-- ASL: shift left; C is the old bit 7 (R201). -/
def execAsl (o : Operand) (s : State) : StepOutcome :=
  modifyShape (.asl o) o (fun m _ => aslResult m) (fun m c => shiftLeftFlags c.p m (aslResult m)) s

/-- LSR: shift right; C is the old bit 0 (R202). -/
def execLsr (o : Operand) (s : State) : StepOutcome :=
  modifyShape (.lsr o) o (fun m _ => lsrResult m) (fun m c => shiftRightFlags c.p m (lsrResult m)) s

/-- ROL: rotate left through C (R203). -/
def execRol (o : Operand) (s : State) : StepOutcome :=
  modifyShape (.rol o) o (fun m c => rolResult m (getFlag c.p .carry))
    (fun m c => shiftLeftFlags c.p m (rolResult m (getFlag c.p .carry))) s

/-- ROR: rotate right through C (R204). -/
def execRor (o : Operand) (s : State) : StepOutcome :=
  modifyShape (.ror o) o (fun m c => rorResult m (getFlag c.p .carry))
    (fun m c => shiftRightFlags c.p m (rorResult m (getFlag c.p .carry))) s

end Sys2Proof.Machine
end

