-- ==== Sys2Proof/Machine/Stack.lean ====
section
/-! DEFINITION. Stack, flag and no-operation instructions (spec 45_stack_flag_misc.md R230 to R241). -/

namespace Sys2Proof.Machine

/-- PHA: push A (R230). -/
def execPha (s : State) : StepOutcome := stackShape .pha (fun s => push s.cpu.a s) s

/-- PHP: push P with bits 4 and 5 set; P itself is unchanged (R231). -/
def execPhp (s : State) : StepOutcome := stackShape .php (fun s => push (pushedStatus s.cpu.p true) s) s

/-- PLA: pull A; Z and N follow it (R232). -/
def execPla (s : State) : StepOutcome :=
  stackShape .pla (fun s => busBind (pull s) fun v s => .ok () (setP (setNZ s.cpu.p v) (setA v s))) s

/-- PLP: pull P, bit 5 forced to 1 (R233). -/
def execPlp (s : State) : StepOutcome :=
  stackShape .plp (fun s => busBind (pull s) fun v s => .ok () (setP (pulledStatus v) s)) s

/-- CLC: the carry flag is cleared (R234). -/
def execClc (s : State) : StepOutcome :=
  impliedShape .clc (fun s => setP (setFlag s.cpu.p .carry false) s) s

/-- CLD: the decimal flag is cleared (R235). -/
def execCld (s : State) : StepOutcome :=
  impliedShape .cld (fun s => setP (setFlag s.cpu.p .decimal false) s) s

/-- CLI: the interrupt flag is cleared (R236). -/
def execCli (s : State) : StepOutcome :=
  impliedShape .cli (fun s => setP (setFlag s.cpu.p .interrupt false) s) s

/-- CLV: the overflow flag is cleared (R237). -/
def execClv (s : State) : StepOutcome :=
  impliedShape .clv (fun s => setP (setFlag s.cpu.p .overflow false) s) s

/-- SEC: the carry flag is set (R238). -/
def execSec (s : State) : StepOutcome :=
  impliedShape .sec (fun s => setP (setFlag s.cpu.p .carry true) s) s

/-- SED: the decimal flag is set (R239). -/
def execSed (s : State) : StepOutcome :=
  impliedShape .sed (fun s => setP (setFlag s.cpu.p .decimal true) s) s

/-- SEI: the interrupt flag is set (R240). -/
def execSei (s : State) : StepOutcome :=
  impliedShape .sei (fun s => setP (setFlag s.cpu.p .interrupt true) s) s

/-- NOP: nothing beyond the advance of PC (R241). -/
def execNop (s : State) : StepOutcome := impliedShape .nop (fun s => s) s

end Sys2Proof.Machine
end

