-- ==== Sys2Proof/Machine/Fetch.lean ====
section
/-! DEFINITION. Fetching an instruction through the CPU bus (spec 30_encoding.md R100, R141; 20_memory.md R75, R81), and placing
one where it is fetched from. -/

namespace Sys2Proof.Machine

/-- `n` bus reads at consecutive addresses, wrapping at 16 bits (R12, R78). -/
def readBytes : Nat → Addr → State → Bus (List Byte)
  | 0, _, s => .ok [] s
  | n + 1, a, s =>
    busBind (cpuRead a s) fun b s =>
    busBind (readBytes n (a + 1#16) s) fun bs s => .ok (b :: bs) s

/-- The opcode read and the operand reads, in order; an illegal opcode reads no operand (R123, R141; log 2). -/
def fetchBytes (s : State) : Bus (List Byte) :=
  busBind (cpuRead s.cpu.pc s) fun op s1 =>
  busBind (readBytes (descriptorOperands (descriptorOf op)) (s.cpu.pc + 1#16) s1) fun bs s2 => .ok (op :: bs) s2

/-- The instruction read from fetched bytes. `Sys2Proof.Laws.decode_fetched` shows that the bytes `fetchBytes` reads always
decode. -/
def instrOfBytes (bs : List Byte) : Instr :=
  match decode bs with
  | .ok (i, _) => i
  | .error _ => .illegal (bs.headD 0#8)

/-- The instruction at PC and the state after its bytes were read. -/
def fetch (s : State) : Bus Instr := busBind (fetchBytes s) fun bs s1 => .ok (instrOfBytes bs) s1

/-! ## Placing an instruction -/

/-- Whether a byte can be placed at a CPU address: RAM, present PRG RAM, PRG ROM. -/
def placeable (s : State) (a : Addr) : Bool :=
  match cpuDevice a with
  | some .ram => true
  | some .cartridge => cartImplements s .read a
  | some .ppu => false
  | some .io => false
  | none => false

/-- The state in which the byte behind a CPU address is `v`, as a load from outside the machine puts it there (log 13). -/
def placeByte (a : Addr) (v : Byte) (s : State) : State :=
  if a.toNat < 0x2000 then { s with ram := s.ram.write (a.toNat % 2048) v }
  else if a.toNat < 0x8000 then { s with prgRam := s.prgRam.write (a.toNat - 0x6000) v }
  else
    { s with
      cart := { s.cart with
        prgRom := s.cart.prgRom.write (prgOffset s.mapper s.cart.header.prgBanks a) v } }

/-- Bytes placed at consecutive addresses. -/
def placeBytes : List Byte → Addr → State → State
  | [], _, s => s
  | b :: bs, a, s => placeBytes bs (a + 1#16) (placeByte a b s)

/-- Where an instruction of up to three bytes is placed: at PC, or at 0x0300 in RAM where nothing can be placed at PC. -/
def placeAddr (s : State) : Addr :=
  if placeable s s.cpu.pc && placeable s (s.cpu.pc + 1#16) && placeable s (s.cpu.pc + 2#16) then s.cpu.pc else 0x0300#16

/-- The machine at an instruction boundary, ready to run what stands at `pc`: no fault, no interrupt to take (log 13). -/
def readyAt (pc : Addr) (s : State) : State :=
  { s with
    cpu := { s.cpu with pc := pc, cyclesRemaining := 0, nmiPending := false }
    fault := none
    resetDone := true
    irqLine := if s.irqLine.headD false then false :: s.irqLine.drop 1 else s.irqLine }

/-- The state with an instruction word stored where the next step fetches it (log 13). -/
def placeWord (s : State) (nbits w : Nat) : State :=
  placeBytes (wordBytes nbits w) (placeAddr s) (readyAt (placeAddr s) s)

end Sys2Proof.Machine
end

