-- ==== Sys2Proof/Machine/Tick.lean ====
section
/-! DEFINITION. The CPU cycle (spec 30_encoding.md R140) and the system tick (70_reset_and_hazards.md R426). -/

namespace Sys2Proof.Machine

/-- The level of the IRQ input for the coming CPU cycle; false when the host supplies none (60_exceptions.md R383; log 8). -/
def irqLevel (s : State) : Bool := s.irqLine.headD false

/-- The level of this cycle is used up. -/
def consumeIrq (s : State) : State := { s with irqLine := s.irqLine.drop 1 }

/-- The instruction at PC fetched and executed (R141). -/
def executeInstruction (s : State) : StepOutcome :=
  match fetch s with
  | .ok i s1 => exec i s1
  | .fault f a k s1 => busStop s f a k s1

/-- What happens at an instruction boundary: NMI first, then IRQ, then the next instruction (R140, R391). -/
def boundary (irq : Bool) (s : State) : StepOutcome :=
  if s.cpu.nmiPending then enterNmi s
  else if !getFlag s.cpu.p .interrupt && irq then enterIrq s
  else executeInstruction s

/-- The end of a tick: the counter's decrement and the three dots (R140, R426). -/
def endTick (s : State) : State :=
  tickDot (tickDot (tickDot (setCycles (s.cpu.cyclesRemaining - 1) s)))

/-- A slot's outcome carried to the end of its first tick; a fault ends the tick before its dots (R400, R426). -/
def thenEndTick (r : StepOutcome) : StepOutcome :=
  match r with
  | .next s => .next (endTick s)
  | .fault f => .fault f
  | .refused e => .refused e

/-- One system tick of a machine without a fault (R426). -/
def tick (s : State) : StepOutcome :=
  if s.cpu.cyclesRemaining = 0 then thenEndTick (boundary (irqLevel s) (consumeIrq s))
  else .next (endTick (consumeIrq s))

/-- The host's `step()`: refused before the first reset() (R425), the same fault again once stopped (10_state.md R34), else
one tick (R427). -/
def hostStep (s : State) : StepOutcome :=
  if s.resetDone then
    match s.fault with
    | some r => .fault (.alreadyStopped r)
    | none => tick s
  else .refused .beforeReset

end Sys2Proof.Machine
end

