-- ==== Sys2Proof/Machine/Step.lean ====
section
/-! DEFINITION. The machine's step, one system tick (spec 70_reset_and_hazards.md R426, R427), and an instruction placed where it
fetches. -/

namespace Sys2Proof.Machine

/-- One step of the machine: the host's `step()`. -/
def step (s : State) : Host.Outcome State Fault Refusal := hostStep s

/-- `s` with the instruction whose bits are `w` stored where `step` fetches its next instruction (log 13). -/
def State.withFetchWord (s : State) (nbits w : Nat) : State := placeWord s nbits w

end Sys2Proof.Machine
end

