-- ==== Sys2Proof/Machine/Wiring.lean ====
section
/-! DEFINITION. The bus routers as the host wires them (spec 20_memory.md R63 to R65, R73). `Sys2Proof.Laws` shows that the wired CPU
bus finds the device `cpuDevice` gives, and that the wirings never fail. -/

namespace Sys2Proof.Machine

/-- A device registered for an inclusive address range. -/
structure Wire (δ : Type) where
  device : δ
  first  : Nat
  last   : Nat
  deriving DecidableEq, Repr

/-- `connect(device, start, end)`: it fails if the range is out of the bus's span or overlaps a registered one (R63).
DESIGN CHOICE: it also fails for a start above the end, of which R63 says nothing (log 22). -/
def connect {δ : Type} (span : Nat) (wires : List (Wire δ)) (d : δ) (first last : Nat) :
    Except FaultCause (List (Wire δ)) :=
  if first ≤ last && last < span && wires.all (fun w => last < w.first || w.last < first) then
    .ok (wires ++ [{ device := d, first := first, last := last }])
  else .error (.wiring first last)

/-- Registers a list of devices in order. -/
def connectAll {δ : Type} (span : Nat) : List (Wire δ) → List (Wire δ) → Except FaultCause (List (Wire δ))
  | wires, [] => .ok wires
  | wires, w :: ws =>
    match connect span wires w.device w.first w.last with
    | .ok wires' => connectAll span wires' ws
    | .error e => .error e

/-- The device that owns an address, if any (R64). -/
def owner {δ : Type} (wires : List (Wire δ)) (a : Nat) : Option δ :=
  (wires.find? (fun w => w.first ≤ a && a ≤ w.last)).map Wire.device

/-- The CPU bus map (R65). -/
def cpuBusMap : List (Wire Device) :=
  [{ device := .ram, first := 0x0000, last := 0x1FFF },
   { device := .ppu, first := 0x2000, last := 0x3FFF },
   { device := .io, first := 0x4000, last := 0x4017 },
   { device := .cartridge, first := 0x4020, last := 0xFFFF }]

/-- The devices of the PPU bus (R73). -/
inductive PpuDevice where
  | graphics
  | nametables
  | palette
  deriving DecidableEq, Repr

/-- The PPU bus map (R73). -/
def ppuBusMap : List (Wire PpuDevice) :=
  [{ device := .graphics, first := 0x0000, last := 0x1FFF },
   { device := .nametables, first := 0x2000, last := 0x3EFF },
   { device := .palette, first := 0x3F00, last := 0x3FFF }]

/-- The CPU bus wired over its 65536 addresses. -/
def wireCpuBus : Except FaultCause (List (Wire Device)) := connectAll 0x10000 [] cpuBusMap

/-- The PPU bus wired over its 16384 addresses. -/
def wirePpuBus : Except FaultCause (List (Wire PpuDevice)) := connectAll 0x4000 [] ppuBusMap

end Sys2Proof.Machine
end

