-- ==== Sys2Proof/Machine/HostOps.lean ====
section
/-! DEFINITION. The host interface (spec 60_exceptions.md R411): construct, with the cartridge file and its load faults
(55_cartridge_mappers.md R340 to R347, R371), reset() (70_reset_and_hazards.md R420 to R424), the frame query, the clearing of
frameReady, and the teardown image (R372). `step` is in Machine/Step.lean. -/

namespace Sys2Proof.Machine

/-! ## The cartridge file -/

/-- Byte `i` of a file; 0 past its end. -/
def fileByte (file : List Byte) (i : Nat) : Byte := file.getD i 0#8

/-- The mapper number: 8 bits, extended to 12 when byte 7 bits 3:2 equal 2 (R343; 90_conflicts.md C4). -/
def headerMapper (file : List Byte) : Nat :=
  let b6 := fileByte file 6
  let b7 := fileByte file 7
  let low := ((b7 &&& 0xF0#8) ||| (b6 >>> 4)).toNat
  if (b7.extractLsb' 2 2) = 2#2 then (fileByte file 8 &&& 0x0F#8).toNat * 256 + low else low

/-- The header's fields (R341). -/
def parseHeader (file : List Byte) : Header where
  prgBanks := (fileByte file 4).toNat
  chrBanks := (fileByte file 5).toNat
  mirroring := if (fileByte file 6).getLsbD 0 then .vertical else .horizontal
  hasNvram := (fileByte file 6).getLsbD 1
  hasTrainer := (fileByte file 6).getLsbD 2
  mapper := headerMapper file

/-- Bytes 0 to 3 are the magic signature (R342). -/
def hasMagic (file : List Byte) : Bool := file.take 4 == [0x4E#8, 0x45#8, 0x53#8, 0x1A#8]

/-- The file offset of PRG ROM: the trainer is skipped (R340). -/
def prgFileOffset (h : Header) : Nat := 16 + (if h.hasTrainer then 512 else 0)

/-- The file size the header requires (R340). -/
def requiredSize (h : Header) : Nat := prgFileOffset h + h.prgBanks * 16384 + h.chrBanks * 8192

/-- Why a file does not load, checked in the order R344 lists the causes (log 20); none when it loads. -/
def loadCause (file : Option (List Byte)) : Option LoadCause :=
  match file with
  | none => some .fileMissing
  | some f =>
    let h := parseHeader f
    if f.length < 16 then some .truncatedHeader
    else if !hasMagic f then some .badMagic
    else if f.length < requiredSize h then some .fileTooShort
    else if h.prgBanks = 0 then some .noPrgBanks
    else if mapperOfNumber h.mapper = none then some (.unsupportedMapper h.mapper)
    else if h.mapper = 0 ∧ h.prgBanks ≠ 1 ∧ h.prgBanks ≠ 2 then some (.nromBankCount h.prgBanks)
    else none

/-! ## Construction -/

/-- What the host hands over at construction (R9, R411). -/
structure Params where
  /-- The cartridge file's bytes; none when it is missing or unreadable. -/
  file : Option (List Byte)
  /-- The save image offered (R371). -/
  save : Option (List Byte)
  initCpuRam  : List Byte
  initVram    : List Byte
  initPalette : List (BitVec 6)
  initOam     : List Byte
  initChrRam  : List Byte
  oddSkipNeedsRendering : Bool
  irqLine   : List Bool
  ioAnswers : List Byte
  deriving DecidableEq, Repr

/-- A constructed machine, with the save fault that is logged when PRG RAM could not be loaded (R371, R401). -/
structure Built where
  machine : State
  logged  : Option FaultRecord
  deriving DecidableEq, Repr

/-- The save image is usable: offered, and exactly 8192 bytes (R371). -/
def saveUsable (save : Option (List Byte)) : Bool :=
  match save with
  | some bytes => bytes.length == 8192
  | none => false

/-- PRG RAM at construction: the save image, or all zero (R371). -/
def initialPrgRam (h : Header) (save : Option (List Byte)) : Memory 8 :=
  if h.hasNvram && saveUsable save then Memory.ofList 0 (save.getD []) else []

/-- `ChrMem` at construction: the file's CHR ROM, or CHR RAM holding `InitChrRam` (R346). -/
def initialChr (h : Header) (file : List Byte) (initChrRam : List Byte) : Memory 8 :=
  if h.chrBanks = 0 then Memory.ofList 0 (initChrRam.take 8192)
  else Memory.ofList 0 ((file.drop (prgFileOffset h + h.prgBanks * 16384)).take (h.chrBanks * 8192))

/-- The machine at power-on (R425): memories from the parameters, mapper registers at their construction values; the CPU and
PPU registers hold their reset values already, which nothing can observe before reset() (log 11). -/
def powerOn (p : Params) (h : Header) (m : Mapper) (file : List Byte) : State where
  cpu := Cpu.reset 0#16
  ppu := { Ppu.reset with
    oam := Memory.ofList 0 (p.initOam.take 256)
    palette := Memory.ofList 0 (p.initPalette.take 32)
    vram := Memory.ofList 0 (p.initVram.take 2048) }
  ram := Memory.ofList 0 (p.initCpuRam.take 2048)
  cart := { header := h, prgRom := Memory.ofList 0 ((file.drop (prgFileOffset h)).take (h.prgBanks * 16384)) }
  mapper := m
  prgRam := initialPrgRam h p.save
  chrMem := initialChr h file p.initChrRam
  fault := none
  resetDone := false
  oddSkipNeedsRendering := p.oddSkipNeedsRendering
  irqLine := p.irqLine
  ioAnswers := p.ioAnswers
  ioLog := []
  draws := 0

/-- A fault of the setup, which arises in no instruction (R395, R399). -/
def setupFault (c : FaultCause) : FaultRecord := { cause := c, pc := none }

/-- The save fault a construction logs, if any (R371, R401). -/
def saveLog (h : Header) (save : Option (List Byte)) : Option FaultRecord :=
  if h.hasNvram && !saveUsable save then some (setupFault .save) else none

/-- `construct(...)`: load, wiring and power-on; a load or wiring fault leaves no machine (R399, R411). -/
def construct (p : Params) : Except FaultRecord Built :=
  match loadCause p.file, mapperOfNumber (parseHeader (p.file.getD [])).mapper, wireCpuBus, wirePpuBus with
  | some c, _, _, _ => .error (setupFault (.load c))
  | none, none, _, _ => .error (setupFault (.load (.unsupportedMapper (parseHeader (p.file.getD [])).mapper)))
  | none, some _, .error c, _ => .error (setupFault c)
  | none, some _, .ok _, .error c => .error (setupFault c)
  | none, some m, .ok _, .ok _ =>
    let file := p.file.getD []
    let h := parseHeader file
    .ok { machine := powerOn p h m file, logged := saveLog h p.save }

/-! ## The host's calls on a machine -/

/-- The PPU after reset(): every register, counter, shifter, buffer and the frame zero; OAM, palette and nametable RAM kept
(R421, R424). -/
def resetPpu (p : Ppu) : Ppu := { Ppu.reset with oam := p.oam, palette := p.palette, vram := p.vram }

/-- `reset()`: CPU and PPU registers take their reset values, PC the word at the reset vector read through the bus; memories,
mapper registers and `fault` are kept (R420 to R424). -/
def hostReset (s : State) : StepOutcome :=
  match readVector vectorReset s with
  | .ok pc s1 => .next { s1 with cpu := Cpu.reset pc, ppu := resetPpu s1.ppu, resetDone := true }
  | .fault f a k s1 => busStop s f a k s1

/-- The host clears `frameReady` after presenting a frame (51_ppu_rendering.md R324). -/
def clearFrameReady (s : State) : State := { s with ppu := { s.ppu with frameReady := false } }

/-- The pixel of a frame query (10_state.md R48). -/
def framePixel (s : State) (row column : Nat) : BitVec 6 := s.ppu.frame.read (256 * row + column)

/-- The byte image handed over at teardown: PRG RAM, when there is any (R372). -/
def saveImage (s : State) : Option (List Byte) :=
  if s.cart.header.hasNvram then some (s.prgRam.toList 8192) else none

end Sys2Proof.Machine
end

