-- ==== Sys2Proof/Safety.lean ====
section
/-! DEFINITION. The terms claims use: when a bus access is taken, when an instruction's accesses are, and the invariants of the
machine. -/

namespace Sys2Proof.Machine

/-- An access to this address is taken, by the address alone: RAM, PPU registers and the I/O device always; PRG RAM when there
is any; 0x8000-0xFFFF always, for a cartridge with at least one PRG bank (20_memory.md R64, R65; 60_exceptions.md R397, R398). -/
def Mapped (s : State) (a : Addr) : Prop :=
  a.toNat < 0x4018 ∨ (0x6000 ≤ a.toNat ∧ a.toNat < 0x8000 ∧ s.cart.header.hasNvram = true) ∨
    (0x8000 ≤ a.toNat ∧ 0 < s.cart.header.prgBanks)

/-- The effective address an operand form gives in a state, where it has one, with the pointer bytes read from the zero page
(30_encoding.md R104 to R112). -/
def effectiveAddr (o : Operand) (s : State) : Option Addr :=
  match o with
  | .acc => none
  | .imm _ => none
  | .zp d => some (zeroPage d)
  | .zpx d => some (zeroPage (d + s.cpu.x))
  | .zpy d => some (zeroPage (d + s.cpu.y))
  | .abs w => some w
  | .abx w => some (w + s.cpu.x.setWidth 16)
  | .aby w => some (w + s.cpu.y.setWidth 16)
  | .izx d =>
    some (leWord (s.ram.read (d + s.cpu.x).toNat) (s.ram.read (d + s.cpu.x + 1#8).toNat))
  | .izy d =>
    some (leWord (s.ram.read d.toNat) (s.ram.read (d + 1#8).toNat) + s.cpu.y.setWidth 16)
  | .ind _ => none

/-- The operand form's access at its effective address is taken. -/
def OperandMapped (o : Operand) (s : State) : Prop := ∀ a, effectiveAddr o s = some a → Mapped s a

/-- The operand byte an operand form gives and the state after its one read (30_encoding.md R115, R116). -/
def operandRead (o : Operand) (s : State) : Byte × State :=
  match o, effectiveAddr o s with
  | .acc, _ => (s.cpu.a, s)
  | .imm d, _ => (d, s)
  | _, some a => busValue a s
  | _, none => (0#8, s)

/-- The page-cross indication of an operand form: the page of the indexed sum differs from the base's (R109, R110, R112,
R118). -/
def operandCrossed (o : Operand) (s : State) : Bool :=
  match o with
  | .abx w => hiByte (w + s.cpu.x.setWidth 16) != hiByte w
  | .aby w => hiByte (w + s.cpu.y.setWidth 16) != hiByte w
  | .izy d =>
    let base := leWord (s.ram.read d.toNat) (s.ram.read (d + 1#8).toNat)
    hiByte (base + s.cpu.y.setWidth 16) != hiByte base
  | _ => false

/-- The page-cross cycle as a number (R142). -/
def crossCycle (o : Operand) (s : State) : Nat := if operandCrossed o s then 1 else 0

/-- A write at an address requests an NMI: it is a PPUCTRL write with an edge (50_ppu_registers.md R253, R259). -/
def storeNmi (a : Addr) (v : Byte) (s : State) : Bool :=
  decide (0x2000 ≤ a.toNat) && decide (a.toNat < 0x4000) && decide (a.toNat % 8 = 0) && nmiEdge s.ppu v

/-- The CPU after an instruction that writes no register: PC moved on, the cycles charged, P.U set (R141). -/
def nextCpu (i : Instr) (extra : Nat) (c : Cpu) : Cpu :=
  { c with
    pc := c.pc + BitVec.ofNat 16 (instrSize i)
    p := setFlag c.p .unused true
    cyclesRemaining := baseCycles i + extra }

/-! ## What an instruction leaves -/

/-- The instruction completes: exec answers a next state whose CPU is `c` with the status byte that `flags` describes flag by
flag, and whose everything else is `rest`'s. -/
def Completes (i : Instr) (s : State) (rest : State) (c : Cpu) (flags : Flag → Bool) : Prop :=
  ∃ p, exec i s = .next (setCpu { c with p := p } rest) ∧ ∀ f, getFlag p f = flags f

/-- Every flag as it was, with U set (10_state.md R33). -/
def sameFlags (p : Byte) : Flag → Bool
  | .unused => true
  | f => getFlag p f

/-- Z and N from a value, every other flag as it was, with U set (00_scope.md R14). -/
def nzFlags (p v : Byte) : Flag → Bool
  | .zero => v == 0#8
  | .negative => decide (128 ≤ v.toNat)
  | f => sameFlags p f

/-- Z and N from a value and C from a bit (43_shift_rotate.md R201 to R204). -/
def shiftFlags (p v : Byte) (c : Bool) : Flag → Bool
  | .carry => c
  | f => nzFlags p v f

/-- One flag written, every other as it was, with U set. -/
def oneFlag (p : Byte) (g : Flag) (b : Bool) : Flag → Bool := fun f => if f = g then b else sameFlags p f

/-- The truth table of an addition `a + b + c`: C is the carry out of eight bits, V the signed sum's leaving -128..127
(42_arithmetic_logic.md R171). -/
def addFlags (p a b : Byte) (c : Bool) : Flag → Bool
  | .carry => decide (256 ≤ a.toNat + b.toNat + c.toNat)
  | .zero => decide ((a.toNat + b.toNat + c.toNat) % 256 = 0)
  | .negative => decide (128 ≤ (a.toNat + b.toNat + c.toNat) % 256)
  | .overflow => decide (a.toInt + b.toInt + c.toNat < -128 ∨ 127 < a.toInt + b.toInt + c.toNat)
  | f => sameFlags p f

/-- The truth table of a subtraction `a - m - (1 - c)`: C says there was no borrow, V is the signed difference's leaving
-128..127 (R174). -/
def subtractFlags (p a m : Byte) (c : Bool) : Flag → Bool
  | .carry => decide (m.toNat + (!c).toNat ≤ a.toNat)
  | .zero => decide ((a.toNat + 256 - m.toNat - (!c).toNat) % 256 = 0)
  | .negative => decide (128 ≤ (a.toNat + 256 - m.toNat - (!c).toNat) % 256)
  | .overflow => decide (a.toInt - m.toInt - (!c).toNat < -128 ∨ 127 < a.toInt - m.toInt - (!c).toNat)
  | f => sameFlags p f

/-- The comparator's flags: C is the unsigned `reg >= m`, V is not written (R172). -/
def compareTable (p reg m : Byte) : Flag → Bool
  | .carry => decide (m.toNat ≤ reg.toNat)
  | .zero => decide (reg = m)
  | .negative => decide (128 ≤ (reg.toNat + 256 - m.toNat) % 256)
  | f => sameFlags p f

/-- BIT's flags: Z from A & M, N and V from M's bits 7 and 6 (R178). -/
def bitTable (p a m : Byte) : Flag → Bool
  | .zero => decide (a &&& m = 0#8)
  | .negative => decide (128 ≤ m.toNat)
  | .overflow => decide (64 ≤ m.toNat % 128)
  | f => sameFlags p f

/-- The flags of a pulled status byte: the byte's, with U set (44_control_transfer.md R223). -/
def pulledFlags (p : Byte) : Flag → Bool := sameFlags p

/-- The flags after an interrupt entry: B tells the origin, I is set (60_exceptions.md R388). -/
def entryFlags (p : Byte) (b : Bool) : Flag → Bool
  | .brk => b
  | .interrupt => true
  | f => getFlag p f

/-- The registers of the CPU that R20 names, but P and PC. -/
inductive Reg where
  | a
  | x
  | y
  | sp
  deriving DecidableEq, Repr

/-- A register's value. -/
def regOf (c : Cpu) : Reg → Byte
  | .a => c.a
  | .x => c.x
  | .y => c.y
  | .sp => c.sp

/-- The registers an instruction writes (10_state.md R21, R22, R28). -/
def writtenRegs : Instr → List Reg
  | .lda _ => [.a]
  | .adc _ => [.a]
  | .sbc _ => [.a]
  | .and _ => [.a]
  | .ora _ => [.a]
  | .eor _ => [.a]
  | .txa => [.a]
  | .tya => [.a]
  | .pla => [.a, .sp]
  | .asl .acc => [.a]
  | .lsr .acc => [.a]
  | .rol .acc => [.a]
  | .ror .acc => [.a]
  | .ldx _ => [.x]
  | .tax => [.x]
  | .tsx => [.x]
  | .inx => [.x]
  | .dex => [.x]
  | .ldy _ => [.y]
  | .tay => [.y]
  | .iny => [.y]
  | .dey => [.y]
  | .txs => [.sp]
  | .pha => [.sp]
  | .php => [.sp]
  | .plp => [.sp]
  | .jsr _ => [.sp]
  | .rts => [.sp]
  | .rti => [.sp]
  | .brk => [.sp]
  | _ => []

/-- The flags that follow a result: Z and N. -/
def zn : List Flag := [.zero, .negative]

/-- Every flag but U. -/
def pulled : List Flag := [.carry, .zero, .interrupt, .decimal, .brk, .overflow, .negative]

/-- The flags an instruction writes beside U (10_state.md R25 to R27, R33). -/
def writtenFlags : Instr → List Flag
  | .adc _ => .carry :: .overflow :: zn
  | .sbc _ => .carry :: .overflow :: zn
  | .bit _ => .overflow :: zn
  | .cmp _ => .carry :: zn
  | .cpx _ => .carry :: zn
  | .cpy _ => .carry :: zn
  | .asl _ => .carry :: zn
  | .lsr _ => .carry :: zn
  | .rol _ => .carry :: zn
  | .ror _ => .carry :: zn
  | .and _ => zn
  | .ora _ => zn
  | .eor _ => zn
  | .inc _ => zn
  | .dec _ => zn
  | .inx => zn
  | .iny => zn
  | .dex => zn
  | .dey => zn
  | .lda _ => zn
  | .ldx _ => zn
  | .ldy _ => zn
  | .tax => zn
  | .tay => zn
  | .tsx => zn
  | .txa => zn
  | .tya => zn
  | .pla => zn
  | .plp => pulled
  | .rti => pulled
  | .clc => [.carry]
  | .sec => [.carry]
  | .cli => [.interrupt]
  | .sei => [.interrupt]
  | .cld => [.decimal]
  | .sed => [.decimal]
  | .clv => [.overflow]
  | .brk => [.brk, .interrupt]
  | _ => []

/-- Every byte of every memory reads as before: RAM, PRG RAM, CHR memory, nametable RAM, palette, OAM and the frame, and the
cartridge's ROM and bank registers are the same. -/
def SameMemory (s t : State) : Prop :=
  (∀ k, t.ram.read k = s.ram.read k) ∧ (∀ k, t.prgRam.read k = s.prgRam.read k) ∧
    (∀ k, t.chrMem.read k = s.chrMem.read k) ∧ (∀ k, t.ppu.vram.read k = s.ppu.vram.read k) ∧
    (∀ k, t.ppu.palette.read k = s.ppu.palette.read k) ∧ (∀ k, t.ppu.oam.read k = s.ppu.oam.read k) ∧
    (∀ k, t.ppu.frame.read k = s.ppu.frame.read k) ∧ t.cart = s.cart ∧ t.mapper = s.mapper

/-- An address of the PPU register window (20_memory.md R67). -/
def InPpuWindow (a : Addr) : Prop := 0x2000 ≤ a.toNat ∧ a.toNat < 0x4000

/-- A store at `a` is a PPUDATA write to a PPU address of this range, the PPU address register holding `v` (50_ppu_registers.md
R250, R267; 20_memory.md R73). -/
def ReachesPpu (a : Addr) (v : BitVec 16) (first last : Nat) : Prop :=
  InPpuWindow a ∧ a.toNat % 8 = 7 ∧ first ≤ (ppuMask v).toNat ∧ (ppuMask v).toNat ≤ last

/-- Every byte of every memory outside the one a store at `a` reaches reads as before: RAM outside `a`'s entry, PRG RAM outside
`a`'s byte, OAM unless `a` is OAMDATA and then outside the entry at OAMADDR; nametable RAM, palette and CHR memory unless `a` is
PPUDATA and then outside the entry behind the PPU address `v`, CHR ROM always; the PPU's registers unless `a` is one of them; the
bank registers unless `a` is at 0x8000 or above; the frame and the ROM always. -/
def SameMemoryBut (a : Addr) (v : BitVec 16) (s t : State) : Prop :=
  (∀ k, ¬ (a.toNat < 0x2000 ∧ k = a.toNat % 2048) → t.ram.read k = s.ram.read k) ∧
    (∀ k, ¬ (0x6000 ≤ a.toNat ∧ a.toNat < 0x8000 ∧ k = a.toNat - 0x6000) → t.prgRam.read k = s.prgRam.read k) ∧
    (∀ k, ¬ (InPpuWindow a ∧ a.toNat % 8 = 4 ∧ k = s.ppu.oamAddr.toNat) → t.ppu.oam.read k = s.ppu.oam.read k) ∧
    (¬ (InPpuWindow a ∧ a.toNat % 8 = 7) →
      t.ppu.vram = s.ppu.vram ∧ t.ppu.palette = s.ppu.palette ∧ t.chrMem = s.chrMem) ∧
    (∀ k, ¬ (ReachesPpu a v 0x2000 0x3EFF ∧ k = ntIndex (mirroringOf s) (ppuMask v)) →
      t.ppu.vram.read k = s.ppu.vram.read k) ∧
    (∀ k, ¬ (ReachesPpu a v 0x3F00 0x3FFF ∧ k = palIndex v) → t.ppu.palette.read k = s.ppu.palette.read k) ∧
    (∀ k, ¬ (ReachesPpu a v 0x0000 0x1FFF ∧ s.cart.header.chrBanks = 0 ∧
        k = chrOffset s.mapper (chrSize s.cart.header) (ppuMask v)) → t.chrMem.read k = s.chrMem.read k) ∧
    (¬ InPpuWindow a → t.ppu = s.ppu) ∧ (a.toNat < 0x8000 → t.mapper = s.mapper) ∧ t.ppu.frame = s.ppu.frame ∧
    t.cart = s.cart

/-- How many bytes an instruction pushes (44_control_transfer.md R220, R222; 45_stack_flag_misc.md R230, R231). -/
def pushCount : Instr → Nat
  | .pha => 1
  | .php => 1
  | .jsr _ => 2
  | .brk => 3
  | _ => 0

/-- The instructions that write memory at their effective address, with their operand form (30_encoding.md R115). -/
def storeOperand : Instr → Option Operand
  | .sta o => some o
  | .stx o => some o
  | .sty o => some o
  | .inc o => some o
  | .dec o => some o
  | .asl o => some o
  | .lsr o => some o
  | .rol o => some o
  | .ror o => some o
  | _ => none

/-- Whether an instruction reads its memory operand before it writes it (30_encoding.md R116). -/
def readsFirst : Instr → Bool
  | .inc _ => true
  | .dec _ => true
  | .asl _ => true
  | .lsr _ => true
  | .rol _ => true
  | .ror _ => true
  | _ => false

/-- The PPU address register when an instruction's store at `a` is made: a read-modify-write of PPUDATA has stepped it once
(50_ppu_registers.md R266, R268). -/
def storeV (i : Instr) (a : Addr) (s : State) : BitVec 16 := if readsFirst i then (busValue a s).2.ppu.v else s.ppu.v

/-- The instructions that read memory at their effective address and do not write it, with their operand form (30_encoding.md
R115). -/
def readOperand : Instr → Option Operand
  | .lda o => some o
  | .ldx o => some o
  | .ldy o => some o
  | .adc o => some o
  | .sbc o => some o
  | .and o => some o
  | .ora o => some o
  | .eor o => some o
  | .bit o => some o
  | .cmp o => some o
  | .cpx o => some o
  | .cpy o => some o
  | _ => none

/-- Whether an instruction writes no memory: it has no store operand but the accumulator, and pushes nothing. -/
def storesNothing (i : Instr) : Bool :=
  pushCount i == 0 && (storeOperand i == none || storeOperand i == some .acc)

/-- The base cycle counts said by class and mode, as the "Cycles" lines of the instruction rules give them (30_encoding.md
R121; R150 to R241). -/
def documentedCycles : Instr → Nat
  | .sta o => storeCycles o.mode
  | .stx o => storeCycles o.mode
  | .sty o => storeCycles o.mode
  | .inc o => modifyCycles o.mode
  | .dec o => modifyCycles o.mode
  | .asl o => modifyCycles o.mode
  | .lsr o => modifyCycles o.mode
  | .rol o => modifyCycles o.mode
  | .ror o => modifyCycles o.mode
  | .lda o => readCycles o.mode
  | .ldx o => readCycles o.mode
  | .ldy o => readCycles o.mode
  | .adc o => readCycles o.mode
  | .sbc o => readCycles o.mode
  | .and o => readCycles o.mode
  | .ora o => readCycles o.mode
  | .eor o => readCycles o.mode
  | .bit o => readCycles o.mode
  | .cmp o => readCycles o.mode
  | .cpx o => readCycles o.mode
  | .cpy o => readCycles o.mode
  | .jmp o => if o.mode = .abs then 3 else 5
  | .jsr _ => 6
  | .rts => 6
  | .rti => 6
  | .brk => 7
  | .pha => 3
  | .php => 3
  | .pla => 4
  | .plp => 4
  | _ => 2
where
  readCycles : Mode → Nat
    | .imm => 2
    | .zp => 3
    | .izx => 6
    | .izy => 5
    | _ => 4
  storeCycles : Mode → Nat
    | .zp => 3
    | .abx => 5
    | .aby => 5
    | .izx => 6
    | .izy => 6
    | _ => 4
  modifyCycles : Mode → Nat
    | .acc => 2
    | .zp => 5
    | .abx => 7
    | _ => 6

/-- An instruction is its one opcode byte and takes this many cycles. -/
def OneByte (i : Instr) (op : Byte) (cycles : Nat) : Prop := encode i = [op] ∧ baseCycles i = cycles

/-- The CPU after a branch with offset `d`: PC at the target, one more cycle for a taken branch and one more for a target on
another page than the next instruction; or PC at the next instruction (44_control_transfer.md R210). -/
def branchCpu (d : Byte) (taken : Bool) (c : Cpu) : Cpu :=
  let next := c.pc + 2#16
  let target := next + BitVec.ofInt 16 d.toInt
  if taken then
    { c with pc := target, cyclesRemaining := 3 + (if target.toNat / 256 = next.toNat / 256 then 0 else 1) }
  else { c with pc := next, cyclesRemaining := 2 }

/-- The flags of a pushed status byte: bit 4 tells the origin, bit 5 is 1, the others are P's (60_exceptions.md R388). -/
def pushedFlags (p : Byte) (b : Bool) : Flag → Bool
  | .brk => b
  | .unused => true
  | f => getFlag p f

/-- The slot of the stack page that a push with this SP writes (10_state.md R28). -/
def stackSlot (sp : Byte) : Nat := 256 + sp.toNat

/-- What the common entry sequence leaves (60_exceptions.md R388, R389): three bytes pushed, PC at the vector's word, A, X, Y and
everything that is neither RAM nor a CPU register as before. -/
structure Entered (vec : Addr) (b : Bool) (returnPc : Addr) (s t : State) : Prop where
  rest   : t = { s with ram := t.ram, cpu := t.cpu }
  kept   : t.cpu.a = s.cpu.a ∧ t.cpu.x = s.cpu.x ∧ t.cpu.y = s.cpu.y
  sp     : t.cpu.sp = s.cpu.sp - 3#8
  pc     : t.cpu.pc = leWord (cartByte s vec) (cartByte s (vec + 1#16))
  high   : t.ram.read (stackSlot s.cpu.sp) = hiByte returnPc
  low    : t.ram.read (stackSlot (s.cpu.sp - 1#8)) = loByte returnPc
  status : ∀ f, getFlag (t.ram.read (stackSlot (s.cpu.sp - 2#8))) f = pushedFlags s.cpu.p b f
  ram    : ∀ k, k ≠ stackSlot s.cpu.sp → k ≠ stackSlot (s.cpu.sp - 1#8) → k ≠ stackSlot (s.cpu.sp - 2#8) →
    t.ram.read k = s.ram.read k

/-- The cause a fault names and the state it leaves; none for a machine that had stopped before. -/
def stopped : Fault → Option (FaultCause × State)
  | .unmappedAccess a k left => some (.unmappedAccess a k, left)
  | .illegalOpcode op left => some (.illegalOpcode op, left)
  | .deviceRange a k left => some (.deviceRange a k, left)
  | .alreadyStopped _ => none

/-- The fault of an access at `a` in a slot that began at `pc`, when the accesses before it left `u`: `u` with the fault recorded
(60_exceptions.md R397, R398, R400; log 18). -/
def faultAt (pc a : Addr) (k : Access) (u : State) : Fault :=
  if 0x4018 ≤ a.toNat ∧ a.toNat ≤ 0x401F then
    .unmappedAccess a k { u with fault := some { cause := .unmappedAccess a k, pc := some pc } }
  else .deviceRange a k { u with fault := some { cause := .deviceRange a k, pc := some pc } }

/-- RAM after the three pushes of an entry (R388). -/
def threePushes (ram : Memory 8) (sp : Byte) (returnPc : Addr) (p : Byte) : Memory 8 :=
  ((ram.write (stackSlot sp) (hiByte returnPc)).write (stackSlot (sp - 1#8)) (loByte returnPc)).write (stackSlot (sp - 2#8)) p

/-- The machine is at an instruction boundary and may step: reset, without a fault, its counter at 0 (30_encoding.md R140). -/
def AtBoundary (s : State) : Prop := s.resetDone = true ∧ s.fault = none ∧ s.cpu.cyclesRemaining = 0

/-- No interrupt is to be taken at the coming boundary (60_exceptions.md R391). -/
def NoInterrupt (s : State) : Prop :=
  s.cpu.nmiPending = false ∧ (getFlag s.cpu.p .interrupt = true ∨ irqLevel s = false)

/-- The physical table of a logical nametable (50_ppu_registers.md R276). -/
def physicalTable : Mirroring → Nat → Nat
  | .horizontal, q => q / 2
  | .vertical, q => q % 2
  | .oneScreenLower, _ => 0
  | .oneScreenUpper, _ => 1

/-! ## A dot, said without its functions -/

/-- An OAM entry is in the range of a line (51_ppu_rendering.md R305). -/
def spriteInRange (s : State) (line i : Nat) : Bool :=
  decide ((s.ppu.oam.read (4 * i)).toNat + 1 ≤ line ∧
    line < (s.ppu.oam.read (4 * i)).toNat + 1 + (if s.ppu.ctrl.getLsbD 5 then 16 else 8))

/-- The two-bit pixel that the sprite of OAM entry `i` has at column `c` of a line in its range, where `c` is one of its eight
columns (R306): 8x8 sprites take their table from PPUCTRL bit 3, 8x16 ones from bit 0 of the tile; attribute bit 7 flips the
rows, bit 6 the columns. -/
def spriteColour (s : State) (line i c : Nat) : BitVec 2 :=
  let tile := (s.ppu.oam.read (4 * i + 1)).toNat
  let attr := s.ppu.oam.read (4 * i + 2)
  let h := if s.ppu.ctrl.getLsbD 5 then 16 else 8
  let row := line - 1 - (s.ppu.oam.read (4 * i)).toNat
  let r := if attr.getLsbD 7 then h - 1 - row else row
  let k := c - (s.ppu.oam.read (4 * i + 3)).toNat
  let bit := if attr.getLsbD 6 then k else 7 - k
  let a :=
    if s.ppu.ctrl.getLsbD 5 then tile % 2 * 0x1000 + (tile / 2 * 2 + r / 8) * 16 + r % 8
    else (if s.ppu.ctrl.getLsbD 3 then 0x1000 else 0) + tile * 16 + r
  twoBits ((ppuBusRead s (BitVec.ofNat 16 (a + 8))).getLsbD bit) ((ppuBusRead s (BitVec.ofNat 16 a)).getLsbD bit)

/-- The OAM entry whose pixel a line shows at column `c`: of the first eight in range, the first that is opaque there (R305,
R307). -/
def spriteAt (s : State) (line c : Nat) : Option Nat :=
  (((List.range 64).filter (spriteInRange s line)).take 8).find? fun i =>
    decide ((s.ppu.oam.read (4 * i + 3)).toNat ≤ c ∧ c < (s.ppu.oam.read (4 * i + 3)).toNat + 8) &&
      spriteColour s line i c != 0#2

/-- A 16-bit shift register moved up by one, its low byte replaced where a byte is loaded (R294, R302). -/
def shiftedIn (x : BitVec 16) (load : Option Byte) : Nat :=
  match load with
  | none => x.toNat * 2 % 0x10000
  | some b => x.toNat * 2 % 0x10000 / 256 * 256 + b.toNat

/-- A byte of eight copies of a bit (R294). -/
def spread (b : Bool) : Byte := if b then 0xFF#8 else 0#8

/-- The raster is on a line the pipeline fetches on (R291). -/
def OnFetchLine (p : Ppu) : Prop := p.scanline < 240 ∨ p.scanline = 261

/-- The raster is at a dot the background pipeline runs at (R293, R302). -/
def AtPipelineDot (p : Ppu) : Prop := OnFetchLine p ∧ (p.dot < 256 ∨ (320 ≤ p.dot ∧ p.dot ≤ 335))

/-- What a dot of a fetching line at which the background pipeline runs does to its shifters and latches, from the PPU before
it (R293, R294, R300 to R302). -/
structure PipelineRuns (s : State) (q : Ppu) : Prop where
  patLo    : q.bgPatLo.toNat = shiftedIn s.ppu.bgPatLo (if s.ppu.dot % 8 = 7 then some s.ppu.patLoLatch else none)
  patHi    : q.bgPatHi.toNat = shiftedIn s.ppu.bgPatHi (if s.ppu.dot % 8 = 7 then some s.ppu.patHiLatch else none)
  attLo    : q.bgAttLo.toNat =
    shiftedIn s.ppu.bgAttLo (if s.ppu.dot % 8 = 7 then some (spread (s.ppu.atLatch.getLsbD 0)) else none)
  attHi    : q.bgAttHi.toNat =
    shiftedIn s.ppu.bgAttHi (if s.ppu.dot % 8 = 7 then some (spread (s.ppu.atLatch.getLsbD 1)) else none)
  tile     : q.ntLatch =
    if s.ppu.dot % 8 = 0 then ppuBusRead s (BitVec.ofNat 16 (0x2000 + s.ppu.v.toNat % 0x1000)) else s.ppu.ntLatch
  palette  : q.atLatch.toNat =
    if s.ppu.dot % 8 = 2 then
      (ppuBusRead s (BitVec.ofNat 16 (0x23C0 + s.ppu.v.toNat / 0x400 % 4 * 0x400 + s.ppu.v.toNat / 128 % 8 * 8 +
        s.ppu.v.toNat / 4 % 8))).toNat / 2 ^ (s.ppu.v.toNat / 64 % 2 * 4 + s.ppu.v.toNat / 2 % 2 * 2) % 4
    else s.ppu.atLatch.toNat
  lowByte  : q.patLoLatch =
    if s.ppu.dot % 8 = 4 then
      ppuBusRead s (BitVec.ofNat 16 ((if s.ppu.ctrl.getLsbD 4 then 0x1000 else 0) + s.ppu.ntLatch.toNat * 16 +
        s.ppu.v.toNat / 4096 % 8))
    else s.ppu.patLoLatch
  highByte : q.patHiLatch =
    if s.ppu.dot % 8 = 6 then
      ppuBusRead s (BitVec.ofNat 16 ((if s.ppu.ctrl.getLsbD 4 then 0x1000 else 0) + s.ppu.ntLatch.toNat * 16 +
        s.ppu.v.toNat / 4096 % 8 + 8))
    else s.ppu.patHiLatch

/-- No shifter and no latch of the background pipeline changes. -/
structure PipelineRests (p q : Ppu) : Prop where
  patLo    : q.bgPatLo = p.bgPatLo
  patHi    : q.bgPatHi = p.bgPatHi
  attLo    : q.bgAttLo = p.bgAttLo
  attHi    : q.bgAttHi = p.bgAttHi
  tile     : q.ntLatch = p.ntLatch
  palette  : q.atLatch = p.atLatch
  lowByte  : q.patLoLatch = p.patLoLatch
  highByte : q.patHiLatch = p.patHiLatch

/-- The bits `v` takes from `t` in a scroll copy: coarse X and the horizontal nametable (R298), or coarse Y, fine Y and the
vertical nametable (R299). -/
def copiedBits (horizontal : Bool) (i : Nat) : Bool :=
  if horizontal then decide (i < 5 ∨ i = 10) else decide ((5 ≤ i ∧ i < 10) ∨ (11 ≤ i ∧ i < 15))

/-- A scroll copy: the chosen bits of `v` become those of `t`, the others stay. -/
def Copies (horizontal : Bool) (v t v' : BitVec 16) : Prop :=
  ∀ i, v'.getLsbD i = if copiedBits horizontal i then t.getLsbD i else v.getLsbD i

/-! ## Construction, said without its functions -/

/-- The fields of a header, read from bytes 4 to 8 of the cartridge file (55_cartridge_mappers.md R341, R343). -/
structure HeaderSays (f : List Byte) (h : Header) : Prop where
  prgBanks   : h.prgBanks = (f.getD 4 0#8).toNat
  chrBanks   : h.chrBanks = (f.getD 5 0#8).toNat
  mirroring  : h.mirroring = if (f.getD 6 0#8).toNat % 2 = 1 then .vertical else .horizontal
  hasNvram   : h.hasNvram = decide ((f.getD 6 0#8).toNat / 2 % 2 = 1)
  hasTrainer : h.hasTrainer = decide ((f.getD 6 0#8).toNat / 4 % 2 = 1)
  mapper     : h.mapper =
    (if (f.getD 7 0#8).toNat / 4 % 4 = 2 then (f.getD 8 0#8).toNat % 16 * 256 else 0) +
      (f.getD 7 0#8).toNat / 16 * 16 + (f.getD 6 0#8).toNat / 16

/-- The file size a header asks for: header, trainer, PRG ROM and CHR ROM (R340). -/
def sizeAsked (h : Header) : Nat := 16 + (if h.hasTrainer then 512 else 0) + h.prgBanks * 16384 + h.chrBanks * 8192

/-- A file has 16 bytes of header, the magic signature and the bytes its header asks for (R340, R342). -/
def Complete (f : List Byte) : Prop :=
  16 ≤ f.length ∧ f.take 4 = [0x4E#8, 0x45#8, 0x53#8, 0x1A#8] ∧ sizeAsked (parseHeader f) ≤ f.length

/-- A file that is there does not load, for this cause (R344); of several defects the first in that rule's order counts
(log 20). -/
def LoadFails (f : List Byte) : LoadCause → Prop
  | .fileMissing => False
  | .truncatedHeader => f.length < 16
  | .badMagic => 16 ≤ f.length ∧ f.take 4 ≠ [0x4E#8, 0x45#8, 0x53#8, 0x1A#8]
  | .fileTooShort => 16 ≤ f.length ∧ f.take 4 = [0x4E#8, 0x45#8, 0x53#8, 0x1A#8] ∧ f.length < sizeAsked (parseHeader f)
  | .noPrgBanks => Complete f ∧ (parseHeader f).prgBanks = 0
  | .unsupportedMapper n => Complete f ∧ 0 < (parseHeader f).prgBanks ∧ 2 < (parseHeader f).mapper ∧ n = (parseHeader f).mapper
  | .nromBankCount n =>
    Complete f ∧ (parseHeader f).mapper = 0 ∧ 2 < (parseHeader f).prgBanks ∧ n = (parseHeader f).prgBanks

/-- A memory of `n` entries holds the first of a list's values, and 0 past the list's end. -/
def Holds {w : Nat} (m : Memory w) (n : Nat) (l : List (BitVec w)) : Prop :=
  ∀ k, m.read k = if k < n then l.getD k 0#w else 0#w

/-- The machine that construction makes of a cartridge file `f` and the other parameters (R340, R345, R346, R365, R371;
10_state.md R55; 70_reset_and_hazards.md R425), and the save fault it logs (60_exceptions.md R401). -/
structure BuiltFrom (p : Params) (f : List Byte) (b : Built) : Prop where
  header  : b.machine.cart.header = parseHeader f
  prgRom  : Holds b.machine.cart.prgRom ((parseHeader f).prgBanks * 16384)
    (f.drop (16 + if (parseHeader f).hasTrainer then 512 else 0))
  chrRom  : 0 < (parseHeader f).chrBanks → Holds b.machine.chrMem ((parseHeader f).chrBanks * 8192)
    (f.drop (16 + (if (parseHeader f).hasTrainer then 512 else 0) + (parseHeader f).prgBanks * 16384))
  chrRam  : (parseHeader f).chrBanks = 0 → Holds b.machine.chrMem 8192 p.initChrRam
  saved   : ∀ bytes, (parseHeader f).hasNvram = true → p.save = some bytes → bytes.length = 8192 →
    Holds b.machine.prgRam 8192 bytes ∧ b.logged = none
  unsaved : (parseHeader f).hasNvram = true → (∀ bytes, p.save = some bytes → bytes.length ≠ 8192) →
    Holds b.machine.prgRam 0 [] ∧ b.logged = some { cause := .save, pc := none }
  noNvram : (parseHeader f).hasNvram = false → Holds b.machine.prgRam 0 [] ∧ b.logged = none
  mapper  : b.machine.mapper =
    if (parseHeader f).mapper = 0 then .nrom
    else if (parseHeader f).mapper = 1 then
      .mmc1 { shift := 0#5, shiftCount := 0, control := 0x0C#5, chrBank0 := 0#5, chrBank1 := 0#5, prgBank := 0#5 }
    else .uxrom 0#8
  ram     : Holds b.machine.ram 2048 p.initCpuRam
  vram    : Holds b.machine.ppu.vram 2048 p.initVram
  palette : Holds b.machine.ppu.palette 32 p.initPalette
  oam     : Holds b.machine.ppu.oam 256 p.initOam
  oddSkip : b.machine.oddSkipNeedsRendering = p.oddSkipNeedsRendering
  fault   : b.machine.fault = none

/-! ## Invariants -/

/-- Every memory keeps the canonical form and stays inside its size (R8). -/
structure MemoryInv (s : State) : Prop where
  ram      : s.ram.wf = true ∧ s.ram.fits 2048 = true
  vram     : s.ppu.vram.wf = true ∧ s.ppu.vram.fits 2048 = true
  palette  : s.ppu.palette.wf = true ∧ s.ppu.palette.fits 32 = true
  oam      : s.ppu.oam.wf = true ∧ s.ppu.oam.fits 256 = true
  prgRam   : s.prgRam.wf = true ∧ s.prgRam.fits 8192 = true
  chrMem   : s.chrMem.wf = true ∧ s.chrMem.fits (chrSize s.cart.header) = true
  frame    : s.ppu.frame.wf = true ∧ s.ppu.frame.fits 61440 = true
  sprPix   : s.ppu.spr.pix.wf = true ∧ s.ppu.spr.pix.fits 256 = true
  sprPal   : s.ppu.spr.pal.wf = true ∧ s.ppu.spr.pal.fits 256 = true
  sprBehind : s.ppu.spr.behind.wf = true ∧ s.ppu.spr.behind.fits 256 = true
  sprZero  : s.ppu.spr.zero.wf = true ∧ s.ppu.spr.zero.fits 256 = true

/-- The registers' standing facts: P.U is 1 (10_state.md R33), the cycle counter is at most 8 (R31), bit 15 of v and t is 0
(R41), the raster position is one of 341 x 262 dots (R45), and an MMC1 shift register holds at most four bits (R52). -/
structure RegisterInv (s : State) : Prop where
  unused   : getFlag s.cpu.p .unused = true
  cycles   : s.cpu.cyclesRemaining ≤ 8
  v15      : s.ppu.v.getLsbD 15 = false
  t15      : s.ppu.t.getLsbD 15 = false
  scanline : s.ppu.scanline < 262
  dot      : s.ppu.dot < 341
  shift    : ∀ r, s.mapper = .mmc1 r → r.shiftCount ≤ 4

end Sys2Proof.Machine
end

