-- ==== Sys2Proof/Certificates/Slice0/Obligations.lean ====
section
/-! DEFINITION. What is claimed of the model, from the numbered rules of spec/. The witnesses of every hypothesis are in
Tests/Slice0.lean. -/

open Sys2Proof Sys2Proof.Machine

/-! ## Encoding (30_encoding.md) -/

/-- R100, R101, R121, R123: every well-formed instruction, with every operand at every value, is read back from its bytes, and
what follows it is left. -/
def Obligations.DecodeOfEncode : Prop :=
  ∀ (i : Instr) (rest : List Byte), i.wellFormed = true → decode (encode i ++ rest) = .ok (i, rest)

/-- R100, R121, R122, R124: every byte string that decodes is the encoding of a well-formed instruction and what follows: no
two byte strings stand for one instruction. -/
def Obligations.EncodeOfDecode : Prop :=
  ∀ (bs rest : List Byte) (i : Instr), decode bs = .ok (i, rest) → i.wellFormed = true ∧ bs = encode i ++ rest

/-- R100: the first byte alone fixes the length, 1 to 3 bytes; an instruction is read exactly when all of them are there. -/
def Obligations.DecodeLength : Prop :=
  decode [] = .error .noOpcode ∧
  ∀ (op : Byte) (rest : List Byte),
    descriptorOperands (descriptorOf op) ≤ 2 ∧
    (descriptorOperands (descriptorOf op) ≤ rest.length →
      ∃ i, decode (op :: rest) = .ok (i, rest.drop (descriptorOperands (descriptorOf op))) ∧
        instrSize i = 1 + descriptorOperands (descriptorOf op)) ∧
    (rest.length < descriptorOperands (descriptorOf op) → decode (op :: rest) = .error (.truncated op))

/-- Words of every family, written out from the "Encoding" lines of R150, R156, R173, R182, R201, R211, R219, R220, R222, R230,
R240 and R123, decode to their instructions. -/
def Obligations.SampleWordsDecode : Prop :=
  decode [0xA9#8, 0x80#8] = .ok (.lda (.imm 0x80#8), []) ∧
  decode [0xBD#8, 0xF0#8, 0x12#8] = .ok (.lda (.abx 0x12F0#16), []) ∧
  decode [0xAA#8] = .ok (.tax, []) ∧
  decode [0x71#8, 0x10#8] = .ok (.adc (.izy 0x10#8), []) ∧
  decode [0xEE#8, 0x00#8, 0x03#8] = .ok (.inc (.abs 0x0300#16), []) ∧
  decode [0x0A#8] = .ok (.asl .acc, []) ∧
  decode [0x90#8, 0xFE#8] = .ok (.bcc 0xFE#8, []) ∧
  decode [0x6C#8, 0xFF#8, 0x02#8] = .ok (.jmp (.ind 0x02FF#16), []) ∧
  decode [0x20#8, 0x00#8, 0x90#8] = .ok (.jsr 0x9000#16, []) ∧
  decode [0x00#8, 0xEA#8] = .ok (.brk, [0xEA#8]) ∧
  decode [0x48#8] = .ok (.pha, []) ∧
  decode [0x78#8] = .ok (.sei, []) ∧
  decode [0x02#8, 0x01#8] = .ok (.illegal 0x02#8, [0x01#8])

/-- R123: exactly the 105 listed opcodes are illegal, and none of them takes an operand byte. -/
def Obligations.IllegalOpcodesDecode : Prop :=
  illegalOpcodes.length = 105 ∧ illegalOpcodes.Nodup ∧
  ∀ (op : Byte) (rest : List Byte), decode (op :: rest) = .ok (.illegal op, rest) ↔ op ∈ illegalOpcodes

/-- R121 against the "Cycles" lines of R150 to R241: the base counts of the opcode map are the documented counts by class and
mode. -/
def Obligations.BaseCycleTable : Prop :=
  ∀ i : Instr, i.wellFormed = true → (∀ op, i ≠ .illegal op) → baseCycles i = documentedCycles i

/-! ## The step (30_encoding.md R140, R141; 70_reset_and_hazards.md R425, R426; 60_exceptions.md) -/

/-- R141, R426: at an instruction boundary with no interrupt to take, when the bytes read at PC decode to an instruction, a step
is that instruction's exec on the state after the reads (the tick's IRQ level used up), then the counter's decrement and three
dots; where exec faults, the step is that fault. -/
def Obligations.StepRunsDecodedInstruction : Prop :=
  ∀ (s s1 : State) (i : Instr) (bs : List Byte), AtBoundary s → NoInterrupt s →
    readBytes (instrSize i) s.cpu.pc (consumeIrq s) = .ok bs s1 → decode bs = .ok (i, []) →
      (∀ t, exec i s1 = .next t →
        step s = .next (tickDot (tickDot (tickDot (setCycles (t.cpu.cyclesRemaining - 1) t))))) ∧
      (∀ f, exec i s1 = .fault f → step s = .fault f)

/-- R140, R79: between boundaries a step only counts down and runs the dots: no register, no memory of the CPU side and no PPU
register a program writes (but `v`), nor the toggle and the read buffer, changes, and a pending NMI stays. That one value of the
IRQ line is used up by the tick is the model's choice (log 8). -/
def Obligations.CountdownTick : Prop :=
  ∀ (s : State) (n : Nat), s.resetDone = true → s.fault = none → s.cpu.cyclesRemaining = n + 1 →
    ∃ t, step s = .next t ∧
      t.cpu = { s.cpu with cyclesRemaining := n, nmiPending := t.cpu.nmiPending } ∧
      (s.cpu.nmiPending = true → t.cpu.nmiPending = true) ∧
      t = { s with cpu := t.cpu, ppu := t.ppu, irqLine := s.irqLine.drop 1 } ∧
      t.ppu.ctrl = s.ppu.ctrl ∧ t.ppu.mask = s.ppu.mask ∧ t.ppu.t = s.ppu.t ∧ t.ppu.fineX = s.ppu.fineX ∧
      t.ppu.w = s.ppu.w ∧ t.ppu.readBuffer = s.ppu.readBuffer ∧ t.ppu.oam = s.ppu.oam ∧
      t.ppu.oamAddr = s.ppu.oamAddr ∧ t.ppu.vram = s.ppu.vram ∧ t.ppu.palette = s.ppu.palette

/-- R391, R384, R425, R34: before reset() a step is refused (log 10) and after a fault it answers that fault (log 9); at a
boundary NMI comes first, then an asserted IRQ with I clear, then the instruction. -/
def Obligations.StepOrder : Prop :=
  ∀ s : State,
    (s.resetDone = false → step s = .refused .beforeReset) ∧
    (∀ r, s.resetDone = true → s.fault = some r → step s = .fault (.alreadyStopped r)) ∧
    (AtBoundary s → s.cpu.nmiPending = true → step s = thenEndTick (enterNmi (consumeIrq s))) ∧
    (AtBoundary s → s.cpu.nmiPending = false → getFlag s.cpu.p .interrupt = false → irqLevel s = true →
      step s = thenEndTick (enterIrq (consumeIrq s))) ∧
    (AtBoundary s → NoInterrupt s → step s = thenEndTick (executeInstruction (consumeIrq s)))

/-- R385, R386, R388, R389: an IRQ or NMI entry pushes PC high, PC low and P with bit 4 clear and bit 5 set, clears B, sets I,
loads PC from its vector and charges 7 or 8 cycles; the NMI latch is cleared by its own entry. -/
def Obligations.InterruptEntry : Prop :=
  ∀ s : State, 0 < s.cart.header.prgBanks →
    (∃ t, enterIrq s = .next t ∧ Entered 0xFFFE#16 false s.cpu.pc s t ∧
      (∀ f, getFlag t.cpu.p f = entryFlags s.cpu.p false f) ∧ t.cpu.cyclesRemaining = 7 ∧
      t.cpu.nmiPending = s.cpu.nmiPending) ∧
    (∃ t, enterNmi s = .next t ∧ Entered 0xFFFA#16 false s.cpu.pc s t ∧
      (∀ f, getFlag t.cpu.p f = entryFlags s.cpu.p false f) ∧ t.cpu.cyclesRemaining = 8 ∧ t.cpu.nmiPending = false)

/-- R387, R393, R394: an RTI run on the state an interrupt entry left resumes at the interrupted instruction with the flags and
SP of before (B as pushed, U set); after BRK it resumes at BRK + 2. -/
def Obligations.InterruptReturnResumes : Prop :=
  ∀ s : State, 0 < s.cart.header.prgBanks →
    (∃ t u, enterIrq s = .next t ∧ exec .rti t = .next u ∧ u.cpu.pc = s.cpu.pc ∧ u.cpu.sp = s.cpu.sp ∧
      ∀ f, getFlag u.cpu.p f = pushedFlags s.cpu.p false f) ∧
    (∃ t u, enterNmi s = .next t ∧ exec .rti t = .next u ∧ u.cpu.pc = s.cpu.pc ∧ u.cpu.sp = s.cpu.sp ∧
      ∀ f, getFlag u.cpu.p f = pushedFlags s.cpu.p false f) ∧
    (∃ t u, exec .brk s = .next t ∧ exec .rti t = .next u ∧ u.cpu.pc = s.cpu.pc + 2#16 ∧ u.cpu.sp = s.cpu.sp ∧
      ∀ f, getFlag u.cpu.p f = pushedFlags s.cpu.p true f)

/-- R400: a fault that a step raises leaves every CPU register as at the start of the slot, records its cause and the slot's PC,
runs no dot of its tick, and no later step runs (log 9, 18, 19). The accesses made before the one that fails keep their effects:
the reads of the bytes fetched before it; the first read of a JMP pointer; the three pushes of an entry whose vector read fails;
before the access at an effective address none has an effect. -/
def Obligations.FaultKeepsRegisters : Prop :=
  (∀ (s : State) (f : Fault), s.fault = none → step s = .fault f →
    ∃ c left, stopped f = some (c, left) ∧
      left.cpu = { s.cpu with nmiPending := left.cpu.nmiPending } ∧
      left.fault = some { cause := c, pc := some s.cpu.pc } ∧
      left.ppu.scanline = s.ppu.scanline ∧ left.ppu.dot = s.ppu.dot ∧ left.ppu.frame = s.ppu.frame ∧
      step left = .fault (.alreadyStopped { cause := c, pc := some s.cpu.pc })) ∧
  (∀ (s s1 : State) (bs : List Byte) (n : Nat) (a : Addr), AtBoundary s → NoInterrupt s →
    readBytes n s.cpu.pc (consumeIrq s) = .ok bs s1 → a = s.cpu.pc + BitVec.ofNat 16 n → ¬ Mapped s a →
    (n = 0 ∨ ∃ op, bs.head? = some op ∧ n ≤ descriptorOperands (descriptorOf op)) →
      step s = .fault (faultAt s.cpu.pc a .read s1)) ∧
  (∀ (i : Instr) (o : Operand) (s : State) (a : Addr), effectiveAddr o s = some a → ¬ Mapped s a →
    (readOperand i = some o ∨ (storeOperand i = some o ∧ readsFirst i = true) →
      exec i s = .fault (faultAt s.cpu.pc a .read s)) ∧
    (storeOperand i = some o ∧ readsFirst i = false → a.toNat < 0x8000 →
      exec i s = .fault (faultAt s.cpu.pc a .write s))) ∧
  (∀ (w w' : Addr) (s s1 : State) (l : Byte), w'.toNat = w.toNat / 256 * 256 + (w.toNat + 1) % 256 →
    busValue w s = (l, s1) →
    (¬ Mapped s w → exec (.jmp (.ind w)) s = .fault (faultAt s.cpu.pc w .read s)) ∧
    (Mapped s w → ¬ Mapped s w' → exec (.jmp (.ind w)) s = .fault (faultAt s.cpu.pc w' .read s1))) ∧
  ∀ s : State, s.cart.header.prgBanks = 0 →
    (∃ p, (∀ f, getFlag p f = pushedFlags s.cpu.p false f) ∧
      enterIrq s = .fault (faultAt s.cpu.pc 0xFFFE#16 .read
        { s with ram := threePushes s.ram s.cpu.sp s.cpu.pc p }) ∧
      enterNmi s = .fault (faultAt s.cpu.pc 0xFFFA#16 .read
        { s with ram := threePushes s.ram s.cpu.sp s.cpu.pc p, cpu := { s.cpu with nmiPending := false } })) ∧
    ∃ p, (∀ f, getFlag p f = pushedFlags s.cpu.p true f) ∧
      exec .brk s = .fault (faultAt s.cpu.pc 0xFFFE#16 .read
        { s with ram := threePushes s.ram s.cpu.sp (s.cpu.pc + 2#16) p })

/-- R396, R123: ILLEGAL stops with IllegalOpcode, every register, flag and memory as it was; a step that fetches an illegal
opcode stops so, right after the opcode read. -/
def Obligations.IllegalStops : Prop :=
  (∀ (op : Byte) (s : State),
    exec (.illegal op) s =
      .fault (.illegalOpcode op { s with fault := some { cause := .illegalOpcode op, pc := some s.cpu.pc } })) ∧
  ∀ (s s1 : State) (op : Byte), AtBoundary s → NoInterrupt s → cpuRead s.cpu.pc (consumeIrq s) = .ok op s1 →
    op ∈ illegalOpcodes →
      step s =
        .fault (.illegalOpcode op { s1 with fault := some { cause := .illegalOpcode op, pc := some s.cpu.pc } })

/-- R397, R398: exactly 0x4018-0x401F belong to no device; exactly 0x4020-0x5FFF, and 0x6000-0x7FFF without PRG RAM, are
refused by the cartridge; an LDA or STA at such an address stops with that fault. Every other access is taken (R64, R65). R66,
R77: RAM is seen four times, a write changes its one entry and is read back at every mirror. R349, R350: so is PRG RAM at its
offset from 0x6000; 0x8000-0xFFFF reads PRG ROM at the mapper's offset and a write there is a mapper write alone. R68: in
0x4000-0x4017 a read takes the host's next answer, or a free value where it gave none, and both accesses are recorded (log 7). -/
def Obligations.UnownedAccessFaults : Prop :=
  ∀ (s : State) (a : Addr), 0 < s.cart.header.prgBanks →
    (0x4018 ≤ a.toNat ∧ a.toNat ≤ 0x401F →
      cpuRead a s = .fault .unmapped a .read s ∧ (∀ v, cpuWrite a v s = .fault .unmapped a .write s) ∧
      (∃ left, exec (.lda (.abs a)) s = .fault (.unmappedAccess a .read left)) ∧
      (∃ left, exec (.sta (.abs a)) s = .fault (.unmappedAccess a .write left))) ∧
    ((0x4020 ≤ a.toNat ∧ a.toNat ≤ 0x5FFF) ∨
        (0x6000 ≤ a.toNat ∧ a.toNat ≤ 0x7FFF ∧ s.cart.header.hasNvram = false) →
      cpuRead a s = .fault .deviceRange a .read s ∧ (∀ v, cpuWrite a v s = .fault .deviceRange a .write s) ∧
      (∃ left, exec (.lda (.abs a)) s = .fault (.deviceRange a .read left)) ∧
      (∃ left, exec (.sta (.abs a)) s = .fault (.deviceRange a .write left))) ∧
    (a.toNat < 0x4018 ∨ (0x6000 ≤ a.toNat ∧ a.toNat ≤ 0x7FFF ∧ s.cart.header.hasNvram = true) ∨ 0x8000 ≤ a.toNat →
      (∃ v t, cpuRead a s = .ok v t) ∧ ∀ v, ∃ t, cpuWrite a v s = .ok () t) ∧
    (a.toNat < 0x2000 →
      cpuRead a s = .ok (s.ram.read (a.toNat % 2048)) s ∧
      ∀ v, ∃ t, cpuWrite a v s = .ok () t ∧ t = { s with ram := t.ram } ∧
        (∀ k, k ≠ a.toNat % 2048 → t.ram.read k = s.ram.read k) ∧
        ∀ b : Addr, b.toNat < 0x2000 → b.toNat % 2048 = a.toNat % 2048 → cpuRead b t = .ok v t) ∧
    (0x4000 ≤ a.toNat ∧ a.toNat ≤ 0x4017 →
      (∀ v, cpuWrite a v s = .ok () { s with ioLog := .write a v :: s.ioLog }) ∧
      (∀ v rest, s.ioAnswers = v :: rest →
        cpuRead a s = .ok v { s with ioAnswers := rest, ioLog := .read a v :: s.ioLog }) ∧
      (s.ioAnswers = [] →
        cpuRead a s = .ok (Config.ioAnswer s.ioLog a)
          { s with ioLog := .read a (Config.ioAnswer s.ioLog a) :: s.ioLog })) ∧
    (0x6000 ≤ a.toNat ∧ a.toNat ≤ 0x7FFF ∧ s.cart.header.hasNvram = true →
      cpuRead a s = .ok (s.prgRam.read (a.toNat - 0x6000)) s ∧
      ∀ v, ∃ t, cpuWrite a v s = .ok () t ∧ t = { s with prgRam := t.prgRam } ∧
        (∀ k, k ≠ a.toNat - 0x6000 → t.prgRam.read k = s.prgRam.read k) ∧ cpuRead a t = .ok v t) ∧
    (0x8000 ≤ a.toNat →
      cpuRead a s = .ok (s.cart.prgRom.read (prgOffset s.mapper s.cart.header.prgBanks a)) s ∧
      ∀ v, cpuWrite a v s = .ok () { s with mapper := mapperWrite s.mapper a v })

/-! ## Loads, stores and transfers (41_load_store_transfer.md) -/

/-- R150 to R152, R142: LDA, LDX and LDY complete in every form whose operand access is taken: the register becomes the byte read
once, Z and N follow it, one cycle more for a crossed page; everything else is as the one read left it. -/
def Obligations.LoadsComplete : Prop :=
  ∀ (o : Operand) (s : State), OperandMapped o s →
    ((Instr.lda o).wellFormed = true →
      Completes (.lda o) s (operandRead o s).2
        { nextCpu (.lda o) (crossCycle o s) s.cpu with a := (operandRead o s).1 }
        (nzFlags s.cpu.p (operandRead o s).1)) ∧
    ((Instr.ldx o).wellFormed = true →
      Completes (.ldx o) s (operandRead o s).2
        { nextCpu (.ldx o) (crossCycle o s) s.cpu with x := (operandRead o s).1 }
        (nzFlags s.cpu.p (operandRead o s).1)) ∧
    ((Instr.ldy o).wellFormed = true →
      Completes (.ldy o) s (operandRead o s).2
        { nextCpu (.ldy o) (crossCycle o s) s.cpu with y := (operandRead o s).1 }
        (nzFlags s.cpu.p (operandRead o s).1))

/-- R153 to R155, R119: STA, STX and STY complete in every form whose write is taken: one write of the register, no read of the
place, no flag but U, base cycles only; the NMI latch only as the write itself requests. -/
def Obligations.StoresComplete : Prop :=
  ∀ (o : Operand) (s : State) (a : Addr), effectiveAddr o s = some a → Mapped s a →
    ((Instr.sta o).wellFormed = true →
      Completes (.sta o) s (busStore a s.cpu.a s)
        { nextCpu (.sta o) 0 s.cpu with nmiPending := s.cpu.nmiPending || storeNmi a s.cpu.a s } (sameFlags s.cpu.p)) ∧
    ((Instr.stx o).wellFormed = true →
      Completes (.stx o) s (busStore a s.cpu.x s)
        { nextCpu (.stx o) 0 s.cpu with nmiPending := s.cpu.nmiPending || storeNmi a s.cpu.x s } (sameFlags s.cpu.p)) ∧
    ((Instr.sty o).wellFormed = true →
      Completes (.sty o) s (busStore a s.cpu.y s)
        { nextCpu (.sty o) 0 s.cpu with nmiPending := s.cpu.nmiPending || storeNmi a s.cpu.y s } (sameFlags s.cpu.p))

/-- R156 to R161: the six transfers complete in every state: the destination takes the source, Z and N follow it, but TXS writes
no flag; one byte, 2 cycles. -/
def Obligations.TransfersComplete : Prop :=
  ∀ s : State,
    (OneByte .tax 0xAA#8 2 ∧
      Completes .tax s s { nextCpu .tax 0 s.cpu with x := s.cpu.a } (nzFlags s.cpu.p s.cpu.a)) ∧
    (OneByte .tay 0xA8#8 2 ∧
      Completes .tay s s { nextCpu .tay 0 s.cpu with y := s.cpu.a } (nzFlags s.cpu.p s.cpu.a)) ∧
    (OneByte .tsx 0xBA#8 2 ∧
      Completes .tsx s s { nextCpu .tsx 0 s.cpu with x := s.cpu.sp } (nzFlags s.cpu.p s.cpu.sp)) ∧
    (OneByte .txa 0x8A#8 2 ∧
      Completes .txa s s { nextCpu .txa 0 s.cpu with a := s.cpu.x } (nzFlags s.cpu.p s.cpu.x)) ∧
    (OneByte .txs 0x9A#8 2 ∧
      Completes .txs s s { nextCpu .txs 0 s.cpu with sp := s.cpu.x } (sameFlags s.cpu.p)) ∧
    (OneByte .tya 0x98#8 2 ∧
      Completes .tya s s { nextCpu .tya 0 s.cpu with a := s.cpu.y } (nzFlags s.cpu.p s.cpu.y))

/-! ## Arithmetic and logic (42_arithmetic_logic.md) -/

/-- R171, R173, R174, R27: ADC and SBC complete in every form whose operand access is taken, in binary whatever D holds: A takes
the sum (the difference) modulo 256 and C, Z, N and V follow the truth table of the exact unsigned and signed result. -/
def Obligations.AddSubtractComplete : Prop :=
  ∀ (o : Operand) (s : State), OperandMapped o s → (Instr.adc o).wellFormed = true →
    Completes (.adc o) s (operandRead o s).2
      { nextCpu (.adc o) (crossCycle o s) s.cpu with
        a := BitVec.ofNat 8 (s.cpu.a.toNat + (operandRead o s).1.toNat + (getFlag s.cpu.p .carry).toNat) }
      (addFlags s.cpu.p s.cpu.a (operandRead o s).1 (getFlag s.cpu.p .carry)) ∧
    Completes (.sbc o) s (operandRead o s).2
      { nextCpu (.sbc o) (crossCycle o s) s.cpu with
        a := BitVec.ofNat 8
          (s.cpu.a.toNat + 256 - (operandRead o s).1.toNat - (!getFlag s.cpu.p .carry).toNat) }
      (subtractFlags s.cpu.p s.cpu.a (operandRead o s).1 (getFlag s.cpu.p .carry))

/-- R175 to R178: AND, ORA and EOR combine A with the operand bit by bit and Z and N follow; BIT leaves A and takes Z from
A & M, N and V from M. -/
def Obligations.LogicComplete : Prop :=
  ∀ (o : Operand) (s : State), OperandMapped o s →
    ((Instr.and o).wellFormed = true →
      Completes (.and o) s (operandRead o s).2
        { nextCpu (.and o) (crossCycle o s) s.cpu with a := s.cpu.a &&& (operandRead o s).1 }
        (nzFlags s.cpu.p (s.cpu.a &&& (operandRead o s).1)) ∧
      Completes (.ora o) s (operandRead o s).2
        { nextCpu (.ora o) (crossCycle o s) s.cpu with a := s.cpu.a ||| (operandRead o s).1 }
        (nzFlags s.cpu.p (s.cpu.a ||| (operandRead o s).1)) ∧
      Completes (.eor o) s (operandRead o s).2
        { nextCpu (.eor o) (crossCycle o s) s.cpu with a := s.cpu.a ^^^ (operandRead o s).1 }
        (nzFlags s.cpu.p (s.cpu.a ^^^ (operandRead o s).1))) ∧
    ((Instr.bit o).wellFormed = true →
      Completes (.bit o) s (operandRead o s).2 (nextCpu (.bit o) 0 s.cpu)
        (bitTable s.cpu.p s.cpu.a (operandRead o s).1))

/-- R172, R179 to R181: CMP, CPX and CPY change no register: C is the unsigned register >= operand, Z their equality, N bit 7 of
the difference; V, I and D stay. -/
def Obligations.ComparesComplete : Prop :=
  ∀ (o : Operand) (s : State), OperandMapped o s →
    ((Instr.cmp o).wellFormed = true →
      Completes (.cmp o) s (operandRead o s).2 (nextCpu (.cmp o) (crossCycle o s) s.cpu)
        (compareTable s.cpu.p s.cpu.a (operandRead o s).1)) ∧
    ((Instr.cpx o).wellFormed = true →
      Completes (.cpx o) s (operandRead o s).2 (nextCpu (.cpx o) 0 s.cpu)
        (compareTable s.cpu.p s.cpu.x (operandRead o s).1)) ∧
    ((Instr.cpy o).wellFormed = true →
      Completes (.cpy o) s (operandRead o s).2 (nextCpu (.cpy o) 0 s.cpu)
        (compareTable s.cpu.p s.cpu.y (operandRead o s).1))

/-- R182, R183, R116: INC and DEC complete in every form whose access is taken: one read, then one write of the byte plus or
minus 1 modulo 256; Z and N follow it, C and V stay; base cycles only. -/
def Obligations.IncDecMemoryComplete : Prop :=
  ∀ (o : Operand) (s : State) (a : Addr), effectiveAddr o s = some a → Mapped s a → (Instr.inc o).wellFormed = true →
    Completes (.inc o) s (busStore a ((busValue a s).1 + 1#8) (busValue a s).2)
      { nextCpu (.inc o) 0 s.cpu with
        nmiPending := s.cpu.nmiPending || storeNmi a ((busValue a s).1 + 1#8) (busValue a s).2 }
      (nzFlags s.cpu.p ((busValue a s).1 + 1#8)) ∧
    Completes (.dec o) s (busStore a ((busValue a s).1 - 1#8) (busValue a s).2)
      { nextCpu (.dec o) 0 s.cpu with
        nmiPending := s.cpu.nmiPending || storeNmi a ((busValue a s).1 - 1#8) (busValue a s).2 }
      (nzFlags s.cpu.p ((busValue a s).1 - 1#8))

/-- R184 to R187: INX, INY, DEX and DEY complete in every state: the register plus or minus 1 modulo 256, Z and N follow it; one
byte, 2 cycles. -/
def Obligations.IncDecIndexComplete : Prop :=
  ∀ s : State,
    (OneByte .inx 0xE8#8 2 ∧
      Completes .inx s s { nextCpu .inx 0 s.cpu with x := s.cpu.x + 1#8 } (nzFlags s.cpu.p (s.cpu.x + 1#8))) ∧
    (OneByte .iny 0xC8#8 2 ∧
      Completes .iny s s { nextCpu .iny 0 s.cpu with y := s.cpu.y + 1#8 } (nzFlags s.cpu.p (s.cpu.y + 1#8))) ∧
    (OneByte .dex 0xCA#8 2 ∧
      Completes .dex s s { nextCpu .dex 0 s.cpu with x := s.cpu.x - 1#8 } (nzFlags s.cpu.p (s.cpu.x - 1#8))) ∧
    (OneByte .dey 0x88#8 2 ∧
      Completes .dey s s { nextCpu .dey 0 s.cpu with y := s.cpu.y - 1#8 } (nzFlags s.cpu.p (s.cpu.y - 1#8)))

/-! ## Shifts and rotates (43_shift_rotate.md) -/

/-- R200 to R204: the accumulator forms of ASL, LSR, ROL and ROR complete in every state with no bus access: the result is twice
or half of A with the old carry shifted in by the rotates, C the bit shifted out, Z and N from the result; 2 cycles. -/
def Obligations.AccumulatorShiftsComplete : Prop :=
  ∀ (s : State) (n c : Nat), n = s.cpu.a.toNat → c = (getFlag s.cpu.p .carry).toNat →
    (OneByte (.asl .acc) 0x0A#8 2 ∧
      Completes (.asl .acc) s s { nextCpu (.asl .acc) 0 s.cpu with a := BitVec.ofNat 8 (2 * n) }
        (shiftFlags s.cpu.p (BitVec.ofNat 8 (2 * n)) (decide (128 ≤ n)))) ∧
    (OneByte (.lsr .acc) 0x4A#8 2 ∧
      Completes (.lsr .acc) s s { nextCpu (.lsr .acc) 0 s.cpu with a := BitVec.ofNat 8 (n / 2) }
        (shiftFlags s.cpu.p (BitVec.ofNat 8 (n / 2)) (decide (n % 2 = 1)))) ∧
    (OneByte (.rol .acc) 0x2A#8 2 ∧
      Completes (.rol .acc) s s { nextCpu (.rol .acc) 0 s.cpu with a := BitVec.ofNat 8 (2 * n + c) }
        (shiftFlags s.cpu.p (BitVec.ofNat 8 (2 * n + c)) (decide (128 ≤ n)))) ∧
    (OneByte (.ror .acc) 0x6A#8 2 ∧
      Completes (.ror .acc) s s { nextCpu (.ror .acc) 0 s.cpu with a := BitVec.ofNat 8 (n / 2 + 128 * c) }
        (shiftFlags s.cpu.p (BitVec.ofNat 8 (n / 2 + 128 * c)) (decide (n % 2 = 1))))

/-- R200 to R204, R116: the memory forms of ASL, LSR, ROL and ROR complete wherever their access is taken: one read, one write
of the result, C the bit shifted out, Z and N from the result; base cycles only. -/
def Obligations.MemoryShiftsComplete : Prop :=
  ∀ (o : Operand) (s s1 : State) (a : Addr) (m : Byte) (n c : Nat), effectiveAddr o s = some a → Mapped s a →
    (Instr.asl o).wellFormed = true → busValue a s = (m, s1) → n = m.toNat → c = (getFlag s.cpu.p .carry).toNat →
    Completes (.asl o) s (busStore a (BitVec.ofNat 8 (2 * n)) s1)
      { nextCpu (.asl o) 0 s.cpu with nmiPending := s.cpu.nmiPending || storeNmi a (BitVec.ofNat 8 (2 * n)) s1 }
      (shiftFlags s.cpu.p (BitVec.ofNat 8 (2 * n)) (decide (128 ≤ n))) ∧
    Completes (.lsr o) s (busStore a (BitVec.ofNat 8 (n / 2)) s1)
      { nextCpu (.lsr o) 0 s.cpu with nmiPending := s.cpu.nmiPending || storeNmi a (BitVec.ofNat 8 (n / 2)) s1 }
      (shiftFlags s.cpu.p (BitVec.ofNat 8 (n / 2)) (decide (n % 2 = 1))) ∧
    Completes (.rol o) s (busStore a (BitVec.ofNat 8 (2 * n + c)) s1)
      { nextCpu (.rol o) 0 s.cpu with nmiPending := s.cpu.nmiPending || storeNmi a (BitVec.ofNat 8 (2 * n + c)) s1 }
      (shiftFlags s.cpu.p (BitVec.ofNat 8 (2 * n + c)) (decide (128 ≤ n))) ∧
    Completes (.ror o) s (busStore a (BitVec.ofNat 8 (n / 2 + 128 * c)) s1)
      { nextCpu (.ror o) 0 s.cpu with
        nmiPending := s.cpu.nmiPending || storeNmi a (BitVec.ofNat 8 (n / 2 + 128 * c)) s1 }
      (shiftFlags s.cpu.p (BitVec.ofNat 8 (n / 2 + 128 * c)) (decide (n % 2 = 1)))

/-! ## Control transfer (44_control_transfer.md) -/

/-- R210 to R218: the eight branches complete in every state, each on its own flag: taken, PC is the next instruction's address
plus the signed offset, for 3 cycles or 4 to another page; not taken, PC is the next instruction, for 2. -/
def Obligations.BranchesComplete : Prop :=
  ∀ (d : Byte) (s : State) (c z n v : Bool), c = getFlag s.cpu.p .carry → z = getFlag s.cpu.p .zero →
    n = getFlag s.cpu.p .negative → v = getFlag s.cpu.p .overflow →
    (encode (.bcc d) = [0x90#8, d] ∧ Completes (.bcc d) s s (branchCpu d (!c) s.cpu) (sameFlags s.cpu.p)) ∧
    (encode (.bcs d) = [0xB0#8, d] ∧ Completes (.bcs d) s s (branchCpu d c s.cpu) (sameFlags s.cpu.p)) ∧
    (encode (.beq d) = [0xF0#8, d] ∧ Completes (.beq d) s s (branchCpu d z s.cpu) (sameFlags s.cpu.p)) ∧
    (encode (.bmi d) = [0x30#8, d] ∧ Completes (.bmi d) s s (branchCpu d n s.cpu) (sameFlags s.cpu.p)) ∧
    (encode (.bne d) = [0xD0#8, d] ∧ Completes (.bne d) s s (branchCpu d (!z) s.cpu) (sameFlags s.cpu.p)) ∧
    (encode (.bpl d) = [0x10#8, d] ∧ Completes (.bpl d) s s (branchCpu d (!n) s.cpu) (sameFlags s.cpu.p)) ∧
    (encode (.bvc d) = [0x50#8, d] ∧ Completes (.bvc d) s s (branchCpu d (!v) s.cpu) (sameFlags s.cpu.p)) ∧
    (encode (.bvs d) = [0x70#8, d] ∧ Completes (.bvs d) s s (branchCpu d v s.cpu) (sameFlags s.cpu.p))

/-- R219, R113: JMP absolute completes in every state with PC the operand, 3 cycles; JMP indirect completes where its two pointer
reads are taken, low byte first, the second inside the pointer's page, 5 cycles; the target is not read. -/
def Obligations.JumpCompletes : Prop :=
  (∀ (w : Addr) (s : State),
    encode (.jmp (.abs w)) = [0x4C#8, loByte w, hiByte w] ∧ baseCycles (.jmp (.abs w)) = 3 ∧
    Completes (.jmp (.abs w)) s s { nextCpu (.jmp (.abs w)) 0 s.cpu with pc := w } (sameFlags s.cpu.p)) ∧
  ∀ (w w' : Addr) (s s1 s2 : State) (l h : Byte), w'.toNat = w.toNat / 256 * 256 + (w.toNat + 1) % 256 →
    Mapped s w → Mapped s w' → busValue w s = (l, s1) → busValue w' s1 = (h, s2) →
    encode (.jmp (.ind w)) = [0x6C#8, loByte w, hiByte w] ∧ baseCycles (.jmp (.ind w)) = 5 ∧
    Completes (.jmp (.ind w)) s s2 { nextCpu (.jmp (.ind w)) 0 s.cpu with pc := leWord l h } (sameFlags s.cpu.p)

/-- R220, R221: JSR pushes the address of its last byte, high byte first, and jumps; RTS pulls a word and continues one past it;
both complete in every state in 6 cycles, SP wrapping inside the stack page. -/
def Obligations.CallAndReturnComplete : Prop :=
  (∀ (target : Addr) (s : State),
    encode (.jsr target) = [0x20#8, loByte target, hiByte target] ∧ baseCycles (.jsr target) = 6 ∧
    Completes (.jsr target) s
      { s with
        ram :=
          (s.ram.write (stackSlot s.cpu.sp) (hiByte (s.cpu.pc + 2#16))).write
            (stackSlot (s.cpu.sp - 1#8)) (loByte (s.cpu.pc + 2#16)) }
      { nextCpu (.jsr target) 0 s.cpu with pc := target, sp := s.cpu.sp - 2#8 } (sameFlags s.cpu.p)) ∧
  ∀ s : State,
    OneByte .rts 0x60#8 6 ∧
    Completes .rts s s
      { nextCpu .rts 0 s.cpu with
        sp := s.cpu.sp + 2#8,
        pc := leWord (s.ram.read (stackSlot (s.cpu.sp + 1#8))) (s.ram.read (stackSlot (s.cpu.sp + 2#8))) + 1#16 }
      (sameFlags s.cpu.p)

/-- R220, R221: an RTS run on the state a JSR left continues after the JSR, with A, X, Y, SP and the flags but U as before it. -/
def Obligations.CallThenReturn : Prop :=
  ∀ (target : Addr) (s : State), ∃ t u, exec (.jsr target) s = .next t ∧ exec .rts t = .next u ∧
    t.cpu.pc = target ∧ u.cpu.pc = s.cpu.pc + 3#16 ∧ u.cpu.a = s.cpu.a ∧ u.cpu.x = s.cpu.x ∧ u.cpu.y = s.cpu.y ∧
    u.cpu.sp = s.cpu.sp ∧ ∀ f, f ≠ .unused → getFlag u.cpu.p f = getFlag s.cpu.p f

/-- R222, R388, R389: BRK completes with the entry sequence of vector 0xFFFE: it pushes BRK + 2 and P with bits 4 and 5 set, sets
I and B, leaves C, Z, V, N and D, and takes 7 cycles. -/
def Obligations.BreakCompletes : Prop :=
  OneByte .brk 0x00#8 7 ∧
  ∀ s : State, 0 < s.cart.header.prgBanks →
    ∃ t, exec .brk s = .next t ∧ Entered 0xFFFE#16 true (s.cpu.pc + 2#16) s t ∧
      (∀ f, getFlag t.cpu.p f = if f = .unused then true else entryFlags s.cpu.p true f) ∧
      t.cpu.cyclesRemaining = 7 ∧ t.cpu.nmiPending = s.cpu.nmiPending

/-- R223: RTI completes in every state: P is the first pulled byte with U set, PC the two bytes after it with no 1 added; 6
cycles. -/
def Obligations.ReturnFromInterruptCompletes : Prop :=
  ∀ s : State,
    OneByte .rti 0x40#8 6 ∧
    Completes .rti s s
      { nextCpu .rti 0 s.cpu with
        sp := s.cpu.sp + 3#8,
        pc := leWord (s.ram.read (stackSlot (s.cpu.sp + 2#8))) (s.ram.read (stackSlot (s.cpu.sp + 3#8))) }
      (pulledFlags (s.ram.read (stackSlot (s.cpu.sp + 1#8))))

/-! ## Stack and flags (45_stack_flag_misc.md) -/

/-- R230, R231: PHA pushes A and PHP pushes P with bits 4 and 5 set; both complete in every state in 3 cycles and write no flag
but U. -/
def Obligations.PushesComplete : Prop :=
  ∀ s : State,
    (OneByte .pha 0x48#8 3 ∧
      Completes .pha s { s with ram := s.ram.write (stackSlot s.cpu.sp) s.cpu.a }
        { nextCpu .pha 0 s.cpu with sp := s.cpu.sp - 1#8 } (sameFlags s.cpu.p)) ∧
    (OneByte .php 0x08#8 3 ∧
      Completes .php s { s with ram := s.ram.write (stackSlot s.cpu.sp) (s.cpu.p ||| 0x30#8) }
        { nextCpu .php 0 s.cpu with sp := s.cpu.sp - 1#8 } (sameFlags s.cpu.p))

/-- R232, R233: PLA pulls A and Z and N follow it; PLP pulls P with U set; both complete in every state in 4 cycles. -/
def Obligations.PullsComplete : Prop :=
  ∀ s : State,
    (OneByte .pla 0x68#8 4 ∧
      Completes .pla s s
        { nextCpu .pla 0 s.cpu with sp := s.cpu.sp + 1#8, a := s.ram.read (stackSlot (s.cpu.sp + 1#8)) }
        (nzFlags s.cpu.p (s.ram.read (stackSlot (s.cpu.sp + 1#8))))) ∧
    (OneByte .plp 0x28#8 4 ∧
      Completes .plp s s { nextCpu .plp 0 s.cpu with sp := s.cpu.sp + 1#8 }
        (pulledFlags (s.ram.read (stackSlot (s.cpu.sp + 1#8)))))

/-- R234 to R241: the flag instructions write their one flag (and U, R141), NOP none; all complete in every state in 2 cycles. -/
def Obligations.FlagInstructionsComplete : Prop :=
  ∀ s : State,
    (OneByte .clc 0x18#8 2 ∧ Completes .clc s s (nextCpu .clc 0 s.cpu) (oneFlag s.cpu.p .carry false)) ∧
    (OneByte .cld 0xD8#8 2 ∧ Completes .cld s s (nextCpu .cld 0 s.cpu) (oneFlag s.cpu.p .decimal false)) ∧
    (OneByte .cli 0x58#8 2 ∧ Completes .cli s s (nextCpu .cli 0 s.cpu) (oneFlag s.cpu.p .interrupt false)) ∧
    (OneByte .clv 0xB8#8 2 ∧ Completes .clv s s (nextCpu .clv 0 s.cpu) (oneFlag s.cpu.p .overflow false)) ∧
    (OneByte .sec 0x38#8 2 ∧ Completes .sec s s (nextCpu .sec 0 s.cpu) (oneFlag s.cpu.p .carry true)) ∧
    (OneByte .sed 0xF8#8 2 ∧ Completes .sed s s (nextCpu .sed 0 s.cpu) (oneFlag s.cpu.p .decimal true)) ∧
    (OneByte .sei 0x78#8 2 ∧ Completes .sei s s (nextCpu .sei 0 s.cpu) (oneFlag s.cpu.p .interrupt true)) ∧
    (OneByte .nop 0xEA#8 2 ∧ Completes .nop s s (nextCpu .nop 0 s.cpu) (sameFlags s.cpu.p))

/-! ## Frames: what every instruction leaves unchanged when it gives a next state -/

/-- R21, R22, R28: an instruction changes none of A, X, Y and SP but those `writtenRegs` lists for it: the destinations of R21 and
R22, and SP for TXS and every push and pull. -/
def Obligations.RegisterFrame : Prop :=
  ∀ (i : Instr) (s t : State) (r : Reg), i.wellFormed = true → exec i s = .next t → r ∉ writtenRegs i →
    regOf t.cpu r = regOf s.cpu r

/-- R25, R26, R27, R33: an instruction changes no flag but those `writtenFlags` lists for it; U is set by every one. -/
def Obligations.FlagFrame : Prop :=
  ∀ (i : Instr) (s t : State) (f : Flag), i.wellFormed = true → exec i s = .next t → f ∉ writtenFlags i →
    getFlag t.cpu.p f = (if f = .unused then true else getFlag s.cpu.p f)

/-- R115: an instruction that stores nothing (a load, a transfer, an arithmetic, logic or compare instruction, an accumulator
shift, a branch, a jump, a return, a pull, a flag instruction or NOP) leaves every byte of every memory, and the bank registers,
as they were. -/
def Obligations.LoadFrame : Prop :=
  ∀ (i : Instr) (s t : State), exec i s = .next t → storesNothing i = true → SameMemory s t

/-- R115, R116, R54: STA, STX, STY, INC, DEC and the memory shifts leave every byte of every memory outside the one their store
reaches as it was: the byte at their effective address, and where that is PPUDATA the entry of nametable RAM, palette or CHR RAM
behind `v`, which the read of a read-modify-write has stepped once (R266, R267, R268); they change bank registers only at
0x8000-0xFFFF. -/
def Obligations.StoreFrame : Prop :=
  ∀ (i : Instr) (o : Operand) (s t : State), storeOperand i = some o → exec i s = .next t →
    ∀ a, effectiveAddr o s = some a → SameMemoryBut a (storeV i a s) s t

/-- R28, R388: PHA, PHP, JSR and BRK change no byte of any memory but the stack slots they push into, the first at 0x0100 | SP
and each further one a slot lower, wrapping in the stack page. -/
def Obligations.StackFrame : Prop :=
  ∀ (i : Instr) (s t : State), exec i s = .next t → 0 < pushCount i →
    (∀ k, (∀ j, j < pushCount i → k ≠ stackSlot (s.cpu.sp - BitVec.ofNat 8 j)) → t.ram.read k = s.ram.read k) ∧
    t = { s with ram := t.ram, cpu := t.cpu }

/-- R34, R35, R252: no instruction changes the fault, the reset bit, the cartridge, the parameters, the raster position, the frame
flags, the background pipeline, the sprite buffers or the frame; those change by dots alone. -/
def Obligations.RasterFrame : Prop :=
  ∀ (i : Instr) (s t : State), exec i s = .next t →
    t.fault = s.fault ∧ t.resetDone = s.resetDone ∧ t.cart = s.cart ∧ t.irqLine = s.irqLine ∧
    t.oddSkipNeedsRendering = s.oddSkipNeedsRendering ∧
    t.ppu.scanline = s.ppu.scanline ∧ t.ppu.dot = s.ppu.dot ∧ t.ppu.oddFrame = s.ppu.oddFrame ∧
    t.ppu.frameReady = s.ppu.frameReady ∧ t.ppu.bgPatLo = s.ppu.bgPatLo ∧ t.ppu.bgPatHi = s.ppu.bgPatHi ∧
    t.ppu.bgAttLo = s.ppu.bgAttLo ∧ t.ppu.bgAttHi = s.ppu.bgAttHi ∧ t.ppu.ntLatch = s.ppu.ntLatch ∧
    t.ppu.atLatch = s.ppu.atLatch ∧ t.ppu.patLoLatch = s.ppu.patLoLatch ∧ t.ppu.patHiLatch = s.ppu.patHiLatch ∧
    t.ppu.spr = s.ppu.spr ∧ t.ppu.frame = s.ppu.frame

/-! ## The PPU's registers (50_ppu_registers.md) -/

/-- R260, R251: a PPUSTATUS read gives the three flags in bits 7 to 5 over a free value's low bits and clears vblank and w; a
read of a write-only register gives a free value and changes nothing but the draw counter (log 6). -/
def Obligations.StatusAndOpenBusReads : Prop :=
  ∀ (s : State) (a : Addr), InPpuWindow a →
    (a.toNat % 8 = 2 →
      ∃ v, cpuRead a s =
          .ok v { s with draws := s.draws + 1, ppu := { s.ppu with vblank := false, w := false } } ∧
        v.getLsbD 7 = s.ppu.vblank ∧ v.getLsbD 6 = s.ppu.spriteZeroHit ∧ v.getLsbD 5 = s.ppu.spriteOverflow ∧
        v &&& 0x1F#8 = Config.openBus s.draws &&& 0x1F#8) ∧
    (a.toNat % 8 = 0 ∨ a.toNat % 8 = 1 ∨ a.toNat % 8 = 3 ∨ a.toNat % 8 = 5 ∨ a.toNat % 8 = 6 →
      cpuRead a s = .ok (Config.openBus s.draws) { s with draws := s.draws + 1 })

/-- R258, R259, R269, R261, R251: PPUCTRL is stored whole, its bits 1:0 go to t[11:10], and a 0 to 1 change of bit 7 in vblank
sets the NMI latch, which no write clears; PPUMASK and OAMADDR are stored; a PPUSTATUS write changes nothing. -/
def Obligations.ControlWrites : Prop :=
  ∀ (s : State) (a : Addr) (d : Byte), InPpuWindow a →
    (a.toNat % 8 = 0 →
      ∃ t', cpuWrite a d s =
          .ok () { s with
            ppu := { s.ppu with ctrl := d, t := t' }
            cpu := { s.cpu with
              nmiPending := s.cpu.nmiPending || (s.ppu.vblank && !s.ppu.ctrl.getLsbD 7 && d.getLsbD 7) } } ∧
        ∀ i, t'.getLsbD i =
          if i = 10 then d.getLsbD 0 else if i = 11 then d.getLsbD 1 else s.ppu.t.getLsbD i) ∧
    (a.toNat % 8 = 1 → cpuWrite a d s = .ok () { s with ppu := { s.ppu with mask := d } }) ∧
    (a.toNat % 8 = 2 → cpuWrite a d s = .ok () s) ∧
    (a.toNat % 8 = 3 → cpuWrite a d s = .ok () { s with ppu := { s.ppu with oamAddr := d } })

/-- R264, R265, field by field: the first PPUSCROLL write sets coarse X and fine X, the second fine Y and coarse Y; the first
PPUADDR write sets t[13:8] and clears t[14], the second sets t[7:0] and copies t to v; the toggle alternates and nothing else
changes. -/
def Obligations.ScrollAddressWrites : Prop :=
  ∀ (s : State) (a : Addr) (d : Byte), InPpuWindow a → s.ppu.t.getLsbD 15 = false →
    (a.toNat % 8 = 5 → s.ppu.w = false →
      ∃ t', cpuWrite a d s =
          .ok () { s with ppu := { s.ppu with t := t', fineX := BitVec.ofNat 3 d.toNat, w := true } } ∧
        t'.toNat = s.ppu.t.toNat / 32 * 32 + d.toNat / 8) ∧
    (a.toNat % 8 = 5 → s.ppu.w = true →
      ∃ t', cpuWrite a d s = .ok () { s with ppu := { s.ppu with t := t', w := false } } ∧
        t'.toNat = d.toNat % 8 * 4096 + s.ppu.t.toNat / 1024 % 4 * 1024 + d.toNat / 8 * 32 + s.ppu.t.toNat % 32) ∧
    (a.toNat % 8 = 6 → s.ppu.w = false →
      ∃ t', cpuWrite a d s = .ok () { s with ppu := { s.ppu with t := t', w := true } } ∧
        t'.toNat = d.toNat % 64 * 256 + s.ppu.t.toNat % 256) ∧
    (a.toNat % 8 = 6 → s.ppu.w = true →
      ∃ t', cpuWrite a d s = .ok () { s with ppu := { s.ppu with t := t', v := t', w := false } } ∧
        t'.toNat = s.ppu.t.toNat / 256 * 256 + d.toNat)

/-- R266, R267, R268: below palette space a PPUDATA read returns the buffer and refills it, in palette space it returns the
entry's six bits under two free ones and refills the buffer from 0x1000 below; every PPUDATA access steps v by 1 or 32
modulo 2^15. -/
def Obligations.DataPortAccesses : Prop :=
  ∀ (s : State) (a : Addr), InPpuWindow a → a.toNat % 8 = 7 →
    ∃ v' : BitVec 16, v'.toNat = (s.ppu.v.toNat + (if s.ppu.ctrl.getLsbD 2 then 32 else 1)) % 0x8000 ∧
      ((ppuMask s.ppu.v).toNat < 0x3F00 →
        cpuRead a s =
          .ok s.ppu.readBuffer { s with ppu := { s.ppu with readBuffer := ppuBusRead s s.ppu.v, v := v' } }) ∧
      (0x3F00 ≤ (ppuMask s.ppu.v).toNat →
        ∃ r, cpuRead a s =
            .ok r { s with
              draws := s.draws + 1
              ppu := { s.ppu with readBuffer := ppuBusRead s (ppuMask s.ppu.v - 0x1000#16), v := v' } } ∧
          r.setWidth 6 = s.ppu.palette.read (palIndex s.ppu.v) ∧
          r &&& 0xC0#8 = Config.openBus s.draws &&& 0xC0#8) ∧
      ∀ d, ∃ t, cpuWrite a d s = .ok () t ∧ t.ppu.v = v' ∧
        t = { ppuBusWrite s s.ppu.v d with ppu := { (ppuBusWrite s s.ppu.v d).ppu with v := v' } }

/-- R280: through the register window, a byte written at an address below 0x3F00 that is nametable or CHR RAM is the second byte
read back from that address; at a palette address the first read gives its low six bits; at a CHR ROM address the second read
gives the ROM byte. The second read is buffered only while the stepped address is below 0x3F00 (R266; log 15). -/
def Obligations.DataPortRoundTrip : Prop :=
  ∀ (s r1 r2 : State) (h l d b1 b2 : Byte) (a : Addr), s.ppu.w = false → a = leWord l (h &&& 0x3F#8) →
    busValue 0x2007#16 (busStore 0x2006#16 l (busStore 0x2006#16 h
      (busStore 0x2007#16 d (busStore 0x2006#16 l (busStore 0x2006#16 h s))))) = (b1, r1) →
    busValue 0x2007#16 r1 = (b2, r2) →
      (a.toNat + (if s.ppu.ctrl.getLsbD 2 then 32 else 1) < 0x3F00 →
        (0x2000 ≤ a.toNat ∨ s.cart.header.chrBanks = 0) → b2 = d) ∧
      (a.toNat < 0x2000 → 0 < s.cart.header.chrBanks → b2 = chrRead s a) ∧
      (0x3F00 ≤ a.toNat → b1 &&& 0x3F#8 = d &&& 0x3F#8)

/-- R262, R263: an OAMDATA write stores all eight bits at OAMADDR and steps it modulo 256; an OAMDATA read returns the byte at
OAMADDR and changes nothing. -/
def Obligations.OamPort : Prop :=
  ∀ (s : State) (a : Addr) (d : Byte), InPpuWindow a → a.toNat % 8 = 4 →
    cpuRead a s = .ok (s.ppu.oam.read s.ppu.oamAddr.toNat) s ∧
    ∃ m, cpuWrite a d s =
        .ok () { s with ppu := { s.ppu with oam := m, oamAddr := BitVec.ofNat 8 (s.ppu.oamAddr.toNat + 1) } } ∧
      ∀ k, m.read k = if k = s.ppu.oamAddr.toNat then d else s.ppu.oam.read k

/-- R276, R277: the four logical nametables reach the physical tables of the mirroring and 0x3000-0x3EFF mirrors
0x2000-0x2EFF; the palette repeats every 32 bytes and the backdrop entries of the sprite palettes are the background's. -/
def Obligations.NametableAndPaletteMirrors : Prop :=
  (∀ (m : Mirroring) (q o : Nat), q < 4 → o < 0x400 →
    ntIndex m (BitVec.ofNat 16 (0x2000 + q * 0x400 + o)) = physicalTable m q * 0x400 + o) ∧
  (∀ (m : Mirroring) (a : Addr), 0x3000 ≤ a.toNat → a.toNat < 0x3F00 → ntIndex m a = ntIndex m (a - 0x1000#16)) ∧
  ∀ a : Addr, 0x3F00 ≤ a.toNat → a.toNat < 0x4000 →
    palIndex a = if a.toNat % 32 < 16 ∨ a.toNat % 4 ≠ 0 then a.toNat % 32 else a.toNat % 32 - 16

/-! ## The dot machine (51_ppu_rendering.md) -/

/-- R296, R297, field by field: coarse X counts modulo 32 and its wrap flips v[10]; fine Y counts modulo 8 and its wrap steps
coarse Y, which wraps after row 29 flipping v[11] and after row 31 without; the other bits stay. -/
def Obligations.ScrollIncrements : Prop :=
  ∀ v : BitVec 16, v.getLsbD 15 = false →
    ((incrementCoarseX v).toNat % 32 = (v.toNat + 1) % 32 ∧
      (incrementCoarseX v).getLsbD 10 = (v.getLsbD 10 ^^ decide (v.toNat % 32 = 31)) ∧
      ∀ i, 5 ≤ i → i ≠ 10 → (incrementCoarseX v).getLsbD i = v.getLsbD i) ∧
    ((incrementY v).toNat / 4096 = (v.toNat / 4096 + 1) % 8 ∧
      (incrementY v).toNat / 32 % 32 =
        (if v.toNat / 4096 = 7 then
          (if v.toNat / 32 % 32 = 29 then 0 else (v.toNat / 32 % 32 + 1) % 32)
        else v.toNat / 32 % 32) ∧
      (incrementY v).getLsbD 11 =
        (v.getLsbD 11 ^^ (decide (v.toNat / 4096 = 7) && decide (v.toNat / 32 % 32 = 29))) ∧
      (incrementY v).toNat % 32 = v.toNat % 32 ∧ (incrementY v).getLsbD 10 = v.getLsbD 10)

/-- R318, R319: the dot at line 241, dot 1 sets vblank and, with PPUCTRL bit 7, the NMI latch; the dot at line 261, dot 1 clears
the three status flags. No other dot changes vblank or the latch, rendering or not: this is read from the inference the spec
marks in R320 and from the schedule of R38, R290 and R291. -/
def Obligations.VblankEvents : Prop :=
  ∀ s : State,
    (s.ppu.scanline = 241 ∧ s.ppu.dot = 1 →
      (tickDot s).ppu.vblank = true ∧
      (tickDot s).cpu.nmiPending = (s.cpu.nmiPending || s.ppu.ctrl.getLsbD 7)) ∧
    (s.ppu.scanline = 261 ∧ s.ppu.dot = 1 →
      (tickDot s).ppu.vblank = false ∧ (tickDot s).ppu.spriteZeroHit = false ∧
      (tickDot s).ppu.spriteOverflow = false ∧ (tickDot s).cpu = s.cpu) ∧
    (¬ ((s.ppu.scanline = 241 ∨ s.ppu.scanline = 261) ∧ s.ppu.dot = 1) →
      (tickDot s).ppu.vblank = s.ppu.vblank ∧ (tickDot s).cpu = s.cpu)

/-- R321, R322, R323, R325: from the first dot of a frame the raster returns there for the first time after 89342 dots, or 89341
on an odd frame whose skip is enabled, with oddFrame flipped and frameReady set, and not sooner. -/
def Obligations.FrameCadence : Prop :=
  ∀ (s : State) (n : Nat), s.ppu.scanline = 0 → s.ppu.dot = 0 →
    n = (if s.ppu.oddFrame && (!s.oddSkipNeedsRendering || renderingEnabled s.ppu) then 89341 else 89342) →
    (tickDot^[n] s).ppu.scanline = 0 ∧ (tickDot^[n] s).ppu.dot = 0 ∧
    (tickDot^[n] s).ppu.oddFrame = !s.ppu.oddFrame ∧ (tickDot^[n] s).ppu.frameReady = true ∧
    ∀ k, 0 < k → k < n →
      ¬ ((tickDot^[k] s).ppu.scanline = 0 ∧ (tickDot^[k] s).ppu.dot = 0) ∧
      (tickDot^[k] s).ppu.frameReady = s.ppu.frameReady

/-- R292: with rendering disabled a dot changes neither v nor t, no shifter, no latch, no sprite buffer, and sets neither
spriteZeroHit nor spriteOverflow. With rendering enabled it runs the background pipeline at dots 0-255 and 320-335 of lines
0-239 and 261 and at no other dot: the shift (R302), then the fetch or the load of its phase (R293, R294, R300, R301); and `v`
steps its coarse X at phase 7 (R296), its vertical position at dot 248 (R297), takes t's horizontal bits at dot 256 (R298) and
t's vertical bits at dots 280-304 of line 261 (R299), and stays at every other dot. -/
def Obligations.RenderingOffQuiet : Prop :=
  ∀ s : State,
    (renderingEnabled s.ppu = false →
      (tickDot s).ppu.v = s.ppu.v ∧ (tickDot s).ppu.t = s.ppu.t ∧ PipelineRests s.ppu (tickDot s).ppu ∧
      (tickDot s).ppu.spr = s.ppu.spr ∧
      ((tickDot s).ppu.spriteZeroHit = true → s.ppu.spriteZeroHit = true) ∧
      ((tickDot s).ppu.spriteOverflow = true → s.ppu.spriteOverflow = true)) ∧
    (renderingEnabled s.ppu = true →
      (tickDot s).ppu.t = s.ppu.t ∧
      (AtPipelineDot s.ppu → PipelineRuns s (tickDot s).ppu) ∧
      (¬ AtPipelineDot s.ppu → PipelineRests s.ppu (tickDot s).ppu) ∧
      (AtPipelineDot s.ppu → s.ppu.dot % 8 = 7 → (tickDot s).ppu.v = incrementCoarseX s.ppu.v) ∧
      (OnFetchLine s.ppu → s.ppu.dot = 248 → (tickDot s).ppu.v = incrementY s.ppu.v) ∧
      (OnFetchLine s.ppu → s.ppu.dot = 256 → Copies true s.ppu.v s.ppu.t (tickDot s).ppu.v) ∧
      (s.ppu.scanline = 261 → 280 ≤ s.ppu.dot → s.ppu.dot ≤ 304 → Copies false s.ppu.v s.ppu.t (tickDot s).ppu.v) ∧
      (¬ (AtPipelineDot s.ppu ∧ s.ppu.dot % 8 = 7) → ¬ (OnFetchLine s.ppu ∧ (s.ppu.dot = 248 ∨ s.ppu.dot = 256)) →
        ¬ (s.ppu.scanline = 261 ∧ 280 ≤ s.ppu.dot ∧ s.ppu.dot ≤ 304) → (tickDot s).ppu.v = s.ppu.v))

/-- R303, R309 to R314, R316: a dot 0-255 of a line 0-239 writes its own pixel of the frame and no other: with rendering, the
sprite's colour where it is opaque and in front or the background is transparent, else the background's, else the backdrop;
without rendering, the backdrop or the palette entry v points to; grayscale keeps bits 5:4. The sprite pixel is the one of the
buffers as evaluation leaves them, which dot 0 runs first (R290); where both layers are opaque and it comes from OAM entry 0,
spriteZeroHit is set (R310). Every other dot leaves the frame, and sets no spriteZeroHit. -/
def Obligations.PixelPriority : Prop :=
  ∀ (s e : State) (grey : BitVec 6) (sp bp : BitVec 2) (c at' pal : Nat),
    c = s.ppu.dot → at' = 256 * s.ppu.scanline + c →
    e = (if s.ppu.dot = 0 ∧ renderingEnabled s.ppu = true then evaluateSprites s else s) →
    grey = (if s.ppu.mask.getLsbD 0 then 0x30#6 else 0x3F#6) →
    sp = (if s.ppu.mask.getLsbD 4 = true ∧ (8 ≤ c ∨ s.ppu.mask.getLsbD 2 = true) then e.ppu.spr.pix.read c else 0#2) →
    bp =
      (if s.ppu.mask.getLsbD 3 = true ∧ (8 ≤ c ∨ s.ppu.mask.getLsbD 1 = true) then
        twoBits (s.ppu.bgPatHi.getLsbD (15 - s.ppu.fineX.toNat)) (s.ppu.bgPatLo.getLsbD (15 - s.ppu.fineX.toNat))
      else 0#2) →
    pal = (twoBits (s.ppu.bgAttHi.getLsbD (15 - s.ppu.fineX.toNat))
      (s.ppu.bgAttLo.getLsbD (15 - s.ppu.fineX.toNat))).toNat →
    (c < 256 → s.ppu.scanline < 240 →
      (∀ k, k ≠ at' → (tickDot s).ppu.frame.read k = s.ppu.frame.read k) ∧
      (renderingEnabled s.ppu = true → sp ≠ 0#2 → (e.ppu.spr.behind.read c = 0#1 ∨ bp = 0#2) →
        (tickDot s).ppu.frame.read at' =
          s.ppu.palette.read (16 + 4 * (e.ppu.spr.pal.read c).toNat + sp.toNat) &&& grey) ∧
      (renderingEnabled s.ppu = true → (sp = 0#2 ∨ e.ppu.spr.behind.read c = 1#1) → bp ≠ 0#2 →
        (tickDot s).ppu.frame.read at' = s.ppu.palette.read (4 * pal + bp.toNat) &&& grey) ∧
      (renderingEnabled s.ppu = true → sp = 0#2 → bp = 0#2 →
        (tickDot s).ppu.frame.read at' = s.ppu.palette.read 0 &&& grey) ∧
      (renderingEnabled s.ppu = false →
        (tickDot s).ppu.frame.read at' =
          s.ppu.palette.read (if 0x3F00 ≤ s.ppu.v.toNat % 0x4000 then palIndex s.ppu.v else 0) &&& grey) ∧
      (tickDot s).ppu.spriteZeroHit =
        (s.ppu.spriteZeroHit ||
          decide (renderingEnabled s.ppu = true ∧ e.ppu.spr.zero.read c = 1#1 ∧ sp ≠ 0#2 ∧ bp ≠ 0#2))) ∧
    (¬ (c < 256 ∧ s.ppu.scanline < 240) →
      (tickDot s).ppu.frame = s.ppu.frame ∧
      (¬ (s.ppu.scanline = 261 ∧ c = 1) → (tickDot s).ppu.spriteZeroHit = s.ppu.spriteZeroHit))

/-- R305, R308: evaluation sets spriteOverflow exactly when nine or more OAM entries are in range of the line, and keeps it once
set; on line 0 no entry is in range, so no sprite pixel is opaque. R306, R307: each column of the sprite buffers shows, of the
first eight entries in range, the first that is opaque there, with its palette, its priority and whether it is entry 0; nothing
where there is none. A dot runs evaluation exactly at dot 0 of lines 0-239 with rendering enabled (R290, R292); every other dot
leaves the buffers, and the overflow flag but at line 261, dot 1. -/
def Obligations.SpriteOverflow : Prop :=
  ∀ (s : State) (b : SpriteBuffers) (overflow : Bool), b = (evaluateSprites s).ppu.spr →
    overflow =
      (s.ppu.spriteOverflow || decide (9 ≤ ((List.range 64).filter (spriteInRange s s.ppu.scanline)).length)) →
    (evaluateSprites s).ppu.spriteOverflow = overflow ∧
    (s.ppu.scanline = 0 → b = ⟨[], [], [], []⟩) ∧
    (∀ c, c < 256 → spriteAt s s.ppu.scanline c = none →
      b.pix.read c = 0#2 ∧ b.pal.read c = 0#2 ∧ b.behind.read c = 0#1 ∧ b.zero.read c = 0#1) ∧
    (∀ c i, c < 256 → spriteAt s s.ppu.scanline c = some i →
      b.pix.read c = spriteColour s s.ppu.scanline i c ∧
      b.pal.read c = (s.ppu.oam.read (4 * i + 2)).extractLsb' 0 2 ∧
      b.behind.read c = (s.ppu.oam.read (4 * i + 2)).extractLsb' 5 1 ∧
      b.zero.read c = (if i = 0 then 1#1 else 0#1)) ∧
    (s.ppu.dot = 0 ∧ s.ppu.scanline < 240 ∧ renderingEnabled s.ppu = true →
      (tickDot s).ppu.spr = b ∧ (tickDot s).ppu.spriteOverflow = overflow) ∧
    (¬ (s.ppu.dot = 0 ∧ s.ppu.scanline < 240 ∧ renderingEnabled s.ppu = true) →
      (tickDot s).ppu.spr = s.ppu.spr ∧
      (¬ (s.ppu.scanline = 261 ∧ s.ppu.dot = 1) → (tickDot s).ppu.spriteOverflow = s.ppu.spriteOverflow))

/-! ## The cartridge (55_cartridge_mappers.md) and the host (60_exceptions.md, 70_reset_and_hazards.md) -/

/-- R355, R362, R367: the 16 KiB bank each mapper shows in each half of 0x8000-0xFFFF: NROM mirrors one bank and maps two in
line; UxROM switches the lower half and fixes the last bank above; MMC1 in modes 0 and 1 switches 32 KiB, in mode 2 fixes the
first bank below, in mode 3 the last above. In modes 0 and 1 with an odd bank count a free value says whether R354 or R362 holds
(log 12). R356, R363, R368: NROM and UxROM show one fixed 8 KiB of CHR memory, MMC1 one 8 KiB bank or two 4 KiB banks, always
inside the memory. R353, R361, R364: the mirroring is the header's, but MMC1's control bits 1:0 say it for MMC1. -/
def Obligations.PrgBankMaps : Prop :=
  (∀ (a : Addr) (n half o : Nat), 0 < n → a.toNat = 0x8000 + half * 0x4000 + o → half < 2 → o < 0x4000 →
    prgOffset .nrom 1 a = o ∧ prgOffset .nrom 2 a = half * 0x4000 + o ∧
    (∀ b : Byte, prgOffset (.uxrom b) n a = (if half = 0 then b.toNat % 16 % n else n - 1) * 0x4000 + o) ∧
    ∀ r : Mmc1,
      (r.control.toNat / 4 % 4 < 2 →
        prgOffset (.mmc1 r) n a =
          ((if n % 2 = 1 ∧ Config.mmc1Reduces32K = true then r.prgBank.toNat % 16 / 2 % max (n / 2) 1
            else r.prgBank.toNat % 16 / 2) * 2 + half) % n * 0x4000 + o) ∧
      (r.control.toNat / 4 % 4 = 2 →
        prgOffset (.mmc1 r) n a = (if half = 0 then 0 else r.prgBank.toNat % 16) % n * 0x4000 + o) ∧
      (r.control.toNat / 4 % 4 = 3 →
        prgOffset (.mmc1 r) n a = (if half = 0 then r.prgBank.toNat % 16 else n - 1) % n * 0x4000 + o)) ∧
  (∀ (a : Addr) (n half o : Nat), 0 < n → a.toNat = half * 0x1000 + o → half < 2 → o < 0x1000 →
    chrOffset .nrom (n * 0x2000) a = a.toNat ∧ (∀ b : Byte, chrOffset (.uxrom b) (n * 0x2000) a = a.toNat) ∧
    ∀ r : Mmc1,
      (r.control.getLsbD 4 = false →
        chrOffset (.mmc1 r) (n * 0x2000) a = r.chrBank0.toNat / 2 % n * 0x2000 + a.toNat) ∧
      (r.control.getLsbD 4 = true →
        chrOffset (.mmc1 r) (n * 0x2000) a =
          (if half = 0 then r.chrBank0.toNat else r.chrBank1.toNat) % (2 * n) * 0x1000 + o)) ∧
  ∀ s : State,
    (s.mapper = .nrom → mirroringOf s = s.cart.header.mirroring) ∧
    (∀ b, s.mapper = .uxrom b → mirroringOf s = s.cart.header.mirroring) ∧
    ∀ r, s.mapper = .mmc1 r →
      mirroringOf s =
        if r.control.toNat % 4 = 0 then .oneScreenLower
        else if r.control.toNat % 4 = 1 then .oneScreenUpper
        else if r.control.toNat % 4 = 2 then .vertical
        else .horizontal

/-- R358, R359, R360: five stores with bit 7 clear from an empty MMC1 shift register write their low bits, the first the least
significant, to the register that bits 14:13 of the fifth address select, and empty the shift register; a store with bit 7 set
empties it at any fill and forces PRG mode 3. R366: every store sets UxROM's one register to the whole byte. R357: no store
changes NROM. -/
def Obligations.Mmc1Serial : Prop :=
  (∀ (r : Mmc1) (a1 a2 a3 a4 a5 : Addr) (d1 d2 d3 d4 d5 : Byte) (value : BitVec 5),
    r.shiftCount = 0 →
    d1.getLsbD 7 = false → d2.getLsbD 7 = false → d3.getLsbD 7 = false → d4.getLsbD 7 = false →
    d5.getLsbD 7 = false →
    value.toNat = d1.toNat % 2 + 2 * (d2.toNat % 2) + 4 * (d3.toNat % 2) + 8 * (d4.toNat % 2) + 16 * (d5.toNat % 2) →
    mapperWrite (mapperWrite (mapperWrite (mapperWrite (mapperWrite (.mmc1 r) a1 d1) a2 d2) a3 d3) a4 d4) a5 d5 =
      .mmc1
        (if a5.toNat / 0x2000 % 4 = 0 then { r with shift := 0#5, control := value }
        else if a5.toNat / 0x2000 % 4 = 1 then { r with shift := 0#5, chrBank0 := value }
        else if a5.toNat / 0x2000 % 4 = 2 then { r with shift := 0#5, chrBank1 := value }
        else { r with shift := 0#5, prgBank := value })) ∧
  (∀ (r : Mmc1) (a : Addr) (d : Byte), d.getLsbD 7 = true →
    mapperWrite (.mmc1 r) a d = .mmc1 { r with shift := 0#5, shiftCount := 0, control := r.control ||| 0x0C#5 }) ∧
  (∀ (b : Byte) (a : Addr) (d : Byte), mapperWrite (.uxrom b) a d = .uxrom d) ∧
  ∀ (a : Addr) (d : Byte), mapperWrite .nrom a d = .nrom

/-- R344, R399: construction gives a machine exactly for a file that is there, has 16 header bytes with the magic signature and
the bytes its header asks for, at least one PRG bank and a mapper of 0, 1 or 2, and for mapper 0 one or two PRG banks; every other
file, and a missing one, gives the load fault of its defect, which carries the number of an unsupported mapper (R373); of several
defects the first in R344's order counts (log 20). R341, R343: the header's fields are read from bytes 4 to 8.
R340, R345, R346, R371, R425: the machine has that header and its mapper at its construction values, PRG ROM and CHR ROM from the
file after the trainer, CHR RAM and the other memories from the parameters, PRG RAM from a save image of 8192 bytes or else zero
with the save fault logged; it has no fault, and a step before reset() is refused (log 10). -/
def Obligations.LoadAdmits : Prop :=
  (∀ f : List Byte, 16 ≤ f.length → HeaderSays f (parseHeader f)) ∧
  ∀ p : Params,
    ((∃ b, construct p = .ok b) ↔
      ∃ f, p.file = some f ∧ 16 ≤ f.length ∧ f.take 4 = [0x4E#8, 0x45#8, 0x53#8, 0x1A#8] ∧
        16 + (if (parseHeader f).hasTrainer then 512 else 0) + (parseHeader f).prgBanks * 16384 +
          (parseHeader f).chrBanks * 8192 ≤ f.length ∧
        0 < (parseHeader f).prgBanks ∧ (parseHeader f).mapper ≤ 2 ∧
        ((parseHeader f).mapper = 0 → (parseHeader f).prgBanks ≤ 2)) ∧
    (p.file = none → construct p = .error { cause := .load .fileMissing, pc := none }) ∧
    (∀ f c, p.file = some f → LoadFails f c → construct p = .error { cause := .load c, pc := none }) ∧
    (∀ r, construct p = .error r → ∃ c, r = { cause := .load c, pc := none } ∧
      ((p.file = none ∧ c = .fileMissing) ∨ ∃ f, p.file = some f ∧ LoadFails f c)) ∧
    ∀ b f, construct p = .ok b → p.file = some f →
      BuiltFrom p f b ∧ mapperNumber b.machine.mapper = b.machine.cart.header.mapper ∧
      0 < b.machine.cart.header.prgBanks ∧ step b.machine = .refused .beforeReset

/-- R420 to R424: reset() gives A, X, Y zero, SP 0xFD, P 0x24, no NMI pending, eight cycles to wait and PC the word at the reset
vector through the mapper; every register, counter, shifter, latch and buffer of the PPU and the frame become zero (an empty
memory reads zero everywhere, log 14); OAM, palette, nametables, every other memory, the bank registers and the fault stay. -/
def Obligations.ResetCall : Prop :=
  ∀ s : State, 0 < s.cart.header.prgBanks →
    hostReset s =
      .next { s with
        cpu := {
          a := 0#8
          x := 0#8
          y := 0#8
          sp := 0xFD#8
          pc := leWord (cartByte s 0xFFFC#16) (cartByte s 0xFFFD#16)
          p := 0x24#8
          cyclesRemaining := 8
          nmiPending := false }
        ppu := {
          ctrl := 0#8
          mask := 0#8
          vblank := false
          spriteZeroHit := false
          spriteOverflow := false
          oamAddr := 0#8
          oam := s.ppu.oam
          readBuffer := 0#8
          v := 0#16
          t := 0#16
          fineX := 0#3
          w := false
          palette := s.ppu.palette
          vram := s.ppu.vram
          scanline := 0
          dot := 0
          oddFrame := false
          frameReady := false
          bgPatLo := 0#16
          bgPatHi := 0#16
          bgAttLo := 0#16
          bgAttHi := 0#16
          ntLatch := 0#8
          atLatch := 0#2
          patLoLatch := 0#8
          patHiLatch := 0#8
          spr := { pix := [], pal := [], behind := [], zero := [] }
          frame := [] }
        resetDone := true }

/-! ## Invariants -/

/-- R8, R39, R43, R44, R47 to R50: every memory stays canonical (the model's form, log 14) and inside the size the spec gives it:
any step from a state in which all are keeps all so. -/
def Obligations.StepKeepsMemoryInv : Prop :=
  ∀ s t : State, MemoryInv s → step s = .next t → MemoryInv t

/-- R31, R33, R41, R45, R52: U reads 1, the cycle counter is at most 8, bit 15 of v and t is 0, the raster is inside its
341 x 262 dots and the MMC1 shift register holds at most four bits: any step keeps all of it. -/
def Obligations.StepKeepsRegisterInv : Prop :=
  ∀ s t : State, RegisterInv s → step s = .next t → RegisterInv t

/-- R35, R50, R51 to R53: no step changes the header or a byte of PRG ROM, nor a byte of CHR ROM where there is any, nor the
kind of mapper; NROM has no register to change. -/
def Obligations.StepKeepsCartridge : Prop :=
  ∀ s t : State, step s = .next t →
    t.cart = s.cart ∧ (0 < s.cart.header.chrBanks → t.chrMem = s.chrMem) ∧
    mapperNumber t.mapper = mapperNumber s.mapper ∧ (s.mapper = .nrom → t.mapper = .nrom)

/-- R55: the state after reset() meets the invariants (its cartridge and its memories are the model's choice, log 4, 5). -/
def Obligations.ResetMeetsInvariants : Prop := MemoryInv State.reset ∧ RegisterInv State.reset
end

