-- ==== Sys2Proof/Laws/Flags.lean ====
section
/-! SUPPORT. What each flag computation does to each flag. -/

namespace Sys2Proof.Laws

open Sys2Proof.Machine

/-- Writing one flag writes that flag and no other. -/
@[simp] theorem getFlag_setFlag (p : Byte) (f : Flag) (b : Bool) (g : Flag) :
    getFlag (setFlag p f b) g = if f = g then b else getFlag p g := by
  cases b <;> cases f <;> cases g <;> simp [getFlag, setFlag, flagBit]

/-- Two status bytes with the same flags are the same byte. -/
theorem ext_getFlag {p q : Byte} (h : ∀ f, getFlag p f = getFlag q f) : p = q := by
  apply BitVec.eq_of_getLsbD_eq
  intro i hi
  have := h .carry; have := h .zero; have := h .interrupt; have := h .decimal
  have := h .brk; have := h .unused; have := h .overflow; have := h .negative
  simp only [getFlag, flagBit] at *
  interval_cases i <;> assumption

theorem getFlag_setNZ (p v : Byte) (g : Flag) :
    getFlag (setNZ p v) g =
      match g with
      | .zero => v == 0#8
      | .negative => v.getLsbD 7
      | f => getFlag p f := by
  cases g <;> simp [setNZ]

end Sys2Proof.Laws
end

