-- ==== Sys2Proof/Laws/Memory.lean ====
section
/-! SUPPORT. The laws of the canonical memory: a read after a write, and that a write keeps the form and the size. -/

namespace Sys2Proof.Laws

open Sys2Proof.Machine

variable {w : Nat}

@[simp] theorem read_nil (a : Nat) : Memory.read ([] : Memory w) a = 0#w := rfl

theorem read_cons (k : Nat) (u : BitVec w) (m : Memory w) (a : Nat) :
    Memory.read ((k, u) :: m) a = if k = a then u else Memory.read m a := rfl

theorem read_insert (a : Nat) (v : BitVec w) (m : Memory w) (b : Nat) :
    (Memory.insert a v m).read b = if a = b then v else m.read b := by
  induction m with
  | nil => simp [Memory.insert, read_cons]
  | cons c m ih =>
    obtain ⟨k, u⟩ := c
    simp only [Memory.insert]
    split
    · simp [read_cons]
    · split
      · rename_i h
        subst h
        by_cases hb : a = b <;> simp [read_cons, hb]
      · rename_i hne
        by_cases hk : k = b
        · subst hk; simp [read_cons, hne]
        · simp [read_cons, hk, ih]

theorem read_filter_ne (m : Memory w) (a b : Nat) :
    Memory.read (m.filter (fun c => c.1 != a)) b = if a = b then 0#w else m.read b := by
  induction m with
  | nil => simp
  | cons c m ih =>
    obtain ⟨k, u⟩ := c
    by_cases hk : k = a
    · subst hk
      rw [List.filter_cons_of_neg (by simp), ih, read_cons]
      split <;> rfl
    · by_cases hb : k = b
      · subst hb; simp [read_cons, hk, Ne.symm hk]
      · simp [read_cons, hk, hb, ih]

/-- A read after a write: the value at the entry written, the old value everywhere else. -/
theorem read_write (m : Memory w) (a : Nat) (v : BitVec w) (b : Nat) :
    (m.write a v).read b = if a = b then v else m.read b := by
  unfold Memory.write
  split
  · rename_i h; subst h; exact read_filter_ne m a b
  · exact read_insert a v m b

@[simp] theorem read_write_same (m : Memory w) (a : Nat) (v : BitVec w) : (m.write a v).read a = v := by
  simp [read_write]

theorem read_write_other (m : Memory w) {a b : Nat} (v : BitVec w) (h : a ≠ b) : (m.write a v).read b = m.read b := by
  simp [read_write, h]

/-! ## The size -/

theorem fits_iff (m : Memory w) (n : Nat) : m.fits n = true ↔ ∀ c ∈ m, c.1 < n := by
  simp [Memory.fits]

theorem mem_insert {a : Nat} {v : BitVec w} {m : Memory w} {c : Nat × BitVec w} (h : c ∈ Memory.insert a v m) :
    c = (a, v) ∨ c ∈ m := by
  induction m with
  | nil => simpa [Memory.insert] using h
  | cons d m ih =>
    obtain ⟨k, u⟩ := d
    simp only [Memory.insert] at h
    split at h
    · simpa using h
    · split at h
      · rcases List.mem_cons.1 h with h | h
        · exact Or.inl h
        · exact Or.inr (List.mem_cons_of_mem _ h)
      · rcases List.mem_cons.1 h with h | h
        · exact Or.inr (by simp [h])
        · exact (ih h).imp_right (List.mem_cons_of_mem _)

/-- Whatever a write lists is the entry written or was listed before. -/
theorem mem_write {a : Nat} {v : BitVec w} {m : Memory w} {c : Nat × BitVec w} (h : c ∈ m.write a v) :
    c = (a, v) ∨ c ∈ m := by
  unfold Memory.write at h
  split at h
  · exact Or.inr (List.mem_of_mem_filter h)
  · exact mem_insert h

/-- A write inside the size keeps the size. -/
theorem fits_write {m : Memory w} {n a : Nat} (v : BitVec w) (h : m.fits n = true) (ha : a < n) :
    (m.write a v).fits n = true := by
  rw [fits_iff] at *
  intro c hc
  rcases mem_write hc with rfl | hc
  · exact ha
  · exact h c hc

/-! ## The canonical form -/

@[simp] theorem wf_nil : Memory.wf ([] : Memory w) = true := rfl

@[simp] theorem fits_nil (n : Nat) : Memory.fits ([] : Memory w) n = true := rfl

theorem wf_cons (k : Nat) (u : BitVec w) (m : Memory w) :
    Memory.wf ((k, u) :: m) = true ↔ u ≠ 0#w ∧ (∀ c ∈ m, k < c.1) ∧ m.wf = true := by
  simp [Memory.wf, and_assoc]

theorem wf_filter (m : Memory w) (q : Nat × BitVec w → Bool) (h : m.wf = true) : Memory.wf (m.filter q) = true := by
  induction m with
  | nil => rfl
  | cons c m ih =>
    obtain ⟨k, u⟩ := c
    obtain ⟨hu, hk, hm⟩ := (wf_cons k u m).1 h
    rw [List.filter_cons]
    split
    · exact (wf_cons k u _).2 ⟨hu, fun c hc => hk c (List.mem_of_mem_filter hc), ih hm⟩
    · exact ih hm

theorem wf_insert (a : Nat) {v : BitVec w} (hv : v ≠ 0#w) (m : Memory w) (h : m.wf = true) :
    (Memory.insert a v m).wf = true := by
  induction m with
  | nil => simp [Memory.insert, wf_cons, hv]
  | cons c m ih =>
    obtain ⟨k, u⟩ := c
    obtain ⟨hu, hk, hm⟩ := (wf_cons k u m).1 h
    simp only [Memory.insert]
    split
    · rename_i hlt
      refine (wf_cons a v _).2 ⟨hv, fun c hc => ?_, h⟩
      rcases List.mem_cons.1 hc with rfl | hc
      · exact hlt
      · exact Nat.lt_trans hlt (hk c hc)
    · split
      · rename_i heq
        subst heq
        exact (wf_cons a v _).2 ⟨hv, hk, hm⟩
      · refine (wf_cons k u _).2 ⟨hu, fun c hc => ?_, ih hm⟩
        rcases mem_insert hc with rfl | hc
        · simp only; omega
        · exact hk c hc

/-- A write keeps the canonical form. -/
theorem wf_write {m : Memory w} (a : Nat) (v : BitVec w) (h : m.wf = true) : (m.write a v).wf = true := by
  unfold Memory.write
  split
  · exact wf_filter m _ h
  · rename_i hv; exact wf_insert a hv m h

theorem ofList_mem {s : Nat} {l : List (BitVec w)} {c : Nat × BitVec w} (h : c ∈ Memory.ofList s l) :
    s ≤ c.1 ∧ c.1 < s + l.length := by
  induction l generalizing s with
  | nil => simp [Memory.ofList] at h
  | cons v l ih =>
    simp only [Memory.ofList] at h
    split at h
    · have := ih h; simp; omega
    · rcases List.mem_cons.1 h with rfl | h
      · simp
      · have := ih h; simp; omega

/-- A memory made from a list is canonical. -/
theorem wf_ofList (s : Nat) (l : List (BitVec w)) : (Memory.ofList s l).wf = true := by
  induction l generalizing s with
  | nil => rfl
  | cons v l ih =>
    simp only [Memory.ofList]
    split
    · exact ih _
    · rename_i hv
      exact (wf_cons _ _ _).2 ⟨hv, fun c hc => by have := ofList_mem hc; omega, ih _⟩

/-- A memory made from a list fits the list's length. -/
theorem fits_ofList (l : List (BitVec w)) (n : Nat) (h : l.length ≤ n) : (Memory.ofList 0 l).fits n = true := by
  rw [fits_iff]
  intro c hc
  have := ofList_mem hc
  omega

theorem read_ofList_aux (s : Nat) (l : List (BitVec w)) (k : Nat) :
    (Memory.ofList s l).read k = if s ≤ k then l.getD (k - s) 0#w else 0#w := by
  induction l generalizing s with
  | nil => simp [Memory.ofList]
  | cons v l ih =>
    simp only [Memory.ofList]
    have step : ∀ (hk : s ≠ k), (Memory.ofList (s + 1) l).read k =
        if s ≤ k then (v :: l).getD (k - s) 0#w else 0#w := by
      intro hk
      rw [ih]
      by_cases hs : s ≤ k
      · obtain ⟨d, rfl⟩ : ∃ d, k = s + 1 + d := ⟨k - (s + 1), by omega⟩
        rw [if_pos (by omega), if_pos hs, show s + 1 + d - s = d + 1 by omega]
        simp
      · rw [if_neg (by omega), if_neg hs]
    split
    · rename_i hv
      subst hv
      by_cases hk : s = k
      · subst hk; rw [ih]; simp
      · exact step hk
    · by_cases hk : s = k
      · subst hk; simp [read_cons]
      · rw [read_cons, if_neg hk]; exact step hk

/-- Reading a memory made from a list gives the list's entry, zero past its end. -/
theorem read_ofList (l : List (BitVec w)) (k : Nat) : (Memory.ofList 0 l).read k = l.getD k 0#w := by
  simp [read_ofList_aux]

end Sys2Proof.Laws
end

