-- ==== Sys2Proof/Laws/State.lean ====
section
/-! SUPPORT. One lemma per field per register update, all true by definition, so that no proof unfolds a record update. -/

namespace Sys2Proof.Laws

open Sys2Proof.Machine


/-! ## setA -/

@[simp] theorem setA_a (v : Byte) (s : State) : (setA v s).cpu.a = v := rfl
@[simp] theorem setA_x (v : Byte) (s : State) : (setA v s).cpu.x = s.cpu.x := rfl
@[simp] theorem setA_y (v : Byte) (s : State) : (setA v s).cpu.y = s.cpu.y := rfl
@[simp] theorem setA_sp (v : Byte) (s : State) : (setA v s).cpu.sp = s.cpu.sp := rfl
@[simp] theorem setA_pc (v : Byte) (s : State) : (setA v s).cpu.pc = s.cpu.pc := rfl
@[simp] theorem setA_p (v : Byte) (s : State) : (setA v s).cpu.p = s.cpu.p := rfl
@[simp] theorem setA_cyclesRemaining (v : Byte) (s : State) : (setA v s).cpu.cyclesRemaining = s.cpu.cyclesRemaining := rfl
@[simp] theorem setA_nmiPending (v : Byte) (s : State) : (setA v s).cpu.nmiPending = s.cpu.nmiPending := rfl
@[simp] theorem setA_ppu (v : Byte) (s : State) : (setA v s).ppu = s.ppu := rfl
@[simp] theorem setA_ram (v : Byte) (s : State) : (setA v s).ram = s.ram := rfl
@[simp] theorem setA_cart (v : Byte) (s : State) : (setA v s).cart = s.cart := rfl
@[simp] theorem setA_mapper (v : Byte) (s : State) : (setA v s).mapper = s.mapper := rfl
@[simp] theorem setA_prgRam (v : Byte) (s : State) : (setA v s).prgRam = s.prgRam := rfl
@[simp] theorem setA_chrMem (v : Byte) (s : State) : (setA v s).chrMem = s.chrMem := rfl
@[simp] theorem setA_fault (v : Byte) (s : State) : (setA v s).fault = s.fault := rfl
@[simp] theorem setA_resetDone (v : Byte) (s : State) : (setA v s).resetDone = s.resetDone := rfl
@[simp] theorem setA_oddSkipNeedsRendering (v : Byte) (s : State) : (setA v s).oddSkipNeedsRendering = s.oddSkipNeedsRendering := rfl
@[simp] theorem setA_irqLine (v : Byte) (s : State) : (setA v s).irqLine = s.irqLine := rfl
@[simp] theorem setA_ioAnswers (v : Byte) (s : State) : (setA v s).ioAnswers = s.ioAnswers := rfl
@[simp] theorem setA_ioLog (v : Byte) (s : State) : (setA v s).ioLog = s.ioLog := rfl
@[simp] theorem setA_draws (v : Byte) (s : State) : (setA v s).draws = s.draws := rfl

/-! ## setX -/

@[simp] theorem setX_a (v : Byte) (s : State) : (setX v s).cpu.a = s.cpu.a := rfl
@[simp] theorem setX_x (v : Byte) (s : State) : (setX v s).cpu.x = v := rfl
@[simp] theorem setX_y (v : Byte) (s : State) : (setX v s).cpu.y = s.cpu.y := rfl
@[simp] theorem setX_sp (v : Byte) (s : State) : (setX v s).cpu.sp = s.cpu.sp := rfl
@[simp] theorem setX_pc (v : Byte) (s : State) : (setX v s).cpu.pc = s.cpu.pc := rfl
@[simp] theorem setX_p (v : Byte) (s : State) : (setX v s).cpu.p = s.cpu.p := rfl
@[simp] theorem setX_cyclesRemaining (v : Byte) (s : State) : (setX v s).cpu.cyclesRemaining = s.cpu.cyclesRemaining := rfl
@[simp] theorem setX_nmiPending (v : Byte) (s : State) : (setX v s).cpu.nmiPending = s.cpu.nmiPending := rfl
@[simp] theorem setX_ppu (v : Byte) (s : State) : (setX v s).ppu = s.ppu := rfl
@[simp] theorem setX_ram (v : Byte) (s : State) : (setX v s).ram = s.ram := rfl
@[simp] theorem setX_cart (v : Byte) (s : State) : (setX v s).cart = s.cart := rfl
@[simp] theorem setX_mapper (v : Byte) (s : State) : (setX v s).mapper = s.mapper := rfl
@[simp] theorem setX_prgRam (v : Byte) (s : State) : (setX v s).prgRam = s.prgRam := rfl
@[simp] theorem setX_chrMem (v : Byte) (s : State) : (setX v s).chrMem = s.chrMem := rfl
@[simp] theorem setX_fault (v : Byte) (s : State) : (setX v s).fault = s.fault := rfl
@[simp] theorem setX_resetDone (v : Byte) (s : State) : (setX v s).resetDone = s.resetDone := rfl
@[simp] theorem setX_oddSkipNeedsRendering (v : Byte) (s : State) : (setX v s).oddSkipNeedsRendering = s.oddSkipNeedsRendering := rfl
@[simp] theorem setX_irqLine (v : Byte) (s : State) : (setX v s).irqLine = s.irqLine := rfl
@[simp] theorem setX_ioAnswers (v : Byte) (s : State) : (setX v s).ioAnswers = s.ioAnswers := rfl
@[simp] theorem setX_ioLog (v : Byte) (s : State) : (setX v s).ioLog = s.ioLog := rfl
@[simp] theorem setX_draws (v : Byte) (s : State) : (setX v s).draws = s.draws := rfl

/-! ## setY -/

@[simp] theorem setY_a (v : Byte) (s : State) : (setY v s).cpu.a = s.cpu.a := rfl
@[simp] theorem setY_x (v : Byte) (s : State) : (setY v s).cpu.x = s.cpu.x := rfl
@[simp] theorem setY_y (v : Byte) (s : State) : (setY v s).cpu.y = v := rfl
@[simp] theorem setY_sp (v : Byte) (s : State) : (setY v s).cpu.sp = s.cpu.sp := rfl
@[simp] theorem setY_pc (v : Byte) (s : State) : (setY v s).cpu.pc = s.cpu.pc := rfl
@[simp] theorem setY_p (v : Byte) (s : State) : (setY v s).cpu.p = s.cpu.p := rfl
@[simp] theorem setY_cyclesRemaining (v : Byte) (s : State) : (setY v s).cpu.cyclesRemaining = s.cpu.cyclesRemaining := rfl
@[simp] theorem setY_nmiPending (v : Byte) (s : State) : (setY v s).cpu.nmiPending = s.cpu.nmiPending := rfl
@[simp] theorem setY_ppu (v : Byte) (s : State) : (setY v s).ppu = s.ppu := rfl
@[simp] theorem setY_ram (v : Byte) (s : State) : (setY v s).ram = s.ram := rfl
@[simp] theorem setY_cart (v : Byte) (s : State) : (setY v s).cart = s.cart := rfl
@[simp] theorem setY_mapper (v : Byte) (s : State) : (setY v s).mapper = s.mapper := rfl
@[simp] theorem setY_prgRam (v : Byte) (s : State) : (setY v s).prgRam = s.prgRam := rfl
@[simp] theorem setY_chrMem (v : Byte) (s : State) : (setY v s).chrMem = s.chrMem := rfl
@[simp] theorem setY_fault (v : Byte) (s : State) : (setY v s).fault = s.fault := rfl
@[simp] theorem setY_resetDone (v : Byte) (s : State) : (setY v s).resetDone = s.resetDone := rfl
@[simp] theorem setY_oddSkipNeedsRendering (v : Byte) (s : State) : (setY v s).oddSkipNeedsRendering = s.oddSkipNeedsRendering := rfl
@[simp] theorem setY_irqLine (v : Byte) (s : State) : (setY v s).irqLine = s.irqLine := rfl
@[simp] theorem setY_ioAnswers (v : Byte) (s : State) : (setY v s).ioAnswers = s.ioAnswers := rfl
@[simp] theorem setY_ioLog (v : Byte) (s : State) : (setY v s).ioLog = s.ioLog := rfl
@[simp] theorem setY_draws (v : Byte) (s : State) : (setY v s).draws = s.draws := rfl

/-! ## setSp -/

@[simp] theorem setSp_a (v : Byte) (s : State) : (setSp v s).cpu.a = s.cpu.a := rfl
@[simp] theorem setSp_x (v : Byte) (s : State) : (setSp v s).cpu.x = s.cpu.x := rfl
@[simp] theorem setSp_y (v : Byte) (s : State) : (setSp v s).cpu.y = s.cpu.y := rfl
@[simp] theorem setSp_sp (v : Byte) (s : State) : (setSp v s).cpu.sp = v := rfl
@[simp] theorem setSp_pc (v : Byte) (s : State) : (setSp v s).cpu.pc = s.cpu.pc := rfl
@[simp] theorem setSp_p (v : Byte) (s : State) : (setSp v s).cpu.p = s.cpu.p := rfl
@[simp] theorem setSp_cyclesRemaining (v : Byte) (s : State) : (setSp v s).cpu.cyclesRemaining = s.cpu.cyclesRemaining := rfl
@[simp] theorem setSp_nmiPending (v : Byte) (s : State) : (setSp v s).cpu.nmiPending = s.cpu.nmiPending := rfl
@[simp] theorem setSp_ppu (v : Byte) (s : State) : (setSp v s).ppu = s.ppu := rfl
@[simp] theorem setSp_ram (v : Byte) (s : State) : (setSp v s).ram = s.ram := rfl
@[simp] theorem setSp_cart (v : Byte) (s : State) : (setSp v s).cart = s.cart := rfl
@[simp] theorem setSp_mapper (v : Byte) (s : State) : (setSp v s).mapper = s.mapper := rfl
@[simp] theorem setSp_prgRam (v : Byte) (s : State) : (setSp v s).prgRam = s.prgRam := rfl
@[simp] theorem setSp_chrMem (v : Byte) (s : State) : (setSp v s).chrMem = s.chrMem := rfl
@[simp] theorem setSp_fault (v : Byte) (s : State) : (setSp v s).fault = s.fault := rfl
@[simp] theorem setSp_resetDone (v : Byte) (s : State) : (setSp v s).resetDone = s.resetDone := rfl
@[simp] theorem setSp_oddSkipNeedsRendering (v : Byte) (s : State) : (setSp v s).oddSkipNeedsRendering = s.oddSkipNeedsRendering := rfl
@[simp] theorem setSp_irqLine (v : Byte) (s : State) : (setSp v s).irqLine = s.irqLine := rfl
@[simp] theorem setSp_ioAnswers (v : Byte) (s : State) : (setSp v s).ioAnswers = s.ioAnswers := rfl
@[simp] theorem setSp_ioLog (v : Byte) (s : State) : (setSp v s).ioLog = s.ioLog := rfl
@[simp] theorem setSp_draws (v : Byte) (s : State) : (setSp v s).draws = s.draws := rfl

/-! ## setPc -/

@[simp] theorem setPc_a (v : Addr) (s : State) : (setPc v s).cpu.a = s.cpu.a := rfl
@[simp] theorem setPc_x (v : Addr) (s : State) : (setPc v s).cpu.x = s.cpu.x := rfl
@[simp] theorem setPc_y (v : Addr) (s : State) : (setPc v s).cpu.y = s.cpu.y := rfl
@[simp] theorem setPc_sp (v : Addr) (s : State) : (setPc v s).cpu.sp = s.cpu.sp := rfl
@[simp] theorem setPc_pc (v : Addr) (s : State) : (setPc v s).cpu.pc = v := rfl
@[simp] theorem setPc_p (v : Addr) (s : State) : (setPc v s).cpu.p = s.cpu.p := rfl
@[simp] theorem setPc_cyclesRemaining (v : Addr) (s : State) : (setPc v s).cpu.cyclesRemaining = s.cpu.cyclesRemaining := rfl
@[simp] theorem setPc_nmiPending (v : Addr) (s : State) : (setPc v s).cpu.nmiPending = s.cpu.nmiPending := rfl
@[simp] theorem setPc_ppu (v : Addr) (s : State) : (setPc v s).ppu = s.ppu := rfl
@[simp] theorem setPc_ram (v : Addr) (s : State) : (setPc v s).ram = s.ram := rfl
@[simp] theorem setPc_cart (v : Addr) (s : State) : (setPc v s).cart = s.cart := rfl
@[simp] theorem setPc_mapper (v : Addr) (s : State) : (setPc v s).mapper = s.mapper := rfl
@[simp] theorem setPc_prgRam (v : Addr) (s : State) : (setPc v s).prgRam = s.prgRam := rfl
@[simp] theorem setPc_chrMem (v : Addr) (s : State) : (setPc v s).chrMem = s.chrMem := rfl
@[simp] theorem setPc_fault (v : Addr) (s : State) : (setPc v s).fault = s.fault := rfl
@[simp] theorem setPc_resetDone (v : Addr) (s : State) : (setPc v s).resetDone = s.resetDone := rfl
@[simp] theorem setPc_oddSkipNeedsRendering (v : Addr) (s : State) : (setPc v s).oddSkipNeedsRendering = s.oddSkipNeedsRendering := rfl
@[simp] theorem setPc_irqLine (v : Addr) (s : State) : (setPc v s).irqLine = s.irqLine := rfl
@[simp] theorem setPc_ioAnswers (v : Addr) (s : State) : (setPc v s).ioAnswers = s.ioAnswers := rfl
@[simp] theorem setPc_ioLog (v : Addr) (s : State) : (setPc v s).ioLog = s.ioLog := rfl
@[simp] theorem setPc_draws (v : Addr) (s : State) : (setPc v s).draws = s.draws := rfl

/-! ## setP -/

@[simp] theorem setP_a (v : Byte) (s : State) : (setP v s).cpu.a = s.cpu.a := rfl
@[simp] theorem setP_x (v : Byte) (s : State) : (setP v s).cpu.x = s.cpu.x := rfl
@[simp] theorem setP_y (v : Byte) (s : State) : (setP v s).cpu.y = s.cpu.y := rfl
@[simp] theorem setP_sp (v : Byte) (s : State) : (setP v s).cpu.sp = s.cpu.sp := rfl
@[simp] theorem setP_pc (v : Byte) (s : State) : (setP v s).cpu.pc = s.cpu.pc := rfl
@[simp] theorem setP_p (v : Byte) (s : State) : (setP v s).cpu.p = v := rfl
@[simp] theorem setP_cyclesRemaining (v : Byte) (s : State) : (setP v s).cpu.cyclesRemaining = s.cpu.cyclesRemaining := rfl
@[simp] theorem setP_nmiPending (v : Byte) (s : State) : (setP v s).cpu.nmiPending = s.cpu.nmiPending := rfl
@[simp] theorem setP_ppu (v : Byte) (s : State) : (setP v s).ppu = s.ppu := rfl
@[simp] theorem setP_ram (v : Byte) (s : State) : (setP v s).ram = s.ram := rfl
@[simp] theorem setP_cart (v : Byte) (s : State) : (setP v s).cart = s.cart := rfl
@[simp] theorem setP_mapper (v : Byte) (s : State) : (setP v s).mapper = s.mapper := rfl
@[simp] theorem setP_prgRam (v : Byte) (s : State) : (setP v s).prgRam = s.prgRam := rfl
@[simp] theorem setP_chrMem (v : Byte) (s : State) : (setP v s).chrMem = s.chrMem := rfl
@[simp] theorem setP_fault (v : Byte) (s : State) : (setP v s).fault = s.fault := rfl
@[simp] theorem setP_resetDone (v : Byte) (s : State) : (setP v s).resetDone = s.resetDone := rfl
@[simp] theorem setP_oddSkipNeedsRendering (v : Byte) (s : State) : (setP v s).oddSkipNeedsRendering = s.oddSkipNeedsRendering := rfl
@[simp] theorem setP_irqLine (v : Byte) (s : State) : (setP v s).irqLine = s.irqLine := rfl
@[simp] theorem setP_ioAnswers (v : Byte) (s : State) : (setP v s).ioAnswers = s.ioAnswers := rfl
@[simp] theorem setP_ioLog (v : Byte) (s : State) : (setP v s).ioLog = s.ioLog := rfl
@[simp] theorem setP_draws (v : Byte) (s : State) : (setP v s).draws = s.draws := rfl

/-! ## setCycles -/

@[simp] theorem setCycles_a (n : Nat) (s : State) : (setCycles n s).cpu.a = s.cpu.a := rfl
@[simp] theorem setCycles_x (n : Nat) (s : State) : (setCycles n s).cpu.x = s.cpu.x := rfl
@[simp] theorem setCycles_y (n : Nat) (s : State) : (setCycles n s).cpu.y = s.cpu.y := rfl
@[simp] theorem setCycles_sp (n : Nat) (s : State) : (setCycles n s).cpu.sp = s.cpu.sp := rfl
@[simp] theorem setCycles_pc (n : Nat) (s : State) : (setCycles n s).cpu.pc = s.cpu.pc := rfl
@[simp] theorem setCycles_p (n : Nat) (s : State) : (setCycles n s).cpu.p = s.cpu.p := rfl
@[simp] theorem setCycles_cyclesRemaining (n : Nat) (s : State) : (setCycles n s).cpu.cyclesRemaining = n := rfl
@[simp] theorem setCycles_nmiPending (n : Nat) (s : State) : (setCycles n s).cpu.nmiPending = s.cpu.nmiPending := rfl
@[simp] theorem setCycles_ppu (n : Nat) (s : State) : (setCycles n s).ppu = s.ppu := rfl
@[simp] theorem setCycles_ram (n : Nat) (s : State) : (setCycles n s).ram = s.ram := rfl
@[simp] theorem setCycles_cart (n : Nat) (s : State) : (setCycles n s).cart = s.cart := rfl
@[simp] theorem setCycles_mapper (n : Nat) (s : State) : (setCycles n s).mapper = s.mapper := rfl
@[simp] theorem setCycles_prgRam (n : Nat) (s : State) : (setCycles n s).prgRam = s.prgRam := rfl
@[simp] theorem setCycles_chrMem (n : Nat) (s : State) : (setCycles n s).chrMem = s.chrMem := rfl
@[simp] theorem setCycles_fault (n : Nat) (s : State) : (setCycles n s).fault = s.fault := rfl
@[simp] theorem setCycles_resetDone (n : Nat) (s : State) : (setCycles n s).resetDone = s.resetDone := rfl
@[simp] theorem setCycles_oddSkipNeedsRendering (n : Nat) (s : State) : (setCycles n s).oddSkipNeedsRendering = s.oddSkipNeedsRendering := rfl
@[simp] theorem setCycles_irqLine (n : Nat) (s : State) : (setCycles n s).irqLine = s.irqLine := rfl
@[simp] theorem setCycles_ioAnswers (n : Nat) (s : State) : (setCycles n s).ioAnswers = s.ioAnswers := rfl
@[simp] theorem setCycles_ioLog (n : Nat) (s : State) : (setCycles n s).ioLog = s.ioLog := rfl
@[simp] theorem setCycles_draws (n : Nat) (s : State) : (setCycles n s).draws = s.draws := rfl

/-! ## setNmiPending -/

@[simp] theorem setNmiPending_a (b : Bool) (s : State) : (setNmiPending b s).cpu.a = s.cpu.a := rfl
@[simp] theorem setNmiPending_x (b : Bool) (s : State) : (setNmiPending b s).cpu.x = s.cpu.x := rfl
@[simp] theorem setNmiPending_y (b : Bool) (s : State) : (setNmiPending b s).cpu.y = s.cpu.y := rfl
@[simp] theorem setNmiPending_sp (b : Bool) (s : State) : (setNmiPending b s).cpu.sp = s.cpu.sp := rfl
@[simp] theorem setNmiPending_pc (b : Bool) (s : State) : (setNmiPending b s).cpu.pc = s.cpu.pc := rfl
@[simp] theorem setNmiPending_p (b : Bool) (s : State) : (setNmiPending b s).cpu.p = s.cpu.p := rfl
@[simp] theorem setNmiPending_cyclesRemaining (b : Bool) (s : State) : (setNmiPending b s).cpu.cyclesRemaining = s.cpu.cyclesRemaining := rfl
@[simp] theorem setNmiPending_nmiPending (b : Bool) (s : State) : (setNmiPending b s).cpu.nmiPending = b := rfl
@[simp] theorem setNmiPending_ppu (b : Bool) (s : State) : (setNmiPending b s).ppu = s.ppu := rfl
@[simp] theorem setNmiPending_ram (b : Bool) (s : State) : (setNmiPending b s).ram = s.ram := rfl
@[simp] theorem setNmiPending_cart (b : Bool) (s : State) : (setNmiPending b s).cart = s.cart := rfl
@[simp] theorem setNmiPending_mapper (b : Bool) (s : State) : (setNmiPending b s).mapper = s.mapper := rfl
@[simp] theorem setNmiPending_prgRam (b : Bool) (s : State) : (setNmiPending b s).prgRam = s.prgRam := rfl
@[simp] theorem setNmiPending_chrMem (b : Bool) (s : State) : (setNmiPending b s).chrMem = s.chrMem := rfl
@[simp] theorem setNmiPending_fault (b : Bool) (s : State) : (setNmiPending b s).fault = s.fault := rfl
@[simp] theorem setNmiPending_resetDone (b : Bool) (s : State) : (setNmiPending b s).resetDone = s.resetDone := rfl
@[simp] theorem setNmiPending_oddSkipNeedsRendering (b : Bool) (s : State) : (setNmiPending b s).oddSkipNeedsRendering = s.oddSkipNeedsRendering := rfl
@[simp] theorem setNmiPending_irqLine (b : Bool) (s : State) : (setNmiPending b s).irqLine = s.irqLine := rfl
@[simp] theorem setNmiPending_ioAnswers (b : Bool) (s : State) : (setNmiPending b s).ioAnswers = s.ioAnswers := rfl
@[simp] theorem setNmiPending_ioLog (b : Bool) (s : State) : (setNmiPending b s).ioLog = s.ioLog := rfl
@[simp] theorem setNmiPending_draws (b : Bool) (s : State) : (setNmiPending b s).draws = s.draws := rfl

/-! ## setCpu -/

@[simp] theorem setCpu_cpu (c : Cpu) (s : State) : (setCpu c s).cpu = c := rfl
@[simp] theorem setCpu_ppu (c : Cpu) (s : State) : (setCpu c s).ppu = s.ppu := rfl
@[simp] theorem setCpu_ram (c : Cpu) (s : State) : (setCpu c s).ram = s.ram := rfl
@[simp] theorem setCpu_cart (c : Cpu) (s : State) : (setCpu c s).cart = s.cart := rfl
@[simp] theorem setCpu_mapper (c : Cpu) (s : State) : (setCpu c s).mapper = s.mapper := rfl
@[simp] theorem setCpu_prgRam (c : Cpu) (s : State) : (setCpu c s).prgRam = s.prgRam := rfl
@[simp] theorem setCpu_chrMem (c : Cpu) (s : State) : (setCpu c s).chrMem = s.chrMem := rfl
@[simp] theorem setCpu_fault (c : Cpu) (s : State) : (setCpu c s).fault = s.fault := rfl
@[simp] theorem setCpu_resetDone (c : Cpu) (s : State) : (setCpu c s).resetDone = s.resetDone := rfl
@[simp] theorem setCpu_oddSkipNeedsRendering (c : Cpu) (s : State) : (setCpu c s).oddSkipNeedsRendering = s.oddSkipNeedsRendering := rfl
@[simp] theorem setCpu_irqLine (c : Cpu) (s : State) : (setCpu c s).irqLine = s.irqLine := rfl
@[simp] theorem setCpu_ioAnswers (c : Cpu) (s : State) : (setCpu c s).ioAnswers = s.ioAnswers := rfl
@[simp] theorem setCpu_ioLog (c : Cpu) (s : State) : (setCpu c s).ioLog = s.ioLog := rfl
@[simp] theorem setCpu_draws (c : Cpu) (s : State) : (setCpu c s).draws = s.draws := rfl
@[simp] theorem setCpu_setCpu (c d : Cpu) (s : State) : setCpu c (setCpu d s) = setCpu c s := rfl
@[simp] theorem setCpu_self (s : State) : setCpu s.cpu s = s := rfl

/-- Two states agree when their CPUs agree and the rest does. -/
theorem setCpu_eq {s t : State} (c : Cpu) (h : setCpu s.cpu t = s) (hc : t.cpu = c) : t = setCpu c s := by
  subst hc; rw [← h]; rfl

/-! ## advance and finish -/

@[simp] theorem advance_a (i : Instr) (s : State) : (advance i s).cpu.a = s.cpu.a := rfl
@[simp] theorem advance_x (i : Instr) (s : State) : (advance i s).cpu.x = s.cpu.x := rfl
@[simp] theorem advance_y (i : Instr) (s : State) : (advance i s).cpu.y = s.cpu.y := rfl
@[simp] theorem advance_sp (i : Instr) (s : State) : (advance i s).cpu.sp = s.cpu.sp := rfl
@[simp] theorem advance_pc (i : Instr) (s : State) : (advance i s).cpu.pc = s.cpu.pc + BitVec.ofNat 16 (instrSize i) := rfl
@[simp] theorem advance_p (i : Instr) (s : State) : (advance i s).cpu.p = s.cpu.p := rfl
@[simp] theorem advance_cyclesRemaining (i : Instr) (s : State) : (advance i s).cpu.cyclesRemaining = s.cpu.cyclesRemaining := rfl
@[simp] theorem advance_nmiPending (i : Instr) (s : State) : (advance i s).cpu.nmiPending = s.cpu.nmiPending := rfl
@[simp] theorem advance_ppu (i : Instr) (s : State) : (advance i s).ppu = s.ppu := rfl
@[simp] theorem advance_ram (i : Instr) (s : State) : (advance i s).ram = s.ram := rfl
@[simp] theorem advance_cart (i : Instr) (s : State) : (advance i s).cart = s.cart := rfl
@[simp] theorem advance_mapper (i : Instr) (s : State) : (advance i s).mapper = s.mapper := rfl
@[simp] theorem advance_prgRam (i : Instr) (s : State) : (advance i s).prgRam = s.prgRam := rfl
@[simp] theorem advance_chrMem (i : Instr) (s : State) : (advance i s).chrMem = s.chrMem := rfl
@[simp] theorem advance_fault (i : Instr) (s : State) : (advance i s).fault = s.fault := rfl
@[simp] theorem advance_resetDone (i : Instr) (s : State) : (advance i s).resetDone = s.resetDone := rfl
@[simp] theorem advance_oddSkipNeedsRendering (i : Instr) (s : State) : (advance i s).oddSkipNeedsRendering = s.oddSkipNeedsRendering := rfl
@[simp] theorem advance_irqLine (i : Instr) (s : State) : (advance i s).irqLine = s.irqLine := rfl
@[simp] theorem advance_ioAnswers (i : Instr) (s : State) : (advance i s).ioAnswers = s.ioAnswers := rfl
@[simp] theorem advance_ioLog (i : Instr) (s : State) : (advance i s).ioLog = s.ioLog := rfl
@[simp] theorem advance_draws (i : Instr) (s : State) : (advance i s).draws = s.draws := rfl
@[simp] theorem finish_a (i : Instr) (n : Nat) (s : State) : (finish i n s).cpu.a = s.cpu.a := rfl
@[simp] theorem finish_x (i : Instr) (n : Nat) (s : State) : (finish i n s).cpu.x = s.cpu.x := rfl
@[simp] theorem finish_y (i : Instr) (n : Nat) (s : State) : (finish i n s).cpu.y = s.cpu.y := rfl
@[simp] theorem finish_sp (i : Instr) (n : Nat) (s : State) : (finish i n s).cpu.sp = s.cpu.sp := rfl
@[simp] theorem finish_pc (i : Instr) (n : Nat) (s : State) : (finish i n s).cpu.pc = s.cpu.pc := rfl
@[simp] theorem finish_p (i : Instr) (n : Nat) (s : State) : (finish i n s).cpu.p = setFlag s.cpu.p .unused true := rfl
@[simp] theorem finish_cyclesRemaining (i : Instr) (n : Nat) (s : State) : (finish i n s).cpu.cyclesRemaining = baseCycles i + n := rfl
@[simp] theorem finish_nmiPending (i : Instr) (n : Nat) (s : State) : (finish i n s).cpu.nmiPending = s.cpu.nmiPending := rfl
@[simp] theorem finish_ppu (i : Instr) (n : Nat) (s : State) : (finish i n s).ppu = s.ppu := rfl
@[simp] theorem finish_ram (i : Instr) (n : Nat) (s : State) : (finish i n s).ram = s.ram := rfl
@[simp] theorem finish_cart (i : Instr) (n : Nat) (s : State) : (finish i n s).cart = s.cart := rfl
@[simp] theorem finish_mapper (i : Instr) (n : Nat) (s : State) : (finish i n s).mapper = s.mapper := rfl
@[simp] theorem finish_prgRam (i : Instr) (n : Nat) (s : State) : (finish i n s).prgRam = s.prgRam := rfl
@[simp] theorem finish_chrMem (i : Instr) (n : Nat) (s : State) : (finish i n s).chrMem = s.chrMem := rfl
@[simp] theorem finish_fault (i : Instr) (n : Nat) (s : State) : (finish i n s).fault = s.fault := rfl
@[simp] theorem finish_resetDone (i : Instr) (n : Nat) (s : State) : (finish i n s).resetDone = s.resetDone := rfl
@[simp] theorem finish_oddSkipNeedsRendering (i : Instr) (n : Nat) (s : State) : (finish i n s).oddSkipNeedsRendering = s.oddSkipNeedsRendering := rfl
@[simp] theorem finish_irqLine (i : Instr) (n : Nat) (s : State) : (finish i n s).irqLine = s.irqLine := rfl
@[simp] theorem finish_ioAnswers (i : Instr) (n : Nat) (s : State) : (finish i n s).ioAnswers = s.ioAnswers := rfl
@[simp] theorem finish_ioLog (i : Instr) (n : Nat) (s : State) : (finish i n s).ioLog = s.ioLog := rfl
@[simp] theorem finish_draws (i : Instr) (n : Nat) (s : State) : (finish i n s).draws = s.draws := rfl

theorem advance_eq (i : Instr) (s : State) :
    advance i s = setCpu { s.cpu with pc := s.cpu.pc + BitVec.ofNat 16 (instrSize i) } s := rfl

theorem finish_eq (i : Instr) (n : Nat) (s : State) :
    finish i n s =
      setCpu { s.cpu with p := setFlag s.cpu.p .unused true, cyclesRemaining := baseCycles i + n } s := rfl

end Sys2Proof.Laws
end

