-- ==== Sys2Proof/Laws/Bus.lean ====
section
/-! SUPPORT. What each shared operation over the CPU bus can do: reads and writes, the stack, the operand forms, the instruction
shapes and the interrupt sequence, each said once. -/

namespace Sys2Proof.Laws

open Sys2Proof.Machine

@[simp] theorem busBind_ok {α β : Type} (v : α) (s : State) (f : α → State → Bus β) : busBind (.ok v s) f = f v s := rfl

@[simp] theorem busBind_fault {α β : Type} (e : BusFault) (a : Addr) (k : Access) (s : State) (f : α → State → Bus β) :
    busBind (.fault e a k s) f = .fault e a k s := rfl

@[simp] theorem endSlot_ok (start s : State) : endSlot start (.ok () s) = .next s := rfl

/-! ## The bus and the CPU's registers -/

@[simp] theorem drawByte_cpu (s : State) : (drawByte s).2.cpu = s.cpu := rfl

@[simp] theorem ppuRegRead_cpu (s : State) (r : Nat) : (ppuRegRead s r).2.cpu = s.cpu := by
  unfold ppuRegRead; split <;> simp [readStatus, readData, drawByte]; split <;> rfl

theorem ppuRegRead_setCpu (s : State) (c : Cpu) (r : Nat) :
    ppuRegRead (setCpu c s) r = ((ppuRegRead s r).1, setCpu c (ppuRegRead s r).2) := by
  unfold ppuRegRead
  split
  · rfl
  · rfl
  · by_cases h : (ppuMask s.ppu.v).toNat < 0x3F00
    · rw [show readData s = _ from if_pos h]; exact if_pos h
    · rw [show readData s = _ from if_neg h]; exact if_neg h
  · rfl

@[simp] theorem ioRead_cpu (a : Addr) (s : State) : (ioRead a s).2.cpu = s.cpu := by
  unfold ioRead; split <;> rfl

theorem ioRead_setCpu (a : Addr) (s : State) (c : Cpu) :
    ioRead a (setCpu c s) = ((ioRead a s).1, setCpu c (ioRead a s).2) := by
  simp only [ioRead, setCpu_ioAnswers]
  cases s.ioAnswers <;> rfl

/-- A read leaves the CPU's registers alone. -/
@[simp] theorem busValue_cpu (a : Addr) (s : State) : (busValue a s).2.cpu = s.cpu := by
  unfold busValue; split <;> simp

/-- A read does not depend on the CPU's registers. -/
theorem busValue_setCpu (a : Addr) (s : State) (c : Cpu) :
    busValue a (setCpu c s) = ((busValue a s).1, setCpu c (busValue a s).2) := by
  unfold busValue
  split
  · rfl
  · exact ppuRegRead_setCpu s c _
  · exact ioRead_setCpu a s c
  · rfl
  · rfl

@[simp] theorem accessOk_setCpu (s : State) (k : Access) (a : Addr) (c : Cpu) :
    accessOk (setCpu c s) k a = accessOk s k a := by
  unfold accessOk; split <;> rfl

theorem chrWrite_setCpu (s : State) (a : Addr) (d : Byte) (c : Cpu) :
    chrWrite (setCpu c s) a d = setCpu c (chrWrite s a d) := by
  by_cases h : s.cart.header.chrBanks = 0
  · rw [show chrWrite s a d = _ from if_pos h]; exact if_pos h
  · rw [show chrWrite s a d = _ from if_neg h]; exact if_neg h

theorem ppuBusWrite_setCpu (s : State) (a : Addr) (d : Byte) (c : Cpu) :
    ppuBusWrite (setCpu c s) a d = setCpu c (ppuBusWrite s a d) := by
  by_cases h : (ppuMask a).toNat < 0x2000
  · rw [show ppuBusWrite s a d = _ from if_pos h, ← chrWrite_setCpu]; exact if_pos h
  · by_cases h2 : (ppuMask a).toNat < 0x3F00
    · rw [show ppuBusWrite s a d = _ from (if_neg h).trans (if_pos h2)]; exact (if_neg h).trans (if_pos h2)
    · rw [show ppuBusWrite s a d = _ from (if_neg h).trans (if_neg h2)]; exact (if_neg h).trans (if_neg h2)

@[simp] theorem ppuBusWrite_cpu (s : State) (a : Addr) (d : Byte) : (ppuBusWrite s a d).cpu = s.cpu := by
  simp only [ppuBusWrite, chrWrite]
  split
  · split <;> rfl
  · split <;> rfl

theorem ppuRegWrite_cpu (s : State) (r : Nat) (d : Byte) :
    (ppuRegWrite s r d).cpu =
      { s.cpu with nmiPending := s.cpu.nmiPending || (decide (r = 0) && nmiEdge s.ppu d) } := by
  unfold ppuRegWrite
  split <;> simp_all [writeCtrl, writeData]

theorem ppuRegWrite_setCpu (s : State) (r : Nat) (d : Byte) (c : Cpu) :
    ppuRegWrite (setCpu c s) r d =
      setCpu { c with nmiPending := c.nmiPending || (decide (r = 0) && nmiEdge s.ppu d) } (ppuRegWrite s r d) := by
  unfold ppuRegWrite
  split
  · rfl
  · simp [setCpu]
  · simp [setCpu]
  · simp [setCpu]
  · simp [setCpu]
  · simp [setCpu]
  · simp [setCpu]
  · rename_i h0 _ _ _ _ _ _
    rw [show decide (r = 0) = false from decide_eq_false h0]
    simp only [writeData, setCpu_ppu, ppuBusWrite_setCpu]
    simp [setCpu]

theorem cartWrite_setCpu (s : State) (a : Addr) (d : Byte) (c : Cpu) :
    cartWrite (setCpu c s) a d = setCpu c (cartWrite s a d) := by
  by_cases h : a.toNat < 0x8000
  · rw [show cartWrite s a d = _ from if_pos h]; exact if_pos h
  · rw [show cartWrite s a d = _ from if_neg h]; exact if_neg h

@[simp] theorem cartWrite_cpu (s : State) (a : Addr) (d : Byte) : (cartWrite s a d).cpu = s.cpu := by
  unfold cartWrite; split <;> rfl

theorem cpuDevice_ppu {a : Addr} (h : cpuDevice a = some .ppu) : 0x2000 ≤ a.toNat ∧ a.toNat < 0x4000 := by
  unfold cpuDevice at h
  split at h
  · simp at h
  · split at h
    · omega
    · split at h
      · simp at h
      · split at h <;> simp at h

theorem cpuDevice_not_ppu {a : Addr} (h : cpuDevice a ≠ some .ppu) : ¬ (0x2000 ≤ a.toNat ∧ a.toNat < 0x4000) := by
  intro hr
  apply h
  unfold cpuDevice
  rw [if_neg (by omega), if_pos (by omega)]

/-- A write leaves the CPU's registers alone but for the NMI latch, which a PPUCTRL edge sets. -/
theorem busStore_cpu (a : Addr) (v : Byte) (s : State) :
    (busStore a v s).cpu = { s.cpu with nmiPending := s.cpu.nmiPending || storeNmi a v s } := by
  by_cases h : cpuDevice a = some .ppu
  · have hr := cpuDevice_ppu h
    simp [busStore, h, storeNmi, hr, ppuRegWrite_cpu]
  · have hr := cpuDevice_not_ppu h
    have hn : storeNmi a v s = false := by
      simp only [storeNmi]
      rw [show (decide (0x2000 ≤ a.toNat) && decide (a.toNat < 0x4000)) = false by
        simp only [Bool.and_eq_false_iff, decide_eq_false_iff_not]; omega]
      rfl
    unfold busStore
    split <;> simp_all

/-- A write does not depend on the CPU's registers. -/
theorem busStore_setCpu (a : Addr) (v : Byte) (s : State) (c : Cpu) :
    busStore a v (setCpu c s) =
      setCpu { c with nmiPending := c.nmiPending || storeNmi a v s } (busStore a v s) := by
  by_cases h : cpuDevice a = some .ppu
  · have hr := cpuDevice_ppu h
    simp [busStore, h, storeNmi, hr, ppuRegWrite_setCpu]
  · have hr := cpuDevice_not_ppu h
    have hn : storeNmi a v s = false := by
      simp only [storeNmi]
      rw [show (decide (0x2000 ≤ a.toNat) && decide (a.toNat < 0x4000)) = false by
        simp only [Bool.and_eq_false_iff, decide_eq_false_iff_not]; omega]
      rfl
    rw [hn, Bool.or_false]
    unfold busStore
    split
    · rfl
    · simp_all
    · rfl
    · exact cartWrite_setCpu s a v c
    · rfl

/-! ## Which accesses are taken -/

@[simp] theorem ppuRegRead_cart (s : State) (r : Nat) : (ppuRegRead s r).2.cart = s.cart := by
  unfold ppuRegRead; split <;> simp [readStatus, readData, drawByte]; split <;> rfl

@[simp] theorem busValue_cart (a : Addr) (s : State) : (busValue a s).2.cart = s.cart := by
  unfold busValue
  split <;> first | rfl | exact ppuRegRead_cart _ _ | (unfold ioRead; split <;> rfl)

@[simp] theorem ppuBusWrite_cart (s : State) (a : Addr) (d : Byte) : (ppuBusWrite s a d).cart = s.cart := by
  unfold ppuBusWrite chrWrite; simp only; split <;> split <;> rfl

@[simp] theorem busStore_cart (a : Addr) (v : Byte) (s : State) : (busStore a v s).cart = s.cart := by
  unfold busStore
  split <;> first
    | rfl
    | (unfold ppuRegWrite; split <;> first | rfl | exact ppuBusWrite_cart _ _ _)
    | (unfold cartWrite; split <;> rfl)

/-- Whether an access is taken depends on the cartridge's header alone. -/
theorem mapped_congr {s t : State} (h : t.cart = s.cart) (a : Addr) : Mapped t a ↔ Mapped s a := by
  simp [Mapped, h]

theorem mapped_busValue {s : State} {a b : Addr} (h : Mapped s a) : Mapped (busValue b s).2 a :=
  (mapped_congr (busValue_cart b s) a).2 h

theorem prgOffset_lt (m : Mapper) {n : Nat} (hn : 0 < n) (a : Addr) : prgOffset m n a < n * 16384 := by
  have bank : ∀ b r : Nat, b < n → r < 16384 → b * 16384 + r < n * 16384 := by
    intro b r hb hr
    have : (b + 1) * 16384 ≤ n * 16384 := Nat.mul_le_mul_right _ hb
    omega
  have hr : a.toNat % 16384 < 16384 := Nat.mod_lt _ (by decide)
  cases m with
  | nrom => exact Nat.mod_lt _ (by omega)
  | mmc1 r => exact bank _ _ (Nat.mod_lt _ hn) hr
  | uxrom b =>
    simp only [prgOffset]
    split
    · exact bank _ _ (by omega) hr
    · exact bank _ _ (Nat.mod_lt _ hn) hr

/-- A mapped address takes both kinds of access. -/
theorem accessOk_of_mapped {s : State} {a : Addr} (k : Access) (h : Mapped s a) : accessOk s k a = true := by
  unfold accessOk cpuDevice
  rcases h with h | ⟨h1, h2, h3⟩ | ⟨h1, h2⟩
  · by_cases h20 : a.toNat < 0x2000
    · simp [h20]
    · by_cases h40 : a.toNat < 0x4000
      · simp [h20, h40]
      · simp [h20, h40, h]
  · simp [show ¬ a.toNat < 0x2000 by omega, show ¬ a.toNat < 0x4000 by omega, show ¬ a.toNat < 0x4018 by omega,
      show ¬ a.toNat < 0x4020 by omega, cartImplements, show ¬ a.toNat < 0x6000 by omega, h2, h3]
  · have := prgOffset_lt s.mapper h2 a
    cases k <;>
      simp [show ¬ a.toNat < 0x2000 by omega, show ¬ a.toNat < 0x4000 by omega, show ¬ a.toNat < 0x4018 by omega,
        show ¬ a.toNat < 0x4020 by omega, cartImplements, show ¬ a.toNat < 0x6000 by omega,
        show ¬ a.toNat < 0x8000 by omega, this]

theorem cpuRead_mapped {s : State} {a : Addr} (h : Mapped s a) : cpuRead a s = .ok (busValue a s).1 (busValue a s).2 := by
  simp [cpuRead, accessOk_of_mapped .read h]

theorem cpuWrite_mapped {s : State} {a : Addr} (v : Byte) (h : Mapped s a) : cpuWrite a v s = .ok () (busStore a v s) := by
  simp [cpuWrite, accessOk_of_mapped .write h]

/-- A read outside `Mapped` is not taken. -/
theorem cpuRead_unmapped {s : State} {a : Addr} (h : ¬ Mapped s a) : cpuRead a s = .fault (busFaultAt a) a .read s := by
  unfold Mapped at h
  have hn : accessOk s .read a = false := by
    have h1 : ¬ a.toNat < 0x4018 := fun c => h (.inl c)
    unfold accessOk cpuDevice
    rw [if_neg (by omega), if_neg (by omega), if_neg h1]
    by_cases h2 : a.toNat < 0x4020
    · rw [if_pos h2]
    · rw [if_neg h2]
      simp only [cartImplements]
      by_cases h3 : a.toNat < 0x6000
      · rw [if_pos h3]
      · rw [if_neg h3]
        by_cases h4 : a.toNat < 0x8000
        · rw [if_pos h4]
          exact Bool.eq_false_iff.2 fun c => h (.inr (.inl ⟨by omega, h4, c⟩))
        · rw [if_neg h4]
          have : s.cart.header.prgBanks = 0 := by
            by_contra c
            exact h (.inr (.inr ⟨by omega, by omega⟩))
          simp [this]
  simp [cpuRead, hn]

/-- A write outside `Mapped` is not taken below 0x8000. -/
theorem cpuWrite_unmapped {s : State} {a : Addr} (v : Byte) (h : ¬ Mapped s a) (hlt : a.toNat < 0x8000) :
    cpuWrite a v s = .fault (busFaultAt a) a .write s := by
  unfold Mapped at h
  have hn : accessOk s .write a = false := by
    have h1 : ¬ a.toNat < 0x4018 := fun c => h (.inl c)
    unfold accessOk cpuDevice
    rw [if_neg (by omega), if_neg (by omega), if_neg h1]
    by_cases h2 : a.toNat < 0x4020
    · rw [if_pos h2]
    · rw [if_neg h2]
      simp only [cartImplements]
      by_cases h3 : a.toNat < 0x6000
      · rw [if_pos h3]
      · rw [if_neg h3, if_pos hlt]
        exact Bool.eq_false_iff.2 fun c => h (.inr (.inl ⟨by omega, hlt, c⟩))
  simp [cpuWrite, hn]

/-- The fault of a bus access not taken, as `faultAt` says it. -/
theorem busStop_eq (start s : State) (a : Addr) (k : Access) (h : ¬ a.toNat < 0x4018) :
    busStop start (busFaultAt a) a k s =
      .fault (faultAt start.cpu.pc a k { s with cpu := { start.cpu with nmiPending := s.cpu.nmiPending } }) := by
  unfold busFaultAt cpuDevice faultAt
  rw [if_neg (by omega), if_neg (by omega), if_neg h]
  by_cases h2 : a.toNat < 0x4020
  · rw [if_pos h2, if_pos (by omega)]; rfl
  · rw [if_neg h2, if_neg (by omega)]; rfl

/-! ## RAM, the zero page and the stack -/

theorem cpuDevice_ram {a : Addr} (h : a.toNat < 0x2000) : cpuDevice a = some .ram := by simp [cpuDevice, h]

theorem cpuRead_ram {s : State} {a : Addr} (h : a.toNat < 0x2000) : cpuRead a s = .ok (s.ram.read (a.toNat % 2048)) s := by
  simp [cpuRead, accessOk, busValue, cpuDevice_ram h]

theorem cpuWrite_ram {s : State} {a : Addr} (v : Byte) (h : a.toNat < 0x2000) :
    cpuWrite a v s = .ok () { s with ram := s.ram.write (a.toNat % 2048) v } := by
  simp [cpuWrite, accessOk, busStore, cpuDevice_ram h]

@[simp] theorem zeroPage_toNat (d : Byte) : (zeroPage d).toNat = d.toNat := by
  have := d.isLt
  simp only [zeroPage, BitVec.toNat_setWidth]
  omega

theorem cpuRead_zeroPage (d : Byte) (s : State) : cpuRead (zeroPage d) s = .ok (s.ram.read d.toNat) s := by
  have := d.isLt
  rw [cpuRead_ram (by simp; omega), zeroPage_toNat, Nat.mod_eq_of_lt (by omega)]

/-- A pointer in the zero page is two RAM reads without side effects. -/
theorem readPair_zeroPage (l h : Byte) (s : State) :
    readPair (zeroPage l) (zeroPage h) s = .ok (leWord (s.ram.read l.toNat) (s.ram.read h.toNat)) s := by
  simp [readPair, cpuRead_zeroPage]

theorem stackAddr_toNat (s : State) : (stackAddr s).toNat = 256 + s.cpu.sp.toNat := by
  have : ∀ b : Byte, (0x0100#16 ||| b.setWidth 16).toNat = 256 + b.toNat := by decide +kernel
  exact this _

/-- A push is a RAM write at 0x0100 + SP and a decrement of SP: it never fails. -/
theorem push_eq (v : Byte) (s : State) :
    push v s = .ok () { s with
      ram := s.ram.write (256 + s.cpu.sp.toNat) v
      cpu := { s.cpu with sp := s.cpu.sp - 1#8 } } := by
  have := s.cpu.sp.isLt
  rw [push, cpuWrite_ram v (by rw [stackAddr_toNat]; omega), stackAddr_toNat, Nat.mod_eq_of_lt (by omega)]
  rfl

/-- A pull is an increment of SP and a RAM read at 0x0100 + SP: it never fails. -/
theorem pull_eq (s : State) :
    pull s = .ok (s.ram.read (256 + (s.cpu.sp + 1#8).toNat)) { s with cpu := { s.cpu with sp := s.cpu.sp + 1#8 } } := by
  have := (s.cpu.sp + 1#8).isLt
  rw [pull, cpuRead_ram (by rw [stackAddr_toNat, setSp_sp]; omega), stackAddr_toNat, setSp_sp,
    Nat.mod_eq_of_lt (by omega)]
  rfl

/-! ## Operand forms -/

/-- Where an operand form's operand is, said without the bus. -/
def placeOf (o : Operand) (s : State) : Place :=
  match o, effectiveAddr o s with
  | .acc, _ => .accumulator
  | .imm d, _ => .value d
  | _, some a => .memory a
  | _, none => .accumulator

/-- Every operand form but the JMP pointer resolves without a fault or a side effect. -/
theorem resolve_eq (o : Operand) (s : State) (h : ∀ w, o ≠ .ind w) :
    resolve o s = .ok { place := placeOf o s, crossed := operandCrossed o s } s := by
  cases o <;> first
    | rfl
    | exact absurd rfl (h _)
    | (simp only [resolve, readPair_zeroPage, busBind_ok]; rfl)

/-- The one operand read of a form whose access is taken. -/
theorem loadPlace_eq (o : Operand) (s : State) (h : ∀ w, o ≠ .ind w) (hm : OperandMapped o s) :
    loadPlace (placeOf o s) s = .ok (operandRead o s).1 (operandRead o s).2 := by
  cases o <;> first
    | rfl
    | exact absurd rfl (h _)
    | exact cpuRead_mapped (hm _ rfl)

theorem operandRead_setCpu (o : Operand) (s : State) (c : Cpu) (ha : c.a = s.cpu.a) (hx : c.x = s.cpu.x)
    (hy : c.y = s.cpu.y) :
    operandRead o (setCpu c s) = ((operandRead o s).1, setCpu c (operandRead o s).2) := by
  cases o <;> simp [operandRead, effectiveAddr, busValue_setCpu, ha, hx, hy]

@[simp] theorem operandRead_cpu (o : Operand) (s : State) : (operandRead o s).2.cpu = s.cpu := by
  cases o <;> simp [operandRead, effectiveAddr]

theorem operandCrossed_setCpu (o : Operand) (s : State) (c : Cpu) (hx : c.x = s.cpu.x) (hy : c.y = s.cpu.y) :
    operandCrossed o (setCpu c s) = operandCrossed o s := by
  cases o <;> simp [operandCrossed, hx, hy]

theorem mapped_setCpu (s : State) (c : Cpu) (a : Addr) : Mapped (setCpu c s) a ↔ Mapped s a := Iff.rfl

theorem effectiveAddr_setCpu (o : Operand) (s : State) (c : Cpu) (hx : c.x = s.cpu.x) (hy : c.y = s.cpu.y) :
    effectiveAddr o (setCpu c s) = effectiveAddr o s := by
  cases o <;> simp [effectiveAddr, hx, hy]

/-! ## Instruction shapes -/

/-- A read instruction whose operand access is taken completes with its effect on the state after the read. -/
theorem readShape_eq (i : Instr) (o : Operand) (f : Byte → State → State) (s : State) (h : ∀ w, o ≠ .ind w)
    (hm : OperandMapped o s) :
    readShape i o f s =
      .next (finish i (crossExtra i (operandCrossed o s))
        (f (operandRead o s).1 (advance i (operandRead o s).2))) := by
  have hc : advance i s = setCpu (advance i s).cpu s := rfl
  have hm' : OperandMapped o (advance i s) := by
    intro a ha
    rw [hc, effectiveAddr_setCpu o s (advance i s).cpu rfl rfl] at ha
    exact hm a ha
  simp only [readShape, resolve_eq o _ h, busBind_ok, loadPlace_eq o _ h hm', endSlot_ok]
  rw [hc, operandRead_setCpu o s (advance i s).cpu rfl rfl rfl, operandCrossed_setCpu o s (advance i s).cpu rfl rfl]
  simp only [advance_eq, operandRead_cpu, setCpu_cpu]

/-- A store instruction whose access is taken completes with the store. -/
theorem storeShape_eq (i : Instr) (o : Operand) (v : Byte) (s : State) (a : Addr) (ha : effectiveAddr o s = some a)
    (hm : Mapped s a) : storeShape i o v s = .next (finish i (crossExtra i (operandCrossed o s)) (busStore a v (advance i s))) := by
  have hc : advance i s = setCpu (advance i s).cpu s := rfl
  have h : ∀ w, o ≠ .ind w := by intro w hw; subst hw; simp [effectiveAddr] at ha
  have hp : placeOf o s = .memory a := by cases o <;> simp_all [placeOf, effectiveAddr]
  have hp' : placeOf o (advance i s) = .memory a := by
    rw [← hp, hc]; cases o <;> simp [placeOf, effectiveAddr]
  simp only [storeShape, resolve_eq o _ h, busBind_ok, hp', storePlace]
  rw [cpuWrite_mapped v (show Mapped (advance i s) a from hm)]
  simp only [busBind_ok, endSlot_ok]
  rw [hc, operandCrossed_setCpu o s (advance i s).cpu rfl rfl]

/-- A read-modify-write instruction on memory whose access is taken completes with its one read, its one write and its flags. -/
theorem modifyShape_memory (i : Instr) (o : Operand) (f g : Byte → Cpu → Byte) (s : State) (a : Addr)
    (ha : effectiveAddr o s = some a) (hm : Mapped s a) :
    modifyShape i o f g s =
      .next (finish i (crossExtra i (operandCrossed o s))
        (setP (g (busValue a s).1 (advance i s).cpu)
          (busStore a (f (busValue a s).1 (advance i s).cpu) (advance i (busValue a s).2)))) := by
  have hc : advance i s = setCpu (advance i s).cpu s := rfl
  have h : ∀ w, o ≠ .ind w := by intro w hw; subst hw; simp [effectiveAddr] at ha
  have hp : placeOf o s = .memory a := by cases o <;> simp_all [placeOf, effectiveAddr]
  have hp' : placeOf o (advance i s) = .memory a := by
    rw [← hp, hc]; cases o <;> simp [placeOf, effectiveAddr]
  have hcr : operandCrossed o (advance i s) = operandCrossed o s := by
    rw [hc, operandCrossed_setCpu o s (advance i s).cpu rfl rfl]
  have hb : busValue a (advance i s) = ((busValue a s).1, advance i (busValue a s).2) := by
    rw [hc, busValue_setCpu, advance_eq i (busValue a s).2, busValue_cpu]; rfl
  have hm2 : Mapped (advance i (busValue a s).2) a := mapped_busValue hm
  simp only [modifyShape, resolve_eq o _ h, busBind_ok, hp', loadPlace, storePlace,
    cpuRead_mapped (show Mapped (advance i s) a from hm), hb, cpuWrite_mapped _ hm2, endSlot_ok, hcr]
  rw [show (advance i (busValue a s).2).cpu = (advance i s).cpu by simp [advance_eq]]

/-- A read-modify-write instruction on the accumulator. -/
theorem modifyShape_acc (i : Instr) (f g : Byte → Cpu → Byte) (s : State) :
    modifyShape i .acc f g s =
      .next (finish i (crossExtra i false)
        (setP (g s.cpu.a (advance i s).cpu) (setA (f s.cpu.a (advance i s).cpu) (advance i s)))) := rfl

/-! ## Interrupts -/

/-- The three pushes and the status change of an entry, before the vector is read. -/
def pushedFrame (b : Bool) (s : State) : State :=
  { s with
    ram := ((s.ram.write (256 + s.cpu.sp.toNat) (hiByte s.cpu.pc)).write
      (256 + (s.cpu.sp - 1#8).toNat) (loByte s.cpu.pc)).write
      (256 + (s.cpu.sp - 1#8 - 1#8).toNat) (pushedStatus s.cpu.p b)
    cpu := { s.cpu with sp := s.cpu.sp - 1#8 - 1#8 - 1#8, p := enteredStatus s.cpu.p b } }

/-- The interrupt sequence is its three pushes, then the vector read. -/
theorem interruptSequence_eq (vec : Addr) (b : Bool) (s : State) :
    interruptSequence vec b s = busBind (readVector vec (pushedFrame b s)) fun pc s => .ok () (setPc pc s) := by
  simp only [interruptSequence, push_eq, busBind_ok]
  rfl

/-- A vector in a cartridge with a PRG bank is two ROM bytes, read without a side effect. -/
theorem readVector_eq (vec : Addr) (s : State) (hv : 0x8000 ≤ vec.toNat ∧ vec.toNat < 0xFFFF)
    (hp : 0 < s.cart.header.prgBanks) :
    readVector vec s = .ok (leWord (cartByte s vec) (cartByte s (vec + 1#16))) s := by
  have h1 : (vec + 1#16).toNat = vec.toNat + 1 := by rw [BitVec.toNat_add]; simp; omega
  have dev : ∀ a : Addr, 0x8000 ≤ a.toNat → cpuDevice a = some .cartridge := by
    intro a ha
    simp [cpuDevice, show ¬ a.toNat < 0x2000 by omega, show ¬ a.toNat < 0x4000 by omega,
      show ¬ a.toNat < 0x4018 by omega, show ¬ a.toNat < 0x4020 by omega]
  have m1 : Mapped s vec := Or.inr (Or.inr ⟨hv.1, hp⟩)
  have m2 : Mapped s (vec + 1#16) := Or.inr (Or.inr ⟨by omega, hp⟩)
  simp only [readVector, readPair, cpuRead_mapped m1, busBind_ok, busValue, dev vec hv.1]
  rw [cpuRead_mapped m2]
  simp [busValue, dev _ (show 0x8000 ≤ (vec + 1#16).toNat by omega)]

end Sys2Proof.Laws
end

