-- ==== Sys2Proof/Laws/Access.lean ====
section
/-! SUPPORT. What one bus read and one bus write may change, and that the memories outside the written byte stay. -/

namespace Sys2Proof.Laws

open Sys2Proof.Machine

theorem inPpuWindow_iff (a : Addr) : InPpuWindow a ↔ cpuDevice a = some .ppu := by
  constructor
  · rintro ⟨h1, h2⟩
    simp [cpuDevice, show ¬ a.toNat < 0x2000 by omega, h2]
  · exact cpuDevice_ppu

/-! ## Reads -/

theorem ppuRegRead_frame (s : State) (r : Nat) :
    (ppuRegRead s r).2 = { s with
      draws := (ppuRegRead s r).2.draws
      ppu := { s.ppu with
        vblank := (ppuRegRead s r).2.ppu.vblank
        w := (ppuRegRead s r).2.ppu.w
        readBuffer := (ppuRegRead s r).2.ppu.readBuffer
        v := (ppuRegRead s r).2.ppu.v } } := by
  unfold ppuRegRead
  split
  · rfl
  · rfl
  · by_cases h : (ppuMask s.ppu.v).toNat < 0x3F00
    · rw [show readData s = _ from if_pos h]
    · rw [show readData s = _ from if_neg h]
  · rfl

theorem ioRead_frame (a : Addr) (s : State) :
    (ioRead a s).2 = { s with ioAnswers := (ioRead a s).2.ioAnswers, ioLog := (ioRead a s).2.ioLog } := by
  unfold ioRead
  cases s.ioAnswers <;> rfl

/-- A read changes at most the PPU's vblank, w, read buffer and v, the draw counter and the I/O device's lists. -/
theorem busValue_frame (a : Addr) (s : State) :
    (busValue a s).2 = { s with
      draws := (busValue a s).2.draws
      ioAnswers := (busValue a s).2.ioAnswers
      ioLog := (busValue a s).2.ioLog
      ppu := { s.ppu with
        vblank := (busValue a s).2.ppu.vblank
        w := (busValue a s).2.ppu.w
        readBuffer := (busValue a s).2.ppu.readBuffer
        v := (busValue a s).2.ppu.v } } := by
  cases h : cpuDevice a with
  | none => simp only [busValue, h]
  | some d =>
    cases d with
    | ram => simp only [busValue, h]
    | cartridge => simp only [busValue, h]
    | ppu =>
      simp only [busValue, h]
      have e := ppuRegRead_frame s (a.toNat % 8)
      generalize (ppuRegRead s (a.toNat % 8)).2 = u at e ⊢
      rw [e]
    | io =>
      simp only [busValue, h]
      have e := ioRead_frame a s
      generalize (ioRead a s).2 = u at e ⊢
      rw [e]

/-- Outside the PPU window a read leaves the PPU alone. -/
theorem busValue_ppu {a : Addr} (s : State) (h : ¬ InPpuWindow a) : (busValue a s).2.ppu = s.ppu := by
  rw [inPpuWindow_iff] at h
  unfold busValue
  split
  · rfl
  · contradiction
  · rw [ioRead_frame]
  · rfl
  · rfl

/-- A PPUDATA read steps the PPU address register. -/
theorem busValue_v {a : Addr} (s : State) (h : InPpuWindow a) (h7 : a.toNat % 8 = 7) :
    (busValue a s).2.ppu.v = incrementV s.ppu := by
  simp only [busValue, (inPpuWindow_iff a).1 h, h7, ppuRegRead, readData]
  split <;> rfl

/-- No other read changes the PPU address register. -/
theorem busValue_v_other {a : Addr} (s : State) (h : ¬ (InPpuWindow a ∧ a.toNat % 8 = 7)) :
    (busValue a s).2.ppu.v = s.ppu.v := by
  by_cases hw : InPpuWindow a
  · have h7 : a.toNat % 8 ≠ 7 := fun e => h ⟨hw, e⟩
    simp only [busValue, (inPpuWindow_iff a).1 hw]
    unfold ppuRegRead
    split
    · rfl
    · rfl
    · contradiction
    · rfl
  · rw [busValue_ppu s hw]

/-- A read leaves every memory as it was. -/
theorem sameMemory_busValue (a : Addr) (s : State) : SameMemory s (busValue a s).2 := by
  rw [busValue_frame]
  exact ⟨fun _ => rfl, fun _ => rfl, fun _ => rfl, fun _ => rfl, fun _ => rfl, fun _ => rfl, fun _ => rfl, rfl, rfl⟩

theorem SameMemory.refl (s : State) : SameMemory s s :=
  ⟨fun _ => rfl, fun _ => rfl, fun _ => rfl, fun _ => rfl, fun _ => rfl, fun _ => rfl, fun _ => rfl, rfl, rfl⟩

theorem SameMemory.trans {s t u : State} (h : SameMemory s t) (g : SameMemory t u) : SameMemory s u := by
  obtain ⟨h1, h2, h3, h4, h5, h6, h7, h8, h9⟩ := h
  obtain ⟨g1, g2, g3, g4, g5, g6, g7, g8, g9⟩ := g
  exact ⟨fun k => (g1 k).trans (h1 k), fun k => (g2 k).trans (h2 k), fun k => (g3 k).trans (h3 k),
    fun k => (g4 k).trans (h4 k), fun k => (g5 k).trans (h5 k), fun k => (g6 k).trans (h6 k),
    fun k => (g7 k).trans (h7 k), g8.trans h8, g9.trans h9⟩

/-! ## Writes -/

theorem ppuBusWrite_frame (s : State) (a : Addr) (d : Byte) :
    ppuBusWrite s a d = { s with
      chrMem := (ppuBusWrite s a d).chrMem
      ppu := { s.ppu with vram := (ppuBusWrite s a d).ppu.vram, palette := (ppuBusWrite s a d).ppu.palette } } := by
  unfold ppuBusWrite chrWrite
  simp only
  by_cases h1 : (ppuMask a).toNat < 0x2000
  · by_cases h2 : s.cart.header.chrBanks = 0
    · simp only [if_pos h1, if_pos h2]
    · simp only [if_pos h1, if_neg h2]
  · by_cases h2 : (ppuMask a).toNat < 0x3F00
    · simp only [if_neg h1, if_pos h2]
    · simp only [if_neg h1, if_neg h2]

theorem ppuRegWrite_frame (s : State) (r : Nat) (d : Byte) :
    ppuRegWrite s r d = { s with
      cpu := { s.cpu with nmiPending := (ppuRegWrite s r d).cpu.nmiPending }
      chrMem := (ppuRegWrite s r d).chrMem
      ppu := { s.ppu with
        ctrl := (ppuRegWrite s r d).ppu.ctrl
        mask := (ppuRegWrite s r d).ppu.mask
        oamAddr := (ppuRegWrite s r d).ppu.oamAddr
        oam := (ppuRegWrite s r d).ppu.oam
        v := (ppuRegWrite s r d).ppu.v
        t := (ppuRegWrite s r d).ppu.t
        fineX := (ppuRegWrite s r d).ppu.fineX
        w := (ppuRegWrite s r d).ppu.w
        palette := (ppuRegWrite s r d).ppu.palette
        vram := (ppuRegWrite s r d).ppu.vram } } := by
  unfold ppuRegWrite
  split
  · rfl
  · rfl
  · rfl
  · rfl
  · rfl
  · unfold writeScroll
    cases s.ppu.w <;> rfl
  · unfold writeAddr
    cases s.ppu.w <;> rfl
  · unfold writeData
    have e := ppuBusWrite_frame s s.ppu.v d
    simp only
    generalize ppuBusWrite s s.ppu.v d = u at e ⊢
    rw [e]

/-- A write changes at most the NMI latch, RAM, PRG RAM, CHR memory, the mapper, the I/O log and the PPU's registers, OAM,
palette and nametable memory. -/
theorem busStore_frame (a : Addr) (v : Byte) (s : State) :
    busStore a v s = { s with
      cpu := { s.cpu with nmiPending := (busStore a v s).cpu.nmiPending }
      ram := (busStore a v s).ram
      prgRam := (busStore a v s).prgRam
      chrMem := (busStore a v s).chrMem
      mapper := (busStore a v s).mapper
      ioLog := (busStore a v s).ioLog
      ppu := { s.ppu with
        ctrl := (busStore a v s).ppu.ctrl
        mask := (busStore a v s).ppu.mask
        oamAddr := (busStore a v s).ppu.oamAddr
        oam := (busStore a v s).ppu.oam
        v := (busStore a v s).ppu.v
        t := (busStore a v s).ppu.t
        fineX := (busStore a v s).ppu.fineX
        w := (busStore a v s).ppu.w
        palette := (busStore a v s).ppu.palette
        vram := (busStore a v s).ppu.vram } } := by
  cases h : cpuDevice a with
  | none => simp only [busStore, h]
  | some dev =>
    cases dev with
    | ram => simp only [busStore, h]
    | io => simp only [busStore, h]
    | cartridge =>
      simp only [busStore, h, cartWrite]
      by_cases h2 : a.toNat < 0x8000
      · simp only [if_pos h2]
      · simp only [if_neg h2]
    | ppu =>
      simp only [busStore, h]
      have e := ppuRegWrite_frame s (a.toNat % 8) v
      generalize ppuRegWrite s (a.toNat % 8) v = u at e ⊢
      rw [e]

theorem busStore_ram (a : Addr) (v : Byte) (s : State) :
    (busStore a v s).ram = if a.toNat < 0x2000 then s.ram.write (a.toNat % 2048) v else s.ram := by
  by_cases h : a.toNat < 0x2000
  · simp only [busStore, cpuDevice_ram h, if_pos h]
  · have hd : cpuDevice a ≠ some .ram := by
      simp only [cpuDevice, h, if_false]
      repeat' split
      all_goals simp
    rw [if_neg h]
    unfold busStore
    split
    · contradiction
    · rw [ppuRegWrite_frame]
    · rfl
    · unfold cartWrite; split <;> rfl
    · rfl

theorem cpuDevice_cartridge {a : Addr} (h : cpuDevice a = some .cartridge) : 0x4020 ≤ a.toNat := by
  unfold cpuDevice at h
  by_contra hc
  repeat' split at h
  all_goals first
    | omega
    | cases h

theorem busStore_prgRam_read (a : Addr) (v : Byte) (s : State) (k : Nat) (hok : accessOk s .write a = true)
    (hk : ¬ (0x6000 ≤ a.toNat ∧ a.toNat < 0x8000 ∧ k = a.toNat - 0x6000)) :
    (busStore a v s).prgRam.read k = s.prgRam.read k := by
  unfold accessOk at hok
  unfold busStore
  split
  · rfl
  · rw [ppuRegWrite_frame]
  · rfl
  · rename_i e
    rw [e] at hok
    unfold cartWrite
    split
    · rename_i hlt
      have h6 : ¬ a.toNat < 0x6000 := by intro hc; simp [cartImplements, hc] at hok
      exact read_write_other _ v (fun hc => hk ⟨by omega, hlt, hc.symm⟩)
    · rfl
  · rfl

theorem busStore_mapper (a : Addr) (v : Byte) (s : State) :
    (busStore a v s).mapper = if 0x8000 ≤ a.toNat then mapperWrite s.mapper a v else s.mapper := by
  unfold busStore
  split
  · rename_i e
    rw [if_neg]
    intro hc
    simp [cpuDevice, show ¬ a.toNat < 0x2000 by omega, show ¬ a.toNat < 0x4000 by omega,
      show ¬ a.toNat < 0x4018 by omega, show ¬ a.toNat < 0x4020 by omega] at e
  · rename_i e
    have := cpuDevice_ppu e
    rw [ppuRegWrite_frame, if_neg (by omega)]
  · rename_i e
    rw [if_neg]
    intro hc
    simp [cpuDevice, show ¬ a.toNat < 0x2000 by omega, show ¬ a.toNat < 0x4000 by omega,
      show ¬ a.toNat < 0x4018 by omega, show ¬ a.toNat < 0x4020 by omega] at e
  · unfold cartWrite
    split
    · rw [if_neg (by omega)]
    · rw [if_pos (by omega)]
  · rename_i e
    rw [if_neg]
    intro hc
    simp [cpuDevice, show ¬ a.toNat < 0x2000 by omega, show ¬ a.toNat < 0x4000 by omega,
      show ¬ a.toNat < 0x4018 by omega, show ¬ a.toNat < 0x4020 by omega] at e

/-- Outside the PPU window a write leaves the PPU and the CHR memory alone. -/
theorem busStore_ppu {a : Addr} (v : Byte) (s : State) (h : ¬ InPpuWindow a) :
    (busStore a v s).ppu = s.ppu ∧ (busStore a v s).chrMem = s.chrMem := by
  rw [inPpuWindow_iff] at h
  unfold busStore
  split
  · exact ⟨rfl, rfl⟩
  · contradiction
  · exact ⟨rfl, rfl⟩
  · unfold cartWrite; split <;> exact ⟨rfl, rfl⟩
  · exact ⟨rfl, rfl⟩

theorem ppuRegWrite_oam_read (s : State) (r : Nat) (d : Byte) (k : Nat) (hk : ¬ (r = 4 ∧ k = s.ppu.oamAddr.toNat)) :
    (ppuRegWrite s r d).ppu.oam.read k = s.ppu.oam.read k := by
  unfold ppuRegWrite
  split
  · rfl
  · rfl
  · rfl
  · rfl
  · exact read_write_other _ d (fun hc => hk ⟨rfl, hc.symm⟩)
  · unfold writeScroll; split <;> rfl
  · unfold writeAddr; split <;> rfl
  · simp only [writeData]; rw [ppuBusWrite_frame]

theorem ppuRegWrite_behind (s : State) {r : Nat} (d : Byte) (hr : r < 7) :
    (ppuRegWrite s r d).ppu.vram = s.ppu.vram ∧ (ppuRegWrite s r d).ppu.palette = s.ppu.palette ∧
    (ppuRegWrite s r d).chrMem = s.chrMem := by
  interval_cases r <;> first
    | exact ⟨rfl, rfl, rfl⟩
    | (simp only [ppuRegWrite]; unfold writeScroll; split <;> exact ⟨rfl, rfl, trivial⟩)
    | (simp only [ppuRegWrite]; unfold writeAddr; split <;> exact ⟨rfl, rfl, trivial⟩)

/-- A PPU bus write leaves every entry outside the one behind its address as it was. -/
theorem ppuBusWrite_read (s : State) (a : Addr) (d : Byte) :
    (∀ k, ¬ (0x2000 ≤ (ppuMask a).toNat ∧ (ppuMask a).toNat ≤ 0x3EFF ∧ k = ntIndex (mirroringOf s) (ppuMask a)) →
      (ppuBusWrite s a d).ppu.vram.read k = s.ppu.vram.read k) ∧
    (∀ k, ¬ (0x3F00 ≤ (ppuMask a).toNat ∧ k = palIndex (ppuMask a)) →
      (ppuBusWrite s a d).ppu.palette.read k = s.ppu.palette.read k) ∧
    (∀ k, ¬ ((ppuMask a).toNat ≤ 0x1FFF ∧ s.cart.header.chrBanks = 0 ∧
        k = chrOffset s.mapper (chrSize s.cart.header) (ppuMask a)) →
      (ppuBusWrite s a d).chrMem.read k = s.chrMem.read k) := by
  unfold ppuBusWrite chrWrite
  simp only
  by_cases h1 : (ppuMask a).toNat < 0x2000
  · by_cases h2 : s.cart.header.chrBanks = 0
    · simp only [if_pos h1, if_pos h2]
      exact ⟨fun _ _ => trivial, fun _ _ => trivial,
        fun k hk => read_write_other _ d fun hc => hk ⟨by omega, h2, hc.symm⟩⟩
    · simp only [if_pos h1, if_neg h2]
      exact ⟨fun _ _ => trivial, fun _ _ => trivial, fun _ _ => trivial⟩
  · by_cases h2 : (ppuMask a).toNat < 0x3F00
    · simp only [if_neg h1, if_pos h2]
      exact ⟨fun k hk => read_write_other _ d fun hc => hk ⟨by omega, by omega, hc.symm⟩, fun _ _ => trivial,
        fun _ _ => trivial⟩
    · simp only [if_neg h1, if_neg h2]
      exact ⟨fun _ _ => trivial, fun k hk => read_write_other _ (d.setWidth 6) fun hc => hk ⟨by omega, hc.symm⟩,
        fun _ _ => trivial⟩

/-- The palette entry of a PPU address does not depend on its two highest bits. -/
theorem palIndex_ppuMask (a : Addr) : palIndex (ppuMask a) = palIndex a := by
  have h : ppuMask a &&& 0x1F#16 = a &&& 0x1F#16 := BitVec.and_assoc a 0x3FFF#16 0x1F#16
  simp only [palIndex, h]

/-- A register write leaves every entry outside the one that a PPUDATA write reaches as it was. -/
theorem ppuRegWrite_read {s : State} {r : Nat} (d : Byte) (hr : r < 8) :
    (∀ k, ¬ (r = 7 ∧ 0x2000 ≤ (ppuMask s.ppu.v).toNat ∧ (ppuMask s.ppu.v).toNat ≤ 0x3EFF ∧
        k = ntIndex (mirroringOf s) (ppuMask s.ppu.v)) →
      (ppuRegWrite s r d).ppu.vram.read k = s.ppu.vram.read k) ∧
    (∀ k, ¬ (r = 7 ∧ 0x3F00 ≤ (ppuMask s.ppu.v).toNat ∧ k = palIndex s.ppu.v) →
      (ppuRegWrite s r d).ppu.palette.read k = s.ppu.palette.read k) ∧
    (∀ k, ¬ (r = 7 ∧ (ppuMask s.ppu.v).toNat ≤ 0x1FFF ∧ s.cart.header.chrBanks = 0 ∧
        k = chrOffset s.mapper (chrSize s.cart.header) (ppuMask s.ppu.v)) →
      (ppuRegWrite s r d).chrMem.read k = s.chrMem.read k) := by
  by_cases h7 : r = 7
  · subst h7
    obtain ⟨h1, h2, h3⟩ := ppuBusWrite_read s s.ppu.v d
    rw [palIndex_ppuMask] at h2
    exact ⟨fun k hk => h1 k fun hc => hk ⟨rfl, hc⟩, fun k hk => h2 k fun hc => hk ⟨rfl, hc⟩,
      fun k hk => h3 k fun hc => hk ⟨rfl, hc⟩⟩
  · obtain ⟨h1, h2, h3⟩ := ppuRegWrite_behind s d (show r < 7 by omega)
    exact ⟨fun _ _ => by rw [h1], fun _ _ => by rw [h2], fun _ _ => by rw [h3]⟩

theorem ppuMask_lt (a : Addr) : (ppuMask a).toNat < 0x4000 := by
  rw [ppuMask, BitVec.toNat_and]
  exact Nat.lt_of_le_of_lt Nat.and_le_right (by decide)

/-- What a bus write leaves of the memories behind PPUDATA. -/
theorem busStore_behind (a : Addr) (d : Byte) (s : State) :
    (∀ k, ¬ (ReachesPpu a s.ppu.v 0x2000 0x3EFF ∧ k = ntIndex (mirroringOf s) (ppuMask s.ppu.v)) →
      (busStore a d s).ppu.vram.read k = s.ppu.vram.read k) ∧
    (∀ k, ¬ (ReachesPpu a s.ppu.v 0x3F00 0x3FFF ∧ k = palIndex s.ppu.v) →
      (busStore a d s).ppu.palette.read k = s.ppu.palette.read k) ∧
    (∀ k, ¬ (ReachesPpu a s.ppu.v 0x0000 0x1FFF ∧ s.cart.header.chrBanks = 0 ∧
        k = chrOffset s.mapper (chrSize s.cart.header) (ppuMask s.ppu.v)) →
      (busStore a d s).chrMem.read k = s.chrMem.read k) := by
  by_cases h : InPpuWindow a
  · simp only [busStore, (inPpuWindow_iff a).1 h]
    obtain ⟨h1, h2, h3⟩ := ppuRegWrite_read (s := s) d (show a.toNat % 8 < 8 by omega)
    have hm := ppuMask_lt s.ppu.v
    exact ⟨fun k hk => h1 k fun ⟨e, l, u, r⟩ => hk ⟨⟨h, e, l, u⟩, r⟩,
      fun k hk => h2 k fun ⟨e, l, r⟩ => hk ⟨⟨h, e, l, by omega⟩, r⟩,
      fun k hk => h3 k fun ⟨e, u, r⟩ => hk ⟨⟨h, e, Nat.zero_le _, u⟩, r⟩⟩
  · obtain ⟨h1, h2⟩ := busStore_ppu d s h
    exact ⟨fun _ _ => by rw [h1], fun _ _ => by rw [h1], fun _ _ => by rw [h2]⟩

/-- A write leaves every byte outside the one it stores to as it was. -/
theorem sameMemoryBut_busStore (a : Addr) (v : Byte) (s : State) (hok : accessOk s .write a = true) :
    SameMemoryBut a s.ppu.v s (busStore a v s) := by
  obtain ⟨hv, hp, hc⟩ := busStore_behind a v s
  refine ⟨fun k hk => ?_, fun k hk => busStore_prgRam_read a v s k hok hk, fun k hk => ?_, fun hw => ?_, hv, hp, hc,
    fun hw => (busStore_ppu v s hw).1, fun hlt => ?_, ?_, busStore_cart a v s⟩
  · rw [busStore_ram]
    split
    · rename_i h; exact read_write_other _ v (fun hc => hk ⟨h, hc.symm⟩)
    · rfl
  · by_cases h : InPpuWindow a
    · have e := (inPpuWindow_iff a).1 h
      simp only [busStore, e]
      exact ppuRegWrite_oam_read s _ v k (fun hc => hk ⟨h, hc.1, hc.2⟩)
    · rw [(busStore_ppu v s h).1]
  · by_cases h : InPpuWindow a
    · have e := (inPpuWindow_iff a).1 h
      simp only [busStore, e]
      exact ppuRegWrite_behind s v (by
        have : a.toNat % 8 ≠ 7 := fun hc => hw ⟨h, hc⟩
        omega)
    · obtain ⟨h1, h2⟩ := busStore_ppu v s h
      exact ⟨by rw [h1], by rw [h1], h2⟩
  · rw [busStore_mapper, if_neg (by omega)]
  · rw [busStore_frame]

/-- Reading a byte and then writing it leaves every byte outside the one written as it was. -/
theorem sameMemoryBut_modify {a : Addr} {v : Byte} {s : State} (hok : accessOk s .write a = true) :
    SameMemoryBut a (busValue a s).2.ppu.v s (busStore a v (busValue a s).2) := by
  have hok2 : accessOk (busValue a s).2 .write a = true := by
    unfold accessOk cartImplements at *
    rw [busValue_cart]; exact hok
  have h := sameMemoryBut_busStore a v _ hok2
  have hp := @busValue_ppu a s
  generalize busStore a v (busValue a s).2 = z at h
  rw [busValue_frame] at h ⊢
  rw [busValue_frame] at hp
  obtain ⟨h1, h2, h3, h4, n1, n2, n3, h5, h6⟩ := h
  exact ⟨h1, h2, h3, h4, n1, n2, n3, fun hw => (h5 hw).trans (hp hw), h6⟩

end Sys2Proof.Laws
end

