-- ==== Sys2Proof/Laws/Decode.lean ====
section
/-! SUPPORT. The laws of the decoder: byte order, when an instruction can be read, and that the bytes a fetch reads always
decode. -/

namespace Sys2Proof.Laws

open Sys2Proof.Machine

@[simp] theorem loByte_leWord (l h : Byte) : loByte (leWord l h) = l := by
  apply BitVec.eq_of_getLsbD_eq
  intro i hi
  simp only [loByte, leWord, BitVec.getLsbD_extractLsb', BitVec.getLsbD_append]
  simp [hi]

@[simp] theorem hiByte_leWord (l h : Byte) : hiByte (leWord l h) = h := by
  apply BitVec.eq_of_getLsbD_eq
  intro i hi
  simp only [hiByte, leWord, BitVec.getLsbD_extractLsb', BitVec.getLsbD_append]
  simp [hi]

@[simp] theorem leWord_bytes (w : Addr) : leWord (loByte w) (hiByte w) = w := by
  apply BitVec.eq_of_getLsbD_eq
  intro i hi
  simp only [hiByte, loByte, leWord, BitVec.getLsbD_append, BitVec.getLsbD_extractLsb']
  by_cases h : i < 8
  · simp [h]
  · simp [h, show i - 8 < 8 by omega, show 8 + (i - 8) = i by omega]

/-- Every mode that takes operand bytes gets its operand from exactly as many; IMP and REL are no operand modes of the table. -/
theorem takeOperand_some (m : Mode) (bs : List Byte) (hm : m ≠ .imp ∧ m ≠ .rel) (h : bs.length = operandCount m) :
    ∃ o, takeOperand m bs = some (o, []) := by
  cases m <;> simp only [operandCount] at h <;> first
    | exact absurd rfl hm.1
    | exact absurd rfl hm.2
    | (match bs, h with | [], _ => exact ⟨_, rfl⟩)
    | (match bs, h with | [_], _ => exact ⟨_, rfl⟩)
    | (match bs, h with | [_, _], _ => exact ⟨_, rfl⟩)

/-- The operand descriptors of the table have operand modes. -/
def operandDescriptor : Descriptor → Bool
  | .operand m _ _ => m != .imp && m != .rel
  | _ => true

theorem operandDescriptor_table (op : Byte) : operandDescriptor (descriptorOf op) = true := by
  revert op; decide +kernel

/-- As many bytes as the opcode's mode takes always give an instruction, and none is left. -/
theorem buildInstr_exact (op : Byte) (bs : List Byte) (h : bs.length = descriptorOperands (descriptorOf op)) :
    ∃ i, buildInstr op (descriptorOf op) bs = .ok (i, []) := by
  have ht := operandDescriptor_table op
  cases e : descriptorOf op with
  | illegal =>
    rw [e] at h
    match bs, h with | [], _ => exact ⟨_, rfl⟩
  | implied b i =>
    rw [e] at h
    match bs, h with | [], _ => exact ⟨_, rfl⟩
  | operand m b f =>
    rw [e] at h ht
    simp only [operandDescriptor, Bool.and_eq_true, bne_iff_ne] at ht
    obtain ⟨o, ho⟩ := takeOperand_some m bs ht h
    exact ⟨f o, by simp [buildInstr, ho]⟩
  | relative b f =>
    rw [e] at h
    match bs, h with | [_], _ => exact ⟨_, rfl⟩
  | target b f =>
    rw [e] at h
    match bs, h with | [_, _], _ => exact ⟨_, rfl⟩

theorem readBytes_length {n : Nat} {a : Addr} {s t : State} {bs : List Byte} (h : readBytes n a s = .ok bs t) :
    bs.length = n := by
  induction n generalizing a s bs t with
  | zero => cases h; rfl
  | succ n ih =>
    simp only [readBytes] at h
    cases e : cpuRead a s with
    | fault => rw [e] at h; cases h
    | ok b s1 =>
      rw [e] at h
      simp only [busBind] at h
      cases e2 : readBytes n (a + 1#16) s1 with
      | fault => rw [e2] at h; cases h
      | ok bs2 s2 =>
        rw [e2] at h
        cases h
        simp [ih e2]

/-- The bytes a fetch reads always decode, with none left. -/
theorem decode_fetched {s t : State} {bs : List Byte} (h : fetchBytes s = .ok bs t) : ∃ i, decode bs = .ok (i, []) := by
  simp only [fetchBytes] at h
  cases e : cpuRead s.cpu.pc s with
  | fault => rw [e] at h; cases h
  | ok op s1 =>
    rw [e] at h
    simp only [busBind] at h
    cases e2 : readBytes (descriptorOperands (descriptorOf op)) (s.cpu.pc + 1#16) s1 with
    | fault => rw [e2] at h; cases h
    | ok bs2 s2 =>
      rw [e2] at h
      cases h
      exact buildInstr_exact op bs2 (readBytes_length e2)

end Sys2Proof.Laws
end

