-- ==== Sys2Proof/Laws/Preserve.lean ====
section
/-! SUPPORT. What every instruction, interrupt entry and step keeps: a property that register writes, bus reads and bus writes
keep is kept by all of them. -/

namespace Sys2Proof.Laws

open Sys2Proof.Machine

/-- The state a bus operation leaves, whether it succeeds or fails, has a property. -/
def Leaves (Inv : State → Prop) {α : Type} : Bus α → Prop
  | .ok _ s => Inv s
  | .fault _ _ _ s => Inv s

/-- A property that the parts of an instruction keep. -/
structure Kept (Inv : State → Prop) : Prop where
  cpu   : ∀ c s, Inv s → Inv (setCpu c s)
  read  : ∀ a s, Inv s → Inv (busValue a s).2
  write : ∀ a v s, accessOk s .write a = true → Inv s → Inv (busStore a v s)

variable {Inv : State → Prop}

theorem leaves_bind {α β : Type} {x : Bus α} {f : α → State → Bus β} (hx : Leaves Inv x)
    (hf : ∀ v s, Inv s → Leaves Inv (f v s)) : Leaves Inv (busBind x f) := by
  cases x with
  | ok v s => exact hf v s hx
  | fault => exact hx

theorem leaves_cpuRead (hr : ∀ a s, Inv s → Inv (busValue a s).2) (a : Addr) {s : State} (h : Inv s) :
    Leaves Inv (cpuRead a s) := by
  unfold cpuRead; split
  · exact hr a s h
  · exact h

theorem leaves_readPair (hr : ∀ a s, Inv s → Inv (busValue a s).2) (a b : Addr) {s : State} (h : Inv s) :
    Leaves Inv (readPair a b s) :=
  leaves_bind (leaves_cpuRead hr a h) fun _ _ h => leaves_bind (leaves_cpuRead hr b h) fun _ _ h => h

theorem leaves_resolve (hr : ∀ a s, Inv s → Inv (busValue a s).2) (o : Operand) {s : State} (h : Inv s) :
    Leaves Inv (resolve o s) := by
  cases o <;> first | exact h | exact leaves_bind (leaves_readPair hr _ _ h) fun _ _ h => h

theorem leaves_loadPlace (hr : ∀ a s, Inv s → Inv (busValue a s).2) (l : Place) {s : State} (h : Inv s) :
    Leaves Inv (loadPlace l s) := by
  cases l <;> first | exact h | exact leaves_cpuRead hr _ h

theorem leaves_readBytes (hr : ∀ a s, Inv s → Inv (busValue a s).2) (n : Nat) (a : Addr) {s : State} (h : Inv s) :
    Leaves Inv (readBytes n a s) := by
  induction n generalizing a s with
  | zero => exact h
  | succ n ih => exact leaves_bind (leaves_cpuRead hr a h) fun _ _ h => leaves_bind (ih _ h) fun _ _ h => h

theorem leaves_fetch (hr : ∀ a s, Inv s → Inv (busValue a s).2) {s : State} (h : Inv s) : Leaves Inv (fetch s) :=
  leaves_bind (leaves_bind (leaves_cpuRead hr _ h) fun _ _ h => leaves_bind (leaves_readBytes hr _ _ h) fun _ _ h => h)
    fun _ _ h => h

section

variable (K : Kept Inv)
include K

theorem leaves_cpuWrite (a : Addr) (v : Byte) {s : State} (h : Inv s) : Leaves Inv (cpuWrite a v s) := by
  unfold cpuWrite; split
  · exact K.write a v s (by assumption) h
  · exact h

theorem leaves_push (v : Byte) {s : State} (h : Inv s) : Leaves Inv (push v s) :=
  leaves_bind (leaves_cpuWrite K _ v h) fun _ s h => K.cpu { s.cpu with sp := s.cpu.sp - 1#8 } s h

theorem leaves_pull {s : State} (h : Inv s) : Leaves Inv (pull s) :=
  leaves_cpuRead K.read _ (K.cpu { s.cpu with sp := s.cpu.sp + 1#8 } s h)

theorem leaves_storePlace (l : Place) (v : Byte) {s : State} (h : Inv s) : Leaves Inv (storePlace l v s) := by
  cases l <;> first | exact h | exact K.cpu { s.cpu with a := v } s h | exact leaves_cpuWrite K _ v h

theorem leaves_interruptSequence (vec : Addr) (b : Bool) {s : State} (h : Inv s) :
    Leaves Inv (interruptSequence vec b s) :=
  leaves_bind (leaves_push K _ h) fun _ _ h => leaves_bind (leaves_push K _ h) fun _ _ h =>
    leaves_bind (leaves_push K _ h) fun _ s h =>
      leaves_bind (leaves_readPair K.read _ _ (K.cpu { s.cpu with p := enteredStatus s.cpu.p b } s h)) fun pc s h =>
        K.cpu { s.cpu with pc := pc } s h

theorem leaves_returnFromInterrupt {s : State} (h : Inv s) : Leaves Inv (returnFromInterrupt s) :=
  leaves_bind (leaves_pull K h) fun p s h =>
    leaves_bind (leaves_pull K (K.cpu { s.cpu with p := pulledStatus p } s h)) fun lo _ h =>
      leaves_bind (leaves_pull K h) fun hi s h => K.cpu { s.cpu with pc := leWord lo hi } s h

theorem leaves_returnFromSubroutine {s : State} (h : Inv s) : Leaves Inv (returnFromSubroutine s) :=
  leaves_bind (leaves_pull K h) fun lo _ h =>
    leaves_bind (leaves_pull K h) fun hi s h => K.cpu { s.cpu with pc := leWord lo hi + 1#16 } s h

theorem leaves_callSubroutine (target : Addr) {s : State} (h : Inv s) : Leaves Inv (callSubroutine target s) :=
  leaves_bind (leaves_push K _ h) fun _ _ h => leaves_bind (leaves_push K _ h) fun _ s h =>
    K.cpu { s.cpu with pc := target } s h

end

/-! ## Outcomes -/

/-- A slot's next state has a property, and so has the state a bus fault leaves, but for its fault record and registers. -/
theorem keeps_endSlot {start t : State} {r : Bus Unit} (hr : Leaves Inv r) (h : endSlot start r = .next t) : Inv t := by
  cases r with
  | ok v s => cases h; exact hr
  | fault f => cases f <;> cases h

theorem keeps_advance (hc : ∀ c s, Inv s → Inv (setCpu c s)) (i : Instr) {s : State} (h : Inv s) : Inv (advance i s) :=
  hc _ s h

theorem keeps_finish (hc : ∀ c s, Inv s → Inv (setCpu c s)) (i : Instr) (n : Nat) {s : State} (h : Inv s) :
    Inv (finish i n s) := hc _ s h

theorem keeps_readShape (hc : ∀ c s, Inv s → Inv (setCpu c s)) (hr : ∀ a s, Inv s → Inv (busValue a s).2) {i : Instr}
    {o : Operand} {f : Byte → State → State} (hf : ∀ m s, ∃ c, f m s = setCpu c s) {s t : State} (h : Inv s)
    (ht : readShape i o f s = .next t) : Inv t := by
  refine keeps_endSlot ?_ ht
  refine leaves_bind (leaves_resolve hr o (keeps_advance hc i h)) fun r s h => ?_
  refine leaves_bind (leaves_loadPlace hr _ h) fun m s h => ?_
  refine keeps_finish hc i _ ?_
  obtain ⟨c, e⟩ := hf m s
  rw [e]
  exact hc c s h

theorem keeps_modifyShape (K : Kept Inv) {i : Instr} {o : Operand} {f g : Byte → Cpu → Byte} {s t : State} (h : Inv s)
    (ht : modifyShape i o f g s = .next t) : Inv t := by
  refine keeps_endSlot ?_ ht
  refine leaves_bind (leaves_resolve K.read o (keeps_advance K.cpu i h)) fun r s h => ?_
  refine leaves_bind (leaves_loadPlace K.read _ h) fun m s0 h => ?_
  refine leaves_bind (leaves_storePlace K _ _ h) fun _ s h => ?_
  exact keeps_finish K.cpu i _ (K.cpu { s.cpu with p := g m s0.cpu } s h)

theorem keeps_storeShape (K : Kept Inv) {i : Instr} {o : Operand} {v : Byte} {s t : State} (h : Inv s)
    (ht : storeShape i o v s = .next t) : Inv t := by
  refine keeps_endSlot ?_ ht
  refine leaves_bind (leaves_resolve K.read o (keeps_advance K.cpu i h)) fun r s h => ?_
  exact leaves_bind (leaves_storePlace K _ _ h) fun _ s h => keeps_finish K.cpu i _ h

theorem keeps_impliedShape (hc : ∀ c s, Inv s → Inv (setCpu c s)) {i : Instr} {f : State → State}
    (hf : ∀ s, ∃ c, f s = setCpu c s) {s t : State} (h : Inv s) (ht : impliedShape i f s = .next t) : Inv t := by
  cases ht
  obtain ⟨c, e⟩ := hf (advance i s)
  rw [e]
  exact keeps_finish hc i _ (hc _ _ (keeps_advance hc i h))

theorem keeps_stackShape (hc : ∀ c s, Inv s → Inv (setCpu c s)) {i : Instr} {f : State → Bus Unit}
    (hf : ∀ s, Inv s → Leaves Inv (f s)) {s t : State} (h : Inv s) (ht : stackShape i f s = .next t) : Inv t := by
  refine keeps_endSlot ?_ ht
  exact leaves_bind (hf _ (keeps_advance hc i h)) fun _ _ h => keeps_finish hc i _ h

theorem keeps_branchShape (hc : ∀ c s, Inv s → Inv (setCpu c s)) {i : Instr} {d : Byte} {cond : Bool} {s t : State}
    (h : Inv s) (ht : branchShape i d cond s = .next t) : Inv t := by
  unfold branchShape at ht
  cases cond <;> cases ht
  · exact hc _ s h
  · exact hc _ s h

theorem keeps_jump (K : Kept Inv) {o : Operand} {s t : State} (h : Inv s) (ht : execJmp o s = .next t) : Inv t := by
  refine keeps_endSlot ?_ ht
  refine leaves_bind (leaves_resolve K.read _ (keeps_advance K.cpu _ h)) fun r s h => ?_
  refine keeps_finish K.cpu _ 0 ?_
  cases r with
  | mk l b => cases l <;> first | exact h | exact K.cpu _ s h

/-- What register writes, bus reads and bus writes keep, every instruction keeps. -/
theorem keeps_exec (K : Kept Inv) {i : Instr} {s t : State} (h : Inv s) (ht : exec i s = .next t) : Inv t := by
  cases i with
  | lda o | ldx o | ldy o | adc o | sbc o | and o | ora o | eor o | bit o | cmp o | cpx o | cpy o =>
    simp only [exec, execLda, execLdx, execLdy, execAdc, execSbc, execAnd, execOra, execEor, execBit, execCmp, execCpx,
      execCpy] at ht
    exact keeps_readShape K.cpu K.read (fun m s => ⟨_, rfl⟩) h ht
  | sta o | stx o | sty o =>
    simp only [exec, execSta, execStx, execSty] at ht
    exact keeps_storeShape K h ht
  | inc o | dec o | asl o | lsr o | rol o | ror o =>
    simp only [exec, execInc, execDec, execAsl, execLsr, execRol, execRor] at ht
    exact keeps_modifyShape K h ht
  | tax | tay | tsx | txa | txs | tya | inx | iny | dex | dey | clc | cld | cli | clv | sec | sed | sei =>
    simp only [exec, execTax, execTay, execTsx, execTxa, execTxs, execTya, execInx, execIny, execDex, execDey, execClc,
      execCld, execCli, execClv, execSec, execSed, execSei] at ht
    exact keeps_impliedShape K.cpu (fun s => ⟨_, rfl⟩) h ht
  | nop =>
    simp only [exec, execNop] at ht
    exact keeps_impliedShape K.cpu (fun s => ⟨s.cpu, rfl⟩) h ht
  | bcc d | bcs d | beq d | bmi d | bne d | bpl d | bvc d | bvs d =>
    simp only [exec, execBcc, execBcs, execBeq, execBmi, execBne, execBpl, execBvc, execBvs] at ht
    exact keeps_branchShape K.cpu h ht
  | jmp o => exact keeps_jump K h ht
  | jsr target => exact keeps_stackShape K.cpu (fun s h => leaves_callSubroutine K _ h) h ht
  | rts => exact keeps_stackShape K.cpu (fun s h => leaves_returnFromSubroutine K h) h ht
  | rti => exact keeps_stackShape K.cpu (fun s h => leaves_returnFromInterrupt K h) h ht
  | brk =>
    exact keeps_stackShape K.cpu
      (fun s h => leaves_interruptSequence K _ _ (K.cpu { s.cpu with pc := s.cpu.pc + 1#16 } s h)) h ht
  | pha => exact keeps_stackShape K.cpu (fun s h => leaves_push K _ h) h ht
  | php => exact keeps_stackShape K.cpu (fun s h => leaves_push K _ h) h ht
  | pla =>
    simp only [exec, execPla] at ht
    refine keeps_stackShape K.cpu (fun s h => ?_) h ht
    exact leaves_bind (leaves_pull K h) fun v s h => K.cpu { s.cpu with a := v, p := setNZ s.cpu.p v } s h
  | plp =>
    simp only [exec, execPlp] at ht
    refine keeps_stackShape K.cpu (fun s h => ?_) h ht
    exact leaves_bind (leaves_pull K h) fun v s h => K.cpu { s.cpu with p := pulledStatus v } s h
  | illegal op => cases ht

/-- What register writes, bus reads and bus writes keep, an instruction boundary keeps. -/
theorem keeps_boundary (K : Kept Inv) {irq : Bool} {s t : State} (h : Inv s) (ht : boundary irq s = .next t) : Inv t := by
  unfold boundary at ht
  split at ht
  · refine keeps_endSlot ?_ ht
    exact leaves_bind (leaves_interruptSequence K _ _ (K.cpu { s.cpu with nmiPending := false } s h))
      fun _ s h => K.cpu { s.cpu with cyclesRemaining := 8 } s h
  · split at ht
    · refine keeps_endSlot ?_ ht
      exact leaves_bind (leaves_interruptSequence K _ _ h) fun _ s h => K.cpu { s.cpu with cyclesRemaining := 7 } s h
    · have hl := leaves_fetch K.read h
      unfold executeInstruction at ht
      split at ht
      · rename_i i s1 e; rw [e] at hl; exact keeps_exec K hl ht
      · rename_i f a k s1 e; cases f <;> cases ht

/-- What the parts of a tick keep, a step keeps. -/
theorem keeps_step (K : Kept Inv) (hirq : ∀ s, Inv s → Inv (consumeIrq s)) (hdot : ∀ s, Inv s → Inv (tickDot s))
    {s t : State} (h : Inv s) (ht : step s = .next t) : Inv t := by
  have hend : ∀ s, Inv s → Inv (endTick s) := fun s h =>
    hdot _ (hdot _ (hdot _ (K.cpu { s.cpu with cyclesRemaining := s.cpu.cyclesRemaining - 1 } s h)))
  unfold step hostStep at ht
  split at ht
  · split at ht
    · cases ht
    · unfold tick at ht
      split at ht
      · unfold thenEndTick at ht
        split at ht
        · rename_i u e; cases ht; exact hend _ (keeps_boundary K (hirq s h) e)
        · cases ht
        · cases ht
      · cases ht; exact hend _ (hirq s h)
  · cases ht

/-! ## The end of an instruction -/

/-- The state a bus operation succeeds with has a property. -/
def Yields (P : State → Prop) {α : Type} : Bus α → Prop
  | .ok _ s => P s
  | .fault _ _ _ _ => True

theorem yields_bind {P : State → Prop} {α β : Type} (x : Bus α) {f : α → State → Bus β}
    (hf : ∀ v s, Yields P (f v s)) : Yields P (busBind x f) := by
  cases x with
  | ok v s => exact hf v s
  | fault => trivial

theorem yields_endSlot {P : State → Prop} {start t : State} {r : Bus Unit} (hr : Yields P r)
    (h : endSlot start r = .next t) : P t := by
  cases r with
  | ok v s => cases h; exact hr
  | fault f => cases f <;> cases h

theorem descriptorBase_le (op : Byte) : descriptorBase (descriptorOf op) ≤ 7 := by
  revert op; decide +kernel

theorem baseCycles_le (i : Instr) : baseCycles i ≤ 7 := by
  unfold baseCycles
  split
  · exact descriptorBase_le _
  · exact Nat.zero_le _

theorem crossExtra_le (i : Instr) (b : Bool) : crossExtra i b ≤ 1 := by
  unfold crossExtra; split <;> omega

/-- A state with an instruction's cycles charged, at most 8, and P.U set. -/
def Finished (i : Instr) (t : State) : Prop := ∃ n u, t = finish i n u ∧ baseCycles i + n ≤ 8

theorem finished (i : Instr) {n : Nat} (u : State) (h : n ≤ 1) : Finished i (finish i n u) :=
  ⟨n, u, rfl, by have := baseCycles_le i; omega⟩

theorem finished_readShape {i : Instr} {o : Operand} {f : Byte → State → State} {s t : State}
    (ht : readShape i o f s = .next t) : Finished i t := by
  refine yields_endSlot (P := Finished i) ?_ ht
  exact yields_bind _ fun _ _ => yields_bind _ fun _ _ => finished i _ (crossExtra_le _ _)

theorem finished_modifyShape {i : Instr} {o : Operand} {f g : Byte → Cpu → Byte} {s t : State}
    (ht : modifyShape i o f g s = .next t) : Finished i t := by
  refine yields_endSlot (P := Finished i) ?_ ht
  exact yields_bind _ fun _ _ => yields_bind _ fun _ _ => yields_bind _ fun _ _ => finished i _ (crossExtra_le _ _)

theorem finished_storeShape {i : Instr} {o : Operand} {v : Byte} {s t : State}
    (ht : storeShape i o v s = .next t) : Finished i t := by
  refine yields_endSlot (P := Finished i) ?_ ht
  exact yields_bind _ fun _ _ => yields_bind _ fun _ _ => finished i _ (crossExtra_le _ _)

theorem finished_impliedShape {i : Instr} {f : State → State} {s t : State} (ht : impliedShape i f s = .next t) :
    Finished i t := by
  cases ht; exact finished i _ (Nat.zero_le _)

theorem finished_stackShape {i : Instr} {f : State → Bus Unit} {s t : State} (ht : stackShape i f s = .next t) :
    Finished i t := by
  refine yields_endSlot (P := Finished i) ?_ ht
  exact yields_bind _ fun _ _ => finished i _ (Nat.zero_le _)

theorem finished_branchShape {i : Instr} {d : Byte} {cond : Bool} {s t : State} (hb : baseCycles i = 2)
    (ht : branchShape i d cond s = .next t) : Finished i t := by
  unfold branchShape at ht
  cases cond <;> cases ht
  · exact finished i _ (Nat.zero_le _)
  · refine ⟨_, _, rfl, ?_⟩
    rw [hb]
    split <;> omega

/-- Every instruction that completes ends with its cycles charged, at most 8, and P.U set. -/
theorem exec_finished {i : Instr} {s t : State} (ht : exec i s = .next t) : Finished i t := by
  cases i with
  | lda o | ldx o | ldy o | adc o | sbc o | and o | ora o | eor o | bit o | cmp o | cpx o | cpy o =>
    simp only [exec, execLda, execLdx, execLdy, execAdc, execSbc, execAnd, execOra, execEor, execBit, execCmp, execCpx,
      execCpy] at ht
    exact finished_readShape ht
  | sta o | stx o | sty o =>
    simp only [exec, execSta, execStx, execSty] at ht
    exact finished_storeShape ht
  | inc o | dec o | asl o | lsr o | rol o | ror o =>
    simp only [exec, execInc, execDec, execAsl, execLsr, execRol, execRor] at ht
    exact finished_modifyShape ht
  | tax | tay | tsx | txa | txs | tya | inx | iny | dex | dey | clc | cld | cli | clv | sec | sed | sei | nop =>
    simp only [exec, execTax, execTay, execTsx, execTxa, execTxs, execTya, execInx, execIny, execDex, execDey, execClc,
      execCld, execCli, execClv, execSec, execSed, execSei, execNop] at ht
    exact finished_impliedShape ht
  | bcc d | bcs d | beq d | bmi d | bne d | bpl d | bvc d | bvs d =>
    simp only [exec, execBcc, execBcs, execBeq, execBmi, execBne, execBpl, execBvc, execBvs] at ht
    exact finished_branchShape rfl ht
  | jmp o =>
    refine yields_endSlot (P := Finished (.jmp o)) ?_ ht
    exact yields_bind _ fun _ _ => finished _ _ (Nat.zero_le _)
  | jsr target | rts | rti | brk | pha | php | pla | plp =>
    simp only [exec, execJsr, execRts, execRti, execBrk, execPha, execPhp, execPla, execPlp] at ht
    exact finished_stackShape ht
  | illegal op => cases ht

end Sys2Proof.Laws
end

