-- ==== Sys2Proof/Laws/Dots.lean ====
section
/-! SUPPORT. What a dot leaves alone, how it moves the raster, and that the scroll registers keep bit 15 clear. -/

namespace Sys2Proof.Laws

open Sys2Proof.Machine

/-- Two PPU states agree on everything rendering never writes. -/
structure SameControl (p q : Ppu) : Prop where
  ctrl       : q.ctrl = p.ctrl
  mask       : q.mask = p.mask
  vblank     : q.vblank = p.vblank
  oamAddr    : q.oamAddr = p.oamAddr
  oam        : q.oam = p.oam
  readBuffer : q.readBuffer = p.readBuffer
  t          : q.t = p.t
  fineX      : q.fineX = p.fineX
  w          : q.w = p.w
  palette    : q.palette = p.palette
  vram       : q.vram = p.vram
  scanline   : q.scanline = p.scanline
  dot        : q.dot = p.dot
  oddFrame   : q.oddFrame = p.oddFrame
  frameReady : q.frameReady = p.frameReady

theorem SameControl.refl (p : Ppu) : SameControl p p := by constructor <;> rfl

theorem SameControl.trans {p q r : Ppu} (h : SameControl p q) (g : SameControl q r) : SameControl p r where
  ctrl := g.ctrl.trans h.ctrl
  mask := g.mask.trans h.mask
  vblank := g.vblank.trans h.vblank
  oamAddr := g.oamAddr.trans h.oamAddr
  oam := g.oam.trans h.oam
  readBuffer := g.readBuffer.trans h.readBuffer
  t := g.t.trans h.t
  fineX := g.fineX.trans h.fineX
  w := g.w.trans h.w
  palette := g.palette.trans h.palette
  vram := g.vram.trans h.vram
  scanline := g.scanline.trans h.scanline
  dot := g.dot.trans h.dot
  oddFrame := g.oddFrame.trans h.oddFrame
  frameReady := g.frameReady.trans h.frameReady

theorem sameControl_fetchPhase (s : State) : SameControl s.ppu (fetchPhase s) := by
  unfold fetchPhase
  simp only
  split <;> constructor <;> rfl

theorem sameControl_scrollUpdates (p : Ppu) : SameControl p (scrollUpdates p) := by
  unfold scrollUpdates
  split
  · constructor <;> rfl
  · split
    · constructor <;> rfl
    · split <;> constructor <;> rfl

/-- Rendering changes the PPU alone, and of the PPU neither its registers (but `v`), its memories nor the raster. -/
theorem renderDot_frame (s : State) :
    renderDot s = { s with ppu := (renderDot s).ppu } ∧ SameControl s.ppu (renderDot s).ppu := by
  unfold renderDot
  extract_lets on s1 s2 s3 s4
  have h1 : s1 = { s with ppu := s1.ppu } ∧ SameControl s.ppu s1.ppu := by
    unfold s1; split
    · exact ⟨rfl, by constructor <;> rfl⟩
    · exact ⟨rfl, SameControl.refl _⟩
  have h2 : s2 = { s with ppu := s2.ppu } ∧ SameControl s1.ppu s2.ppu := by
    unfold s2; split
    · exact ⟨by rw [h1.1], by constructor <;> rfl⟩
    · exact ⟨h1.1, SameControl.refl _⟩
  have h3 : s3 = { s with ppu := s3.ppu } ∧ SameControl s2.ppu s3.ppu := by
    unfold s3; split
    · exact ⟨by rw [h2.1], by constructor <;> rfl⟩
    · exact ⟨h2.1, SameControl.refl _⟩
  have h4 : s4 = { s with ppu := s4.ppu } ∧ SameControl s3.ppu s4.ppu := by
    unfold s4; split
    · exact ⟨by rw [h3.1], sameControl_fetchPhase s3⟩
    · exact ⟨h3.1, SameControl.refl _⟩
  have h := ((h1.2.trans h2.2).trans h3.2).trans h4.2
  split
  · exact ⟨by rw [h4.1], h.trans (sameControl_scrollUpdates _)⟩
  · exact ⟨h4.1, h⟩

/-- A dot changes the PPU and may set the NMI latch, and nothing else. -/
theorem tickDot_frame (s : State) :
    tickDot s = { s with
      ppu := advanceDot (flagEvents (renderDot s).ppu).1 s.oddSkipNeedsRendering
      cpu := { s.cpu with nmiPending := s.cpu.nmiPending || (flagEvents (renderDot s).ppu).2 } } := by
  have h := (renderDot_frame s).1
  unfold tickDot ppuDot
  simp only
  rw [h]

/-- The raster after a dot is the advance of the raster before it. -/
theorem tickDot_raster (s : State) :
    (tickDot s).ppu.scanline = (advanceDot s.ppu s.oddSkipNeedsRendering).scanline ∧
    (tickDot s).ppu.dot = (advanceDot s.ppu s.oddSkipNeedsRendering).dot ∧
    (tickDot s).ppu.oddFrame = (advanceDot s.ppu s.oddSkipNeedsRendering).oddFrame ∧
    (tickDot s).ppu.frameReady = (advanceDot s.ppu s.oddSkipNeedsRendering).frameReady ∧
    (tickDot s).ppu.mask = s.ppu.mask ∧ (tickDot s).ppu.ctrl = s.ppu.ctrl := by
  have h := (renderDot_frame s).2
  have e : SameControl { s.ppu with vblank := (flagEvents (renderDot s).ppu).1.vblank } (flagEvents (renderDot s).ppu).1 := by
    unfold flagEvents
    split
    · exact ⟨h.ctrl, h.mask, rfl, h.oamAddr, h.oam, h.readBuffer, h.t, h.fineX, h.w, h.palette, h.vram, h.scanline, h.dot,
        h.oddFrame, h.frameReady⟩
    · split <;> exact ⟨h.ctrl, h.mask, rfl, h.oamAddr, h.oam, h.readBuffer, h.t, h.fineX, h.w, h.palette, h.vram,
        h.scanline, h.dot, h.oddFrame, h.frameReady⟩
  rw [tickDot_frame]
  generalize (flagEvents (renderDot s).ppu).1 = q at e
  have hs := e.scanline; have hd := e.dot; have ho := e.oddFrame; have hf := e.frameReady; have hm := e.mask
  have hc := e.ctrl
  simp only at hs hd ho hf hm hc
  have hn : nextDot q s.oddSkipNeedsRendering = nextDot s.ppu s.oddSkipNeedsRendering := by
    have hr : renderingEnabled q = renderingEnabled s.ppu := by unfold renderingEnabled; rw [hm]
    unfold nextDot
    rw [hs, hd, ho, hr]
  by_cases c1 : nextDot s.ppu s.oddSkipNeedsRendering = 341
  · by_cases c2 : s.ppu.scanline + 1 = 262
    · simp only [advanceDot, hn, hs, if_pos c1, if_pos c2]
      exact ⟨trivial, trivial, congrArg _ ho, trivial, hm, hc⟩
    · simp only [advanceDot, hn, hs, if_pos c1, if_neg c2]
      exact ⟨trivial, trivial, ho, hf, hm, hc⟩
  · simp only [advanceDot, hn, hs, if_neg c1]
    exact ⟨trivial, trivial, ho, hf, hm, hc⟩

/-! ## What rendering draws -/

/-- The machine after step 1 of a dot: sprite evaluation at dot 0 of a visible line, with rendering enabled. -/
def evaluated (s : State) : State :=
  if s.ppu.dot == 0 && visibleLine s.ppu && renderingEnabled s.ppu then evaluateSprites s else s

/-- The PPU after step 2 of a dot: the pixel of a visible dot is output. -/
def drawn (s : State) : Ppu :=
  if visibleLine s.ppu && s.ppu.dot < 256 then outputPixel (evaluated s).ppu else (evaluated s).ppu

/-- Evaluation changes the sprite buffers and the overflow flag alone. -/
theorem evaluated_frame (s : State) :
    evaluated s = { s with
      ppu := { s.ppu with spr := (evaluated s).ppu.spr, spriteOverflow := (evaluated s).ppu.spriteOverflow } } := by
  unfold evaluated; split <;> rfl

/-- The pixel output changes the frame and the sprite-zero hit alone. -/
theorem drawn_frame (s : State) :
    drawn s = { (evaluated s).ppu with frame := (drawn s).frame, spriteZeroHit := (drawn s).spriteZeroHit } := by
  unfold drawn; split <;> rfl

/-- Everything the first five steps of a dot can do to the PPU. -/
theorem renderDot_cases (s : State) :
    (renderingEnabled s.ppu = false ∧ (renderDot s).ppu = drawn s) ∨
    (renderingEnabled s.ppu = true ∧ fetchLine s.ppu = false ∧ (renderDot s).ppu = drawn s) ∨
    (renderingEnabled s.ppu = true ∧ fetchLine s.ppu = true ∧ pipelineDot s.ppu = false ∧
      (renderDot s).ppu = scrollUpdates (drawn s)) ∨
    (renderingEnabled s.ppu = true ∧ fetchLine s.ppu = true ∧ pipelineDot s.ppu = true ∧
      (renderDot s).ppu = scrollUpdates (fetchPhase { evaluated s with ppu := shiftBackground (drawn s) })) := by
  have h1 := evaluated_frame s
  have h2 := drawn_frame s
  have hv : visibleLine (evaluated s).ppu = visibleLine s.ppu := by rw [h1]; rfl
  have hd : (evaluated s).ppu.dot = s.ppu.dot := by rw [h1]
  have hp : pipelineDot (drawn s) = pipelineDot s.ppu := by rw [h2, h1]; rfl
  have hf : fetchLine (drawn s) = fetchLine s.ppu := by rw [h2, h1]; rfl
  have hq : ∀ p, pipelineDot (shiftBackground p) = pipelineDot p := fun _ => rfl
  have e : (if visibleLine (evaluated s).ppu && (evaluated s).ppu.dot < 256 then
      { evaluated s with ppu := outputPixel (evaluated s).ppu } else evaluated s) =
      { evaluated s with ppu := drawn s } := by
    rw [hv, hd]; unfold drawn; split <;> rfl
  have hk : ∀ u, fetchLine (fetchPhase u) = fetchLine u.ppu := fun u => by
    unfold fetchLine; rw [(sameControl_fetchPhase u).scanline]
  have key : renderDot s =
      (let on := renderingEnabled s.ppu
       let s2 : State := { evaluated s with ppu := drawn s }
       let s3 := if on && pipelineDot s2.ppu then { s2 with ppu := shiftBackground s2.ppu } else s2
       let s4 := if on && pipelineDot s3.ppu then { s3 with ppu := fetchPhase s3 } else s3
       if on && fetchLine s4.ppu then { s4 with ppu := scrollUpdates s4.ppu } else s4) := by
    rw [← e]; rfl
  rw [key]
  cases ho : renderingEnabled s.ppu with
  | false => exact .inl ⟨rfl, by simp⟩
  | true =>
    cases hfl : fetchLine s.ppu with
    | false =>
      have hpd : pipelineDot s.ppu = false := by simp [pipelineDot, hfl]
      exact .inr (.inl ⟨rfl, rfl, by simp [hp, hpd, hf, hfl]⟩)
    | true =>
      cases hpd : pipelineDot s.ppu with
      | false => exact .inr (.inr (.inl ⟨rfl, rfl, rfl, by simp [hp, hpd, hf, hfl]⟩))
      | true =>
        have hs : fetchLine (shiftBackground (drawn s)) = true := by rw [← hfl, ← hf]; rfl
        exact .inr (.inr (.inr ⟨rfl, rfl, rfl, by simp [hp, hpd, hq, hk, hs]⟩))

/-- The background pipeline and the scroll updates leave the frame, the sprite buffers and the sprite flags. -/
theorem renderDot_drawn (s : State) :
    (renderDot s).ppu.frame = (drawn s).frame ∧ (renderDot s).ppu.spr = (drawn s).spr ∧
    (renderDot s).ppu.spriteZeroHit = (drawn s).spriteZeroHit ∧
    (renderDot s).ppu.spriteOverflow = (drawn s).spriteOverflow := by
  have hs : ∀ p : Ppu, (scrollUpdates p).frame = p.frame ∧ (scrollUpdates p).spr = p.spr ∧
      (scrollUpdates p).spriteZeroHit = p.spriteZeroHit ∧ (scrollUpdates p).spriteOverflow = p.spriteOverflow := by
    intro p
    unfold scrollUpdates
    repeat' split
    all_goals exact ⟨rfl, rfl, rfl, rfl⟩
  have hf : ∀ u : State, (fetchPhase u).frame = u.ppu.frame ∧ (fetchPhase u).spr = u.ppu.spr ∧
      (fetchPhase u).spriteZeroHit = u.ppu.spriteZeroHit ∧ (fetchPhase u).spriteOverflow = u.ppu.spriteOverflow := by
    intro u
    unfold fetchPhase
    simp only
    split <;> exact ⟨rfl, rfl, rfl, rfl⟩
  obtain ⟨-, e⟩ | ⟨-, -, e⟩ | ⟨-, -, -, e⟩ | ⟨-, -, -, e⟩ := renderDot_cases s
  · rw [e]; exact ⟨rfl, rfl, rfl, rfl⟩
  · rw [e]; exact ⟨rfl, rfl, rfl, rfl⟩
  · rw [e]; exact hs _
  · rw [e]
    obtain ⟨a, b, c, d⟩ := hs (fetchPhase { evaluated s with ppu := shiftBackground (drawn s) })
    obtain ⟨a', b', c', d'⟩ := hf { evaluated s with ppu := shiftBackground (drawn s) }
    exact ⟨a.trans a', b.trans b', c.trans c', d.trans d'⟩

/-- Flag events and the dot advance leave everything rendering draws. -/
theorem tickDot_drawn (s : State) :
    (tickDot s).ppu = { (renderDot s).ppu with
      vblank := (tickDot s).ppu.vblank
      spriteZeroHit := (tickDot s).ppu.spriteZeroHit
      spriteOverflow := (tickDot s).ppu.spriteOverflow
      scanline := (tickDot s).ppu.scanline
      dot := (tickDot s).ppu.dot
      oddFrame := (tickDot s).ppu.oddFrame
      frameReady := (tickDot s).ppu.frameReady } := by
  rw [tickDot_frame]
  unfold flagEvents advanceDot
  simp only
  repeat' split
  all_goals rfl

/-- Outside line 261, dot 1 the two sprite flags are as rendering leaves them. -/
theorem tickDot_spriteFlags (s : State) (h : ¬ (s.ppu.scanline = 261 ∧ s.ppu.dot = 1)) :
    (tickDot s).ppu.spriteZeroHit = (renderDot s).ppu.spriteZeroHit ∧
    (tickDot s).ppu.spriteOverflow = (renderDot s).ppu.spriteOverflow := by
  have hc := (renderDot_frame s).2
  rw [tickDot_frame]
  unfold flagEvents
  rw [hc.scanline, hc.dot, if_neg h]
  unfold advanceDot
  simp only
  repeat' split
  all_goals exact ⟨rfl, rfl⟩

/-! ## Bit 15 of the scroll registers -/

theorem lt_of_bit15 {v : BitVec 16} (h : v.getLsbD 15 = false) : v.toNat < 0x8000 := by
  have := v.isLt
  rw [BitVec.getLsbD, Nat.testBit_eq_decide_div_mod_eq, decide_eq_false_iff_not] at h
  omega

theorem bit15_of_lt {v : BitVec 16} (h : v.toNat < 0x8000) : v.getLsbD 15 = false := Nat.testBit_lt_two_pow h

theorem incrementCoarseX_bit15 {v : BitVec 16} (h : v.getLsbD 15 = false) : (incrementCoarseX v).getLsbD 15 = false := by
  unfold incrementCoarseX
  split
  · rw [BitVec.getLsbD_xor, BitVec.getLsbD_and, h]; rfl
  · rename_i hne
    have hlt := lt_of_bit15 h
    have : v.toNat ≠ 0x7FFF := fun e => hne (by rw [BitVec.eq_of_toNat_eq (y := 0x7FFF#16) e]; decide)
    refine bit15_of_lt ?_
    rw [BitVec.toNat_add]
    simp only [BitVec.toNat_ofNat]
    omega

/-- A fine Y of 7 is all of bits 14 to 12. -/
theorem fineY_of_le {v : BitVec 16} (h : v.getLsbD 15 = false) (hv : 0x7000 ≤ v.toNat) : v &&& 0x7000#16 = 0x7000#16 := by
  have hlt := lt_of_bit15 h
  have b : ∀ j, v.getLsbD (12 + j) = Nat.testBit 7 j := by
    intro j
    rw [BitVec.getLsbD, ← show v.toNat / 2 ^ 12 = 7 by omega, Nat.testBit_div_two_pow, Nat.add_comm]
  have b0 : v.getLsbD 12 = true := b 0
  have b1 : v.getLsbD 13 = true := (b 1).trans (by decide)
  have b2 : v.getLsbD 14 = true := (b 2).trans (by decide)
  apply BitVec.eq_of_getLsbD_eq
  intro i hi
  rw [BitVec.getLsbD_and]
  interval_cases i
  all_goals first
    | exact Bool.and_false _
    | rw [b0]; decide
    | rw [b1]; decide
    | rw [b2]; decide

theorem incrementY_bit15 {v : BitVec 16} (h : v.getLsbD 15 = false) : (incrementY v).getLsbD 15 = false := by
  have hv := lt_of_bit15 h
  unfold incrementY
  split
  · rename_i hne
    have hlt : v.toNat < 0x7000 := by
      by_contra hc
      exact hne (fineY_of_le h (by omega))
    refine bit15_of_lt ?_
    rw [BitVec.toNat_add]
    simp only [BitVec.toNat_ofNat]
    omega
  · extract_lets v0 cy v1 cy1
    have h0 : v0.getLsbD 15 = false := by rw [BitVec.getLsbD_and, h]; rfl
    have h1 : v1.getLsbD 15 = false := by
      unfold v1; split
      · rw [BitVec.getLsbD_xor, h0]; rfl
      · exact h0
    have h2 : cy1.toNat < 32 := by
      have hc : cy.toNat < 32 := by
        unfold cy
        rw [BitVec.toNat_and]; exact Nat.lt_of_le_of_lt Nat.and_le_right (by decide)
      unfold cy1; split
      · decide
      · rename_i hn
        have : cy.toNat ≠ 31 := fun e => hn (Or.inr (BitVec.eq_of_toNat_eq e))
        rw [BitVec.toNat_add]; simp only [BitVec.toNat_ofNat]; omega
    have h3 : cy1.getLsbD 10 = false := Nat.testBit_lt_two_pow (by omega)
    rw [BitVec.getLsbD_or, BitVec.getLsbD_and, h1, BitVec.getLsbD_shiftLeft]
    rw [show 15 - 5 = 10 from rfl, h3]
    rfl

theorem incrementV_bit15 (p : Ppu) : (incrementV p).getLsbD 15 = false := by simp [incrementV]

/-! ## The registers' standing facts outside the CPU -/

/-- The part of `RegisterInv` that no CPU register enters. -/
structure RasterInv (s : State) : Prop where
  v15      : s.ppu.v.getLsbD 15 = false
  t15      : s.ppu.t.getLsbD 15 = false
  scanline : s.ppu.scanline < 262
  dot      : s.ppu.dot < 341
  shift    : ∀ r, s.mapper = .mmc1 r → r.shiftCount ≤ 4

theorem rasterInv_congr {s t : State} (h : RasterInv s) (hv : t.ppu.v.getLsbD 15 = false)
    (ht : t.ppu.t.getLsbD 15 = false) (hs : t.ppu.scanline = s.ppu.scanline) (hd : t.ppu.dot = s.ppu.dot)
    (hm : t.mapper = s.mapper) : RasterInv t :=
  ⟨hv, ht, hs ▸ h.scanline, hd ▸ h.dot, fun r e => h.shift r (hm ▸ e)⟩

theorem rasterInv_ppuRegRead {s : State} (h : RasterInv s) (r : Nat) : RasterInv (ppuRegRead s r).2 := by
  unfold ppuRegRead
  split
  · exact rasterInv_congr h h.v15 h.t15 rfl rfl rfl
  · exact h
  · unfold readData
    simp only
    split
    · exact rasterInv_congr h (incrementV_bit15 _) h.t15 rfl rfl rfl
    · exact rasterInv_congr h (incrementV_bit15 _) h.t15 rfl rfl rfl
  · exact rasterInv_congr h h.v15 h.t15 rfl rfl rfl

theorem rasterInv_busValue (a : Addr) {s : State} (h : RasterInv s) : RasterInv (busValue a s).2 := by
  unfold busValue
  split
  · exact h
  · exact rasterInv_ppuRegRead h _
  · unfold ioRead; split <;> exact rasterInv_congr h h.v15 h.t15 rfl rfl rfl
  · exact h
  · exact h

theorem ppuBusWrite_registers (s : State) (a : Addr) (d : Byte) :
    (ppuBusWrite s a d).ppu.v = s.ppu.v ∧ (ppuBusWrite s a d).ppu.t = s.ppu.t ∧
    (ppuBusWrite s a d).ppu.scanline = s.ppu.scanline ∧ (ppuBusWrite s a d).ppu.dot = s.ppu.dot ∧
    (ppuBusWrite s a d).mapper = s.mapper := by
  unfold ppuBusWrite chrWrite
  simp only
  split
  · split <;> exact ⟨rfl, rfl, rfl, rfl, rfl⟩
  · split <;> exact ⟨rfl, rfl, rfl, rfl, rfl⟩

theorem shifted_bit15 (d : Byte) (k n : Nat) (hk : k + n ≤ 15) (h : d.toNat < 2 ^ k) :
    (d.setWidth 16 <<< n).getLsbD 15 = false := by
  rw [BitVec.getLsbD_shiftLeft]
  have : d.getLsbD (15 - n) = false := by
    rw [BitVec.getLsbD]
    exact Nat.testBit_lt_two_pow (Nat.lt_of_lt_of_le h (Nat.pow_le_pow_right (by decide) (by omega)))
  simp [this]

theorem byte_bit15 (d : Byte) : (d.setWidth 16).getLsbD 15 = false := by simp

theorem rasterInv_ppuRegWrite {s : State} (h : RasterInv s) (r : Nat) (d : Byte) : RasterInv (ppuRegWrite s r d) := by
  have hl : ∀ m : Byte, (d &&& m).toNat ≤ m.toNat := fun m => by rw [BitVec.toNat_and]; exact Nat.and_le_right
  have h3 : (d >>> 3).toNat < 2 ^ 5 := by
    have := d.isLt
    rw [BitVec.toNat_ushiftRight, Nat.shiftRight_eq_div_pow]; omega
  unfold ppuRegWrite
  split
  · refine rasterInv_congr h h.v15 ?_ rfl rfl rfl
    show ((s.ppu.t &&& ~~~0x0C00#16) ||| _).getLsbD 15 = false
    rw [BitVec.getLsbD_or, BitVec.getLsbD_and, h.t15,
      shifted_bit15 _ 2 10 (by omega) (Nat.lt_of_le_of_lt (hl 3#8) (by decide))]
    rfl
  · exact rasterInv_congr h h.v15 h.t15 rfl rfl rfl
  · exact h
  · exact rasterInv_congr h h.v15 h.t15 rfl rfl rfl
  · exact rasterInv_congr h h.v15 h.t15 rfl rfl rfl
  · unfold writeScroll
    split
    · refine rasterInv_congr h h.v15 ?_ rfl rfl rfl
      show ((s.ppu.t &&& ~~~0x73E0#16) ||| _ ||| _).getLsbD 15 = false
      rw [BitVec.getLsbD_or, BitVec.getLsbD_or, BitVec.getLsbD_and, h.t15,
        shifted_bit15 _ 3 12 (by omega) (Nat.lt_of_le_of_lt (hl 7#8) (by decide)), shifted_bit15 _ 5 5 (by omega) h3]
      rfl
    · refine rasterInv_congr h h.v15 ?_ rfl rfl rfl
      show ((s.ppu.t &&& ~~~0x001F#16) ||| (d >>> 3).setWidth 16).getLsbD 15 = false
      rw [BitVec.getLsbD_or, BitVec.getLsbD_and, h.t15, byte_bit15]
      rfl
  · unfold writeAddr
    split
    · have ht : ((s.ppu.t &&& 0x7F00#16) ||| d.setWidth 16).getLsbD 15 = false := by
        rw [BitVec.getLsbD_or, BitVec.getLsbD_and, h.t15, byte_bit15]; rfl
      exact rasterInv_congr h ht ht rfl rfl rfl
    · refine rasterInv_congr h h.v15 ?_ rfl rfl rfl
      show ((s.ppu.t &&& 0x00FF#16) ||| _).getLsbD 15 = false
      rw [BitVec.getLsbD_or, BitVec.getLsbD_and, h.t15,
        shifted_bit15 _ 6 8 (by omega) (Nat.lt_of_le_of_lt (hl 0x3F#8) (by decide))]
      rfl
  · obtain ⟨_, e2, e3, e4, e5⟩ := ppuBusWrite_registers s s.ppu.v d
    exact rasterInv_congr h (incrementV_bit15 _) (by show (ppuBusWrite s s.ppu.v d).ppu.t.getLsbD 15 = false; rw [e2, h.t15])
      e3 e4 e5

theorem shiftCount_mmc1Write {r : Mmc1} (a : Addr) (d : Byte) (h : r.shiftCount ≤ 4) : (mmc1Write r a d).shiftCount ≤ 4 := by
  unfold mmc1Write
  split
  · exact Nat.zero_le _
  · simp only
    split
    · exact Nat.zero_le _
    · simp only; omega

theorem rasterInv_busStore (a : Addr) (v : Byte) {s : State} (h : RasterInv s) : RasterInv (busStore a v s) := by
  unfold busStore
  split
  · exact rasterInv_congr h h.v15 h.t15 rfl rfl rfl
  · exact rasterInv_ppuRegWrite h _ v
  · exact rasterInv_congr h h.v15 h.t15 rfl rfl rfl
  · unfold cartWrite
    split
    · exact rasterInv_congr h h.v15 h.t15 rfl rfl rfl
    · refine ⟨h.v15, h.t15, h.scanline, h.dot, fun r e => ?_⟩
      cases hm : s.mapper with
      | nrom => simp [mapperWrite, hm] at e
      | uxrom b => simp [mapperWrite, hm] at e
      | mmc1 q =>
        simp only [mapperWrite, hm, Mapper.mmc1.injEq] at e
        rw [← e]
        exact shiftCount_mmc1Write a v (h.shift q hm)
  · exact h

/-- Register writes, bus reads and bus writes keep the raster and scroll registers' standing facts. -/
theorem rasterInv_kept : Kept RasterInv where
  cpu := fun _ _ h => rasterInv_congr h h.v15 h.t15 rfl rfl rfl
  read := fun a _ h => rasterInv_busValue a h
  write := fun a v _ _ h => rasterInv_busStore a v h

theorem scrollUpdates_bit15 {p : Ppu} (hv : p.v.getLsbD 15 = false) (ht : p.t.getLsbD 15 = false) :
    (scrollUpdates p).v.getLsbD 15 = false := by
  unfold scrollUpdates
  split
  · exact incrementY_bit15 hv
  · split
    · show ((p.v &&& ~~~0x041F#16) ||| (p.t &&& 0x041F#16)).getLsbD 15 = false
      rw [BitVec.getLsbD_or, BitVec.getLsbD_and, BitVec.getLsbD_and, hv, ht]; rfl
    · split
      · show ((p.v &&& ~~~0x7BE0#16) ||| (p.t &&& 0x7BE0#16)).getLsbD 15 = false
        rw [BitVec.getLsbD_or, BitVec.getLsbD_and, BitVec.getLsbD_and, hv, ht]; rfl
      · exact hv

theorem fetchPhase_bit15 {s : State} (hv : s.ppu.v.getLsbD 15 = false) : (fetchPhase s).v.getLsbD 15 = false := by
  unfold fetchPhase
  simp only
  split <;> first | exact hv | exact incrementCoarseX_bit15 hv

theorem renderDot_bit15 {s : State} (hv : s.ppu.v.getLsbD 15 = false) (ht : s.ppu.t.getLsbD 15 = false) :
    (renderDot s).ppu.v.getLsbD 15 = false := by
  unfold renderDot
  extract_lets on s1 s2 s3 s4
  have h1 : s1.ppu.v = s.ppu.v ∧ s1.ppu.t = s.ppu.t := by unfold s1; split <;> exact ⟨rfl, rfl⟩
  have h2 : s2.ppu.v = s.ppu.v ∧ s2.ppu.t = s.ppu.t := by
    unfold s2; split
    · exact h1
    · exact h1
  have h3 : s3.ppu.v = s.ppu.v ∧ s3.ppu.t = s.ppu.t := by
    unfold s3; split
    · exact h2
    · exact h2
  have h4 : s4.ppu.v.getLsbD 15 = false ∧ s4.ppu.t.getLsbD 15 = false := by
    unfold s4; split
    · exact ⟨fetchPhase_bit15 (by rw [h3.1, hv]), by
        show (fetchPhase s3).t.getLsbD 15 = false
        rw [(sameControl_fetchPhase s3).t, h3.2, ht]⟩
    · exact ⟨by rw [h3.1, hv], by rw [h3.2, ht]⟩
  split
  · exact scrollUpdates_bit15 h4.1 h4.2
  · exact h4.1

/-- One dot keeps the raster inside its 341 x 262 dots and the scroll registers' bit 15 clear. -/
theorem rasterInv_tickDot {s : State} (h : RasterInv s) : RasterInv (tickDot s) := by
  have hr := renderDot_bit15 h.v15 h.t15
  have hc := (renderDot_frame s).2
  obtain ⟨e1, e2, -, -, -, -⟩ := tickDot_raster s
  have hsc := h.scanline
  have hdt := h.dot
  have hvt : (tickDot s).ppu.v = (renderDot s).ppu.v ∧ (tickDot s).ppu.t = (renderDot s).ppu.t := by
    rw [tickDot_frame]
    unfold flagEvents
    simp only [advanceDot]
    repeat' split
    all_goals exact ⟨rfl, rfl⟩
  refine ⟨by rw [hvt.1, hr], by rw [hvt.2, hc.t, h.t15], ?_, ?_, ?_⟩
  · rw [e1]
    unfold advanceDot nextDot
    simp only
    repeat' split
    all_goals simp only
    all_goals omega
  · rw [e2]
    unfold advanceDot nextDot
    simp only
    repeat' split
    all_goals simp only
    all_goals omega
  · rw [tickDot_frame]
    exact h.shift

end Sys2Proof.Laws
end

