-- ==== Sys2Proof/Laws/HostOps.lean ====
section
/-! SUPPORT. The laws of wiring, construction and reset(): the wirings never fail, the wired bus finds the devices of R65, and
`State.reset` is what construct and reset() make of a blank cartridge. -/

namespace Sys2Proof.Laws

open Sys2Proof.Machine

/-! ## Wiring -/

/-- The CPU bus is wired without a fault (20_memory.md R63). -/
theorem wireCpuBus_ok : wireCpuBus = .ok cpuBusMap := by decide

/-- The PPU bus is wired without a fault (20_memory.md R63). -/
theorem wirePpuBus_ok : wirePpuBus = .ok ppuBusMap := by decide

/-- The wired CPU bus finds the device `cpuDevice` gives (20_memory.md R64, R65). -/
theorem owner_cpuBusMap (a : Addr) : owner cpuBusMap a.toNat = cpuDevice a := by
  have := a.isLt
  unfold owner cpuBusMap cpuDevice
  by_cases h1 : a.toNat < 0x2000
  · simp [h1, show a.toNat ≤ 8191 by omega]
  by_cases h2 : a.toNat < 0x4000
  · simp [h1, h2, show ¬ a.toNat ≤ 8191 by omega, show 8192 ≤ a.toNat by omega, show a.toNat ≤ 16383 by omega]
  by_cases h3 : a.toNat < 0x4018
  · simp [h1, h2, h3, show ¬ a.toNat ≤ 8191 by omega, show ¬ a.toNat ≤ 16383 by omega, show 16384 ≤ a.toNat by omega,
      show a.toNat ≤ 16407 by omega]
  by_cases h4 : a.toNat < 0x4020
  · simp [h1, h2, h3, h4, show ¬ a.toNat ≤ 8191 by omega, show ¬ a.toNat ≤ 16383 by omega,
      show ¬ a.toNat ≤ 16407 by omega, show ¬ 16416 ≤ a.toNat by omega]
  · simp [h1, h2, h3, h4, show ¬ a.toNat ≤ 8191 by omega, show ¬ a.toNat ≤ 16383 by omega,
      show ¬ a.toNat ≤ 16407 by omega, show 16416 ≤ a.toNat by omega, show a.toNat ≤ 65535 by omega]

/-! ## Construction -/

theorem ofList_replicate {w : Nat} (s n : Nat) : Memory.ofList s (List.replicate n (0#w)) = [] := by
  induction n generalizing s with
  | zero => rfl
  | succ n ih => simp [List.replicate_succ, Memory.ofList, ih]

/-- The header of the blank cartridge: two PRG banks, one CHR bank, mapper 0. -/
def blankHeader : List Byte := [0x4E#8, 0x45#8, 0x53#8, 0x1A#8, 2#8, 1#8, 0#8, 0#8, 0#8, 0#8, 0#8, 0#8, 0#8, 0#8, 0#8, 0#8]

/-- A cartridge without save image, every parameter at its default. -/
def plainParams (file : List Byte) : Params where
  file := some file
  save := none
  initCpuRam := []
  initVram := []
  initPalette := []
  initOam := []
  initChrRam := []
  oddSkipNeedsRendering := false
  irqLine := []
  ioAnswers := []

section

variable {body : List Byte}

theorem fileByte_blank (i : Nat) (h : i < 16) : fileByte (blankHeader ++ body) i = blankHeader.getD i 0#8 := by
  unfold fileByte
  rw [List.getD_append _ _ _ _ (by exact h)]

theorem parseHeader_blank : parseHeader (blankHeader ++ body) = Cart.blank.header := by
  simp only [parseHeader, headerMapper, fileByte_blank _ (by decide : 4 < 16), fileByte_blank _ (by decide : 5 < 16),
    fileByte_blank _ (by decide : 6 < 16), fileByte_blank _ (by decide : 7 < 16), fileByte_blank _ (by decide : 8 < 16)]
  decide

theorem loadCause_blank (hb : body.length = 40960) : loadCause (some (blankHeader ++ body)) = none := by
  have hl : (blankHeader ++ body).length = 40976 := by rw [List.length_append, hb]; rfl
  have hm : hasMagic (blankHeader ++ body) = true := rfl
  simp only [loadCause, parseHeader_blank, hl, hm]
  decide

/-- The power-on machine of a cartridge whose ROM bytes are all zero. -/
theorem powerOn_blank (hb : body = List.replicate 40960 0#8) :
    powerOn (plainParams (blankHeader ++ body)) Cart.blank.header .nrom (blankHeader ++ body) =
      { State.reset with resetDone := false } := by
  have prg : (blankHeader ++ body).drop (prgFileOffset Cart.blank.header) = body := List.drop_left' rfl
  have chr : (blankHeader ++ body).drop (prgFileOffset Cart.blank.header + Cart.blank.header.prgBanks * 16384) =
      body.drop 32768 := by rw [← List.drop_drop, prg]; rfl
  have e1 : Memory.ofList 0 (((blankHeader ++ body).drop (prgFileOffset Cart.blank.header)).take
      (Cart.blank.header.prgBanks * 16384)) = [] := by
    rw [prg, hb, List.take_replicate]; exact ofList_replicate _ _
  have e2 : Memory.ofList 0 (((blankHeader ++ body).drop
      (prgFileOffset Cart.blank.header + Cart.blank.header.prgBanks * 16384)).take (Cart.blank.header.chrBanks * 8192)) = [] := by
    rw [chr, hb, List.drop_replicate, List.take_replicate]; exact ofList_replicate _ _
  simp only [powerOn, initialChr, e1, e2]
  rfl

/-- Construction from such a cartridge. -/
theorem construct_blank (hb : body = List.replicate 40960 0#8) :
    construct (plainParams (blankHeader ++ body)) =
      .ok { machine := { State.reset with resetDone := false }, logged := none } := by
  have hl : body.length = 40960 := by rw [hb, List.length_replicate]
  simp only [construct, show (plainParams (blankHeader ++ body)).file = some (blankHeader ++ body) from rfl,
    Option.getD_some, loadCause_blank hl, parseHeader_blank, wireCpuBus_ok, wirePpuBus_ok,
    show mapperOfNumber Cart.blank.header.mapper = some .nrom from rfl, powerOn_blank hb]
  rfl

end

/-- `State.reset` is what construct and reset() make of a cartridge with two PRG banks and one CHR bank of zeros. -/
theorem reset_of_construct :
    ∃ b, construct (plainParams (blankHeader ++ List.replicate 40960 0#8)) = .ok b ∧
      hostReset b.machine = .next State.reset :=
  ⟨_, construct_blank rfl, rfl⟩

end Sys2Proof.Laws
end

