-- ==== Sys2Proof/Laws/Invariant.lean ====
section
/-! SUPPORT. Every operation on a memory keeps its canonical form and its size: the CPU bus, the PPU bus, OAM, sprite evaluation and
pixel output. -/

namespace Sys2Proof.Laws

open Sys2Proof.Machine

/-- A memory is canonical and inside its size. -/
def Good {w : Nat} (m : Memory w) (n : Nat) : Prop := m.wf = true ∧ m.fits n = true

theorem good_nil {w n : Nat} : Good ([] : Memory w) n := ⟨rfl, rfl⟩

theorem good_write {w n : Nat} {m : Memory w} {a : Nat} (v : BitVec w) (h : Good m n) (ha : a < n) : Good (m.write a v) n :=
  ⟨wf_write a v h.1, fits_write v h.2 ha⟩

/-! ## Indexes stay inside their memories -/

theorem ntIndex_lt (m : Mirroring) (a : Addr) : ntIndex m a < 2048 := by
  unfold ntIndex
  cases m <;> simp only <;> omega

theorem palIndex_lt (a : Addr) : palIndex a < 32 := by
  have h : (a &&& 0x1F#16).toNat < 32 := by
    rw [BitVec.toNat_and]; exact Nat.lt_of_le_of_lt Nat.and_le_right (by decide)
  unfold palIndex
  simp only
  split
  · rw [BitVec.toNat_and]; exact Nat.lt_of_le_of_lt Nat.and_le_right (by decide)
  · exact h

theorem chrOffset_lt (m : Mapper) (h : Header) (a : Addr) : chrOffset m (chrSize h) a < chrSize h := by
  have hs : ∃ k, 0 < k ∧ chrSize h = k * 8192 := by
    unfold chrSize
    split
    · exact ⟨1, by omega, by omega⟩
    · exact ⟨h.chrBanks, by omega, rfl⟩
  obtain ⟨k, hk, e⟩ := hs
  rw [e]
  have h13 : a.toNat % 8192 < 8192 := Nat.mod_lt _ (by decide)
  have h12 : a.toNat % 4096 < 4096 := Nat.mod_lt _ (by decide)
  cases m with
  | nrom => simp only [chrOffset]; omega
  | uxrom b => simp only [chrOffset]; omega
  | mmc1 r =>
    simp only [chrOffset]
    generalize (if r.control.getLsbD 4 = true then _ else _ : Nat) = b
    rw [show k * 8192 / 4096 = k * 2 by omega]
    have := Nat.mod_lt b (show 0 < k * 2 by omega)
    generalize b % (k * 2) = q at *
    omega

/-! ## The CPU bus and the PPU registers -/

theorem memoryInv_ppu {s : State} (h : MemoryInv s) {p : Ppu} (hv : p.vram = s.ppu.vram) (hp : p.palette = s.ppu.palette)
    (ho : p.oam = s.ppu.oam) (hf : p.frame = s.ppu.frame) (hs : p.spr = s.ppu.spr) : MemoryInv { s with ppu := p } where
  ram := h.ram
  vram := hv ▸ h.vram
  palette := hp ▸ h.palette
  oam := ho ▸ h.oam
  prgRam := h.prgRam
  chrMem := h.chrMem
  frame := hf ▸ h.frame
  sprPix := hs ▸ h.sprPix
  sprPal := hs ▸ h.sprPal
  sprBehind := hs ▸ h.sprBehind
  sprZero := hs ▸ h.sprZero

/-- A property of the memories does not see the CPU, the fault, the host's lists or the mapper's registers. -/
theorem memoryInv_congr {s t : State} (h : MemoryInv s) (hr : t.ram = s.ram) (hp : t.ppu = s.ppu)
    (hg : t.prgRam = s.prgRam) (hc : t.chrMem = s.chrMem) (hk : t.cart = s.cart) : MemoryInv t where
  ram := hr ▸ h.ram
  vram := hp ▸ h.vram
  palette := hp ▸ h.palette
  oam := hp ▸ h.oam
  prgRam := hg ▸ h.prgRam
  chrMem := by rw [hc, hk]; exact h.chrMem
  frame := hp ▸ h.frame
  sprPix := hp ▸ h.sprPix
  sprPal := hp ▸ h.sprPal
  sprBehind := hp ▸ h.sprBehind
  sprZero := hp ▸ h.sprZero

theorem memoryInv_ppuRegRead {s : State} (h : MemoryInv s) (r : Nat) : MemoryInv (ppuRegRead s r).2 := by
  unfold ppuRegRead
  split
  · exact memoryInv_ppu (s := (drawByte s).2) (memoryInv_congr h rfl rfl rfl rfl rfl) rfl rfl rfl rfl rfl
  · exact h
  · unfold readData
    simp only
    split
    · exact memoryInv_ppu h rfl rfl rfl rfl rfl
    · exact memoryInv_ppu (s := (drawByte s).2) (memoryInv_congr h rfl rfl rfl rfl rfl) rfl rfl rfl rfl rfl
  · exact memoryInv_congr h rfl rfl rfl rfl rfl

theorem memoryInv_busValue (a : Addr) {s : State} (h : MemoryInv s) : MemoryInv (busValue a s).2 := by
  unfold busValue
  split
  · exact h
  · exact memoryInv_ppuRegRead h _
  · unfold ioRead; split <;> exact memoryInv_congr h rfl rfl rfl rfl rfl
  · exact h
  · exact h

theorem memoryInv_ppuBusWrite {s : State} (h : MemoryInv s) (a : Addr) (d : Byte) : MemoryInv (ppuBusWrite s a d) := by
  unfold ppuBusWrite
  simp only
  split
  · unfold chrWrite
    split
    · exact { h with chrMem := good_write d h.chrMem (chrOffset_lt _ _ _) }
    · exact h
  · split
    · exact { h with vram := good_write d h.vram (ntIndex_lt _ _) }
    · exact { h with palette := good_write _ h.palette (palIndex_lt _) }

theorem memoryInv_ppuRegWrite {s : State} (h : MemoryInv s) (r : Nat) (d : Byte) : MemoryInv (ppuRegWrite s r d) := by
  unfold ppuRegWrite
  split
  · exact memoryInv_congr (s := { s with ppu := (writeCtrl s d).ppu }) (memoryInv_ppu h rfl rfl rfl rfl rfl) rfl rfl rfl
      rfl rfl
  · exact memoryInv_ppu h rfl rfl rfl rfl rfl
  · exact h
  · exact memoryInv_ppu h rfl rfl rfl rfl rfl
  · exact { h with oam := good_write d h.oam s.ppu.oamAddr.isLt }
  · unfold writeScroll; split <;> exact memoryInv_ppu h rfl rfl rfl rfl rfl
  · unfold writeAddr; split <;> exact memoryInv_ppu h rfl rfl rfl rfl rfl
  · exact memoryInv_ppu (memoryInv_ppuBusWrite h _ d) rfl rfl rfl rfl rfl

theorem memoryInv_busStore (a : Addr) (v : Byte) {s : State} (hok : accessOk s .write a = true) (h : MemoryInv s) :
    MemoryInv (busStore a v s) := by
  unfold accessOk at hok
  unfold busStore
  split
  · exact { h with ram := good_write v h.ram (Nat.mod_lt _ (by decide)) }
  · exact memoryInv_ppuRegWrite h _ v
  · exact memoryInv_congr h rfl rfl rfl rfl rfl
  · rename_i e
    rw [e] at hok
    unfold cartWrite
    split
    · rename_i hlt
      simp only [cartImplements] at hok
      have h6 : ¬ a.toNat < 0x6000 := by intro hc; simp [hc] at hok
      exact { h with prgRam := good_write v h.prgRam (by omega) }
    · exact memoryInv_congr h rfl rfl rfl rfl rfl
  · exact h

/-- Register writes, bus reads and bus writes keep every memory canonical. -/
theorem memoryInv_kept : Kept MemoryInv where
  cpu := fun _ _ h => memoryInv_congr h rfl rfl rfl rfl rfl
  read := fun a _ h => memoryInv_busValue a h
  write := fun a v _ hok h => memoryInv_busStore a v hok h

/-! ## The dot machine -/

/-- The sprite buffers are canonical. -/
structure GoodSprites (b : SpriteBuffers) : Prop where
  pix    : Good b.pix 256
  pal    : Good b.pal 256
  behind : Good b.behind 256
  zero   : Good b.zero 256

theorem goodSprites_fillPixel {attr lo hi : Byte} {x : Nat} {z : Bool} {b : SpriteBuffers} (h : GoodSprites b) (k : Nat) :
    GoodSprites (fillPixel attr lo hi x z b k) := by
  unfold fillPixel
  extract_lets bit pix c
  split
  · rename_i hc
    have : c < 256 := by omega
    exact ⟨good_write _ h.pix this, good_write _ h.pal this, good_write _ h.behind this, good_write _ h.zero this⟩
  · exact h

theorem goodSprites_fillSprite {s : State} {b : SpriteBuffers} (h : GoodSprites b) (i row : Nat) :
    GoodSprites (fillSprite s b i row) := by
  unfold fillSprite
  simp only
  generalize List.range 8 = l
  induction l generalizing b with
  | nil => exact h
  | cons k l ih => exact ih (goodSprites_fillPixel h k)

theorem goodSprites_scanSprites {s : State} {line : Nat} (l : List Nat) (n : Nat) {b : SpriteBuffers} (h : GoodSprites b) :
    GoodSprites (scanSprites s line l n b).1 := by
  induction l generalizing n b with
  | nil => exact h
  | cons i l ih =>
    unfold scanSprites
    split
    · exact ih n h
    · split
      · exact h
      · exact ih _ (goodSprites_fillSprite h _ _)

theorem memoryInv_evaluateSprites {s : State} (h : MemoryInv s) : MemoryInv (evaluateSprites s) := by
  have g := goodSprites_scanSprites (s := s) (line := s.ppu.scanline) (List.range 64) 0 (b := ⟨[], [], [], []⟩)
    ⟨good_nil, good_nil, good_nil, good_nil⟩
  exact { h with sprPix := g.pix, sprPal := g.pal, sprBehind := g.behind, sprZero := g.zero }

theorem memoryInv_outputPixel {s : State} (h : MemoryInv s) (hl : visibleLine s.ppu = true) (hd : s.ppu.dot < 256) :
    MemoryInv { s with ppu := outputPixel s.ppu } := by
  have hl' : s.ppu.scanline < 240 := by simpa [visibleLine] using hl
  exact { h with frame := good_write _ h.frame (by omega) }

theorem memoryInv_fetchPhase {s : State} (h : MemoryInv s) : MemoryInv { s with ppu := fetchPhase s } := by
  unfold fetchPhase
  simp only
  split <;> exact memoryInv_ppu h rfl rfl rfl rfl rfl

theorem memoryInv_scrollUpdates {s : State} (h : MemoryInv s) : MemoryInv { s with ppu := scrollUpdates s.ppu } := by
  unfold scrollUpdates
  split
  · exact memoryInv_ppu h rfl rfl rfl rfl rfl
  · split
    · exact memoryInv_ppu h rfl rfl rfl rfl rfl
    · split <;> exact memoryInv_ppu h rfl rfl rfl rfl rfl

theorem memoryInv_renderDot {s : State} (h : MemoryInv s) : MemoryInv (renderDot s) := by
  unfold renderDot
  extract_lets on s1 s2 s3 s4
  have h1 : MemoryInv s1 := by
    unfold s1; split
    · exact memoryInv_evaluateSprites h
    · exact h
  have h2 : MemoryInv s2 := by
    unfold s2; split
    · rename_i hc
      simp only [Bool.and_eq_true, decide_eq_true_eq] at hc
      exact memoryInv_outputPixel h1 hc.1 hc.2
    · exact h1
  have h3 : MemoryInv s3 := by
    unfold s3; split
    · exact memoryInv_ppu h2 rfl rfl rfl rfl rfl
    · exact h2
  have h4 : MemoryInv s4 := by
    unfold s4; split
    · exact memoryInv_fetchPhase h3
    · exact h3
  split
  · exact memoryInv_scrollUpdates h4
  · exact h4

theorem memoryInv_flagEvents {s : State} (h : MemoryInv s) : MemoryInv { s with ppu := (flagEvents s.ppu).1 } := by
  unfold flagEvents
  split
  · exact memoryInv_ppu h rfl rfl rfl rfl rfl
  · split <;> exact memoryInv_ppu h rfl rfl rfl rfl rfl

theorem memoryInv_advanceDot {s : State} (h : MemoryInv s) (b : Bool) : MemoryInv { s with ppu := advanceDot s.ppu b } := by
  unfold advanceDot
  simp only
  split
  · split <;> exact memoryInv_ppu h rfl rfl rfl rfl rfl
  · exact memoryInv_ppu h rfl rfl rfl rfl rfl

/-- One dot keeps every memory canonical. -/
theorem memoryInv_tickDot {s : State} (h : MemoryInv s) : MemoryInv (tickDot s) := by
  have h1 := memoryInv_advanceDot (memoryInv_flagEvents (memoryInv_renderDot h)) (renderDot s).oddSkipNeedsRendering
  exact memoryInv_congr h1 rfl rfl rfl rfl rfl

/-- Reset memory is canonical. -/
theorem memoryInv_reset : MemoryInv State.reset := by
  constructor <;> decide

end Sys2Proof.Laws
end

