-- ==== Sys2Proof/Laws/PerInstr.lean ====
section
/-! SUPPORT. The family Length: the opcode of every well-formed instruction fixes how many operand bytes follow it
(spec 30_encoding.md R100, R101). -/

namespace Sys2Proof.Laws

/-- A well-formed instruction has an opcode, and the descriptor of that opcode takes exactly the instruction's operand
bytes. -/
def Length.Statement (i : Instr) : Prop :=
  i.wellFormed = true → ∃ op, opcodeOf i = some op ∧ descriptorOperands (descriptorOf op) = (operandBytes i).length

theorem Length.lda (o : Operand) : Length.Statement (.lda o) := by
  intro h; cases o <;> first | exact ⟨_, rfl, rfl⟩ | cases h

theorem Length.ldx (o : Operand) : Length.Statement (.ldx o) := by
  intro h; cases o <;> first | exact ⟨_, rfl, rfl⟩ | cases h

theorem Length.ldy (o : Operand) : Length.Statement (.ldy o) := by
  intro h; cases o <;> first | exact ⟨_, rfl, rfl⟩ | cases h

theorem Length.sta (o : Operand) : Length.Statement (.sta o) := by
  intro h; cases o <;> first | exact ⟨_, rfl, rfl⟩ | cases h

theorem Length.stx (o : Operand) : Length.Statement (.stx o) := by
  intro h; cases o <;> first | exact ⟨_, rfl, rfl⟩ | cases h

theorem Length.sty (o : Operand) : Length.Statement (.sty o) := by
  intro h; cases o <;> first | exact ⟨_, rfl, rfl⟩ | cases h

theorem Length.adc (o : Operand) : Length.Statement (.adc o) := by
  intro h; cases o <;> first | exact ⟨_, rfl, rfl⟩ | cases h

theorem Length.sbc (o : Operand) : Length.Statement (.sbc o) := by
  intro h; cases o <;> first | exact ⟨_, rfl, rfl⟩ | cases h

theorem Length.and (o : Operand) : Length.Statement (.and o) := by
  intro h; cases o <;> first | exact ⟨_, rfl, rfl⟩ | cases h

theorem Length.ora (o : Operand) : Length.Statement (.ora o) := by
  intro h; cases o <;> first | exact ⟨_, rfl, rfl⟩ | cases h

theorem Length.eor (o : Operand) : Length.Statement (.eor o) := by
  intro h; cases o <;> first | exact ⟨_, rfl, rfl⟩ | cases h

theorem Length.bit (o : Operand) : Length.Statement (.bit o) := by
  intro h; cases o <;> first | exact ⟨_, rfl, rfl⟩ | cases h

theorem Length.cmp (o : Operand) : Length.Statement (.cmp o) := by
  intro h; cases o <;> first | exact ⟨_, rfl, rfl⟩ | cases h

theorem Length.cpx (o : Operand) : Length.Statement (.cpx o) := by
  intro h; cases o <;> first | exact ⟨_, rfl, rfl⟩ | cases h

theorem Length.cpy (o : Operand) : Length.Statement (.cpy o) := by
  intro h; cases o <;> first | exact ⟨_, rfl, rfl⟩ | cases h

theorem Length.inc (o : Operand) : Length.Statement (.inc o) := by
  intro h; cases o <;> first | exact ⟨_, rfl, rfl⟩ | cases h

theorem Length.dec (o : Operand) : Length.Statement (.dec o) := by
  intro h; cases o <;> first | exact ⟨_, rfl, rfl⟩ | cases h

theorem Length.asl (o : Operand) : Length.Statement (.asl o) := by
  intro h; cases o <;> first | exact ⟨_, rfl, rfl⟩ | cases h

theorem Length.lsr (o : Operand) : Length.Statement (.lsr o) := by
  intro h; cases o <;> first | exact ⟨_, rfl, rfl⟩ | cases h

theorem Length.rol (o : Operand) : Length.Statement (.rol o) := by
  intro h; cases o <;> first | exact ⟨_, rfl, rfl⟩ | cases h

theorem Length.ror (o : Operand) : Length.Statement (.ror o) := by
  intro h; cases o <;> first | exact ⟨_, rfl, rfl⟩ | cases h

theorem Length.jmp (o : Operand) : Length.Statement (.jmp o) := by
  intro h; cases o <;> first | exact ⟨_, rfl, rfl⟩ | cases h

theorem Length.bcc (d : Byte) : Length.Statement (.bcc d) := fun _ => ⟨_, rfl, rfl⟩

theorem Length.bcs (d : Byte) : Length.Statement (.bcs d) := fun _ => ⟨_, rfl, rfl⟩

theorem Length.beq (d : Byte) : Length.Statement (.beq d) := fun _ => ⟨_, rfl, rfl⟩

theorem Length.bmi (d : Byte) : Length.Statement (.bmi d) := fun _ => ⟨_, rfl, rfl⟩

theorem Length.bne (d : Byte) : Length.Statement (.bne d) := fun _ => ⟨_, rfl, rfl⟩

theorem Length.bpl (d : Byte) : Length.Statement (.bpl d) := fun _ => ⟨_, rfl, rfl⟩

theorem Length.bvc (d : Byte) : Length.Statement (.bvc d) := fun _ => ⟨_, rfl, rfl⟩

theorem Length.bvs (d : Byte) : Length.Statement (.bvs d) := fun _ => ⟨_, rfl, rfl⟩

theorem Length.jsr (target : Addr) : Length.Statement (.jsr target) := fun _ => ⟨_, rfl, rfl⟩

theorem Length.tax : Length.Statement .tax := fun _ => ⟨_, rfl, rfl⟩

theorem Length.tay : Length.Statement .tay := fun _ => ⟨_, rfl, rfl⟩

theorem Length.tsx : Length.Statement .tsx := fun _ => ⟨_, rfl, rfl⟩

theorem Length.txa : Length.Statement .txa := fun _ => ⟨_, rfl, rfl⟩

theorem Length.txs : Length.Statement .txs := fun _ => ⟨_, rfl, rfl⟩

theorem Length.tya : Length.Statement .tya := fun _ => ⟨_, rfl, rfl⟩

theorem Length.inx : Length.Statement .inx := fun _ => ⟨_, rfl, rfl⟩

theorem Length.iny : Length.Statement .iny := fun _ => ⟨_, rfl, rfl⟩

theorem Length.dex : Length.Statement .dex := fun _ => ⟨_, rfl, rfl⟩

theorem Length.dey : Length.Statement .dey := fun _ => ⟨_, rfl, rfl⟩

theorem Length.rts : Length.Statement .rts := fun _ => ⟨_, rfl, rfl⟩

theorem Length.brk : Length.Statement .brk := fun _ => ⟨_, rfl, rfl⟩

theorem Length.rti : Length.Statement .rti := fun _ => ⟨_, rfl, rfl⟩

theorem Length.pha : Length.Statement .pha := fun _ => ⟨_, rfl, rfl⟩

theorem Length.php : Length.Statement .php := fun _ => ⟨_, rfl, rfl⟩

theorem Length.pla : Length.Statement .pla := fun _ => ⟨_, rfl, rfl⟩

theorem Length.plp : Length.Statement .plp := fun _ => ⟨_, rfl, rfl⟩

theorem Length.clc : Length.Statement .clc := fun _ => ⟨_, rfl, rfl⟩

theorem Length.cld : Length.Statement .cld := fun _ => ⟨_, rfl, rfl⟩

theorem Length.cli : Length.Statement .cli := fun _ => ⟨_, rfl, rfl⟩

theorem Length.clv : Length.Statement .clv := fun _ => ⟨_, rfl, rfl⟩

theorem Length.sec : Length.Statement .sec := fun _ => ⟨_, rfl, rfl⟩

theorem Length.sed : Length.Statement .sed := fun _ => ⟨_, rfl, rfl⟩

theorem Length.sei : Length.Statement .sei := fun _ => ⟨_, rfl, rfl⟩

theorem Length.nop : Length.Statement .nop := fun _ => ⟨_, rfl, rfl⟩

theorem illegal_operands (op : Byte) : illegalOpcodes.contains op = true → descriptorOperands (descriptorOf op) = 0 := by
  revert op; decide +kernel

theorem Length.illegal (op : Byte) : Length.Statement (.illegal op) := fun h =>
  ⟨op, if_pos h, illegal_operands op h⟩

end Sys2Proof.Laws
end

