-- ==== Sys2Proof/Laws/Shapes.lean ====
section
/-! SUPPORT. What an instruction of each shape did when it gave a next state, mapped operands or not. -/

namespace Sys2Proof.Laws

open Sys2Proof.Machine

/-- A state that bus reads made of another: the CPU's registers, every memory, the raster, the pipeline, the fault and the
host's IRQ levels are the same. -/
def ReadsFrom (s u : State) : Prop :=
  u = { s with
    draws := u.draws
    ioAnswers := u.ioAnswers
    ioLog := u.ioLog
    ppu := { s.ppu with
      vblank := u.ppu.vblank
      w := u.ppu.w
      readBuffer := u.ppu.readBuffer
      v := u.ppu.v } }

theorem ReadsFrom.refl (s : State) : ReadsFrom s s := rfl

theorem readsFrom_busValue {s u : State} (a : Addr) (h : ReadsFrom s u) : ReadsFrom s (busValue a u).2 := by
  unfold ReadsFrom at *
  rw [busValue_frame a u]
  rw [h]

theorem ReadsFrom.cpu {s u : State} (h : ReadsFrom s u) : u.cpu = s.cpu := by rw [h]

theorem ReadsFrom.cart {s u : State} (h : ReadsFrom s u) : u.cart = s.cart := by rw [h]

theorem ReadsFrom.sameMemory {s u : State} (h : ReadsFrom s u) : SameMemory s u := by
  rw [h]
  exact ⟨fun _ => rfl, fun _ => rfl, fun _ => rfl, fun _ => rfl, fun _ => rfl, fun _ => rfl, fun _ => rfl, rfl, rfl⟩

theorem ReadsFrom.oamAddr {s u : State} (h : ReadsFrom s u) : u.ppu.oamAddr = s.ppu.oamAddr := by rw [h]

theorem endSlot_next {start t : State} {r : Bus Unit} (h : endSlot start r = .next t) : r = .ok () t := by
  cases r with
  | ok v s => cases h; rfl
  | fault f => cases f <;> cases h

theorem busBind_next {α β : Type} {x : Bus α} {f : α → State → Bus β} {v : β} {t : State} (h : busBind x f = .ok v t) :
    ∃ w u, x = .ok w u ∧ f w u = .ok v t := by
  cases x with
  | ok w u => exact ⟨w, u, rfl, h⟩
  | fault => cases h

theorem cpuRead_next {a : Addr} {s u : State} {v : Byte} (h : cpuRead a s = .ok v u) :
    accessOk s .read a = true ∧ v = (busValue a s).1 ∧ u = (busValue a s).2 := by
  unfold cpuRead at h
  split at h
  · cases h; exact ⟨by assumption, rfl, rfl⟩
  · cases h

theorem cpuWrite_next {a : Addr} {v : Byte} {s u : State} (h : cpuWrite a v s = .ok () u) :
    accessOk s .write a = true ∧ u = busStore a v s := by
  unfold cpuWrite at h
  split at h
  · cases h; exact ⟨by assumption, rfl⟩
  · cases h

/-- A resolved operand form: bus reads only, and for every form but the JMP pointer none at all with the place
`placeOf`. -/
theorem resolve_next {o : Operand} {s u : State} {r : Resolved} (h : resolve o s = .ok r u) :
    ReadsFrom s u ∧ ((∀ w, o ≠ .ind w) → u = s ∧ r.place = placeOf o s) := by
  by_cases hi : ∃ w, o = .ind w
  · obtain ⟨w, rfl⟩ := hi
    refine ⟨?_, fun hc => absurd rfl (hc w)⟩
    have hl := leaves_resolve (Inv := ReadsFrom s) (fun a _ h => readsFrom_busValue a h) (.ind w) (ReadsFrom.refl s)
    rw [h] at hl
    exact hl
  · have hn : ∀ w, o ≠ .ind w := fun w e => hi ⟨w, e⟩
    rw [resolve_eq o s hn] at h
    cases h
    exact ⟨ReadsFrom.refl s, fun _ => ⟨rfl, rfl⟩⟩

/-- A read instruction that completed: its effect `f` on a state that only bus reads made. -/
theorem readShape_next {i : Instr} {o : Operand} {f : Byte → State → State} {s t : State}
    (h : readShape i o f s = .next t) :
    ∃ n m u, n ≤ 1 ∧ ReadsFrom (advance i s) u ∧ t = finish i n (f m u) := by
  obtain ⟨r, u1, e1, h⟩ := busBind_next (endSlot_next h)
  obtain ⟨m, u2, e2, h⟩ := busBind_next h
  have l1 := (resolve_next e1).1
  have l2 := leaves_loadPlace (Inv := ReadsFrom (advance i s)) (fun a _ h => readsFrom_busValue a h) r.place l1
  rw [e2] at l2
  cases h
  exact ⟨_, m, u2, crossExtra_le _ _, l2, rfl⟩

/-- A jump that completed: bus reads only, then PC. -/
theorem jump_next {o : Operand} {s t : State} (h : execJmp o s = .next t) :
    ∃ l u, ReadsFrom (advance (.jmp o) s) u ∧ t = finish (.jmp o) 0 (jumpTo l u) := by
  obtain ⟨r, u, e, h⟩ := busBind_next (endSlot_next h)
  cases h
  exact ⟨r.place, u, (resolve_next e).1, rfl⟩

/-- A store instruction that completed: one write at the effective address of its form; no other form has an effect on
memory. -/
theorem storeShape_next {i : Instr} {o : Operand} {v : Byte} {s t : State} (h : storeShape i o v s = .next t) :
    ∃ n u, n ≤ 1 ∧ t = finish i n u ∧
      ((∃ a, effectiveAddr o s = some a ∧ accessOk s .write a = true ∧ u = busStore a v (advance i s)) ∨
        (effectiveAddr o s = none ∧ ((∃ w, o = .ind w) ∨ u = advance i s ∨ u = setA v (advance i s)))) := by
  obtain ⟨r, u1, e1, h⟩ := busBind_next (endSlot_next h)
  obtain ⟨w, u2, e2, h⟩ := busBind_next h
  obtain ⟨l1, l2⟩ := resolve_next e1
  cases h
  refine ⟨_, u2, crossExtra_le _ _, rfl, ?_⟩
  have hc : advance i s = setCpu (advance i s).cpu s := rfl
  by_cases hi : ∃ w, o = .ind w
  · obtain ⟨w, rfl⟩ := hi
    exact Or.inr ⟨rfl, Or.inl ⟨w, rfl⟩⟩
  · obtain ⟨rfl, hp⟩ := l2 (fun w e => hi ⟨w, e⟩)
    rw [hp] at e2
    cases o <;> simp only [placeOf, effectiveAddr] at e2 ⊢ <;> first
      | (cases e2; exact Or.inr ⟨trivial, Or.inr (Or.inr rfl)⟩)
      | (cases e2; exact Or.inr ⟨trivial, Or.inr (Or.inl rfl)⟩)
      | (obtain ⟨hok, e⟩ := cpuWrite_next e2; exact Or.inl ⟨_, rfl, hok, e⟩)

/-- A read-modify-write instruction that completed: on the accumulator, or one read and one write at the effective address
of its form; no other form has an effect on memory. -/
theorem modifyShape_next {i : Instr} {o : Operand} {f g : Byte → Cpu → Byte} {s t : State}
    (h : modifyShape i o f g s = .next t) :
    ∃ n m u, n ≤ 1 ∧ t = finish i n (setP (g m (advance i s).cpu) u) ∧
      ((o = .acc ∧ m = s.cpu.a ∧ u = setA (f m (advance i s).cpu) (advance i s)) ∨
        (∃ a, effectiveAddr o s = some a ∧ accessOk s .write a = true ∧ m = (busValue a s).1 ∧
          u = busStore a (f m (advance i s).cpu) (busValue a (advance i s)).2) ∨
        (effectiveAddr o s = none ∧ o ≠ .acc ∧ ((∃ w, o = .ind w) ∨ u = advance i s))) := by
  obtain ⟨r, u1, e1, h⟩ := busBind_next (endSlot_next h)
  obtain ⟨m, u2, e2, h⟩ := busBind_next h
  obtain ⟨w, u3, e3, h⟩ := busBind_next h
  obtain ⟨l1, l2⟩ := resolve_next e1
  have l3 := leaves_loadPlace (Inv := ReadsFrom (advance i s)) (fun a _ h => readsFrom_busValue a h) r.place l1
  rw [e2] at l3
  cases h
  rw [ReadsFrom.cpu l3] at e3
  refine ⟨_, m, u3, crossExtra_le _ _, by rw [ReadsFrom.cpu l3], ?_⟩
  by_cases hi : ∃ w, o = .ind w
  · obtain ⟨w, rfl⟩ := hi
    exact Or.inr (Or.inr ⟨rfl, by simp, Or.inl ⟨w, rfl⟩⟩)
  · obtain ⟨rfl, hp⟩ := l2 (fun w e => hi ⟨w, e⟩)
    rw [hp] at e2 e3
    have hv : ∀ a, (busValue a (advance i s)).1 = (busValue a s).1 := by
      intro a; rw [advance_eq, busValue_setCpu]
    have hk : ∀ a u, accessOk (busValue a (advance i s)).2 .write u = accessOk s .write u := by
      intro a u
      unfold accessOk cartImplements
      rw [busValue_cart]
      rfl
    cases o <;> simp only [placeOf, effectiveAddr] at e2 e3 ⊢ <;> first
      | exact absurd ⟨_, rfl⟩ hi
      | (cases e2; cases e3; exact Or.inl ⟨trivial, rfl, rfl⟩)
      | (cases e2; cases e3; exact Or.inr (Or.inr ⟨trivial, by simp, Or.inr rfl⟩))
      | (obtain ⟨-, rfl, rfl⟩ := cpuRead_next e2
         obtain ⟨hok, rfl⟩ := cpuWrite_next e3
         exact Or.inr (Or.inl ⟨_, rfl, (hk _ _).symm.trans hok, hv _, rfl⟩))

end Sys2Proof.Laws
end

