-- ==== Sys2Proof/Laws/Sprites.lean ====
section
/-! SUPPORT. What sprite evaluation does: which entries it selects, when it overflows, and what one entry puts into a column of
the sprite buffers. -/

namespace Sys2Proof.Laws

open Sys2Proof.Machine

/-- The row of an entry in range of a line. -/
theorem spriteRow_inRange (s : State) (line i : Nat) :
    spriteRow (spriteHeight s.ppu) line (oamByte s.ppu i 0).toNat =
      if spriteInRange s line i then some (line - 1 - (oamByte s.ppu i 0).toNat) else none := by
  unfold spriteRow spriteInRange oamByte spriteHeight
  simp only [Nat.add_zero]
  generalize (s.ppu.oam.read (4 * i)).toNat = y
  generalize (if s.ppu.ctrl.getLsbD 5 then 16 else 8) = k
  by_cases h : y + 1 ≤ line ∧ line < y + 1 + k
  · rw [if_pos (by omega), if_pos (by simpa using h)]
  · rw [if_neg (by omega), if_neg (by simpa using h)]

/-- The scan fills in the first eight entries in range, in OAM order, and overflows when there is a ninth. -/
theorem scanSprites_eq (s : State) (line : Nat) (l : List Nat) (c : Nat) (b : SpriteBuffers) (h : c ≤ 8) :
    scanSprites s line l c b =
      (((l.filter (spriteInRange s line)).take (8 - c)).foldl
          (fun b i => fillSprite s b i (line - 1 - (oamByte s.ppu i 0).toNat)) b,
        decide (9 ≤ c + (l.filter (spriteInRange s line)).length)) := by
  induction l generalizing c b with
  | nil => simp [scanSprites]; omega
  | cons i l ih =>
    unfold scanSprites
    rw [spriteRow_inRange]
    by_cases hr : spriteInRange s line i = true
    · simp only [hr, if_true, List.filter_cons, List.length_cons]
      by_cases h8 : c = 8
      · subst h8; simp; omega
      · obtain ⟨m, hm⟩ : ∃ m, 8 - c = m + 1 := ⟨7 - c, by omega⟩
        rw [if_neg h8, ih _ _ (by omega), hm, show 8 - (c + 1) = m by omega, List.take_succ_cons, List.foldl_cons]
        congr 2
        exact propext ⟨fun _ => by omega, fun _ => by omega⟩
    · simp only [hr, List.filter_cons]; exact ih _ _ h

/-- A pixel of a sprite leaves every other column of the buffers. -/
theorem fillPixel_other (attr lo hi : Byte) (x : Nat) (z : Bool) (b : SpriteBuffers) {k c : Nat} (h : c ≠ x + k) :
    (fillPixel attr lo hi x z b k).pix.read c = b.pix.read c ∧
    (fillPixel attr lo hi x z b k).pal.read c = b.pal.read c ∧
    (fillPixel attr lo hi x z b k).behind.read c = b.behind.read c ∧
    (fillPixel attr lo hi x z b k).zero.read c = b.zero.read c := by
  unfold fillPixel
  extract_lets bit pix cc
  split
  · exact ⟨read_write_other _ _ (Ne.symm h), read_write_other _ _ (Ne.symm h), read_write_other _ _ (Ne.symm h),
      read_write_other _ _ (Ne.symm h)⟩
  · exact ⟨rfl, rfl, rfl, rfl⟩

end Sys2Proof.Laws
end

