-- ==== Sys2Proof/Tests/Slice0.lean ====
section
/-! SUPPORT. Tests, with their expected results from spec/95_test_vectors.md (part 1: W1 to W9; part 2: the V- vectors) or from the
rule cited, and the witnesses of the obligations' hypotheses. -/

namespace Sys2Proof.Tests

open Sys2Proof Sys2Proof.Machine

/-! ## Well-formedness: every check refuses an ill-formed term (the "Encoding" lines of R150 to R219, R123) -/

theorem test_illFormed_loads :
    (Instr.lda .acc).wellFormed = false ∧ (Instr.lda (.zpy 0#8)).wellFormed = false ∧
    (Instr.ldx (.abx 0#16)).wellFormed = false ∧ (Instr.ldx (.zpx 0#8)).wellFormed = false ∧
    (Instr.ldy (.aby 0#16)).wellFormed = false ∧ (Instr.ldy (.izy 0#8)).wellFormed = false := by decide

theorem test_illFormed_stores :
    (Instr.sta (.imm 0#8)).wellFormed = false ∧ (Instr.sta (.zpy 0#8)).wellFormed = false ∧
    (Instr.stx (.aby 0#16)).wellFormed = false ∧ (Instr.stx (.imm 0#8)).wellFormed = false ∧
    (Instr.sty (.abx 0#16)).wellFormed = false ∧ (Instr.sty (.zpy 0#8)).wellFormed = false := by decide

theorem test_illFormed_arithmetic :
    (Instr.adc .acc).wellFormed = false ∧ (Instr.sbc (.zpy 0#8)).wellFormed = false ∧
    (Instr.and (.ind 0#16)).wellFormed = false ∧ (Instr.ora .acc).wellFormed = false ∧
    (Instr.eor (.zpy 0#8)).wellFormed = false ∧ (Instr.bit (.imm 0#8)).wellFormed = false ∧
    (Instr.cmp (.ind 0#16)).wellFormed = false ∧ (Instr.cpx (.zpx 0#8)).wellFormed = false ∧
    (Instr.cpy (.abx 0#16)).wellFormed = false := by decide

theorem test_illFormed_modify :
    (Instr.inc .acc).wellFormed = false ∧ (Instr.dec (.aby 0#16)).wellFormed = false ∧
    (Instr.asl (.imm 0#8)).wellFormed = false ∧ (Instr.lsr (.aby 0#16)).wellFormed = false ∧
    (Instr.rol (.zpy 0#8)).wellFormed = false ∧ (Instr.ror (.izx 0#8)).wellFormed = false := by decide

theorem test_illFormed_control :
    (Instr.jmp (.zp 0#8)).wellFormed = false ∧ (Instr.jmp (.abx 0#16)).wellFormed = false ∧
    (Instr.illegal 0xA9#8).wellFormed = false ∧ (Instr.illegal 0xEA#8).wellFormed = false ∧
    (Instr.illegal 0x02#8).wellFormed = true := by decide

/-! ## Decoding: a word of every constructor, written out from the opcode map of 30_encoding.md R121 and the "Encoding" lines -/

theorem test_decode_loads :
    decode [0xB5#8, 0xF0#8] = .ok (.lda (.zpx 0xF0#8), []) ∧
    decode [0xB6#8, 0xF0#8] = .ok (.ldx (.zpy 0xF0#8), []) ∧
    decode [0xBC#8, 0xF0#8, 0x12#8] = .ok (.ldy (.abx 0x12F0#16), []) ∧
    decode [0x99#8, 0xF0#8, 0x12#8] = .ok (.sta (.aby 0x12F0#16), []) ∧
    decode [0x96#8, 0x10#8] = .ok (.stx (.zpy 0x10#8), []) ∧
    decode [0x94#8, 0x10#8] = .ok (.sty (.zpx 0x10#8), []) ∧
    decode [0xAA#8] = .ok (.tax, []) ∧ decode [0xA8#8] = .ok (.tay, []) ∧ decode [0xBA#8] = .ok (.tsx, []) ∧
    decode [0x8A#8] = .ok (.txa, []) ∧ decode [0x9A#8] = .ok (.txs, []) ∧ decode [0x98#8] = .ok (.tya, []) :=
  ⟨rfl, rfl, rfl, rfl, rfl, rfl, rfl, rfl, rfl, rfl, rfl, rfl⟩

theorem test_decode_arithmetic :
    decode [0x61#8, 0x10#8] = .ok (.adc (.izx 0x10#8), []) ∧
    decode [0xF1#8, 0x10#8] = .ok (.sbc (.izy 0x10#8), []) ∧
    decode [0x39#8, 0x34#8, 0x12#8] = .ok (.and (.aby 0x1234#16), []) ∧
    decode [0x0D#8, 0x34#8, 0x12#8] = .ok (.ora (.abs 0x1234#16), []) ∧
    decode [0x5D#8, 0x34#8, 0x12#8] = .ok (.eor (.abx 0x1234#16), []) ∧
    decode [0x2C#8, 0x34#8, 0x12#8] = .ok (.bit (.abs 0x1234#16), []) ∧
    decode [0xC9#8, 0x40#8] = .ok (.cmp (.imm 0x40#8), []) ∧
    decode [0xE4#8, 0x40#8] = .ok (.cpx (.zp 0x40#8), []) ∧
    decode [0xC0#8, 0x40#8] = .ok (.cpy (.imm 0x40#8), []) ∧
    decode [0xFE#8, 0x34#8, 0x12#8] = .ok (.inc (.abx 0x1234#16), []) ∧
    decode [0xC6#8, 0x10#8] = .ok (.dec (.zp 0x10#8), []) ∧
    decode [0xE8#8] = .ok (.inx, []) ∧ decode [0xC8#8] = .ok (.iny, []) ∧
    decode [0xCA#8] = .ok (.dex, []) ∧ decode [0x88#8] = .ok (.dey, []) :=
  ⟨rfl, rfl, rfl, rfl, rfl, rfl, rfl, rfl, rfl, rfl, rfl, rfl, rfl, rfl, rfl⟩

theorem test_decode_shifts :
    decode [0x16#8, 0x10#8] = .ok (.asl (.zpx 0x10#8), []) ∧ decode [0x4A#8] = .ok (.lsr .acc, []) ∧
    decode [0x2E#8, 0x34#8, 0x12#8] = .ok (.rol (.abs 0x1234#16), []) ∧
    decode [0x7E#8, 0x34#8, 0x12#8] = .ok (.ror (.abx 0x1234#16), []) := ⟨rfl, rfl, rfl, rfl⟩

theorem test_decode_control :
    decode [0x90#8, 0x80#8] = .ok (.bcc 0x80#8, []) ∧ decode [0xB0#8, 2#8] = .ok (.bcs 2#8, []) ∧
    decode [0xF0#8, 2#8] = .ok (.beq 2#8, []) ∧ decode [0x30#8, 2#8] = .ok (.bmi 2#8, []) ∧
    decode [0xD0#8, 2#8] = .ok (.bne 2#8, []) ∧ decode [0x10#8, 2#8] = .ok (.bpl 2#8, []) ∧
    decode [0x50#8, 2#8] = .ok (.bvc 2#8, []) ∧ decode [0x70#8, 2#8] = .ok (.bvs 2#8, []) ∧
    decode [0x4C#8, 0x34#8, 0x12#8] = .ok (.jmp (.abs 0x1234#16), []) ∧
    decode [0x20#8, 0x34#8, 0x12#8] = .ok (.jsr 0x1234#16, []) ∧
    decode [0x60#8] = .ok (.rts, []) ∧ decode [0x00#8] = .ok (.brk, []) ∧ decode [0x40#8] = .ok (.rti, []) :=
  ⟨rfl, rfl, rfl, rfl, rfl, rfl, rfl, rfl, rfl, rfl, rfl, rfl, rfl⟩

theorem test_decode_stackAndFlags :
    decode [0x48#8] = .ok (.pha, []) ∧ decode [0x08#8] = .ok (.php, []) ∧ decode [0x68#8] = .ok (.pla, []) ∧
    decode [0x28#8] = .ok (.plp, []) ∧ decode [0x18#8] = .ok (.clc, []) ∧ decode [0xD8#8] = .ok (.cld, []) ∧
    decode [0x58#8] = .ok (.cli, []) ∧ decode [0xB8#8] = .ok (.clv, []) ∧ decode [0x38#8] = .ok (.sec, []) ∧
    decode [0xF8#8] = .ok (.sed, []) ∧ decode [0x78#8] = .ok (.sei, []) ∧ decode [0xEA#8] = .ok (.nop, []) ∧
    decode [0xFF#8] = .ok (.illegal 0xFF#8, []) :=
  ⟨rfl, rfl, rfl, rfl, rfl, rfl, rfl, rfl, rfl, rfl, rfl, rfl, rfl⟩

/-- R100: too few bytes give no instruction. -/
theorem test_decode_truncated :
    decode [] = .error .noOpcode ∧ decode [0xA9#8] = .error (.truncated 0xA9#8) ∧
    decode [0x4C#8, 0x34#8] = .error (.truncated 0x4C#8) := ⟨rfl, rfl, rfl⟩

/-- A table word is laid out first byte lowest: LDA $1234 as 24 bits. -/
theorem test_decodeTableWord :
    decodeTableWord 24 0x1234AD = some (.lda (.abs 0x1234#16)) ∧ decodeTableWord 8 0xEA = some .nop := ⟨rfl, rfl⟩

/-! ## One instruction on a small state -/

/-- The machine at an instruction boundary at `pc`, with code there, these bytes in RAM and this CPU. -/
def machineAt (pc : Addr) (code : List Byte) (ram : List (Nat × Byte)) (f : Cpu → Cpu) : State :=
  let s := placeBytes code pc (readyAt pc State.reset)
  { s with ram := ram.foldl (fun m c => m.write c.1 c.2) s.ram, cpu := f s.cpu }

/-- The outcome of the instruction at 0x0300. -/
def runCode (code : List Byte) (ram : List (Nat × Byte)) (f : Cpu → Cpu) : StepOutcome :=
  executeInstruction (machineAt 0x0300#16 code ram f)

/-- The state of a next outcome. -/
def stateOf (r : StepOutcome) : Option State :=
  match r with
  | .next s => some s
  | .fault _ => none
  | .refused _ => none

/-- The CPU of a next outcome: A, X, Y, SP, PC, P, the cycles charged and the NMI latch. -/
def cpuOf (r : StepOutcome) : Option Cpu := (stateOf r).map State.cpu

/-- The RAM bytes a next outcome holds at some entries. -/
def ramOf (r : StepOutcome) (l : List Nat) : Option (List Byte) := (stateOf r).map fun s => l.map s.ram.read

/-- The cause a fault outcome names. -/
def causeOf (r : StepOutcome) : Option FaultCause :=
  match r with
  | .next _ => none
  | .fault f => (stopped f).map Prod.fst
  | .refused _ => none

/-- V-LD-1, V-LD-2. -/
theorem test_lda_flags :
    cpuOf (runCode [0xA9#8, 0x00#8] [] (fun c => { c with a := 0x55#8 })) =
      some ⟨0x00#8, 0x00#8, 0x00#8, 0xFD#8, 0x0302#16, 0x26#8, 2, false⟩ ∧
    cpuOf (runCode [0xA9#8, 0x80#8] [] id) =
      some ⟨0x80#8, 0x00#8, 0x00#8, 0xFD#8, 0x0302#16, 0xA4#8, 2, false⟩ := by decide

/-- V-LD-3, V-LD-4, V-LD-5, V-LD-7. -/
theorem test_lda_modes :
    cpuOf (runCode [0xBD#8, 0xFF#8, 0x10#8] [(0x0100, 0x33#8)] (fun c => { c with x := 0x01#8 })) =
      some ⟨0x33#8, 0x01#8, 0x00#8, 0xFD#8, 0x0303#16, 0x24#8, 5, false⟩ ∧
    cpuOf (runCode [0xBD#8, 0x00#8, 0x10#8] [(0x0001, 0x33#8)] (fun c => { c with x := 0x01#8 })) =
      some ⟨0x33#8, 0x01#8, 0x00#8, 0xFD#8, 0x0303#16, 0x24#8, 4, false⟩ ∧
    cpuOf (runCode [0xA1#8, 0xFF#8] [(0x00FF, 0x34#8), (0x0000, 0x02#8), (0x0234, 0x9A#8)] id) =
      some ⟨0x9A#8, 0x00#8, 0x00#8, 0xFD#8, 0x0302#16, 0xA4#8, 6, false⟩ ∧
    cpuOf (runCode [0xB5#8, 0xF0#8] [(0x0010, 0x77#8)] (fun c => { c with x := 0x20#8 })) =
      some ⟨0x77#8, 0x20#8, 0x00#8, 0xFD#8, 0x0302#16, 0x24#8, 4, false⟩ := by decide

/-- V-LD-8. -/
theorem test_ldx :
    cpuOf (runCode [0xB6#8, 0xF0#8] [(0x0010, 0x01#8)] (fun c => { c with y := 0x20#8 })) =
      some ⟨0x00#8, 0x01#8, 0x20#8, 0xFD#8, 0x0302#16, 0x24#8, 4, false⟩ := by decide

/-- R152. -/
theorem test_ldy :
    cpuOf (runCode [0xA0#8, 0x80#8] [] id) =
      some ⟨0x00#8, 0x00#8, 0x80#8, 0xFD#8, 0x0302#16, 0xA4#8, 2, false⟩ := by decide

/-- V-ST-1. -/
theorem test_sta :
    cpuOf (runCode [0x9D#8, 0xFF#8, 0x10#8] [] (fun c => { c with a := 0x44#8, x := 0x01#8 })) =
      some ⟨0x44#8, 0x01#8, 0x00#8, 0xFD#8, 0x0303#16, 0x24#8, 5, false⟩ ∧
    ramOf (runCode [0x9D#8, 0xFF#8, 0x10#8] [] (fun c => { c with a := 0x44#8, x := 0x01#8 })) [0x0100] = some [0x44#8] := by decide

/-- V-ST-2. -/
theorem test_stx :
    cpuOf (runCode [0x86#8, 0x10#8] [] (fun c => { c with x := 0x5A#8 })) =
      some ⟨0x00#8, 0x5A#8, 0x00#8, 0xFD#8, 0x0302#16, 0x24#8, 3, false⟩ ∧
    ramOf (runCode [0x86#8, 0x10#8] [] (fun c => { c with x := 0x5A#8 })) [0x0010] = some [0x5A#8] := by decide

/-- R155. -/
theorem test_sty :
    cpuOf (runCode [0x84#8, 0x10#8] [] (fun c => { c with y := 0x80#8 })) =
      some ⟨0x00#8, 0x00#8, 0x80#8, 0xFD#8, 0x0302#16, 0x24#8, 3, false⟩ ∧
    ramOf (runCode [0x84#8, 0x10#8] [] (fun c => { c with y := 0x80#8 })) [0x0010] = some [0x80#8] := by decide

/-- V-TR-1. -/
theorem test_tax :
    cpuOf (runCode [0xAA#8] [] (fun c => { c with x := 0x05#8 })) =
      some ⟨0x00#8, 0x00#8, 0x00#8, 0xFD#8, 0x0301#16, 0x26#8, 2, false⟩ := by decide

/-- R157. -/
theorem test_tay :
    cpuOf (runCode [0xA8#8] [] (fun c => { c with a := 0x80#8 })) =
      some ⟨0x80#8, 0x00#8, 0x80#8, 0xFD#8, 0x0301#16, 0xA4#8, 2, false⟩ := by decide

/-- V-TR-2. -/
theorem test_txs :
    cpuOf (runCode [0x9A#8] [] id) =
      some ⟨0x00#8, 0x00#8, 0x00#8, 0x00#8, 0x0301#16, 0x24#8, 2, false⟩ := by decide

/-- V-TR-3. -/
theorem test_tsx :
    cpuOf (runCode [0xBA#8] [] (fun c => { c with sp := 0x80#8 })) =
      some ⟨0x00#8, 0x80#8, 0x00#8, 0x80#8, 0x0301#16, 0xA4#8, 2, false⟩ := by decide

/-- R159. -/
theorem test_txa :
    cpuOf (runCode [0x8A#8] [] (fun c => { c with a := 0x05#8 })) =
      some ⟨0x00#8, 0x00#8, 0x00#8, 0xFD#8, 0x0301#16, 0x26#8, 2, false⟩ := by decide

/-- V-TR-4. -/
theorem test_tya :
    cpuOf (runCode [0x98#8] [] (fun c => { c with y := 0xFF#8 })) =
      some ⟨0xFF#8, 0x00#8, 0xFF#8, 0xFD#8, 0x0301#16, 0xA4#8, 2, false⟩ := by decide

/-- V-ADC-1, V-ADC-2, V-ADC-3. -/
theorem test_adc_overflow :
    cpuOf (runCode [0x69#8, 0x50#8] [] (fun c => { c with a := 0x50#8 })) =
      some ⟨0xA0#8, 0x00#8, 0x00#8, 0xFD#8, 0x0302#16, 0xE4#8, 2, false⟩ ∧
    cpuOf (runCode [0x69#8, 0xD0#8] [] (fun c => { c with a := 0x50#8 })) =
      some ⟨0x20#8, 0x00#8, 0x00#8, 0xFD#8, 0x0302#16, 0x25#8, 2, false⟩ ∧
    cpuOf (runCode [0x69#8, 0x90#8] [] (fun c => { c with a := 0xD0#8 })) =
      some ⟨0x60#8, 0x00#8, 0x00#8, 0xFD#8, 0x0302#16, 0x65#8, 2, false⟩ := by decide

/-- V-ADC-4, V-ADC-5, V-ADC-6, V-ADC-7. -/
theorem test_adc_carry :
    cpuOf (runCode [0x69#8, 0x01#8] [] (fun c => { c with a := 0xFF#8 })) =
      some ⟨0x00#8, 0x00#8, 0x00#8, 0xFD#8, 0x0302#16, 0x27#8, 2, false⟩ ∧
    cpuOf (runCode [0x69#8, 0xFF#8] [] (fun c => { c with p := 0x25#8 })) =
      some ⟨0x00#8, 0x00#8, 0x00#8, 0xFD#8, 0x0302#16, 0x27#8, 2, false⟩ ∧
    cpuOf (runCode [0x69#8, 0x7F#8] [] (fun c => { c with p := 0x25#8 })) =
      some ⟨0x80#8, 0x00#8, 0x00#8, 0xFD#8, 0x0302#16, 0xE4#8, 2, false⟩ ∧
    cpuOf (runCode [0x69#8, 0x05#8] [] (fun c => { c with a := 0x09#8, p := 0x2C#8 })) =
      some ⟨0x0E#8, 0x00#8, 0x00#8, 0xFD#8, 0x0302#16, 0x2C#8, 2, false⟩ := by decide

/-- V-SBC-1, V-SBC-2, V-SBC-3, V-SBC-4. -/
theorem test_sbc :
    cpuOf (runCode [0xE9#8, 0xB0#8] [] (fun c => { c with a := 0x50#8, p := 0x25#8 })) =
      some ⟨0xA0#8, 0x00#8, 0x00#8, 0xFD#8, 0x0302#16, 0xE4#8, 2, false⟩ ∧
    cpuOf (runCode [0xE9#8, 0x01#8] [] (fun c => { c with p := 0x25#8 })) =
      some ⟨0xFF#8, 0x00#8, 0x00#8, 0xFD#8, 0x0302#16, 0xA4#8, 2, false⟩ ∧
    cpuOf (runCode [0xE9#8, 0x01#8] [] (fun c => { c with a := 0x80#8, p := 0x25#8 })) =
      some ⟨0x7F#8, 0x00#8, 0x00#8, 0xFD#8, 0x0302#16, 0x65#8, 2, false⟩ ∧
    cpuOf (runCode [0xE9#8, 0x00#8] [] (fun c => { c with a := 0x05#8 })) =
      some ⟨0x04#8, 0x00#8, 0x00#8, 0xFD#8, 0x0302#16, 0x25#8, 2, false⟩ := by decide

/-- V-LOG-1. -/
theorem test_and :
    cpuOf (runCode [0x29#8, 0x0F#8] [] (fun c => { c with a := 0xF0#8 })) =
      some ⟨0x00#8, 0x00#8, 0x00#8, 0xFD#8, 0x0302#16, 0x26#8, 2, false⟩ := by decide

/-- V-LOG-2. -/
theorem test_ora :
    cpuOf (runCode [0x09#8, 0x80#8] [] (fun c => { c with a := 0x01#8 })) =
      some ⟨0x81#8, 0x00#8, 0x00#8, 0xFD#8, 0x0302#16, 0xA4#8, 2, false⟩ := by decide

/-- V-LOG-3. -/
theorem test_eor :
    cpuOf (runCode [0x49#8, 0xFF#8] [] (fun c => { c with a := 0xFF#8 })) =
      some ⟨0x00#8, 0x00#8, 0x00#8, 0xFD#8, 0x0302#16, 0x26#8, 2, false⟩ := by decide

/-- V-BIT-1, V-BIT-2. -/
theorem test_bit :
    cpuOf (runCode [0x24#8, 0x10#8] [(0x0010, 0xC0#8)] (fun c => { c with a := 0x01#8 })) =
      some ⟨0x01#8, 0x00#8, 0x00#8, 0xFD#8, 0x0302#16, 0xE6#8, 3, false⟩ ∧
    cpuOf (runCode [0x24#8, 0x10#8] [(0x0010, 0x41#8)] (fun c => { c with a := 0x41#8, p := 0xE4#8 })) =
      some ⟨0x41#8, 0x00#8, 0x00#8, 0xFD#8, 0x0302#16, 0x64#8, 3, false⟩ := by decide

/-- V-CMP-1, V-CMP-2, V-CMP-3. -/
theorem test_cmp :
    cpuOf (runCode [0xC9#8, 0x40#8] [] (fun c => { c with a := 0x40#8 })) =
      some ⟨0x40#8, 0x00#8, 0x00#8, 0xFD#8, 0x0302#16, 0x27#8, 2, false⟩ ∧
    cpuOf (runCode [0xC9#8, 0x41#8] [] (fun c => { c with a := 0x40#8 })) =
      some ⟨0x40#8, 0x00#8, 0x00#8, 0xFD#8, 0x0302#16, 0xA4#8, 2, false⟩ ∧
    cpuOf (runCode [0xC9#8, 0xC0#8] [] (fun c => { c with a := 0x40#8 })) =
      some ⟨0x40#8, 0x00#8, 0x00#8, 0xFD#8, 0x0302#16, 0xA4#8, 2, false⟩ := by decide

/-- V-CMP-4. -/
theorem test_cpx :
    cpuOf (runCode [0xE0#8, 0x00#8] [] (fun c => { c with x := 0x80#8 })) =
      some ⟨0x00#8, 0x80#8, 0x00#8, 0xFD#8, 0x0302#16, 0xA5#8, 2, false⟩ := by decide

/-- V-CMP-5. -/
theorem test_cpy :
    cpuOf (runCode [0xC0#8, 0xFF#8] [] (fun c => { c with y := 0xFF#8 })) =
      some ⟨0x00#8, 0x00#8, 0xFF#8, 0xFD#8, 0x0302#16, 0x27#8, 2, false⟩ := by decide

/-- V-INC-1, V-INC-3. -/
theorem test_inc :
    cpuOf (runCode [0xE6#8, 0x10#8] [(0x0010, 0xFF#8)] id) =
      some ⟨0x00#8, 0x00#8, 0x00#8, 0xFD#8, 0x0302#16, 0x26#8, 5, false⟩ ∧
    ramOf (runCode [0xE6#8, 0x10#8] [(0x0010, 0xFF#8)] id) [0x0010] = some [0x00#8] ∧
    cpuOf (runCode [0xFE#8, 0xFF#8, 0x10#8] [(0x0100, 0x7F#8)] (fun c => { c with x := 0x01#8 })) =
      some ⟨0x00#8, 0x01#8, 0x00#8, 0xFD#8, 0x0303#16, 0xA4#8, 7, false⟩ ∧
    ramOf (runCode [0xFE#8, 0xFF#8, 0x10#8] [(0x0100, 0x7F#8)] (fun c => { c with x := 0x01#8 })) [0x0100] = some [0x80#8] := by decide

/-- V-INC-2. -/
theorem test_dec :
    cpuOf (runCode [0xC6#8, 0x10#8] [] id) =
      some ⟨0x00#8, 0x00#8, 0x00#8, 0xFD#8, 0x0302#16, 0xA4#8, 5, false⟩ ∧
    ramOf (runCode [0xC6#8, 0x10#8] [] id) [0x0010] = some [0xFF#8] := by decide

/-- V-INC-4. -/
theorem test_inx :
    cpuOf (runCode [0xE8#8] [] (fun c => { c with x := 0xFF#8 })) =
      some ⟨0x00#8, 0x00#8, 0x00#8, 0xFD#8, 0x0301#16, 0x26#8, 2, false⟩ := by decide

/-- R185. -/
theorem test_iny :
    cpuOf (runCode [0xC8#8] [] (fun c => { c with y := 0x7F#8 })) =
      some ⟨0x00#8, 0x00#8, 0x80#8, 0xFD#8, 0x0301#16, 0xA4#8, 2, false⟩ := by decide

/-- R186. -/
theorem test_dex :
    cpuOf (runCode [0xCA#8] [] (fun c => { c with x := 0x01#8 })) =
      some ⟨0x00#8, 0x00#8, 0x00#8, 0xFD#8, 0x0301#16, 0x26#8, 2, false⟩ := by decide

/-- V-INC-5. -/
theorem test_dey :
    cpuOf (runCode [0x88#8] [] id) =
      some ⟨0x00#8, 0x00#8, 0xFF#8, 0xFD#8, 0x0301#16, 0xA4#8, 2, false⟩ := by decide

/-- V-SH-1, V-SH-5. -/
theorem test_asl :
    cpuOf (runCode [0x0A#8] [] (fun c => { c with a := 0x81#8 })) =
      some ⟨0x02#8, 0x00#8, 0x00#8, 0xFD#8, 0x0301#16, 0x25#8, 2, false⟩ ∧
    cpuOf (runCode [0x06#8, 0x10#8] [(0x0010, 0x40#8)] id) =
      some ⟨0x00#8, 0x00#8, 0x00#8, 0xFD#8, 0x0302#16, 0xA4#8, 5, false⟩ ∧
    ramOf (runCode [0x06#8, 0x10#8] [(0x0010, 0x40#8)] id) [0x0010] = some [0x80#8] := by decide

/-- V-SH-2. -/
theorem test_lsr :
    cpuOf (runCode [0x4A#8] [] (fun c => { c with a := 0x01#8 })) =
      some ⟨0x00#8, 0x00#8, 0x00#8, 0xFD#8, 0x0301#16, 0x27#8, 2, false⟩ := by decide

/-- V-SH-3. -/
theorem test_rol :
    cpuOf (runCode [0x2A#8] [] (fun c => { c with a := 0x80#8 })) =
      some ⟨0x00#8, 0x00#8, 0x00#8, 0xFD#8, 0x0301#16, 0x27#8, 2, false⟩ := by decide

/-- V-SH-4, V-SH-6. -/
theorem test_ror :
    cpuOf (runCode [0x6A#8] [] (fun c => { c with a := 0x01#8, p := 0x25#8 })) =
      some ⟨0x80#8, 0x00#8, 0x00#8, 0xFD#8, 0x0301#16, 0xA5#8, 2, false⟩ ∧
    cpuOf (runCode [0x7E#8, 0x00#8, 0x07#8] [(0x0701, 0x02#8)] (fun c => { c with x := 0x01#8, p := 0x25#8 })) =
      some ⟨0x00#8, 0x01#8, 0x00#8, 0xFD#8, 0x0303#16, 0xA4#8, 7, false⟩ ∧
    ramOf (runCode [0x7E#8, 0x00#8, 0x07#8] [(0x0701, 0x02#8)] (fun c => { c with x := 0x01#8, p := 0x25#8 })) [0x0701] = some [0x81#8] := by decide

/-- V-BR-1. -/
theorem test_bpl :
    cpuOf (runCode [0x10#8, 0x80#8] [] id) =
      some ⟨0x00#8, 0x00#8, 0x00#8, 0xFD#8, 0x0282#16, 0x24#8, 4, false⟩ := by decide

/-- V-BR-2. -/
theorem test_bmi :
    cpuOf (runCode [0x30#8, 0xFE#8] [] (fun c => { c with p := 0xA4#8 })) =
      some ⟨0x00#8, 0x00#8, 0x00#8, 0xFD#8, 0x0300#16, 0xA4#8, 3, false⟩ := by decide

/-- V-BR-3. -/
theorem test_bvs :
    cpuOf (runCode [0x70#8, 0x7F#8] [] (fun c => { c with p := 0x64#8 })) =
      some ⟨0x00#8, 0x00#8, 0x00#8, 0xFD#8, 0x0381#16, 0x64#8, 3, false⟩ := by decide

/-- R217. -/
theorem test_bvc :
    cpuOf (runCode [0x50#8, 0x7F#8] [] (fun c => { c with p := 0x64#8 })) =
      some ⟨0x00#8, 0x00#8, 0x00#8, 0xFD#8, 0x0302#16, 0x64#8, 2, false⟩ := by decide

/-- V-BR-5. -/
theorem test_bcs :
    cpuOf (runCode [0xB0#8, 0x02#8] [] id) =
      some ⟨0x00#8, 0x00#8, 0x00#8, 0xFD#8, 0x0302#16, 0x24#8, 2, false⟩ := by decide

/-- R213. -/
theorem test_beq :
    cpuOf (runCode [0xF0#8, 0x02#8] [] (fun c => { c with p := 0x26#8 })) =
      some ⟨0x00#8, 0x00#8, 0x00#8, 0xFD#8, 0x0304#16, 0x26#8, 3, false⟩ := by decide

/-- V-JMP-1, V-JMP-2. -/
theorem test_jmp :
    cpuOf (runCode [0x4C#8, 0x34#8, 0x12#8] [] id) =
      some ⟨0x00#8, 0x00#8, 0x00#8, 0xFD#8, 0x1234#16, 0x24#8, 3, false⟩ ∧
    cpuOf (runCode [0x6C#8, 0xFF#8, 0x02#8] [(0x02FF, 0x00#8), (0x0200, 0x90#8)] id) =
      some ⟨0x00#8, 0x00#8, 0x00#8, 0xFD#8, 0x9000#16, 0x24#8, 5, false⟩ := by decide

/-- V-JSR-1. -/
theorem test_jsr :
    cpuOf (runCode [0x20#8, 0x00#8, 0x80#8] [] id) =
      some ⟨0x00#8, 0x00#8, 0x00#8, 0xFB#8, 0x8000#16, 0x24#8, 6, false⟩ ∧
    ramOf (runCode [0x20#8, 0x00#8, 0x80#8] [] id) [0x01FD, 0x01FC] = some [0x03#8, 0x02#8] := by decide

/-- V-RTS-1. -/
theorem test_rts :
    cpuOf (runCode [0x60#8] [(0x01FE, 0x02#8), (0x01FF, 0x03#8)] id) =
      some ⟨0x00#8, 0x00#8, 0x00#8, 0xFF#8, 0x0303#16, 0x24#8, 6, false⟩ := by decide

/-- V-RTI-1. -/
theorem test_rti :
    cpuOf (runCode [0x40#8] [(0x01FE, 0xC3#8), (0x01FF, 0x00#8), (0x0100, 0x90#8)] id) =
      some ⟨0x00#8, 0x00#8, 0x00#8, 0x00#8, 0x9000#16, 0xE3#8, 6, false⟩ := by decide

/-- V-STK-1. -/
theorem test_pha :
    cpuOf (runCode [0x48#8] [] (fun c => { c with a := 0x11#8, sp := 0x00#8 })) =
      some ⟨0x11#8, 0x00#8, 0x00#8, 0xFF#8, 0x0301#16, 0x24#8, 3, false⟩ ∧
    ramOf (runCode [0x48#8] [] (fun c => { c with a := 0x11#8, sp := 0x00#8 })) [0x0100] = some [0x11#8] := by decide

/-- V-STK-2. -/
theorem test_pla :
    cpuOf (runCode [0x68#8] [(0x0100, 0x80#8)] (fun c => { c with sp := 0xFF#8 })) =
      some ⟨0x80#8, 0x00#8, 0x00#8, 0x00#8, 0x0301#16, 0xA4#8, 4, false⟩ := by decide

/-- V-STK-3. -/
theorem test_php :
    cpuOf (runCode [0x08#8] [] id) =
      some ⟨0x00#8, 0x00#8, 0x00#8, 0xFC#8, 0x0301#16, 0x24#8, 3, false⟩ ∧
    ramOf (runCode [0x08#8] [] id) [0x01FD] = some [0x34#8] := by decide

/-- V-STK-4, V-STK-5. -/
theorem test_plp :
    cpuOf (runCode [0x28#8] [(0x01FE, 0xFF#8)] id) =
      some ⟨0x00#8, 0x00#8, 0x00#8, 0xFE#8, 0x0301#16, 0xFF#8, 4, false⟩ ∧
    cpuOf (runCode [0x28#8] [] id) =
      some ⟨0x00#8, 0x00#8, 0x00#8, 0xFE#8, 0x0301#16, 0x20#8, 4, false⟩ := by decide

/-- R234. -/
theorem test_clc :
    cpuOf (runCode [0x18#8] [] (fun c => { c with p := 0x25#8 })) =
      some ⟨0x00#8, 0x00#8, 0x00#8, 0xFD#8, 0x0301#16, 0x24#8, 2, false⟩ := by decide

/-- R235. -/
theorem test_cld :
    cpuOf (runCode [0xD8#8] [] (fun c => { c with p := 0x2C#8 })) =
      some ⟨0x00#8, 0x00#8, 0x00#8, 0xFD#8, 0x0301#16, 0x24#8, 2, false⟩ := by decide

/-- V-FL-3. -/
theorem test_cli :
    cpuOf (runCode [0x58#8] [] id) =
      some ⟨0x00#8, 0x00#8, 0x00#8, 0xFD#8, 0x0301#16, 0x20#8, 2, false⟩ := by decide

/-- V-FL-1. -/
theorem test_clv :
    cpuOf (runCode [0xB8#8] [] (fun c => { c with p := 0x64#8 })) =
      some ⟨0x00#8, 0x00#8, 0x00#8, 0xFD#8, 0x0301#16, 0x24#8, 2, false⟩ := by decide

/-- V-FL-4. -/
theorem test_sec :
    cpuOf (runCode [0x38#8] [] id) =
      some ⟨0x00#8, 0x00#8, 0x00#8, 0xFD#8, 0x0301#16, 0x25#8, 2, false⟩ := by decide

/-- V-FL-2. -/
theorem test_sed :
    cpuOf (runCode [0xF8#8] [] id) =
      some ⟨0x00#8, 0x00#8, 0x00#8, 0xFD#8, 0x0301#16, 0x2C#8, 2, false⟩ := by decide

/-- R240. -/
theorem test_sei :
    cpuOf (runCode [0x78#8] [] (fun c => { c with p := 0x20#8 })) =
      some ⟨0x00#8, 0x00#8, 0x00#8, 0xFD#8, 0x0301#16, 0x24#8, 2, false⟩ := by decide

/-- V-NOP-1. -/
theorem test_nop :
    cpuOf (runCode [0xEA#8] [] id) =
      some ⟨0x00#8, 0x00#8, 0x00#8, 0xFD#8, 0x0301#16, 0x24#8, 2, false⟩ := by decide

/-! ## Branches, BRK, interrupts and faults -/

/-- W1: the source's branch example, at 0x0044 and at 0x00FB. -/
theorem test_bne :
    cpuOf (executeInstruction (machineAt 0x0044#16 [0xD0#8, 0x04#8] [] id)) =
      some ⟨0#8, 0#8, 0#8, 0xFD#8, 0x004A#16, 0x24#8, 3, false⟩ ∧
    cpuOf (executeInstruction (machineAt 0x00FB#16 [0xD0#8, 0x04#8] [] id)) =
      some ⟨0#8, 0#8, 0#8, 0xFD#8, 0x0101#16, 0x24#8, 4, false⟩ ∧
    cpuOf (executeInstruction (machineAt 0x0044#16 [0xD0#8, 0x04#8] [] fun c => { c with p := 0x26#8 })) =
      some ⟨0#8, 0#8, 0#8, 0xFD#8, 0x0046#16, 0x26#8, 2, false⟩ := by decide

/-- V-BR-4: the page of the branch's own opcode does not count. -/
theorem test_bcc :
    cpuOf (executeInstruction (machineAt 0x02FE#16 [0x90#8, 0x00#8] [] id)) =
      some ⟨0#8, 0#8, 0#8, 0xFD#8, 0x0300#16, 0x24#8, 3, false⟩ := by decide

/-- V-LD-6: code at 0x0400. -/
theorem test_lda_indirectIndexed :
    cpuOf (executeInstruction (machineAt 0x0400#16 [0xB1#8, 0xFF#8] [(0x00FF, 0xFF#8), (0, 2#8), (0x0300, 0x5C#8)]
      fun c => { c with y := 1#8 })) = some ⟨0x5C#8, 0#8, 1#8, 0xFD#8, 0x0402#16, 0x24#8, 6, false⟩ := by decide

/-- V-BRK-1. -/
theorem test_brk :
    let r := executeInstruction (placeBytes [0x00#8, 0x90#8] 0xFFFE#16
      (machineAt 0x0300#16 [0x00#8, 0xEA#8] [] fun c => { c with p := 0xA5#8 }))
    cpuOf r = some ⟨0#8, 0#8, 0#8, 0xFA#8, 0x9000#16, 0xB5#8, 7, false⟩ ∧
    ramOf r [0x01FD, 0x01FC, 0x01FB] = some [0x03#8, 0x02#8, 0xB5#8] := by decide

/-- A machine at PC 0x8123 with IRQ vector 0x9000 and NMI vector 0x9100. -/
def atVectors (f : Cpu → Cpu) : State :=
  placeBytes [0x00#8, 0x91#8, 0x00#8, 0x80#8, 0x00#8, 0x90#8] 0xFFFA#16 (machineAt 0x8123#16 [0xEA#8] [] f)

/-- V-INT-1, V-INT-2: the IRQ is taken, or masked and the instruction runs. -/
theorem test_irq :
    cpuOf (boundary true (atVectors fun c => { c with p := 0x20#8 })) =
      some ⟨0#8, 0#8, 0#8, 0xFA#8, 0x9000#16, 0x24#8, 7, false⟩ ∧
    ramOf (boundary true (atVectors fun c => { c with p := 0x20#8 })) [0x01FD, 0x01FC, 0x01FB] =
      some [0x81#8, 0x23#8, 0x20#8] ∧
    cpuOf (boundary true (atVectors id)) = some ⟨0#8, 0#8, 0#8, 0xFD#8, 0x8124#16, 0x24#8, 2, false⟩ := by decide

/-- V-INT-3, V-INT-4: the NMI first, whatever I and the IRQ line. -/
theorem test_nmi :
    cpuOf (boundary true (atVectors fun c => { c with nmiPending := true, p := 0x20#8 })) =
      some ⟨0#8, 0#8, 0#8, 0xFA#8, 0x9100#16, 0x24#8, 8, false⟩ ∧
    ramOf (boundary false (atVectors fun c => { c with nmiPending := true })) [0x01FB] = some [0x24#8] := by decide

/-- V-F-1, V-F-2: an illegal opcode stops the machine; no dot of that tick runs and PC stays. -/
theorem test_illegal :
    (step (machineAt 0x0300#16 [0x02#8] [] id)) =
      .fault (.illegalOpcode 0x02#8 { machineAt 0x0300#16 [0x02#8] [] id with
        fault := some { cause := .illegalOpcode 0x02#8, pc := some 0x0300#16 } }) ∧
    causeOf (step (machineAt 0x0300#16 [0xFF#8] [] id)) = some (.illegalOpcode 0xFF#8) := ⟨rfl, by decide⟩

/-- V-F-3, V-F-4, V-F-5, V-F-6. -/
theorem test_faults :
    causeOf (runCode [0xAD#8, 0x18#8, 0x40#8] [] id) = some (.unmappedAccess 0x4018#16 .read) ∧
    causeOf (runCode [0xAD#8, 0x00#8, 0x50#8] [] id) = some (.deviceRange 0x5000#16 .read) ∧
    causeOf (runCode [0x8D#8, 0x00#8, 0x60#8] [] id) = some (.deviceRange 0x6000#16 .write) ∧
    cpuOf (runCode [0x4C#8, 0x18#8, 0x40#8] [] id) = some ⟨0#8, 0#8, 0#8, 0xFD#8, 0x4018#16, 0x24#8, 3, false⟩ ∧
    causeOf (executeInstruction (machineAt 0x4018#16 [] [] id)) = some (.unmappedAccess 0x4018#16 .read) := by decide

/-- The codes of R395's table. -/
theorem test_faultCodes :
    [FaultCause.wiring 0x4010 0x401F, .unmappedAccess 0x4018#16 .read, .illegalOpcode 0x02#8, .load .fileMissing, .save,
      .deviceRange 0x5000#16 .write].map (fun c => recordCode { cause := c, pc := none }) = [1, 1, 2, 3, 4, 5] := by decide

/-- V-LD-9: the I/O device's answer, and R68: a write is handed to it. -/
theorem test_ioDevice :
    cpuOf (executeInstruction { machineAt 0x0300#16 [0xAD#8, 0x16#8, 0x40#8] [] id with ioAnswers := [0x41#8] }) =
      some ⟨0x41#8, 0#8, 0#8, 0xFD#8, 0x0303#16, 0x24#8, 4, false⟩ ∧
    (stateOf (runCode [0x8D#8, 0x14#8, 0x40#8] [] fun c => { c with a := 2#8 })).map State.ioLog =
      some [.write 0x4014#16 2#8] := by decide

/-! ## Bus, PPU registers and memories -/

/-- A change of the reset state's PPU. -/
def withPpu (f : Ppu → Ppu) : State := { State.reset with ppu := f State.reset.ppu }

/-- The PPU after bus writes of these (address, byte) pairs. -/
def writes (l : List (Addr × Byte)) (s : State) : State := l.foldl (fun s c => busStore c.1 c.2 s) s

/-- W4: RAM and its mirrors; NROM ignores a write to ROM. -/
theorem test_busRoundTrip :
    (busValue 0x1800#16 (busStore 0x0000#16 0x5A#8 State.reset)).1 = 0x5A#8 ∧
    (busValue 0x07FF#16 (busStore 0x1FFF#16 0xC3#8 State.reset)).1 = 0xC3#8 ∧
    busStore 0x8000#16 0x12#8 State.reset = State.reset ∧
    (busValue 0x2004#16 (writes [(0x2003#16, 0x10#8), (0x2004#16, 0x99#8)] State.reset)).1 = 0x00#8 ∧
    (writes [(0x2003#16, 0x10#8), (0x2004#16, 0x99#8)] State.reset).ppu.oam.read 0x10 = 0x99#8 := by decide

/-- W4: PRG RAM where the header gives it. -/
theorem test_prgRam :
    let s := { State.reset with
      cart := { Cart.blank with header := { Cart.blank.header with hasNvram := true } } }
    (busValue 0x6123#16 (busStore 0x6123#16 0x77#8 s)).1 = 0x77#8 := by decide

/-- V-ST-3, V-PR-1, V-PR-17: a PPUSTATUS write changes nothing; a read clears vblank and w. -/
theorem test_status :
    let s := withPpu fun p => { p with vblank := true, spriteOverflow := true, w := true }
    busStore 0x2002#16 0x80#8 s = s ∧
    (busValue 0x2002#16 s).1 &&& 0xE0#8 = 0xA0#8 ∧
    (busValue 0x2002#16 s).2.ppu = { s.ppu with vblank := false, w := false } ∧
    (busValue 0x2000#16 s).2 = { s with draws := 1 } :=
  ⟨by decide,
    (by decide : ∀ u, statusByte { Ppu.reset with vblank := true, spriteOverflow := true, w := true } u &&& 0xE0#8 = 0xA0#8) _,
    rfl, rfl⟩

/-- V-PR-2 to V-PR-5. -/
theorem test_scroll :
    (busStore 0x2000#16 0x03#8 State.reset).ppu.t = 0x0C00#16 ∧
    (writes [(0x2005#16, 0x7D#8)] State.reset).ppu.t = 0x000F#16 ∧
    (writes [(0x2005#16, 0x7D#8)] State.reset).ppu.fineX = 5#3 ∧
    (writes [(0x2005#16, 0x7D#8), (0x2005#16, 0x5E#8)] State.reset).ppu.t = 0x616F#16 ∧
    (writes [(0x2006#16, 0x21#8), (0x2006#16, 0x08#8)] State.reset).ppu.v = 0x2108#16 ∧
    (writes [(0x3FFE#16, 0xFF#8)] (withPpu fun p => { p with t := 0x7FFF#16 })).ppu.t = 0x3FFF#16 := by decide

/-- V-PR-6 to V-PR-11. -/
theorem test_data :
    (busStore 0x2007#16 1#8 (withPpu fun p => { p with ctrl := 4#8, v := 0x2000#16 })).ppu.v = 0x2020#16 ∧
    (busStore 0x2007#16 1#8 (withPpu fun p => { p with v := 0x7FFF#16 })).ppu.v = 0#16 ∧
    (busStore 0x2007#16 0x2C#8 (withPpu fun p => { p with v := 0x3F10#16 })).ppu.palette.read 0 = 0x2C#6 ∧
    (busStore 0x2007#16 0x15#8 (withPpu fun p => { p with v := 0x3F14#16 })).ppu.palette.read 4 = 0x15#6 ∧
    (busStore 0x2007#16 0xFF#8 (withPpu fun p => { p with v := 0x3F01#16 })).ppu.palette.read 1 = 0x3F#6 ∧
    (busStore 0x2007#16 0x11#8 (withPpu fun p => { p with v := 0x3F2D#16 })).ppu.palette.read 0x0D = 0x11#6 := by decide

/-- W4: the buffered read, twice. -/
theorem test_bufferedRead :
    let s := withPpu fun p => { p with v := 0x2000#16, vram := [(0, 0x34#8)], readBuffer := 0x99#8 }
    (busValue 0x2007#16 s).1 = 0x99#8 ∧ (busValue 0x2007#16 (busValue 0x2007#16 s).2).1 = 0x34#8 := by decide

/-- V-PR-12 to V-PR-16. -/
theorem test_mirroring :
    ntIndex .horizontal 0x2400#16 = 0 ∧ ntIndex .horizontal 0x2C05#16 = 0x405 ∧ ntIndex .vertical 0x2800#16 = 0 ∧
    ntIndex .vertical 0x2C05#16 = 0x405 ∧ ntIndex .vertical 0x3EFF#16 = ntIndex .vertical 0x2EFF#16 ∧
    (busStore 0x2004#16 0x12#8 (withPpu fun p => { p with oamAddr := 0xFF#8 })).ppu.oamAddr = 0#8 := by decide

/-- V-INT-6, V-INT-7: the NMI edge of a PPUCTRL write. -/
theorem test_nmiEdge :
    (busStore 0x2000#16 0x80#8 (withPpu fun p => { p with vblank := true })).cpu.nmiPending = true ∧
    (busStore 0x2000#16 0x80#8 (withPpu fun p => { p with vblank := true, ctrl := 0x80#8 })).cpu.nmiPending = false := by
  decide

/-! ## Rendering -/

/-- V-RN-1 to V-RN-9. -/
theorem test_scrollIncrements :
    incrementCoarseX 0x001F#16 = 0x0400#16 ∧ incrementCoarseX 0x041F#16 = 0#16 ∧ incrementCoarseX 5#16 = 6#16 ∧
    incrementY 0#16 = 0x1000#16 ∧ incrementY 0x7000#16 = 0x0020#16 ∧ incrementY 0x73A0#16 = 0x0800#16 ∧
    incrementY 0x73E0#16 = 0#16 ∧ copyHorizontal { Ppu.reset with v := 0x7FFF#16 } = 0x7BE0#16 ∧
    copyVertical { Ppu.reset with v := 0x041F#16, t := 0x7BE0#16 } = 0x7FFF#16 := by decide

/-- V-RN-10 to V-RN-15. -/
theorem test_patternAddresses :
    attributeAddr 0#16 = 0x23C0#16 ∧ attributeShift 0#16 = 0 ∧ attributeAddr 0x0044#16 = 0x23C1#16 ∧
    attributeShift 0x0044#16 = 4 ∧ attributeAddr 0x0082#16 = 0x23C8#16 ∧ attributeShift 0x0082#16 = 2 ∧
    bgPatternAddr { Ppu.reset with ctrl := 0x10#8, ntLatch := 0x24#8, v := 0x3000#16 } = 0x1243#16 ∧
    spritePatternAddr 0#8 0#8 0x25#8 16 9 = 0x1251#16 ∧ spritePatternAddr 0#8 0x80#8 0x01#8 8 2 = 0x0015#16 := by decide

/-- Nine OAM entries with Y = 0x1F. -/
def nineSprites : Memory 8 := (List.range 9).map fun i => (4 * i, 0x1F#8)

/-- V-RN-16 to V-RN-18: sprite rows by line; nine sprites on line 32; a sprite at the right edge. -/
theorem test_sprites :
    spriteRow 8 0xEF 0xEF = none ∧ spriteRow 8 0xF0 0xEF = some 0 ∧ spriteRow 8 0xF7 0xEF = some 7 ∧
    spriteRow 8 0xF8 0xEF = none ∧ spriteRow 8 0 0 = none ∧
    (evaluateSprites (withPpu fun p => { p with scanline := 32, oam := nineSprites })).ppu.spriteOverflow = true ∧
    (evaluateSprites (withPpu fun p => { p with scanline := 40, oam := nineSprites })).ppu.spriteOverflow = false ∧
    (fillPixel 0#8 0xFF#8 0#8 0xFC false ⟨[], [], [], []⟩ 3).pix = [(0xFF, 1#2)] ∧
    (fillPixel 0#8 0xFF#8 0#8 0xFC false ⟨[], [], [], []⟩ 4).pix = [] := by decide

/-- W6: sprite 0 over an opaque background pixel at line 32, dot 64 hits at that dot; the pixel shows palette entry 0x11. -/
theorem test_spriteZeroHit :
    let s := withPpu fun p => { p with
      mask := 0x1E#8, scanline := 32, dot := 64, bgPatLo := 0x8000#16, palette := [(0x11, 0x2A#6)]
      spr := ⟨[(64, 1#2)], [], [], [(64, 1#1)]⟩ }
    (tickDot s).ppu.spriteZeroHit = true ∧ (tickDot s).ppu.frame.read (256 * 32 + 64) = 0x2A#6 ∧
    (tickDot { s with ppu := { s.ppu with dot := 65 } }).ppu.spriteZeroHit = false := by decide

/-- W6: the evaluation at line 32 puts OAM entry 0's row into column 64, as sprite zero. -/
theorem test_evaluateSprites :
    let s := withPpu fun p => { p with mask := 0x1E#8, scanline := 32, oam := [(0, 0x1F#8), (1, 1#8), (3, 0x40#8)] }
    let s := { s with chrMem := Memory.ofList 0x10 (List.replicate 8 0x80#8) }
    (evaluateSprites s).ppu.spr = ⟨[(64, 1#2)], [], [], [(64, 1#1)]⟩ := by decide

/-- V-RN-19 to V-RN-21: the sprite behind, both transparent, rendering off. -/
theorem test_pixels :
    let p := { Ppu.reset with
      mask := 0x1E#8, dot := 9, bgPatLo := 0x8000#16, palette := [(0, 1#6), (1, 2#6), (5, 3#6), (0x11, 4#6)]
      spr := ⟨[(9, 1#2)], [], [(9, 1#1)], []⟩ }
    compositeAddr p 9 = 0x3F01#16 ∧ compositeAddr { p with bgPatLo := 0#16, spr := ⟨[], [], [], []⟩ } 9 = 0x3F00#16 ∧
    (outputPixel { p with mask := 0#8, v := 0x3F05#16 }).frame.read 9 = 3#6 := by decide

/-- R318, R319, R321, R322: the events of the raster. -/
theorem test_raster :
    (tickDot (withPpu fun p => { p with scanline := 241, dot := 1, ctrl := 0x80#8 })).ppu.vblank = true ∧
    (tickDot (withPpu fun p => { p with scanline := 241, dot := 1, ctrl := 0x80#8 })).cpu.nmiPending = true ∧
    (tickDot (withPpu fun p => { p with scanline := 261, dot := 1, vblank := true })).ppu.vblank = false ∧
    (tickDot (withPpu fun p => { p with scanline := 261, dot := 339, oddFrame := true })).ppu.scanline = 0 ∧
    (tickDot (withPpu fun p => { p with scanline := 261, dot := 339 })).ppu.dot = 340 := by decide

/-! ## Cartridge and host -/

/-- V-MP-1 to V-MP-6, V-MP-11, V-MP-12. -/
theorem test_prgBanks :
    prgOffset .nrom 1 0xC123#16 = 0x123 ∧
    prgOffset (.mmc1 { mmc1Initial with control := 0#5, prgBank := 3#5 }) 8 0xC000#16 = 3 * 16384 ∧
    prgOffset (.mmc1 { mmc1Initial with control := 8#5, prgBank := 5#5 }) 8 0xC000#16 = 5 * 16384 ∧
    prgOffset (.mmc1 { mmc1Initial with prgBank := 5#5 }) 8 0xC000#16 = 7 * 16384 ∧
    prgOffset (.mmc1 { mmc1Initial with prgBank := 0x0B#5 }) 8 0x8000#16 = 3 * 16384 ∧
    prgOffset (.mmc1 { mmc1Initial with prgBank := 0x13#5 }) 8 0x8000#16 = 3 * 16384 ∧
    prgOffset (mapperWrite (.uxrom 0#8) 0xFFFF#16 0x1A#8) 8 0x8000#16 = 2 * 16384 := by decide

/-- V-MP-7 to V-MP-10, V-MP-13, V-MP-14. -/
theorem test_chrBanks :
    chrOffset (.mmc1 { mmc1Initial with chrBank0 := 3#5 }) 32768 0x1000#16 = 3 * 4096 ∧
    chrOffset (.mmc1 { mmc1Initial with control := 0x1C#5, chrBank0 := 5#5, chrBank1 := 2#5 }) 32768 0x1000#16 = 2 * 4096 ∧
    chrOffset (.mmc1 { mmc1Initial with control := 0x1C#5, chrBank0 := 5#5 }) 8192 0#16 = 4096 ∧
    [0x0E#5, 0x0F#5, 0#5, 1#5].map (fun c => mirroringOf { State.reset with mapper := .mmc1 { mmc1Initial with control := c } }) =
      [.vertical, .horizontal, .oneScreenLower, .oneScreenUpper] ∧
    chrWrite State.reset 5#16 0x77#8 = State.reset := by decide

/-- W7: the rows of the MMC1 example; the last with a byte whose bit 7 is clear, as the row says (log 16). -/
theorem test_mmc1 :
    let w := fun (m : Mmc1) (l : List (Addr × Byte)) => l.foldl (fun m c => mmc1Write m c.1 c.2) m
    w mmc1Initial [(0x8000#16, 0#8), (0x8000#16, 1#8), (0x8000#16, 1#8), (0x8000#16, 1#8), (0x8000#16, 0#8)] =
      { mmc1Initial with control := 0x0E#5 } ∧
    w mmc1Initial [(0xE000#16, 1#8), (0xE000#16, 0#8), (0xE000#16, 1#8), (0xE000#16, 0#8), (0xE000#16, 0#8)] =
      { mmc1Initial with prgBank := 5#5 } ∧
    w mmc1Initial [(0x8000#16, 1#8), (0x8000#16, 1#8), (0x8000#16, 1#8), (0xB000#16, 1#8), (0xB000#16, 0#8)] =
      { mmc1Initial with chrBank0 := 0x0F#5 } ∧
    w { mmc1Initial with control := 2#5 } [(0xA000#16, 1#8), (0xA000#16, 1#8), (0xFFFF#16, 0xFF#8)] =
      { mmc1Initial with control := 0x0E#5 } ∧
    w mmc1Initial [(0xE000#16, 0x7E#8)] = { mmc1Initial with shiftCount := 1 } := by decide

/-- W8: what a header stands for and why a file does not load. -/
theorem test_headers :
    headerMapper [0x4E#8, 0x45#8, 0x53#8, 0x1A#8, 2#8, 1#8, 0x21#8, 0x40#8, 0#8] = 66 ∧
    headerMapper [0x4E#8, 0x45#8, 0x53#8, 0x1A#8, 2#8, 1#8, 0#8, 8#8, 1#8] = 256 ∧
    headerMapper [0x4E#8, 0x45#8, 0x53#8, 0x1A#8, 2#8, 1#8, 0#8, 0#8, 1#8] = 0 ∧
    loadCause none = some .fileMissing ∧ loadCause (some [0x4E#8]) = some .truncatedHeader ∧
    loadCause (some (Laws.blankHeader.set 3 0x1B#8)) = some .badMagic ∧
    loadCause (some Laws.blankHeader) = some .fileTooShort ∧
    loadCause (some ((Laws.blankHeader.set 4 0#8).set 5 0#8)) = some .noPrgBanks ∧
    prgFileOffset (parseHeader (Laws.blankHeader.set 6 4#8)) = 528 := by decide

/-- W9: reset() with 0x8000 in the reset vector; V-MP-15: bank registers survive it. -/
theorem test_hostReset :
    let s := placeBytes [0x00#8, 0x80#8] 0xFFFC#16 { State.reset with
      mapper := .mmc1 { mmc1Initial with prgBank := 5#5 }, ppu := { Ppu.reset with scanline := 9, oamAddr := 3#8 } }
    cpuOf (hostReset s) = some ⟨0#8, 0#8, 0#8, 0xFD#8, 0x8000#16, 0x24#8, 8, false⟩ ∧
    (stateOf (hostReset s)).map State.ppu = some Ppu.reset ∧
    (stateOf (hostReset s)).map State.mapper = some (.mmc1 { mmc1Initial with prgBank := 5#5 }) := by decide

/-- R63: a range that overlaps a registered one, or leaves the span, is not wired. -/
theorem test_wiring :
    connect 0x10000 cpuBusMap Device.io 0x4010 0x401F = .error (.wiring 0x4010 0x401F) ∧
    connect 0x4000 [] PpuDevice.palette 0x3F00 0x4000 = .error (.wiring 0x3F00 0x4000) := by decide

/-- A word placed by `withFetchWord` is what the next step runs: SED sets D, and the tick leaves one cycle. -/
theorem test_withFetchWord :
    cpuOf (step (State.reset.withFetchWord 8 0xF8)) = some ⟨0#8, 0#8, 0#8, 0xFD#8, 0x0001#16, 0x2C#8, 1, false⟩ := by decide

/-! ## Witnesses: for each obligation with hypotheses, a state and operands that meet them, at a boundary of each clause -/

/-- One instruction at 0x0300 of the reset machine, at a boundary. -/
def ready (code : List Byte) : State := machineAt 0x0300#16 code [] id

theorem witness_DecodeOfEncode :
    (Instr.lda (.izy 0xFF#8)).wellFormed = true ∧ (Instr.jmp (.ind 0xFFFF#16)).wellFormed = true ∧
    (Instr.illegal 0xFF#8).wellFormed = true ∧ (Instr.asl .acc).wellFormed = true := by decide

theorem witness_EncodeOfDecode : decode [0x6C#8, 0xFF#8, 0x02#8, 0xEA#8] = .ok (.jmp (.ind 0x02FF#16), [0xEA#8]) := rfl

theorem witness_DecodeLength :
    descriptorOperands (descriptorOf 0x4C#8) ≤ [0x34#8, 0x12#8].length ∧
    [0x34#8].length < descriptorOperands (descriptorOf 0x4C#8) ∧
    descriptorOperands (descriptorOf 0xEA#8) ≤ ([] : List Byte).length := by decide

theorem witness_IllegalOpcodesDecode : 0xFF#8 ∈ illegalOpcodes ∧ 0x02#8 ∈ illegalOpcodes ∧ 0xEA#8 ∉ illegalOpcodes := by
  decide

theorem witness_BaseCycleTable :
    Instr.nop.wellFormed = true ∧ (∀ op, Instr.nop ≠ .illegal op) ∧ (Instr.ror (.abx 0#16)).wellFormed = true ∧
    (∀ op, Instr.ror (.abx 0#16) ≠ .illegal op) :=
  ⟨rfl, fun _ h => (by cases h), rfl, fun _ h => (by cases h)⟩

theorem atBoundary_ready (code : List Byte) (h : code = [0xEA#8] ∨ code = [0x02#8] ∨ code = [0xAD#8, 0x18#8, 0x40#8]) :
    AtBoundary (ready code) ∧ NoInterrupt (ready code) := by
  obtain rfl | rfl | rfl := h <;> exact ⟨⟨rfl, rfl, rfl⟩, rfl, .inl rfl⟩

/-- Both clauses: NOP, which answers a next state, and LDA $4018, which faults. -/
theorem witness_StepRunsDecodedInstruction :
    (∃ s1 t, AtBoundary (ready [0xEA#8]) ∧ NoInterrupt (ready [0xEA#8]) ∧
      readBytes (instrSize .nop) (ready [0xEA#8]).cpu.pc (consumeIrq (ready [0xEA#8])) = .ok [0xEA#8] s1 ∧
      decode [0xEA#8] = .ok (.nop, []) ∧ exec .nop s1 = .next t) ∧
    ∃ s1 f, AtBoundary (ready [0xAD#8, 0x18#8, 0x40#8]) ∧ NoInterrupt (ready [0xAD#8, 0x18#8, 0x40#8]) ∧
      readBytes (instrSize (.lda (.abs 0x4018#16))) (ready [0xAD#8, 0x18#8, 0x40#8]).cpu.pc
        (consumeIrq (ready [0xAD#8, 0x18#8, 0x40#8])) = .ok [0xAD#8, 0x18#8, 0x40#8] s1 ∧
      decode [0xAD#8, 0x18#8, 0x40#8] = .ok (.lda (.abs 0x4018#16), []) ∧ exec (.lda (.abs 0x4018#16)) s1 = .fault f :=
  ⟨⟨_, _, (atBoundary_ready _ (by simp)).1, (atBoundary_ready _ (by simp)).2, rfl, rfl, rfl⟩,
    ⟨_, _, (atBoundary_ready _ (by simp)).1, (atBoundary_ready _ (by simp)).2, rfl, rfl, rfl⟩⟩

theorem witness_CountdownTick :
    State.reset.resetDone = true ∧ State.reset.fault = none ∧ State.reset.cpu.cyclesRemaining = 7 + 1 := by decide

theorem witness_CountdownTick_nmi :
    (setNmiPending true State.reset).cpu.nmiPending = true ∧ (setNmiPending true State.reset).resetDone = true ∧
    (setNmiPending true State.reset).fault = none ∧ (setNmiPending true State.reset).cpu.cyclesRemaining = 7 + 1 := by
  decide

/-- The five clauses: before reset(), after a fault, NMI, IRQ, instruction. -/
theorem witness_StepOrder :
    { State.reset with resetDone := false }.resetDone = false ∧
    ({ State.reset with fault := some (setupFault .save) }.resetDone = true ∧
      { State.reset with fault := some (setupFault .save) }.fault = some (setupFault .save)) ∧
    (AtBoundary (setNmiPending true (ready [0xEA#8])) ∧ (setNmiPending true (ready [0xEA#8])).cpu.nmiPending = true) ∧
    (AtBoundary (setP 0x20#8 { ready [0xEA#8] with irqLine := [true] }) ∧
      (setP 0x20#8 { ready [0xEA#8] with irqLine := [true] }).cpu.nmiPending = false ∧
      getFlag (setP 0x20#8 { ready [0xEA#8] with irqLine := [true] }).cpu.p .interrupt = false ∧
      irqLevel (setP 0x20#8 { ready [0xEA#8] with irqLine := [true] }) = true) ∧
    AtBoundary (ready [0xEA#8]) ∧ NoInterrupt (ready [0xEA#8]) :=
  ⟨rfl, ⟨rfl, rfl⟩, ⟨⟨rfl, rfl, rfl⟩, rfl⟩, ⟨⟨rfl, rfl, rfl⟩, rfl, rfl, rfl⟩, ⟨rfl, rfl, rfl⟩, rfl, .inl rfl⟩

/-- The hypothesis of InterruptEntry, InterruptReturnResumes, BreakCompletes and ResetCall. -/
theorem witness_prgBanks : 0 < State.reset.cart.header.prgBanks := by decide

/-- A machine at a boundary whose code starts in the I/O window: the host answers its reads. -/
def ioCode (pc : Addr) (answers : List Byte) : State := setPc pc { ready [] with ioAnswers := answers }

/-- A machine with no PRG bank. -/
def noBanks : State := { State.reset with cart := { Cart.blank with header := { Cart.blank.header with prgBanks := 0 } } }

/-- A step that faults; a fault at the opcode, the first and the second operand byte, after the reads before it took their
answers. -/
theorem witness_FaultKeepsRegisters :
    ((ready [0x02#8]).fault = none ∧ ∃ f, step (ready [0x02#8]) = .fault f) ∧
    (AtBoundary (ioCode 0x4018#16 []) ∧ NoInterrupt (ioCode 0x4018#16 []) ∧
      (∃ s1, readBytes 0 0x4018#16 (consumeIrq (ioCode 0x4018#16 [])) = .ok [] s1) ∧
      ¬ Mapped (ioCode 0x4018#16 []) 0x4018#16) ∧
    (AtBoundary (ioCode 0x4017#16 [0xA9#8]) ∧ NoInterrupt (ioCode 0x4017#16 [0xA9#8]) ∧
      (∃ s1, readBytes 1 0x4017#16 (consumeIrq (ioCode 0x4017#16 [0xA9#8])) = .ok [0xA9#8] s1 ∧ s1.ioAnswers = []) ∧
      0x4018#16 = (ioCode 0x4017#16 [0xA9#8]).cpu.pc + BitVec.ofNat 16 1 ∧ 1 ≤ descriptorOperands (descriptorOf 0xA9#8)) ∧
    (∃ s1, readBytes 2 0x4016#16 (consumeIrq (ioCode 0x4016#16 [0xAD#8, 0#8])) = .ok [0xAD#8, 0#8] s1) ∧
    2 ≤ descriptorOperands (descriptorOf 0xAD#8) :=
  ⟨⟨rfl, _, rfl⟩, ⟨⟨rfl, rfl, rfl⟩, ⟨rfl, .inl rfl⟩, ⟨_, rfl⟩, by unfold Mapped; decide⟩,
    ⟨⟨rfl, rfl, rfl⟩, ⟨rfl, .inl rfl⟩, ⟨_, rfl, rfl⟩, rfl, by decide⟩, ⟨_, rfl⟩, by decide⟩

/-- Every shape of access at the ends of the ranges that are not taken: a read, a read-modify-write, a write; a pointer whose first
and one whose second byte is not taken; a vector with no PRG bank behind it. -/
theorem witness_FaultKeepsRegisters_accesses :
    (effectiveAddr (.abs 0x4018#16) State.reset = some 0x4018#16 ∧ ¬ Mapped State.reset 0x4018#16 ∧
      readOperand (.lda (.abs 0x4018#16)) = some (.abs 0x4018#16)) ∧
    (¬ Mapped noBanks 0x8000#16 ∧ readOperand (.cmp (.abs 0x8000#16)) = some (.abs 0x8000#16)) ∧
    (¬ Mapped State.reset 0x401F#16 ∧ storeOperand (.inc (.abs 0x401F#16)) = some (.abs 0x401F#16) ∧
      readsFirst (.inc (.abs 0x401F#16)) = true) ∧
    (¬ Mapped State.reset 0x7FFF#16 ∧ storeOperand (.sta (.abs 0x7FFF#16)) = some (.abs 0x7FFF#16) ∧
      readsFirst (.sta (.abs 0x7FFF#16)) = false ∧ (0x7FFF#16).toNat < 0x8000) ∧
    ((0x4018#16).toNat = (0x4017#16).toNat / 256 * 256 + ((0x4017#16).toNat + 1) % 256 ∧ Mapped State.reset 0x4017#16 ∧
      ∃ l s1, busValue 0x4017#16 State.reset = (l, s1)) ∧
    (0x4000#16).toNat = (0x40FF#16).toNat / 256 * 256 + ((0x40FF#16).toNat + 1) % 256 ∧
    ¬ Mapped State.reset 0x40FF#16 ∧ noBanks.cart.header.prgBanks = 0 := by
  refine ⟨?_, ?_, ?_, ?_, ⟨by decide, by unfold Mapped; decide, _, _, rfl⟩, ?_⟩ <;> unfold Mapped <;> decide

theorem witness_IllegalStops :
    AtBoundary (ready [0x02#8]) ∧ NoInterrupt (ready [0x02#8]) ∧
    (∃ s1, cpuRead (ready [0x02#8]).cpu.pc (consumeIrq (ready [0x02#8])) = .ok 0x02#8 s1) ∧ 0x02#8 ∈ illegalOpcodes :=
  ⟨⟨rfl, rfl, rfl⟩, ⟨rfl, .inl rfl⟩, ⟨_, rfl⟩, by decide⟩

/-- A machine with PRG RAM. -/
def nvram : State := { State.reset with cart := { Cart.blank with header := { Cart.blank.header with hasNvram := true } } }

/-- Each clause at the ends of its ranges: 4018, 401F; 4020, 5FFF, 6000, 7FFF without PRG RAM; 4017, 8000, and 6000, 7FFF with
PRG RAM; the RAM's 0800 and 1FFF with their mirrors; the I/O window with and without an answer of the host. -/
theorem witness_UnownedAccessFaults :
    (∀ a ∈ [0x4018#16, 0x401F#16], 0x4018 ≤ a.toNat ∧ a.toNat ≤ 0x401F) ∧
    (∀ a ∈ [0x4020#16, 0x5FFF#16], 0x4020 ≤ a.toNat ∧ a.toNat ≤ 0x5FFF) ∧
    (∀ a ∈ [0x6000#16, 0x7FFF#16], 0x6000 ≤ a.toNat ∧ a.toNat ≤ 0x7FFF ∧ State.reset.cart.header.hasNvram = false) ∧
    (∀ a ∈ [0x0000#16, 0x4017#16], a.toNat < 0x4018) ∧
    (∀ a ∈ [0x6000#16, 0x7FFF#16], 0x6000 ≤ a.toNat ∧ a.toNat ≤ 0x7FFF ∧ nvram.cart.header.hasNvram = true) ∧
    (∀ a ∈ [0x8000#16, 0xFFFF#16], 0x8000 ≤ a.toNat) ∧ 0 < nvram.cart.header.prgBanks ∧
    (∀ c ∈ [(0x0800#16, 0x0000#16), (0x1FFF#16, 0x07FF#16)],
      c.1.toNat < 0x2000 ∧ c.2.toNat < 0x2000 ∧ c.2.toNat % 2048 = c.1.toNat % 2048 ∧ 1 ≠ c.1.toNat % 2048) ∧
    (∀ a ∈ [0x4000#16, 0x4017#16], 0x4000 ≤ a.toNat ∧ a.toNat ≤ 0x4017) ∧ State.reset.ioAnswers = [] ∧
    { State.reset with ioAnswers := [0x41#8] }.ioAnswers = 0x41#8 :: [] := by
  simp [nvram, State.reset, Cart.blank]

/-- An absolute operand at the top of the I/O window, and one at the top of the address space. -/
theorem operandMapped_abs (o : Operand) (h : o = .abs 0x4017#16 ∨ o = .abs 0xFFFF#16 ∨ o = .imm 0xFF#8) :
    OperandMapped o State.reset := by
  obtain rfl | rfl | rfl := h <;> intro a e <;> cases e
  · exact .inl (by decide)
  · exact .inr (.inr (by decide))

theorem witness_LoadsComplete :
    OperandMapped (.abs 0xFFFF#16) State.reset ∧ (Instr.lda (.abs 0xFFFF#16)).wellFormed = true ∧
    (Instr.ldx (.abs 0xFFFF#16)).wellFormed = true ∧ (Instr.ldy (.abs 0xFFFF#16)).wellFormed = true :=
  ⟨operandMapped_abs _ (by simp), rfl, rfl, rfl⟩

theorem witness_StoresComplete :
    effectiveAddr (.abs 0x4017#16) State.reset = some 0x4017#16 ∧ Mapped State.reset 0x4017#16 ∧
    (Instr.sta (.abs 0x4017#16)).wellFormed = true ∧ (Instr.stx (.abs 0x4017#16)).wellFormed = true ∧
    (Instr.sty (.abs 0x4017#16)).wellFormed = true := ⟨rfl, .inl (by decide), rfl, rfl, rfl⟩

/-- An indexed store, whose address wraps into page 0. -/
theorem witness_StoresComplete_indexed :
    effectiveAddr (.abx 0xFFFF#16) (setX 1#8 State.reset) = some 0x0000#16 ∧ Mapped (setX 1#8 State.reset) 0x0000#16 ∧
    (Instr.sta (.abx 0xFFFF#16)).wellFormed = true := ⟨rfl, .inl (by decide), rfl⟩

theorem witness_AddSubtractComplete :
    OperandMapped (.imm 0xFF#8) State.reset ∧ (Instr.adc (.imm 0xFF#8)).wellFormed = true :=
  ⟨operandMapped_abs _ (by simp), rfl⟩

theorem witness_LogicComplete :
    OperandMapped (.abs 0x4017#16) State.reset ∧ (Instr.and (.abs 0x4017#16)).wellFormed = true ∧
    (Instr.bit (.abs 0x4017#16)).wellFormed = true := ⟨operandMapped_abs _ (by simp), rfl, rfl⟩

theorem witness_ComparesComplete :
    OperandMapped (.imm 0xFF#8) State.reset ∧ (Instr.cmp (.imm 0xFF#8)).wellFormed = true ∧
    (Instr.cpx (.imm 0xFF#8)).wellFormed = true ∧ (Instr.cpy (.imm 0xFF#8)).wellFormed = true :=
  ⟨operandMapped_abs _ (by simp), rfl, rfl, rfl⟩

theorem witness_IncDecMemoryComplete :
    effectiveAddr (.zp 0xFF#8) State.reset = some 0x00FF#16 ∧ Mapped State.reset 0x00FF#16 ∧
    (Instr.inc (.zp 0xFF#8)).wellFormed = true := ⟨rfl, .inl (by decide), rfl⟩

theorem witness_AccumulatorShiftsComplete :
    0 = State.reset.cpu.a.toNat ∧ 0 = (getFlag State.reset.cpu.p .carry).toNat := by decide

theorem witness_MemoryShiftsComplete :
    effectiveAddr (.abs 0x1FFF#16) State.reset = some 0x1FFF#16 ∧ Mapped State.reset 0x1FFF#16 ∧
    (Instr.asl (.abs 0x1FFF#16)).wellFormed = true ∧ busValue 0x1FFF#16 State.reset = (0#8, State.reset) ∧
    0 = (0#8).toNat ∧ 0 = (getFlag State.reset.cpu.p .carry).toNat :=
  ⟨rfl, .inl (by decide), rfl, rfl, rfl, rfl⟩

theorem witness_BranchesComplete :
    false = getFlag State.reset.cpu.p .carry ∧ false = getFlag State.reset.cpu.p .zero ∧
    false = getFlag State.reset.cpu.p .negative ∧ false = getFlag State.reset.cpu.p .overflow := by decide

/-- The pointer at the end of a page, whose second byte is at its start. -/
theorem witness_JumpCompletes :
    (0x0200#16).toNat = (0x02FF#16).toNat / 256 * 256 + ((0x02FF#16).toNat + 1) % 256 ∧
    Mapped State.reset 0x02FF#16 ∧ Mapped State.reset 0x0200#16 ∧
    busValue 0x02FF#16 State.reset = (0#8, State.reset) ∧ busValue 0x0200#16 State.reset = (0#8, State.reset) :=
  ⟨by decide, .inl (by decide), .inl (by decide), rfl, rfl⟩

/-- An instruction of each kind answers a next state. -/
theorem witness_RegisterFrame :
    (Instr.sta (.zp 0#8)).wellFormed = true ∧ (∃ t, exec (.sta (.zp 0#8)) State.reset = .next t) ∧
    Reg.a ∉ writtenRegs (.sta (.zp 0#8)) :=
  ⟨rfl, ⟨_, rfl⟩, by decide⟩

theorem witness_FlagFrame :
    (Instr.inc (.zp 0#8)).wellFormed = true ∧ (∃ t, exec (.inc (.zp 0#8)) State.reset = .next t) ∧
    Flag.carry ∉ writtenFlags (.inc (.zp 0#8)) ∧ Flag.unused ∉ writtenFlags (.inc (.zp 0#8)) :=
  ⟨rfl, ⟨_, rfl⟩, by decide, by decide⟩

theorem witness_LoadFrame :
    (∃ t, exec (.lda (.abs 0x2007#16)) State.reset = .next t) ∧ storesNothing (.lda (.abs 0x2007#16)) = true ∧
    (∃ t, exec (.asl .acc) State.reset = .next t) ∧ storesNothing (.asl .acc) = true :=
  ⟨⟨_, rfl⟩, rfl, ⟨_, rfl⟩, rfl⟩

/-- A PPUDATA store, a read-modify-write of PPUDATA and a store in RAM; the entries behind v at the ends of the PPU's ranges. -/
theorem witness_StoreFrame :
    storeOperand (.sta (.abs 0x2007#16)) = some (.abs 0x2007#16) ∧
    (∃ t, exec (.sta (.abs 0x2007#16)) State.reset = .next t) ∧
    effectiveAddr (.abs 0x2007#16) State.reset = some 0x2007#16 ∧ storeOperand (.ror (.zp 0#8)) = some (.zp 0#8) ∧
    (∃ t, exec (.ror (.zp 0#8)) State.reset = .next t) ∧ effectiveAddr (.zp 0#8) State.reset = some 0#16 ∧
    storeOperand (.inc (.abs 0x2007#16)) = some (.abs 0x2007#16) ∧
    (∃ t, exec (.inc (.abs 0x2007#16)) State.reset = .next t) ∧
    storeV (.inc (.abs 0x2007#16)) 0x2007#16 State.reset = 1#16 ∧
    storeV (.sta (.abs 0x2007#16)) 0x2007#16 State.reset = 0#16 ∧
    (ReachesPpu 0x2007#16 0x2000#16 0x2000 0x3EFF ∧ ReachesPpu 0x2007#16 0x3EFF#16 0x2000 0x3EFF) ∧
    (ReachesPpu 0x2007#16 0x3F00#16 0x3F00 0x3FFF ∧ ReachesPpu 0x2007#16 0x7FFF#16 0x3F00 0x3FFF) ∧
    ReachesPpu 0x3FFF#16 0x0000#16 0x0000 0x1FFF ∧ ReachesPpu 0x3FFF#16 0x1FFF#16 0x0000 0x1FFF :=
  ⟨rfl, ⟨_, rfl⟩, rfl, rfl, ⟨_, rfl⟩, rfl, rfl, ⟨_, rfl⟩, by decide, by decide, by unfold ReachesPpu InPpuWindow; decide,
    by unfold ReachesPpu InPpuWindow; decide, by unfold ReachesPpu InPpuWindow; decide⟩

/-- BRK with SP 1, whose pushes wrap in the stack page. -/
theorem witness_StackFrame :
    (∃ t, exec .brk (setSp 1#8 State.reset) = .next t) ∧ 0 < pushCount .brk ∧
    ∀ j, j < pushCount .brk → 0x0180 ≠ stackSlot ((setSp 1#8 State.reset).cpu.sp - BitVec.ofNat 8 j) :=
  ⟨⟨_, rfl⟩, by decide, by decide⟩

theorem witness_RasterFrame : ∃ t, exec (.sta (.abs 0x2000#16)) State.reset = .next t := ⟨_, rfl⟩

/-- The register window's ends, and each register number in it. -/
theorem witness_window :
    InPpuWindow 0x2000#16 ∧ InPpuWindow 0x3FFF#16 ∧
    (∀ r, r < 8 → InPpuWindow (BitVec.ofNat 16 (0x3FF8 + r)) ∧ (BitVec.ofNat 16 (0x3FF8 + r)).toNat % 8 = r) := by
  unfold InPpuWindow; decide

theorem witness_ScrollAddressWrites :
    State.reset.ppu.t.getLsbD 15 = false ∧ State.reset.ppu.w = false ∧
    (withPpu fun p => { p with w := true, t := 0x7FFF#16 }).ppu.t.getLsbD 15 = false ∧
    (withPpu fun p => { p with w := true, t := 0x7FFF#16 }).ppu.w = true ∧
    (0x2005#16).toNat % 8 = 5 ∧ (0x2006#16).toNat % 8 = 6 := by decide

theorem witness_DataPortAccesses :
    (ppuMask (withPpu fun p => { p with v := 0x3EFF#16 }).ppu.v).toNat < 0x3F00 ∧
    0x3F00 ≤ (ppuMask (withPpu fun p => { p with v := 0x7F00#16 }).ppu.v).toNat ∧
    InPpuWindow 0x2007#16 ∧ (0x2007#16).toNat % 8 = 7 := by unfold InPpuWindow; decide

/-- The three clauses at their boundaries: 3EFE and 2000 buffered (step 1), 1FFF of CHR ROM, 3F00 palette. -/
theorem witness_DataPortRoundTrip :
    State.reset.ppu.w = false ∧ 0x3EFE#16 = leWord 0xFE#8 (0x3E#8 &&& 0x3F#8) ∧
    (0x3EFE#16).toNat + (if State.reset.ppu.ctrl.getLsbD 2 then 32 else 1) < 0x3F00 ∧ 0x2000 ≤ (0x3EFE#16).toNat ∧
    0x1FFF#16 = leWord 0xFF#8 (0x1F#8 &&& 0x3F#8) ∧ (0x1FFF#16).toNat < 0x2000 ∧ 0 < State.reset.cart.header.chrBanks ∧
    0x3F00#16 = leWord 0x00#8 (0xFF#8 &&& 0x3F#8) ∧ 0x3F00 ≤ (0x3F00#16).toNat ∧
    ∀ (h l d : Byte), ∃ b1 r1 b2 r2,
      busValue 0x2007#16 (busStore 0x2006#16 l (busStore 0x2006#16 h
        (busStore 0x2007#16 d (busStore 0x2006#16 l (busStore 0x2006#16 h State.reset))))) = (b1, r1) ∧
      busValue 0x2007#16 r1 = (b2, r2) :=
  ⟨rfl, by decide, by decide, by decide, by decide, by decide, by decide, by decide, by decide,
    fun _ _ _ => ⟨_, _, _, _, rfl, rfl⟩⟩

theorem witness_OamPort : InPpuWindow 0x2004#16 ∧ (0x2004#16).toNat % 8 = 4 := by unfold InPpuWindow; decide

theorem witness_NametableAndPaletteMirrors :
    3 < 4 ∧ 0x3FF < 0x400 ∧ 0x3000 ≤ (0x3000#16).toNat ∧ (0x3000#16).toNat < 0x3F00 ∧ (0x3EFF#16).toNat < 0x3F00 ∧
    0x3F00 ≤ (0x3F00#16).toNat ∧ 0x3F00 ≤ (0x3FFF#16).toNat ∧ (0x3FFF#16).toNat < 0x4000 := by decide

theorem witness_ScrollIncrements : (0x7FFF#16).getLsbD 15 = false ∧ (0x001F#16).getLsbD 15 = false ∧ 5 ≤ 5 ∧ 5 ≠ 10 := by
  decide

theorem witness_VblankEvents :
    ((withPpu fun p => { p with scanline := 241, dot := 1 }).ppu.scanline = 241 ∧
      (withPpu fun p => { p with scanline := 241, dot := 1 }).ppu.dot = 1) ∧
    ((withPpu fun p => { p with scanline := 261, dot := 1 }).ppu.scanline = 261 ∧
      (withPpu fun p => { p with scanline := 261, dot := 1 }).ppu.dot = 1) ∧
    ¬ ((State.reset.ppu.scanline = 241 ∨ State.reset.ppu.scanline = 261) ∧ State.reset.ppu.dot = 1) := by decide

/-- An even frame, and an odd one whose skip is enabled. -/
theorem witness_FrameCadence :
    (State.reset.ppu.scanline = 0 ∧ State.reset.ppu.dot = 0 ∧
      89342 = (if State.reset.ppu.oddFrame && (!State.reset.oddSkipNeedsRendering || renderingEnabled State.reset.ppu)
        then 89341 else 89342)) ∧
    (withPpu fun p => { p with oddFrame := true }).ppu.scanline = 0 ∧
    (withPpu fun p => { p with oddFrame := true }).ppu.dot = 0 ∧
    89341 = (if (withPpu fun p => { p with oddFrame := true }).ppu.oddFrame &&
        (!(withPpu fun p => { p with oddFrame := true }).oddSkipNeedsRendering ||
          renderingEnabled (withPpu fun p => { p with oddFrame := true }).ppu) then 89341 else 89342) := by decide

/-- A machine with rendering on at a raster position. -/
def rendering (line dot : Nat) : State := withPpu fun p => { p with mask := 0x1E#8, scanline := line, dot := dot }

/-- Rendering off; and with rendering on: the pipeline at both ends of both its spans, its rest beside them, the coarse X step at
the last phase 7 of each span, the vertical step, the horizontal copy, both ends of the vertical copy, and a dot of none. -/
theorem witness_RenderingOffQuiet :
    renderingEnabled State.reset.ppu = false ∧
    (tickDot (withPpu fun p => { p with spriteZeroHit := true })).ppu.spriteZeroHit = true ∧
    (tickDot (withPpu fun p => { p with spriteOverflow := true })).ppu.spriteOverflow = true ∧
    (∀ d ∈ [0, 255, 320, 335], renderingEnabled (rendering 261 d).ppu = true ∧ AtPipelineDot (rendering 261 d).ppu) ∧
    (∀ d ∈ [256, 319, 336], ¬ AtPipelineDot (rendering 239 d).ppu) ∧ ¬ AtPipelineDot (rendering 240 0).ppu ∧
    (∀ d ∈ [255, 335], AtPipelineDot (rendering 239 d).ppu ∧ (rendering 239 d).ppu.dot % 8 = 7) ∧
    (OnFetchLine (rendering 0 248).ppu ∧ (rendering 0 248).ppu.dot = 248) ∧
    (OnFetchLine (rendering 261 256).ppu ∧ (rendering 261 256).ppu.dot = 256) ∧
    (∀ d ∈ [280, 304], (rendering 261 d).ppu.scanline = 261 ∧ 280 ≤ (rendering 261 d).ppu.dot ∧
      (rendering 261 d).ppu.dot ≤ 304) ∧
    (¬ (AtPipelineDot (rendering 261 305).ppu ∧ (rendering 261 305).ppu.dot % 8 = 7) ∧
      ¬ (OnFetchLine (rendering 261 305).ppu ∧ ((rendering 261 305).ppu.dot = 248 ∨ (rendering 261 305).ppu.dot = 256)) ∧
      ¬ ((rendering 261 305).ppu.scanline = 261 ∧ 280 ≤ (rendering 261 305).ppu.dot ∧
        (rendering 261 305).ppu.dot ≤ 304)) := by
  unfold AtPipelineDot OnFetchLine; decide

/-- A dot of line 239, dot 255, with an opaque sprite pixel in front of an opaque background. -/
def pixelState : State :=
  withPpu fun p => { p with
    mask := 0x1E#8, scanline := 239, dot := 255, bgPatLo := 0x8000#16, spr := ⟨[(255, 1#2)], [], [], []⟩ }

/-- The same dot with the sprite behind. -/
def behindState : State := { pixelState with ppu := { pixelState.ppu with spr := ⟨[(255, 1#2)], [], [(255, 1#1)], []⟩ } }

/-- The same dot with nothing there. -/
def emptyState : State := { pixelState with ppu := { pixelState.ppu with bgPatLo := 0#16, spr := ⟨[], [], [], []⟩ } }

/-- Line 32, dot 0, with sprite 0 at column 0 over an opaque background. -/
def columnZero : State :=
  { withPpu fun p => { p with
      mask := 0x1E#8, scanline := 32, bgPatLo := 0x8000#16, oam := [(0, 0x1F#8), (1, 1#8)] } with
    chrMem := Memory.ofList 0x10 (List.replicate 8 0x80#8) }

/-- The values a state gives the variables of PixelPriority, at a column. -/
def PixelHypotheses (s e : State) (sp bp : BitVec 2) (c at' : Nat) : Prop :=
  c = s.ppu.dot ∧ at' = 256 * s.ppu.scanline + c ∧
  e = (if s.ppu.dot = 0 ∧ renderingEnabled s.ppu = true then evaluateSprites s else s) ∧
  0x3F#6 = (if s.ppu.mask.getLsbD 0 then 0x30#6 else 0x3F#6) ∧
  sp = (if s.ppu.mask.getLsbD 4 = true ∧ (8 ≤ c ∨ s.ppu.mask.getLsbD 2 = true) then e.ppu.spr.pix.read c else 0#2) ∧
  bp =
    (if s.ppu.mask.getLsbD 3 = true ∧ (8 ≤ c ∨ s.ppu.mask.getLsbD 1 = true) then
      twoBits (s.ppu.bgPatHi.getLsbD (15 - s.ppu.fineX.toNat)) (s.ppu.bgPatLo.getLsbD (15 - s.ppu.fineX.toNat))
    else 0#2) ∧
  0 = (twoBits (s.ppu.bgAttHi.getLsbD (15 - s.ppu.fineX.toNat)) (s.ppu.bgAttLo.getLsbD (15 - s.ppu.fineX.toNat))).toNat

/-- The hypotheses and the clauses of PixelPriority: another pixel, sprite in front, background over a sprite behind it, backdrop,
rendering off. -/
theorem witness_PixelPriority :
    (PixelHypotheses pixelState pixelState 1#2 1#2 255 (256 * 239 + 255) ∧ 255 < 256 ∧ pixelState.ppu.scanline < 240 ∧
      256 * 239 + 254 ≠ 256 * 239 + 255 ∧ renderingEnabled pixelState.ppu = true ∧ 1#2 ≠ 0#2 ∧
      pixelState.ppu.spr.behind.read 255 = 0#1) ∧
    (PixelHypotheses behindState behindState 1#2 1#2 255 (256 * 239 + 255) ∧ renderingEnabled behindState.ppu = true ∧
      behindState.ppu.spr.behind.read 255 = 1#1 ∧ 1#2 ≠ 0#2) ∧
    (PixelHypotheses emptyState emptyState 0#2 0#2 255 (256 * 239 + 255) ∧ renderingEnabled emptyState.ppu = true) ∧
    renderingEnabled { pixelState.ppu with mask := 0#8 } = false := by unfold PixelHypotheses; decide

/-- Column 0, whose sprite pixel comes from the evaluation of the same dot and hits; and the dots outside the frame: line 240,
dot 256. -/
theorem witness_PixelPriority_edges :
    (PixelHypotheses columnZero (evaluateSprites columnZero) 1#2 1#2 0 (256 * 32) ∧
      (evaluateSprites columnZero).ppu.spr.zero.read 0 = 1#1 ∧ (tickDot columnZero).ppu.spriteZeroHit = true ∧
      columnZero.ppu.spr.pix.read 0 = 0#2) ∧
    ¬ (0 < 256 ∧ (rendering 240 0).ppu.scanline < 240) ∧ ¬ (256 < 256 ∧ (rendering 239 256).ppu.scanline < 240) ∧
    ¬ ((rendering 239 256).ppu.scanline = 261 ∧ 256 = 1) := by unfold PixelHypotheses; decide

/-- Line 0; a column with a sprite and the columns beside it; evaluation at dot 0 of line 239, and no evaluation at line 240, at
dot 1 and with rendering off. -/
theorem witness_SpriteOverflow :
    State.reset.ppu.scanline = 0 ∧ spriteAt columnZero columnZero.ppu.scanline 0 = some 0 ∧
    spriteAt columnZero columnZero.ppu.scanline 1 = none ∧ spriteAt columnZero columnZero.ppu.scanline 255 = none ∧
    ((rendering 239 0).ppu.dot = 0 ∧ (rendering 239 0).ppu.scanline < 240 ∧ renderingEnabled (rendering 239 0).ppu = true) ∧
    (∀ s ∈ [rendering 240 0, rendering 239 1, State.reset],
      ¬ (s.ppu.dot = 0 ∧ s.ppu.scanline < 240 ∧ renderingEnabled s.ppu = true) ∧
      ¬ (s.ppu.scanline = 261 ∧ s.ppu.dot = 1)) := by decide

/-- The two halves at their last byte, an even and an odd bank count, the three PRG modes; both CHR halves at their last byte and
both CHR modes; every mapper. -/
theorem witness_PrgBankMaps :
    (0 < 2 ∧ (0xBFFF#16).toNat = 0x8000 + 0 * 0x4000 + 0x3FFF ∧ 0x3FFF < 0x4000) ∧
    ((0xFFFF#16).toNat = 0x8000 + 1 * 0x4000 + 0x3FFF ∧ 0 < 3 ∧ 3 % 2 = 1) ∧ (0x07#5).toNat / 4 % 4 < 2 ∧
    (0x08#5).toNat / 4 % 4 = 2 ∧ mmc1Initial.control.toNat / 4 % 4 = 3 ∧
    (0x0FFF#16).toNat = 0 * 0x1000 + 0xFFF ∧ (0x1FFF#16).toNat = 1 * 0x1000 + 0xFFF ∧ 0xFFF < 0x1000 ∧
    (0x0F#5).getLsbD 4 = false ∧ (0x10#5).getLsbD 4 = true ∧ State.reset.mapper = .nrom ∧
    { State.reset with mapper := .uxrom 3#8 }.mapper = .uxrom 3#8 ∧
    { State.reset with mapper := .mmc1 mmc1Initial }.mapper = .mmc1 mmc1Initial := by decide

theorem witness_Mmc1Serial :
    mmc1Initial.shiftCount = 0 ∧ (0x7F#8).getLsbD 7 = false ∧ (0x7E#8).getLsbD 7 = false ∧
    (0x1D#5).toNat = (0x7F#8).toNat % 2 + 2 * ((0x7E#8).toNat % 2) + 4 * ((0x7F#8).toNat % 2) + 8 * ((0x7F#8).toNat % 2) +
      16 * ((0x7F#8).toNat % 2) ∧ (0x80#8).getLsbD 7 = true := by decide

/-- A header of one PRG bank, CHR RAM, PRG RAM, a trainer and mapper 2; and the same with mapper 0x42, extended to 0x142. -/
def richHeader : List Byte := [0x4E#8, 0x45#8, 0x53#8, 0x1A#8, 1#8, 0#8, 0x26#8, 0#8, 0#8, 0#8, 0#8, 0#8, 0#8, 0#8, 0#8, 0#8]

def strangeHeader : List Byte :=
  [0x4E#8, 0x45#8, 0x53#8, 0x1A#8, 1#8, 0#8, 0x26#8, 0x48#8, 0xF1#8, 0#8, 0#8, 0#8, 0#8, 0#8, 0#8, 0#8]

/-- A file of a header and enough bytes for its trainer and its PRG bank. -/
def fileOf (header : List Byte) : List Byte := header ++ List.replicate 16896 0#8

theorem fileOf_length (h : List Byte) (hh : h.length = 16) : (fileOf h).length = 16912 := by
  rw [fileOf, List.length_append, hh, List.length_replicate]

/-- The parameters of a machine with such a file, and perhaps a save image. -/
def richParams (save : Option (List Byte)) : Params := { Laws.plainParams (fileOf richHeader) with save := save }

theorem parseHeader_rich : parseHeader (fileOf richHeader) = ⟨1, 0, .horizontal, true, true, 2⟩ := rfl

theorem parseHeader_strange : parseHeader (fileOf strangeHeader) = ⟨1, 0, .horizontal, true, true, 0x142⟩ := rfl

theorem construct_rich (save : Option (List Byte)) : ∃ b, construct (richParams save) = .ok b := by
  have h : loadCause (some (fileOf richHeader)) = none := by
    simp only [loadCause, parseHeader_rich, fileOf_length _ (show richHeader.length = 16 from rfl),
      show hasMagic (fileOf richHeader) = true from rfl]
    decide
  simp only [construct, show (richParams save).file = some (fileOf richHeader) from rfl, h, Option.getD_some,
    parseHeader_rich, Laws.wireCpuBus_ok, Laws.wirePpuBus_ok, show mapperOfNumber 2 = some (.uxrom 0#8) from rfl]
  exact ⟨_, rfl⟩

/-- A file with CHR ROM and one with CHR RAM, PRG RAM and a trainer, with and without a usable save image; the two kinds of load
fault, one with the number of an unsupported mapper; the shortest file with a header. -/
theorem witness_LoadAdmits :
    (∃ b, construct (Laws.plainParams (Laws.blankHeader ++ List.replicate 40960 0#8)) = .ok b) ∧
    0 < Cart.blank.header.chrBanks ∧ Cart.blank.header.hasNvram = false ∧
    ((∃ b, construct (richParams none) = .ok b) ∧ ∃ b, construct (richParams (some (List.replicate 8192 1#8))) = .ok b) ∧
    (parseHeader (fileOf richHeader)).chrBanks = 0 ∧ (parseHeader (fileOf richHeader)).hasNvram = true ∧
    (List.replicate 8192 1#8).length = 8192 ∧
    (construct { richParams none with file := none } = .error { cause := .load .fileMissing, pc := none }) ∧
    construct { richParams none with file := some (fileOf strangeHeader) } =
      .error { cause := .load (.unsupportedMapper 0x142), pc := none } ∧
    16 ≤ Laws.blankHeader.length := by
  refine ⟨⟨_, Laws.construct_blank rfl⟩, by decide, rfl, ⟨construct_rich _, construct_rich _⟩, rfl, rfl,
    List.length_replicate, rfl, ?_, by decide⟩
  have h : loadCause (some (fileOf strangeHeader)) = some (.unsupportedMapper 0x142) := by
    simp only [loadCause, parseHeader_strange, fileOf_length _ (show strangeHeader.length = 16 from rfl),
      show hasMagic (fileOf strangeHeader) = true from rfl]
    decide
  simp only [construct, h]
  rfl

/-- A file for every cause of R344, with that defect alone but for the truncated header; the sizes asked at their boundary. -/
theorem witness_LoadFails :
    LoadFails (Laws.blankHeader.take 15) .truncatedHeader ∧
    LoadFails (fileOf (richHeader.set 3 0x1B#8)) .badMagic ∧
    LoadFails (fileOf (richHeader.set 4 2#8)) .fileTooShort ∧
    LoadFails (fileOf (richHeader.set 4 0#8)) .noPrgBanks ∧
    LoadFails (fileOf strangeHeader) (.unsupportedMapper 0x142) ∧
    LoadFails (fileOf ((Laws.blankHeader.set 4 3#8).set 5 0#8) ++ List.replicate 40960 0#8) (.nromBankCount 3) := by
  have hl : ∀ h : List Byte, h.length = 16 → (fileOf h).length = 16912 := fileOf_length
  refine ⟨show (Laws.blankHeader.take 15).length < 16 by decide, ⟨by rw [hl _ rfl]; decide, by decide⟩,
    ⟨by rw [hl _ rfl]; decide, rfl, ?_⟩,
    ⟨⟨by rw [hl _ rfl]; decide, rfl, ?_⟩, rfl⟩, ⟨⟨by rw [hl _ rfl]; decide, rfl, ?_⟩, ?_⟩, ⟨⟨?_, rfl, ?_⟩, rfl, ?_⟩⟩
  · rw [hl _ rfl, show parseHeader (fileOf (richHeader.set 4 2#8)) = ⟨2, 0, .horizontal, true, true, 2⟩ from rfl]; decide
  · rw [hl _ rfl, show parseHeader (fileOf (richHeader.set 4 0#8)) = ⟨0, 0, .horizontal, true, true, 2⟩ from rfl]; decide
  · rw [hl _ rfl, parseHeader_strange]; decide
  · rw [parseHeader_strange]; decide
  · rw [List.length_append, hl _ rfl]; omega
  · rw [List.length_append, hl _ rfl, List.length_replicate,
      show parseHeader (fileOf ((Laws.blankHeader.set 4 3#8).set 5 0#8) ++ List.replicate 40960 0#8) =
        ⟨3, 0, .horizontal, false, false, 0⟩ from rfl]
    decide
  · exact ⟨by decide, rfl⟩

theorem witness_StepKeepsMemoryInv : MemoryInv State.reset ∧ ∃ t, step State.reset = .next t :=
  ⟨by constructor <;> decide, _, rfl⟩

theorem witness_StepKeepsRegisterInv : RegisterInv State.reset ∧ ∃ t, step State.reset = .next t :=
  ⟨⟨rfl, by decide, rfl, rfl, by decide, by decide, fun _ h => by cases h⟩, _, rfl⟩

theorem witness_StepKeepsCartridge :
    (∃ t, step (ready [0xEA#8]) = .next t) ∧ 0 < (ready [0xEA#8]).cart.header.chrBanks ∧ (ready [0xEA#8]).mapper = .nrom :=
  ⟨⟨_, rfl⟩, by decide, rfl⟩

end Sys2Proof.Tests
end

section
/-! The memory invariant along a step: every part of a tick keeps all eleven memories canonical and inside their sizes. -/

namespace Sys2Proof.Proofs

open Sys2Proof.Machine Sys2Proof.Laws

/-- The host's IRQ line (log 8) is no memory, so using up a level leaves every memory as it was. -/
theorem memoryInv_consumeIrq {s : State} (h : MemoryInv s) : MemoryInv (consumeIrq s) :=
  memoryInv_congr h rfl rfl rfl rfl rfl

/-- Settles O57: an instruction slot reaches the memories only through register writes, bus reads and bus writes
(`memoryInv_kept`); the rest of the tick is the IRQ level used up and three dots, and each keeps the invariant. -/
theorem stepKeepsMemoryInv : Obligations.StepKeepsMemoryInv := by
  intro s t hs hstep
  exact keeps_step memoryInv_kept (fun _ => memoryInv_consumeIrq) (fun _ => memoryInv_tickDot) hs hstep

end Sys2Proof.Proofs
end

section
/-! What a stack instruction, an interrupt entry and a step did when each gave a next state: one inversion lemma each. -/

namespace Sys2Proof.Proofs

open Sys2Proof.Machine Sys2Proof.Laws

/-- A read of the cartridge has no side effect. -/
theorem busValue_cartridge {a : Addr} (s : State) (h : 0x4020 ≤ a.toNat) : (busValue a s).2 = s := by
  have hd : cpuDevice a = some .cartridge := by
    simp [cpuDevice, show ¬ a.toNat < 0x2000 by omega, show ¬ a.toNat < 0x4000 by omega,
      show ¬ a.toNat < 0x4018 by omega, show ¬ a.toNat < 0x4020 by omega]
  simp only [busValue, hd]

/-- The word at a vector is two cartridge reads, so reading it leaves the state as it was. -/
theorem readVector_next {vec pc : Addr} {s u : State} (hl : 0x4020 ≤ vec.toNat) (hh : 0x4020 ≤ (vec + 1#16).toNat)
    (h : readVector vec s = .ok pc u) : u = s := by
  obtain ⟨l, u1, e1, h⟩ := busBind_next h
  obtain ⟨g, u2, e2, h⟩ := busBind_next h
  cases h
  obtain ⟨-, -, rfl⟩ := cpuRead_next e1
  obtain ⟨-, -, rfl⟩ := cpuRead_next e2
  rw [busValue_cartridge _ hh, busValue_cartridge _ hl]

/-- An interrupt sequence that completed: its three pushes and its status change, then PC from the vector. -/
theorem interruptSequence_next {vec : Addr} {b : Bool} {s t : State} (hl : 0x4020 ≤ vec.toNat)
    (hh : 0x4020 ≤ (vec + 1#16).toNat) (h : interruptSequence vec b s = .ok () t) :
    ∃ pc, t = setPc pc (pushedFrame b s) := by
  rw [interruptSequence_eq] at h
  obtain ⟨pc, u, e, h⟩ := busBind_next h
  cases h
  exact ⟨pc, by rw [readVector_next hl hh e]⟩

theorem enterIrq_next {s t : State} (h : enterIrq s = .next t) :
    ∃ pc, t = setCycles 7 (setPc pc (pushedFrame false s)) := by
  obtain ⟨⟨⟩, u, e, h⟩ := busBind_next (endSlot_next h)
  obtain ⟨pc, rfl⟩ := interruptSequence_next (by decide) (by decide) e
  cases h
  exact ⟨pc, rfl⟩

theorem enterNmi_next {s t : State} (h : enterNmi s = .next t) :
    ∃ pc, t = setCycles 8 (setPc pc (pushedFrame false (setNmiPending false s))) := by
  obtain ⟨⟨⟩, u, e, h⟩ := busBind_next (endSlot_next h)
  obtain ⟨pc, rfl⟩ := interruptSequence_next (by decide) (by decide) e
  cases h
  exact ⟨pc, rfl⟩

/-- A stack instruction that completed: its effect, then the end of the slot. -/
theorem stackShape_next {i : Instr} {f : State → Bus Unit} {s t : State} (h : stackShape i f s = .next t) :
    ∃ u, f (advance i s) = .ok () u ∧ t = finish i 0 u := by
  obtain ⟨⟨⟩, u, e, h⟩ := busBind_next (endSlot_next h)
  cases h
  exact ⟨u, e, rfl⟩

/-- A slot that completed entered an interrupt or executed the instruction it fetched. -/
theorem boundary_next {irq : Bool} {s t : State} (h : boundary irq s = .next t) :
    enterNmi s = .next t ∨ enterIrq s = .next t ∨ ∃ i u, fetch s = .ok i u ∧ exec i u = .next t := by
  unfold boundary at h
  split at h
  · exact .inl h
  · split at h
    · exact .inr (.inl h)
    · unfold executeInstruction at h
      split at h
      · exact .inr (.inr ⟨_, _, by assumption, h⟩)
      · rename_i f a k u e
        cases f <;> cases h

/-- A step that gave a next state: a countdown tick, or a slot at an instruction boundary, carried to the end of its tick. -/
theorem step_next {s t : State} (h : step s = .next t) :
    ∃ u, t = endTick u ∧
      ((s.cpu.cyclesRemaining ≠ 0 ∧ u = consumeIrq s) ∨
        (s.cpu.cyclesRemaining = 0 ∧ boundary (irqLevel s) (consumeIrq s) = .next u)) := by
  unfold step hostStep at h
  split at h
  · split at h
    · cases h
    · unfold tick at h
      split at h
      · rename_i hc
        unfold thenEndTick at h
        split at h
        · rename_i u e
          cases h
          exact ⟨u, rfl, .inr ⟨hc, e⟩⟩
        · cases h
        · cases h
      · rename_i hc
        cases h
        exact ⟨_, rfl, .inl ⟨hc, rfl⟩⟩
  · cases h

end Sys2Proof.Proofs
end

section
/-! The register invariant: along a step, where its part outside the CPU (`RasterInv`) is kept by every bus access and dot and its
part in the CPU (`CpuInv`) is set up again by every slot; and after reset(). -/

namespace Sys2Proof.Proofs

open Sys2Proof.Machine Sys2Proof.Laws

/-- The part of `RegisterInv` that stands in the CPU's registers (R31, R33). -/
structure CpuInv (c : Cpu) : Prop where
  unused : getFlag c.p .unused = true
  cycles : c.cyclesRemaining ≤ 8

theorem registerInv_iff (s : State) : RegisterInv s ↔ CpuInv s.cpu ∧ RasterInv s :=
  ⟨fun ⟨unused, cycles, v15, t15, scanline, dot, shift⟩ => ⟨⟨unused, cycles⟩, v15, t15, scanline, dot, shift⟩,
    fun ⟨⟨unused, cycles⟩, v15, t15, scanline, dot, shift⟩ => ⟨unused, cycles, v15, t15, scanline, dot, shift⟩⟩

/-- An interrupt entry changes B and I of P, so U stays. -/
theorem getFlag_enteredStatus_unused (p : Byte) (b : Bool) :
    getFlag (enteredStatus p b) .unused = getFlag p .unused := by
  simp [enteredStatus]

theorem cpuInv_exec {i : Instr} {s t : State} (h : exec i s = .next t) : CpuInv t.cpu := by
  obtain ⟨n, u, rfl, hn⟩ := exec_finished h
  exact ⟨by simp, hn⟩

theorem cpuInv_boundary {irq : Bool} {s t : State} (hs : CpuInv s.cpu) (h : boundary irq s = .next t) : CpuInv t.cpu := by
  obtain hnmi | hirq | ⟨i, u, -, hexec⟩ := boundary_next h
  · obtain ⟨pc, rfl⟩ := enterNmi_next hnmi
    exact ⟨(getFlag_enteredStatus_unused s.cpu.p false).trans hs.unused, Nat.le_refl 8⟩
  · obtain ⟨pc, rfl⟩ := enterIrq_next hirq
    exact ⟨(getFlag_enteredStatus_unused s.cpu.p false).trans hs.unused, Nat.le_succ 7⟩
  · exact cpuInv_exec hexec

theorem cpuInv_tickDot {s : State} (h : CpuInv s.cpu) : CpuInv (tickDot s).cpu := by
  rw [tickDot_frame]
  exact ⟨h.unused, h.cycles⟩

theorem cpuInv_endTick {s : State} (h : CpuInv s.cpu) : CpuInv (endTick s).cpu :=
  cpuInv_tickDot <| cpuInv_tickDot <| cpuInv_tickDot ⟨h.unused, (Nat.sub_le _ 1).trans h.cycles⟩

theorem cpuInv_step {s t : State} (hs : CpuInv s.cpu) (h : step s = .next t) : CpuInv t.cpu := by
  obtain ⟨u, rfl, ⟨-, rfl⟩ | ⟨-, hslot⟩⟩ := step_next h
  · exact cpuInv_endTick hs
  · exact cpuInv_endTick (cpuInv_boundary (s := consumeIrq s) hs hslot)

/-- The IRQ line (log 8) is no part of the raster, the scroll registers or the mapper. -/
theorem rasterInv_consumeIrq {s : State} (h : RasterInv s) : RasterInv (consumeIrq s) :=
  rasterInv_congr h h.v15 h.t15 rfl rfl rfl

/-- Settles O58: the raster's part by `keeps_step`; in the CPU every slot charges at most 8 cycles, an instruction sets U and
an interrupt entry keeps it. -/
theorem stepKeepsRegisterInv : Obligations.StepKeepsRegisterInv := by
  intro s t hs hstep
  obtain ⟨hcpu, hraster⟩ := (registerInv_iff s).1 hs
  have hraster' : RasterInv t :=
    keeps_step rasterInv_kept (fun _ => rasterInv_consumeIrq) (fun _ => rasterInv_tickDot) hraster hstep
  exact (registerInv_iff t).2 ⟨cpuInv_step hcpu hstep, hraster'⟩

theorem registerInv_reset : RegisterInv State.reset where
  unused := by decide
  cycles := by decide
  v15 := by decide
  t15 := by decide
  scanline := by decide
  dot := by decide
  shift := fun _ h => by cases h

/-- Settles O60: reset() leaves the memories empty and every register inside its bounds. -/
theorem resetMeetsInvariants : Obligations.ResetMeetsInvariants :=
  ⟨memoryInv_reset, registerInv_reset⟩

end Sys2Proof.Proofs
end

section
/-! The cartridge along a step: its ROM is out of reach of every bus access, and a mapper write keeps the mapper's kind. -/

namespace Sys2Proof.Proofs

open Sys2Proof.Machine Sys2Proof.Laws

/-- The configuration, both ROMs and the kind of mapper are `s`'s (R35, R50 to R53). -/
structure SameCartridge (s t : State) : Prop where
  cart   : t.cart = s.cart
  chrRom : 0 < s.cart.header.chrBanks → t.chrMem = s.chrMem
  kind   : mapperNumber t.mapper = mapperNumber s.mapper

theorem mapperNumber_mapperWrite (m : Mapper) (a : Addr) (d : Byte) :
    mapperNumber (mapperWrite m a d) = mapperNumber m := by
  cases m <;> rfl

theorem mapperNumber_eq_zero {m : Mapper} : mapperNumber m = 0 ↔ m = .nrom := by
  cases m <;> simp [mapperNumber]

theorem mapperNumber_busStore (a : Addr) (v : Byte) (s : State) :
    mapperNumber (busStore a v s).mapper = mapperNumber s.mapper := by
  rw [busStore_mapper]
  split
  · exact mapperNumber_mapperWrite s.mapper a v
  · rfl

/-- A PPU bus write does not reach CHR ROM (R352). -/
theorem ppuBusWrite_chrRom {s : State} (h : 0 < s.cart.header.chrBanks) (a : Addr) (d : Byte) :
    (ppuBusWrite s a d).chrMem = s.chrMem := by
  have hw : ∀ b, chrWrite s b d = s := fun b => if_neg (Nat.ne_of_gt h)
  simp only [ppuBusWrite, hw]
  split
  · rfl
  · split <;> rfl

theorem busStore_chrRom {s : State} (h : 0 < s.cart.header.chrBanks) (a : Addr) (v : Byte) :
    (busStore a v s).chrMem = s.chrMem := by
  by_cases hw : InPpuWindow a
  · simp only [busStore, (inPpuWindow_iff a).1 hw]
    by_cases h7 : a.toNat % 8 = 7
    · rw [h7]
      exact ppuBusWrite_chrRom h s.ppu.v v
    · obtain ⟨-, -, hchr⟩ := ppuRegWrite_behind s v (show a.toNat % 8 < 7 by omega)
      exact hchr
  · exact (busStore_ppu v s hw).2

/-- Register writes, bus reads and bus writes leave the cartridge's ROM and the kind of mapper. -/
theorem sameCartridge_kept (s : State) : Kept (SameCartridge s) where
  cpu := fun _ _ h => ⟨h.cart, h.chrRom, h.kind⟩
  read := fun a u h => by
    rw [busValue_frame]
    exact ⟨h.cart, h.chrRom, h.kind⟩
  write := fun a v u _ h =>
    ⟨(busStore_cart a v u).trans h.cart, fun hrom => (busStore_chrRom (h.cart ▸ hrom) a v).trans (h.chrRom hrom),
      (mapperNumber_busStore a v u).trans h.kind⟩

theorem sameCartridge_tickDot {s u : State} (h : SameCartridge s u) : SameCartridge s (tickDot u) := by
  rw [tickDot_frame]
  exact ⟨h.cart, h.chrRom, h.kind⟩

/-- Settles O59: bus accesses and dots leave the cartridge's ROM and the kind of mapper, and NROM is the one mapper of its
kind. -/
theorem stepKeepsCartridge : Obligations.StepKeepsCartridge := by
  intro s t hstep
  have hsame : SameCartridge s t :=
    keeps_step (sameCartridge_kept s) (fun _ h => ⟨h.cart, h.chrRom, h.kind⟩) (fun _ => sameCartridge_tickDot)
      ⟨rfl, fun _ => rfl, rfl⟩ hstep
  refine ⟨hsame.cart, hsame.chrRom, hsame.kind, fun hnrom => ?_⟩
  exact mapperNumber_eq_zero.1 (hsame.kind.trans (mapperNumber_eq_zero.2 hnrom))

end Sys2Proof.Proofs
end

section
/-! Frames of an instruction: the machine outside the CPU and the memories, and RAM outside the pushed stack slots. -/

namespace Sys2Proof.Proofs

open Sys2Proof.Machine Sys2Proof.Laws

/-- Everything a dot alone may change, and what no access may, is `s`'s: the two states differ at most in the CPU, the memories
the bus reaches, the mapper, the host's I/O lists and the draws, and in the PPU registers of R250 with what stands behind them. -/
def SameRaster (s t : State) : Prop :=
  t = { s with
    cpu := t.cpu
    ram := t.ram
    prgRam := t.prgRam
    chrMem := t.chrMem
    mapper := t.mapper
    ioAnswers := t.ioAnswers
    ioLog := t.ioLog
    draws := t.draws
    ppu := { s.ppu with
      ctrl := t.ppu.ctrl
      mask := t.ppu.mask
      vblank := t.ppu.vblank
      oamAddr := t.ppu.oamAddr
      oam := t.ppu.oam
      readBuffer := t.ppu.readBuffer
      v := t.ppu.v
      t := t.ppu.t
      fineX := t.ppu.fineX
      w := t.ppu.w
      palette := t.ppu.palette
      vram := t.ppu.vram } }

/-- Register writes, bus reads and bus writes leave everything outside their reach. -/
theorem sameRaster_kept (s : State) : Kept (SameRaster s) where
  cpu := fun c u h => by
    unfold SameRaster at *
    rw [h]
    rfl
  read := fun a u h => by
    unfold SameRaster at *
    rw [busValue_frame a u, h]
  write := fun a v u _ h => by
    unfold SameRaster at *
    rw [busStore_frame a v u, h]

/-- Settles O39: an instruction is made of register writes and bus accesses, and none of them reaches what a dot changes. -/
theorem rasterFrame : Obligations.RasterFrame := by
  intro i s t hexec
  have hsame : SameRaster s t := keeps_exec (sameRaster_kept s) (show SameRaster s s from rfl) hexec
  rw [hsame]
  exact ⟨rfl, rfl, rfl, rfl, rfl, rfl, rfl, rfl, rfl, rfl, rfl, rfl, rfl, rfl, rfl, rfl, rfl, rfl, rfl⟩

/-! ## The pushes -/

/-- `t` is `s` after `n` pushes: SP is `n` lower, RAM is `s`'s outside the `n` slots from `s`'s SP down, and nothing else but
CPU registers differs (R13, R28). -/
structure Pushed (n : Nat) (s t : State) : Prop where
  sp   : t.cpu.sp = s.cpu.sp - BitVec.ofNat 8 n
  ram  : ∀ k, (∀ j, j < n → k ≠ stackSlot (s.cpu.sp - BitVec.ofNat 8 j)) → t.ram.read k = s.ram.read k
  rest : t = { s with ram := t.ram, cpu := t.cpu }

/-- Writing registers other than SP is no push. -/
theorem pushed_setCpu {n : Nat} {s u : State} (h : Pushed n s u) {c : Cpu} (hsp : c.sp = u.cpu.sp) :
    Pushed n s (setCpu c u) where
  sp := hsp.trans h.sp
  ram := h.ram
  rest := by rw [h.rest]; rfl

/-- Before an instruction's effect nothing is pushed. -/
theorem pushed_advance (i : Instr) (s : State) : Pushed 0 s (advance i s) :=
  ⟨(BitVec.sub_zero _).symm, fun _ _ => rfl, rfl⟩

/-- One more push takes the next lower slot. -/
theorem pushed_push {n : Nat} {s u t : State} {v : Byte} (h : Pushed n s u) (e : push v u = .ok () t) :
    Pushed (n + 1) s t := by
  rw [push_eq] at e
  cases e
  refine ⟨?_, fun k hk => ?_, by rw [h.rest]⟩
  · show u.cpu.sp - 1#8 = s.cpu.sp - BitVec.ofNat 8 (n + 1)
    rw [h.sp, BitVec.sub_sub, BitVec.ofNat_add]
  · have hslot : 256 + u.cpu.sp.toNat ≠ k := by
      rw [h.sp]
      exact (hk n (Nat.lt_succ_self n)).symm
    rw [read_write_other _ v hslot]
    exact h.ram k fun j hj => hk j (Nat.lt_succ_of_lt hj)

/-- The frame of an interrupt entry is three pushes. -/
theorem pushed_pushedFrame {s u : State} (b : Bool) (h : Pushed 0 s u) : Pushed 3 s (pushedFrame b u) :=
  pushed_setCpu (pushed_push (pushed_push (pushed_push h (push_eq (hiByte u.cpu.pc) u)) (push_eq (loByte u.cpu.pc) _))
    (push_eq (pushedStatus u.cpu.p b) _)) (c := (pushedFrame b u).cpu) rfl

theorem pushed_callSubroutine {target : Addr} {s u t : State} (h : Pushed 0 s u)
    (e : callSubroutine target u = .ok () t) : Pushed 2 s t := by
  obtain ⟨⟨⟩, u1, e1, e⟩ := busBind_next e
  obtain ⟨⟨⟩, u2, e2, e⟩ := busBind_next e
  cases e
  exact pushed_setCpu (pushed_push (pushed_push h e1) e2) rfl

theorem pushed_breakSequence {s u t : State} (h : Pushed 0 s u) (e : breakSequence u = .ok () t) : Pushed 3 s t := by
  obtain ⟨pc, rfl⟩ := interruptSequence_next (by decide) (by decide) e
  have hpc : Pushed 0 s (setPc (u.cpu.pc + 1#16) u) := pushed_setCpu h rfl
  exact pushed_setCpu (pushed_pushedFrame true hpc) rfl

/-- A stack instruction pushes what its effect pushes. -/
theorem pushed_stackShape {n : Nat} {i : Instr} {f : State → Bus Unit} {s t : State}
    (hf : ∀ {u v}, Pushed 0 s u → f u = .ok () v → Pushed n s v) (h : stackShape i f s = .next t) : Pushed n s t := by
  obtain ⟨u, e, rfl⟩ := stackShape_next h
  exact pushed_setCpu (hf (pushed_advance i s) e) rfl

/-- A pushing instruction makes exactly its `pushCount` pushes. -/
theorem pushed_exec {i : Instr} {s t : State} (hi : 0 < pushCount i) (h : exec i s = .next t) :
    Pushed (pushCount i) s t := by
  cases i with
  | pha => exact pushed_stackShape (fun hu e => pushed_push hu e) h
  | php => exact pushed_stackShape (fun hu e => pushed_push hu e) h
  | jsr target => exact pushed_stackShape pushed_callSubroutine h
  | brk => exact pushed_stackShape pushed_breakSequence h
  | _ => exact absurd hi (Nat.lt_irrefl 0)

/-- Settles O38: the pushes are an instruction's only writes, each into the slot below the one before. -/
theorem stackFrame : Obligations.StackFrame := by
  intro i s t hexec hcount
  have hpushed := pushed_exec hcount hexec
  exact ⟨hpushed.ram, hpushed.rest⟩

end Sys2Proof.Proofs
end

section
/-! Frames of an instruction: the registers and the flags. Each shape of instruction changes no more of the CPU than its effect
does; the effects are compared with `writtenRegs` and `writtenFlags` instruction by instruction. -/

namespace Sys2Proof.Proofs

open Sys2Proof.Machine Sys2Proof.Laws

/-! ## What each register update leaves -/

theorem regOf_setA {r : Reg} (h : r ≠ .a) (v : Byte) (s : State) : regOf (setA v s).cpu r = regOf s.cpu r := by
  cases r with
  | a => exact absurd rfl h
  | _ => rfl

theorem regOf_setX {r : Reg} (h : r ≠ .x) (v : Byte) (s : State) : regOf (setX v s).cpu r = regOf s.cpu r := by
  cases r with
  | x => exact absurd rfl h
  | _ => rfl

theorem regOf_setY {r : Reg} (h : r ≠ .y) (v : Byte) (s : State) : regOf (setY v s).cpu r = regOf s.cpu r := by
  cases r with
  | y => exact absurd rfl h
  | _ => rfl

theorem regOf_setSp {r : Reg} (h : r ≠ .sp) (v : Byte) (s : State) : regOf (setSp v s).cpu r = regOf s.cpu r := by
  cases r with
  | sp => exact absurd rfl h
  | _ => rfl

@[simp] theorem regOf_setP (r : Reg) (v : Byte) (s : State) : regOf (setP v s).cpu r = regOf s.cpu r := by
  cases r <;> rfl

@[simp] theorem regOf_setPc (r : Reg) (v : Addr) (s : State) : regOf (setPc v s).cpu r = regOf s.cpu r := by
  cases r <;> rfl

@[simp] theorem regOf_advance (r : Reg) (i : Instr) (s : State) : regOf (advance i s).cpu r = regOf s.cpu r := by
  cases r <;> rfl

@[simp] theorem regOf_finish (r : Reg) (i : Instr) (n : Nat) (s : State) :
    regOf (finish i n s).cpu r = regOf s.cpu r := by
  cases r <;> rfl

@[simp] theorem regOf_busStore (r : Reg) (a : Addr) (v : Byte) (s : State) :
    regOf (busStore a v s).cpu r = regOf s.cpu r := by
  rw [busStore_cpu]
  cases r <;> rfl

/-! ## Which flags each flag computation writes -/

/-- No flag outside `F` and U differs. -/
def FlagsWithin (F : List Flag) (p q : Byte) : Prop := ∀ f, f ∉ F → f ≠ .unused → getFlag q f = getFlag p f

theorem flagsWithin_refl (F : List Flag) (p : Byte) : FlagsWithin F p p := fun _ _ _ => rfl

theorem FlagsWithin.trans {F : List Flag} {p q r : Byte} (h : FlagsWithin F p q) (g : FlagsWithin F q r) :
    FlagsWithin F p r :=
  fun f hf hu => (g f hf hu).trans (h f hf hu)

theorem flagsWithin_setFlag {F : List Flag} (p : Byte) {g : Flag} (b : Bool) (hg : g ∈ F ∨ g = .unused) :
    FlagsWithin F p (setFlag p g b) := by
  intro f hf hu
  have hne : g ≠ f := by
    rintro rfl
    exact hg.elim hf hu
  rw [getFlag_setFlag, if_neg hne]

theorem flagsWithin_setNZ {F : List Flag} (p v : Byte) (hz : .zero ∈ F) (hn : .negative ∈ F) :
    FlagsWithin F p (setNZ p v) :=
  (flagsWithin_setFlag p _ (.inl hz)).trans (flagsWithin_setFlag _ _ (.inl hn))

theorem flagsWithin_adderFlags (p a b : Byte) (c : Bool) :
    FlagsWithin (.carry :: .overflow :: zn) p (adderFlags p a b c) :=
  ((flagsWithin_setNZ p _ (by decide) (by decide)).trans (flagsWithin_setFlag _ _ (by decide))).trans
    (flagsWithin_setFlag _ _ (by decide))

theorem flagsWithin_compareFlags (p a m : Byte) : FlagsWithin (.carry :: zn) p (compareFlags p a m) :=
  ((flagsWithin_setFlag p _ (by decide)).trans (flagsWithin_setFlag _ _ (by decide))).trans
    (flagsWithin_setFlag _ _ (by decide))

theorem flagsWithin_bitFlags (p a m : Byte) : FlagsWithin (.overflow :: zn) p (bitFlags p a m) :=
  ((flagsWithin_setFlag p _ (by decide)).trans (flagsWithin_setFlag _ _ (by decide))).trans
    (flagsWithin_setFlag _ _ (by decide))

theorem flagsWithin_shiftLeftFlags (p m r : Byte) : FlagsWithin (.carry :: zn) p (shiftLeftFlags p m r) :=
  (flagsWithin_setFlag p _ (by decide)).trans (flagsWithin_setNZ _ r (by decide) (by decide))

theorem flagsWithin_shiftRightFlags (p m r : Byte) : FlagsWithin (.carry :: zn) p (shiftRightFlags p m r) :=
  (flagsWithin_setFlag p _ (by decide)).trans (flagsWithin_setNZ _ r (by decide) (by decide))

theorem flagsWithin_enteredStatus (p : Byte) (b : Bool) : FlagsWithin [.brk, .interrupt] p (enteredStatus p b) :=
  (flagsWithin_setFlag p b (by decide)).trans (flagsWithin_setFlag _ _ (by decide))

theorem flagsWithin_nz (p v : Byte) : FlagsWithin zn p (setNZ p v) :=
  flagsWithin_setNZ p v (.head _) (.tail _ (.head _))

/-- A pull of P may change every flag but U. -/
theorem flagsWithin_pulled (p q : Byte) : FlagsWithin pulled p q := by
  intro f hf hu
  cases f <;> contradiction

/-! ## The frame of a CPU -/

/-- Of A, X, Y and SP no register outside `R` differs, and no flag outside `F` and U. -/
structure ChangesOnly (R : List Reg) (F : List Flag) (c d : Cpu) : Prop where
  regs  : ∀ r, r ∉ R → regOf d r = regOf c r
  flags : FlagsWithin F c.p d.p

section

variable {R : List Reg} {F : List Flag}

theorem ChangesOnly.refl (c : Cpu) : ChangesOnly R F c c := ⟨fun _ _ => rfl, flagsWithin_refl F c.p⟩

theorem ChangesOnly.setP {c : Cpu} {u : State} {p : Byte} (h : ChangesOnly R F c u.cpu)
    (hp : FlagsWithin F u.cpu.p p) : ChangesOnly R F c (setP p u).cpu :=
  ⟨fun r hr => (regOf_setP r p u).trans (h.regs r hr), h.flags.trans hp⟩

theorem ChangesOnly.setPc {c : Cpu} {u : State} (h : ChangesOnly R F c u.cpu) (v : Addr) :
    ChangesOnly R F c (setPc v u).cpu :=
  ⟨fun r hr => (regOf_setPc r v u).trans (h.regs r hr), h.flags⟩

theorem ChangesOnly.setA {c : Cpu} {u : State} (h : ChangesOnly R F c u.cpu) (hr : .a ∈ R) (v : Byte) :
    ChangesOnly R F c (setA v u).cpu :=
  ⟨fun r hout => (regOf_setA (ne_of_mem_of_not_mem hr hout).symm v u).trans (h.regs r hout), h.flags⟩

theorem ChangesOnly.setX {c : Cpu} {u : State} (h : ChangesOnly R F c u.cpu) (hr : .x ∈ R) (v : Byte) :
    ChangesOnly R F c (setX v u).cpu :=
  ⟨fun r hout => (regOf_setX (ne_of_mem_of_not_mem hr hout).symm v u).trans (h.regs r hout), h.flags⟩

theorem ChangesOnly.setY {c : Cpu} {u : State} (h : ChangesOnly R F c u.cpu) (hr : .y ∈ R) (v : Byte) :
    ChangesOnly R F c (setY v u).cpu :=
  ⟨fun r hout => (regOf_setY (ne_of_mem_of_not_mem hr hout).symm v u).trans (h.regs r hout), h.flags⟩

theorem ChangesOnly.setSp {c : Cpu} {u : State} (h : ChangesOnly R F c u.cpu) (hr : .sp ∈ R) (v : Byte) :
    ChangesOnly R F c (setSp v u).cpu :=
  ⟨fun r hout => (regOf_setSp (ne_of_mem_of_not_mem hr hout).symm v u).trans (h.regs r hout), h.flags⟩

theorem ChangesOnly.push {c : Cpu} {u t : State} {v : Byte} (h : ChangesOnly R F c u.cpu) (hsp : .sp ∈ R)
    (e : push v u = .ok () t) : ChangesOnly R F c t.cpu := by
  rw [push_eq] at e
  cases e
  exact h.setSp hsp (u.cpu.sp - 1#8)

theorem ChangesOnly.pull {c : Cpu} {u t : State} {v : Byte} (h : ChangesOnly R F c u.cpu) (hsp : .sp ∈ R)
    (e : pull u = .ok v t) : ChangesOnly R F c t.cpu := by
  rw [pull_eq] at e
  cases e
  exact h.setSp hsp (u.cpu.sp + 1#8)

/-- The advance of PC and the end of the slot change neither a register nor a flag but U. -/
theorem ChangesOnly.slot {i : Instr} {n : Nat} {s u : State} (h : ChangesOnly R F (advance i s).cpu u.cpu) :
    ChangesOnly R F s.cpu (finish i n u).cpu where
  regs := fun r hr => by rw [regOf_finish, h.regs r hr, regOf_advance]
  flags := h.flags.trans (flagsWithin_setFlag u.cpu.p true (.inr rfl))

/-! ## The shapes -/

theorem changesOnly_readShape {i : Instr} {o : Operand} {f : Byte → State → State}
    (hf : ∀ m u, ChangesOnly R F u.cpu (f m u).cpu) {s t : State} (h : readShape i o f s = .next t) :
    ChangesOnly R F s.cpu t.cpu := by
  obtain ⟨n, m, u, -, hu, rfl⟩ := readShape_next h
  refine ChangesOnly.slot ?_
  rw [← hu.cpu]
  exact hf m u

theorem changesOnly_impliedShape {i : Instr} {f : State → State} (hf : ∀ u, ChangesOnly R F u.cpu (f u).cpu)
    {s t : State} (h : impliedShape i f s = .next t) : ChangesOnly R F s.cpu t.cpu := by
  cases h
  exact (hf _).slot

theorem changesOnly_stackShape {i : Instr} {f : State → Bus Unit}
    (hf : ∀ {u v}, f u = .ok () v → ChangesOnly R F u.cpu v.cpu) {s t : State} (h : stackShape i f s = .next t) :
    ChangesOnly R F s.cpu t.cpu := by
  obtain ⟨u, e, rfl⟩ := stackShape_next h
  exact (hf e).slot

theorem changesOnly_branchShape {i : Instr} {d : Byte} {cond : Bool} {s t : State}
    (h : branchShape i d cond s = .next t) : ChangesOnly R F s.cpu t.cpu := by
  unfold branchShape at h
  cases cond <;> cases h
  · exact (ChangesOnly.refl _).slot
  · exact ((ChangesOnly.refl _).setPc _).slot

theorem changesOnly_jump {o : Operand} {s t : State} (h : execJmp o s = .next t) : ChangesOnly R F s.cpu t.cpu := by
  obtain ⟨l, u, hu, rfl⟩ := jump_next h
  refine ChangesOnly.slot ?_
  rw [← hu.cpu]
  cases l with
  | memory ea => exact (ChangesOnly.refl _).setPc ea
  | value d => exact ChangesOnly.refl _
  | accumulator => exact ChangesOnly.refl _

/-- A store at an effective address is a bus write, which reaches no register and no flag. -/
theorem changesOnly_storeShape {i : Instr} {o : Operand} {v : Byte} {s t : State}
    (ho : ∃ a, effectiveAddr o s = some a) (h : storeShape i o v s = .next t) : ChangesOnly R F s.cpu t.cpu := by
  obtain ⟨n, u, -, rfl, ⟨a, -, -, rfl⟩ | ⟨hnone, -⟩⟩ := storeShape_next h
  · refine ChangesOnly.slot ⟨fun r _ => regOf_busStore r a v _, ?_⟩
    rw [busStore_cpu]
    exact flagsWithin_refl F _
  · obtain ⟨a, ha⟩ := ho
    rw [hnone] at ha
    cases ha

/-- A read-modify-write changes the flags it computes, and on the accumulator A. -/
theorem changesOnly_modifyShape {i : Instr} {o : Operand} {f g : Byte → Cpu → Byte} {s t : State}
    (ho : (∃ a, effectiveAddr o s = some a) ∨ (o = .acc ∧ .a ∈ R)) (hg : ∀ m c, FlagsWithin F c.p (g m c))
    (h : modifyShape i o f g s = .next t) : ChangesOnly R F s.cpu t.cpu := by
  obtain ⟨n, m, u, -, rfl, hu⟩ := modifyShape_next h
  have hregs : ∀ r, r ∉ R → regOf u.cpu r = regOf (advance i s).cpu r := by
    intro r hr
    obtain ⟨rfl, -, rfl⟩ | ⟨a, -, -, -, rfl⟩ | ⟨hnone, hacc, -⟩ := hu
    · obtain ⟨a, ha⟩ | ⟨-, ha⟩ := ho
      · cases ha
      · exact regOf_setA (ne_of_mem_of_not_mem ha hr).symm _ _
    · rw [regOf_busStore, busValue_cpu]
    · obtain ⟨a, ha⟩ | ⟨rfl, -⟩ := ho
      · rw [hnone] at ha
        cases ha
      · contradiction
  refine ChangesOnly.slot ⟨fun r hr => ?_, hg m _⟩
  rw [regOf_setP, hregs r hr]

/-- A well-formed store is at an effective address. -/
theorem store_addressed {i : Instr} {o : Operand} (hi : i = .sta o ∨ i = .stx o ∨ i = .sty o)
    (hw : i.wellFormed = true) (s : State) : ∃ a, effectiveAddr o s = some a := by
  cases o with
  | acc | imm d | ind w => obtain rfl | rfl | rfl := hi <;> cases hw
  | _ => exact ⟨_, rfl⟩

/-- A well-formed read-modify-write is at an effective address, or it shifts the accumulator and lists A. -/
theorem modify_addressed {i : Instr} {o : Operand} (hw : i.wellFormed = true) (hi : storeOperand i = some o)
    (hread : readsFirst i = true) (s : State) : (∃ a, effectiveAddr o s = some a) ∨ (o = .acc ∧ .a ∈ writtenRegs i) := by
  cases i with
  | inc o | dec o =>
    cases hi
    cases o with
    | acc | imm d | ind w => cases hw
    | _ => exact .inl ⟨_, rfl⟩
  | asl o | lsr o | rol o | ror o =>
    cases hi
    cases o with
    | acc => exact .inr ⟨rfl, .head _⟩
    | imm d | ind w => cases hw
    | _ => exact .inl ⟨_, rfl⟩
  | _ => cases hread

/-! ## The effects on the stack -/

theorem changesOnly_callSubroutine (hsp : .sp ∈ R) {target : Addr} {s t : State}
    (h : callSubroutine target s = .ok () t) : ChangesOnly R F s.cpu t.cpu := by
  obtain ⟨⟨⟩, u1, e1, h⟩ := busBind_next h
  obtain ⟨⟨⟩, u2, e2, h⟩ := busBind_next h
  cases h
  exact (((ChangesOnly.refl s.cpu).push hsp e1).push hsp e2).setPc target

theorem changesOnly_returnFromSubroutine (hsp : .sp ∈ R) {s t : State} (h : returnFromSubroutine s = .ok () t) :
    ChangesOnly R F s.cpu t.cpu := by
  obtain ⟨lo, u1, e1, h⟩ := busBind_next h
  obtain ⟨hi, u2, e2, h⟩ := busBind_next h
  cases h
  exact (((ChangesOnly.refl s.cpu).pull hsp e1).pull hsp e2).setPc _

theorem changesOnly_returnFromInterrupt (hsp : .sp ∈ R) {s t : State} (h : returnFromInterrupt s = .ok () t) :
    ChangesOnly R pulled s.cpu t.cpu := by
  obtain ⟨p, u1, e1, h⟩ := busBind_next h
  obtain ⟨lo, u2, e2, h⟩ := busBind_next h
  obtain ⟨hi, u3, e3, h⟩ := busBind_next h
  cases h
  have hp : ChangesOnly R pulled s.cpu (setP (pulledStatus p) u1).cpu :=
    ((ChangesOnly.refl s.cpu).pull hsp e1).setP (flagsWithin_pulled _ _)
  exact ((hp.pull hsp e2).pull hsp e3).setPc _

theorem changesOnly_breakSequence (hsp : .sp ∈ R) {s t : State} (h : breakSequence s = .ok () t) :
    ChangesOnly R [.brk, .interrupt] s.cpu t.cpu := by
  obtain ⟨pc, rfl⟩ := interruptSequence_next (by decide) (by decide) h
  exact (((ChangesOnly.refl s.cpu).setSp hsp (s.cpu.sp - 1#8 - 1#8 - 1#8)).setP
    (flagsWithin_enteredStatus s.cpu.p true)).setPc pc

end

/-! ## Every instruction -/

/-- A well-formed instruction changes only the registers and flags its rule names (R21, R22, R25 to R28). -/
theorem changesOnly_exec {i : Instr} {s t : State} (hw : i.wellFormed = true) (h : exec i s = .next t) :
    ChangesOnly (writtenRegs i) (writtenFlags i) s.cpu t.cpu := by
  cases i with
  | lda o | and o | ora o | eor o =>
    refine changesOnly_readShape (fun m u => ?_) h
    exact ((ChangesOnly.refl u.cpu).setA (.head _) _).setP (flagsWithin_nz u.cpu.p _)
  | ldx o =>
    refine changesOnly_readShape (fun m u => ?_) h
    exact ((ChangesOnly.refl u.cpu).setX (.head _) m).setP (flagsWithin_nz u.cpu.p m)
  | ldy o =>
    refine changesOnly_readShape (fun m u => ?_) h
    exact ((ChangesOnly.refl u.cpu).setY (.head _) m).setP (flagsWithin_nz u.cpu.p m)
  | adc o | sbc o =>
    refine changesOnly_readShape (fun m u => ?_) h
    exact ((ChangesOnly.refl u.cpu).setA (.head _) _).setP (flagsWithin_adderFlags u.cpu.p u.cpu.a _ _)
  | bit o =>
    refine changesOnly_readShape (fun m u => ?_) h
    exact (ChangesOnly.refl u.cpu).setP (flagsWithin_bitFlags u.cpu.p u.cpu.a m)
  | cmp o | cpx o | cpy o =>
    refine changesOnly_readShape (fun m u => ?_) h
    exact (ChangesOnly.refl u.cpu).setP (flagsWithin_compareFlags u.cpu.p _ m)
  | sta o => exact changesOnly_storeShape (store_addressed (.inl rfl) hw s) h
  | stx o => exact changesOnly_storeShape (store_addressed (.inr (.inl rfl)) hw s) h
  | sty o => exact changesOnly_storeShape (store_addressed (.inr (.inr rfl)) hw s) h
  | inc o | dec o =>
    simp only [exec, execInc, execDec] at h
    refine changesOnly_modifyShape (modify_addressed hw rfl rfl s) (fun m c => ?_) h
    exact flagsWithin_nz c.p _
  | asl o | rol o =>
    simp only [exec, execAsl, execRol] at h
    refine changesOnly_modifyShape (modify_addressed hw rfl rfl s) (fun m c => ?_) h
    exact flagsWithin_shiftLeftFlags c.p m _
  | lsr o | ror o =>
    simp only [exec, execLsr, execRor] at h
    refine changesOnly_modifyShape (modify_addressed hw rfl rfl s) (fun m c => ?_) h
    exact flagsWithin_shiftRightFlags c.p m _
  | txa | tya =>
    simp only [exec, execTxa, execTya] at h
    refine changesOnly_impliedShape (fun u => ?_) h
    exact ((ChangesOnly.refl u.cpu).setA (.head _) _).setP (flagsWithin_nz u.cpu.p _)
  | tax | tsx | inx | dex =>
    simp only [exec, execTax, execTsx, execInx, execDex] at h
    refine changesOnly_impliedShape (fun u => ?_) h
    exact ((ChangesOnly.refl u.cpu).setX (.head _) _).setP (flagsWithin_nz u.cpu.p _)
  | tay | iny | dey =>
    simp only [exec, execTay, execIny, execDey] at h
    refine changesOnly_impliedShape (fun u => ?_) h
    exact ((ChangesOnly.refl u.cpu).setY (.head _) _).setP (flagsWithin_nz u.cpu.p _)
  | txs =>
    simp only [exec, execTxs] at h
    refine changesOnly_impliedShape (fun u => ?_) h
    exact (ChangesOnly.refl u.cpu).setSp (.head _) u.cpu.x
  | clc | cld | cli | clv | sec | sed | sei =>
    simp only [exec, execClc, execCld, execCli, execClv, execSec, execSed, execSei] at h
    refine changesOnly_impliedShape (fun u => ?_) h
    exact (ChangesOnly.refl u.cpu).setP (flagsWithin_setFlag u.cpu.p _ (.inl (.head _)))
  | nop => exact changesOnly_impliedShape (fun u => ChangesOnly.refl u.cpu) h
  | bcc d | bcs d | beq d | bmi d | bne d | bpl d | bvc d | bvs d => exact changesOnly_branchShape h
  | jmp o => exact changesOnly_jump h
  | jsr target => exact changesOnly_stackShape (changesOnly_callSubroutine (.head _)) h
  | rts => exact changesOnly_stackShape (changesOnly_returnFromSubroutine (.head _)) h
  | rti => exact changesOnly_stackShape (changesOnly_returnFromInterrupt (.head _)) h
  | brk => exact changesOnly_stackShape (changesOnly_breakSequence (.head _)) h
  | pha | php => exact changesOnly_stackShape (fun e => (ChangesOnly.refl _).push (.head _) e) h
  | pla =>
    simp only [exec, execPla] at h
    refine changesOnly_stackShape (fun {u _} e => ?_) h
    obtain ⟨v, u1, e1, e⟩ := busBind_next e
    cases e
    exact (((ChangesOnly.refl u.cpu).pull (.tail _ (.head _)) e1).setA (.head _) v).setP (flagsWithin_nz u1.cpu.p v)
  | plp =>
    simp only [exec, execPlp] at h
    refine changesOnly_stackShape (fun {u _} e => ?_) h
    obtain ⟨v, u1, e1, e⟩ := busBind_next e
    cases e
    exact ((ChangesOnly.refl u.cpu).pull (.head _) e1).setP (flagsWithin_pulled u1.cpu.p _)
  | illegal op => cases h

/-- Settles O34: A, X, Y and SP change by the effects of the instructions that list them alone. -/
theorem registerFrame : Obligations.RegisterFrame := by
  intro i s t r hw hexec hr
  exact (changesOnly_exec hw hexec).regs r hr

/-- Settles O35: the end of every slot sets U; every other flag changes only in the instructions that list it. -/
theorem flagFrame : Obligations.FlagFrame := by
  intro i s t f hw hexec hf
  by_cases hu : f = .unused
  · rw [if_pos hu, hu]
    exact (cpuInv_exec hexec).unused
  · rw [if_neg hu]
    exact (changesOnly_exec hw hexec).flags f hf hu

end Sys2Proof.Proofs
end

section
/-! The decoder and the encoder are inverse: an opcode's descriptor builds the instructions that are encoded with that opcode
(`builds_of_opcodeOf`), and no other (`Builds.encoded`). -/

namespace Sys2Proof.Proofs

open Sys2Proof.Machine Sys2Proof.Laws

/-! ## What a descriptor builds -/

/-- A descriptor builds an instruction from its opcode `op` and some operand bytes (R101, R120). -/
inductive Builds (op : Byte) : Descriptor → Instr → List Byte → Prop
  | illegal : Builds op .illegal (.illegal op) []
  | implied (b : Nat) (i : Instr) : Builds op (.implied b i) i []
  | operand {m : Mode} (b : Nat) (f : Operand → Instr) (o : Operand) (hm : o.mode = m) :
      Builds op (.operand m b f) (f o) o.bytes
  | relative (b : Nat) (f : Byte → Instr) (d : Byte) : Builds op (.relative b f) (f d) [d]
  | target (b : Nat) (f : Addr → Instr) (w : Addr) : Builds op (.target b f) (f w) [loByte w, hiByte w]

theorem takeOperand_eq_some_iff {m : Mode} {bs rest : List Byte} {o : Operand} :
    takeOperand m bs = some (o, rest) ↔ o.mode = m ∧ bs = o.bytes ++ rest := by
  constructor
  · intro h
    unfold takeOperand at h
    split at h <;> cases h <;> simp [Operand.mode, Operand.bytes]
  · rintro ⟨rfl, rfl⟩
    cases o <;> simp [Operand.mode, Operand.bytes, takeOperand]

/-- The decoder reads from a descriptor exactly the instructions it builds, and leaves what follows their bytes. -/
theorem buildInstr_eq_ok_iff {op : Byte} {d : Descriptor} {bs rest : List Byte} {i : Instr} :
    buildInstr op d bs = .ok (i, rest) ↔ ∃ bytes, Builds op d i bytes ∧ bs = bytes ++ rest := by
  constructor
  · intro h
    unfold buildInstr at h
    split at h
    · cases h; exact ⟨[], .illegal, rfl⟩
    · cases h; exact ⟨[], .implied _ _, rfl⟩
    · split at h
      · rename_i o r e
        cases h
        obtain ⟨hm, rfl⟩ := takeOperand_eq_some_iff.1 e
        exact ⟨o.bytes, .operand _ _ o hm, rfl⟩
      · cases h
    · split at h
      · cases h; exact ⟨_, .relative _ _ _, rfl⟩
      · cases h
    · split at h
      · cases h; exact ⟨_, .target _ _ _, by simp⟩
      · cases h
  · rintro ⟨bytes, hb, rfl⟩
    cases hb with
    | illegal => rfl
    | implied b i => rfl
    | operand b f o hm => simp only [buildInstr, takeOperand_eq_some_iff.2 ⟨hm, rfl⟩]
    | relative b f d => rfl
    | target b f w => simp [buildInstr]

theorem Builds.length {op : Byte} {d : Descriptor} {i : Instr} {bytes : List Byte} (h : Builds op d i bytes) :
    bytes.length = descriptorOperands d := by
  cases h with
  | operand b f o hm => subst hm; cases o <;> rfl
  | _ => rfl

/-! ## The opcode map agrees with the encoder -/

/-- A descriptor agrees with the encoder on the opcode `op`: each instruction it builds is encoded as `op` and the operand bytes
of the descriptor's mode. The illegal marker is compared with R123's list apart (`marksIllegal_descriptorOf`). -/
inductive Agrees (op : Byte) : Descriptor → Prop
  | illegal : Agrees op .illegal
  | implied {b : Nat} {i : Instr} (hop : opcodeOf i = some op) (hbytes : operandBytes i = []) : Agrees op (.implied b i)
  | operand {m : Mode} {b : Nat} {f : Operand → Instr} (l : List (Mode × Byte))
      (hop : ∀ o, opcodeOf (f o) = opcodeIn l o) (hmode : l.lookup m = some op)
      (hbytes : ∀ o, operandBytes (f o) = o.bytes) : Agrees op (.operand m b f)
  | relative {b : Nat} {f : Byte → Instr} (hop : ∀ d, opcodeOf (f d) = some op)
      (hbytes : ∀ d, operandBytes (f d) = [d]) : Agrees op (.relative b f)
  | target {b : Nat} {f : Addr → Instr} (hop : ∀ w, opcodeOf (f w) = some op)
      (hbytes : ∀ w, operandBytes (f w) = [loByte w, hiByte w]) : Agrees op (.target b f)

/-- The descriptors of a list agree with the encoder on consecutive opcodes. -/
def AgreesFrom : Nat → List Descriptor → Prop
  | _, [] => True
  | n, d :: ds => Agrees (BitVec.ofNat 8 n) d ∧ AgreesFrom (n + 1) ds

theorem agreesFrom_getD {n k : Nat} {ds : List Descriptor} (h : AgreesFrom n ds) (hk : k < ds.length) :
    Agrees (BitVec.ofNat 8 (n + k)) (ds.getD k .illegal) := by
  induction ds generalizing n k with
  | nil => cases hk
  | cons d ds ih =>
    cases k with
    | zero => exact h.1
    | succ k =>
      have := ih h.2 (Nat.lt_of_succ_lt_succ hk)
      rwa [Nat.add_right_comm] at this

theorem AgreesFrom.append {n m : Nat} {ds es : List Descriptor} (hd : AgreesFrom n ds) (he : AgreesFrom m es)
    (hm : m = n + ds.length := by decide +kernel) : AgreesFrom n (ds ++ es) := by
  induction ds generalizing n with
  | nil => subst hm; exact he
  | cons d ds ih =>
    refine ⟨hd.1, ih hd.2 ?_⟩
    rw [hm, List.length_cons, Nat.add_comm ds.length, ← Nat.add_assoc]

/-- Every entry of the opcode map agrees with the "Encoding" lines, row by row (R121). -/
theorem agreesFrom_rows :
    AgreesFrom 0x00 opcodeRow0 ∧ AgreesFrom 0x10 opcodeRow1 ∧ AgreesFrom 0x20 opcodeRow2 ∧ AgreesFrom 0x30 opcodeRow3 ∧
    AgreesFrom 0x40 opcodeRow4 ∧ AgreesFrom 0x50 opcodeRow5 ∧ AgreesFrom 0x60 opcodeRow6 ∧ AgreesFrom 0x70 opcodeRow7 ∧
    AgreesFrom 0x80 opcodeRow8 ∧ AgreesFrom 0x90 opcodeRow9 ∧ AgreesFrom 0xA0 opcodeRowA ∧ AgreesFrom 0xB0 opcodeRowB ∧
    AgreesFrom 0xC0 opcodeRowC ∧ AgreesFrom 0xD0 opcodeRowD ∧ AgreesFrom 0xE0 opcodeRowE ∧ AgreesFrom 0xF0 opcodeRowF := by
  repeat' refine And.intro ?_ ?_
  all_goals first | exact True.intro | constructor
  all_goals (intros; rfl)

theorem agreesFrom_opcodeTable : AgreesFrom 0 opcodeTable := by
  obtain ⟨h0, h1, h2, h3, h4, h5, h6, h7, h8, h9, hA, hB, hC, hD, hE, hF⟩ := agreesFrom_rows
  exact h0.append h1 |>.append h2 |>.append h3 |>.append h4 |>.append h5 |>.append h6 |>.append h7 |>.append h8
    |>.append h9 |>.append hA |>.append hB |>.append hC |>.append hD |>.append hE |>.append hF

theorem agrees_descriptorOf (op : Byte) : Agrees op (descriptorOf op) := by
  have hlen : opcodeTable.length = 256 := by decide +kernel
  have h : Agrees (BitVec.ofNat 8 (0 + op.toNat)) (descriptorOf op) :=
    agreesFrom_getD agreesFrom_opcodeTable (hlen ▸ op.isLt)
  rwa [Nat.zero_add, BitVec.ofNat_toNat, BitVec.setWidth_eq] at h

/-- The illegal marker of a descriptor (R120). -/
def marksIllegal : Descriptor → Bool
  | .illegal => true
  | _ => false

/-- The opcode map marks exactly the opcodes of R123's list. -/
theorem marksIllegal_descriptorOf (op : Byte) : marksIllegal (descriptorOf op) = illegalOpcodes.contains op := by
  revert op; decide +kernel

/-- What the opcode map builds is encoded so. -/
theorem Builds.encoded {op : Byte} {i : Instr} {bytes : List Byte} (h : Builds op (descriptorOf op) i bytes) :
    opcodeOf i = some op ∧ operandBytes i = bytes := by
  have hd := agrees_descriptorOf op
  have hmark := marksIllegal_descriptorOf op
  generalize descriptorOf op = d at h hd hmark
  cases h with
  | illegal => exact ⟨if_pos hmark.symm, rfl⟩
  | implied b i => cases hd with | implied hop hbytes => exact ⟨hop, hbytes⟩
  | operand b f o hm =>
    cases hd with
    | operand l hop hmode hbytes => exact ⟨by rw [hop, opcodeIn, hm, hmode], hbytes o⟩
  | relative b f d => cases hd with | relative hop hbytes => exact ⟨hop d, hbytes d⟩
  | target b f w => cases hd with | target hop hbytes => exact ⟨hop w, hbytes w⟩

/-! ## The descriptor of an instruction's opcode -/

theorem builds_illegal {op : Byte} (h : illegalOpcodes.contains op = true) :
    Builds op (descriptorOf op) (.illegal op) [] := by
  rw [← marksIllegal_descriptorOf] at h
  generalize descriptorOf op = d at h
  cases d with
  | illegal => exact .illegal
  | _ => cases h

/-- The opcode map's entry at an instruction's opcode builds the instruction from its operand bytes. -/
theorem builds_of_opcodeOf {op : Byte} {i : Instr} (h : opcodeOf i = some op) :
    Builds op (descriptorOf op) i (operandBytes i) := by
  cases i with
  | lda o | ldx o | ldy o | sta o | stx o | sty o | adc o | sbc o | and o | ora o | eor o | bit o | cmp o | cpx o | cpy o
  | inc o | dec o | asl o | lsr o | rol o | ror o | jmp o =>
    cases o <;> cases h <;> exact .operand _ _ _ rfl
  | bcc d | bcs d | beq d | bmi d | bne d | bpl d | bvc d | bvs d => cases h; exact .relative _ _ d
  | jsr target => cases h; exact .target _ _ target
  | illegal op' =>
    obtain ⟨hc, h⟩ := Option.ite_none_right_eq_some.1 h
    cases h
    exact builds_illegal hc
  | _ => cases h; exact .implied _ _

theorem builds_descriptorOf_iff {op : Byte} {i : Instr} {bytes : List Byte} :
    Builds op (descriptorOf op) i bytes ↔ opcodeOf i = some op ∧ operandBytes i = bytes :=
  ⟨Builds.encoded, fun ⟨hop, hbytes⟩ => hbytes ▸ builds_of_opcodeOf hop⟩

/-! ## Decoding and encoding -/

/-- The decoder reads an instruction exactly from its opcode and its operand bytes. -/
theorem decode_cons_eq_ok_iff {op : Byte} {bs rest : List Byte} {i : Instr} :
    decode (op :: bs) = .ok (i, rest) ↔ opcodeOf i = some op ∧ bs = operandBytes i ++ rest := by
  simp only [decode, buildInstr_eq_ok_iff, builds_descriptorOf_iff, and_assoc, exists_and_left, exists_eq_left']

/-- An instruction is well formed exactly when its rule gives its operand form an opcode. -/
theorem wellFormed_iff_opcodeOf {i : Instr} : i.wellFormed = true ↔ ∃ op, opcodeOf i = some op := by
  rw [← Option.isSome_iff_exists, ← Bool.eq_iff_iff]
  cases i with
  | lda o | ldx o | ldy o | sta o | stx o | sty o | adc o | sbc o | and o | ora o | eor o | bit o | cmp o | cpx o | cpy o
  | inc o | dec o | asl o | lsr o | rol o | ror o | jmp o => cases o <;> rfl
  | illegal op =>
    cases h : illegalOpcodes.contains op <;> simp only [Instr.wellFormed, opcodeOf, h] <;> rfl
  | _ => rfl

theorem encode_eq {i : Instr} {op : Byte} (h : opcodeOf i = some op) : encode i = op :: operandBytes i := by
  simp only [encode, h]

/-- Decoding succeeds exactly on the encodings of the well-formed instructions (R100, R121, R123). -/
theorem decode_eq_ok_iff {bs rest : List Byte} {i : Instr} :
    decode bs = .ok (i, rest) ↔ i.wellFormed = true ∧ bs = encode i ++ rest := by
  rw [wellFormed_iff_opcodeOf]
  constructor
  · intro h
    cases bs with
    | nil => cases h
    | cons op bs =>
      obtain ⟨hop, rfl⟩ := decode_cons_eq_ok_iff.1 h
      exact ⟨⟨op, hop⟩, by rw [encode_eq hop, List.cons_append]⟩
  · rintro ⟨⟨op, hop⟩, rfl⟩
    rw [encode_eq hop, List.cons_append]
    exact decode_cons_eq_ok_iff.2 ⟨hop, rfl⟩

/-- Settles O1: the encoding of a well-formed instruction is one of the byte strings that decode to it. -/
theorem decodeOfEncode : Obligations.DecodeOfEncode :=
  fun _ _ hw => decode_eq_ok_iff.2 ⟨hw, rfl⟩

/-- Settles O2: no other byte string decodes to it. -/
theorem encodeOfDecode : Obligations.EncodeOfDecode :=
  fun _ _ _ h => decode_eq_ok_iff.1 h

/-! ## Lengths and illegal opcodes -/

theorem operandBytes_length {op : Byte} {i : Instr} (h : opcodeOf i = some op) :
    (operandBytes i).length = descriptorOperands (descriptorOf op) :=
  (builds_of_opcodeOf h).length

/-- Past the opcode the decoder has one reason to fail. -/
theorem decode_cons_error {op : Byte} {bs : List Byte} {e : DecodeReject} (h : decode (op :: bs) = .error e) :
    e = .truncated op := by
  rw [decode] at h
  unfold buildInstr at h
  repeat' split at h
  all_goals cases h
  all_goals rfl

/-- Settles O3: an instruction is read with all the operand bytes its opcode asks for, and the decoder asks for no more. -/
theorem decodeLength : Obligations.DecodeLength := by
  refine ⟨rfl, fun op rest => ⟨?_, fun hlen => ?_, fun hlen => ?_⟩⟩
  · revert op; decide +kernel
  · obtain ⟨i, hi⟩ := buildInstr_exact op (rest.take (descriptorOperands (descriptorOf op))) (by simp [hlen])
    obtain ⟨hop, htake⟩ := decode_cons_eq_ok_iff.1 hi
    rw [List.append_nil] at htake
    refine ⟨i, decode_cons_eq_ok_iff.2 ⟨hop, ?_⟩, ?_⟩
    · rw [← htake, List.take_append_drop]
    · rw [instrSize, operandBytes_length hop]
  · cases h : decode (op :: rest) with
    | error e => rw [decode_cons_error h]
    | ok r =>
      obtain ⟨hop, rfl⟩ := decode_cons_eq_ok_iff.1 h
      rw [List.length_append, operandBytes_length hop] at hlen
      omega

theorem opcodeOf_illegal {op : Byte} : opcodeOf (.illegal op) = some op ↔ op ∈ illegalOpcodes := by
  simp [opcodeOf]

/-- Settles O5: an illegal opcode is its instruction's whole encoding, and the encoder knows the listed ones alone. -/
theorem illegalOpcodesDecode : Obligations.IllegalOpcodesDecode := by
  refine ⟨by decide +kernel, by decide +kernel, fun op rest => ?_⟩
  rw [decode_cons_eq_ok_iff, opcodeOf_illegal]
  exact and_iff_left rfl

/-- Settles O6: the documented count of each class and mode is the opcode map's. -/
theorem baseCycleTable : Obligations.BaseCycleTable := by
  intro i hw hlegal
  cases i with
  | lda o | ldx o | ldy o | sta o | stx o | sty o | adc o | sbc o | and o | ora o | eor o | bit o | cmp o | cpx o | cpy o
  | inc o | dec o | asl o | lsr o | rol o | ror o | jmp o => cases o <;> first | rfl | cases hw
  | illegal op => exact absurd rfl (hlegal op)
  | _ => rfl

end Sys2Proof.Proofs
end

section
/-! The step: the decoded instruction at a boundary, the countdown between boundaries. -/

namespace Sys2Proof.Proofs

open Sys2Proof.Machine Sys2Proof.Laws

/-! ## The instruction at a boundary -/

/-- At a boundary with no interrupt to take, a step executes the instruction at PC. -/
theorem step_eq_executeInstruction {s : State} (hb : AtBoundary s) (hn : NoInterrupt s) :
    step s = thenEndTick (executeInstruction (consumeIrq s)) := by
  obtain ⟨hreset, hfault, hcycles⟩ := hb
  obtain ⟨hnmi, hirq⟩ := hn
  have hslot : boundary (irqLevel s) (consumeIrq s) = executeInstruction (consumeIrq s) := by
    have hlevel : (!getFlag (consumeIrq s).cpu.p .interrupt && irqLevel s) = false := by
      obtain h | h := hirq
      · rw [show getFlag (consumeIrq s).cpu.p .interrupt = true from h]; rfl
      · rw [h, Bool.and_false]
    simp only [boundary, show (consumeIrq s).cpu.nmiPending = false from hnmi, hlevel, Bool.false_eq_true, if_false]
  simp only [step, hostStep, if_pos hreset, hfault, tick, if_pos hcycles, hslot]

/-- Bytes that decode to an instruction of their length are what a fetch reads. -/
theorem fetch_of_readBytes {s u : State} {i : Instr} {bs : List Byte}
    (hread : readBytes (instrSize i) s.cpu.pc s = .ok bs u) (hdecode : decode bs = .ok (i, [])) : fetch s = .ok i u := by
  rw [instrSize, Nat.add_comm] at hread
  obtain ⟨op, u1, hop, hread⟩ := busBind_next hread
  obtain ⟨rest, u2, hrest, hread⟩ := busBind_next hread
  cases hread
  have hi := (decode_cons_eq_ok_iff.1 hdecode).1
  rw [operandBytes_length hi] at hrest
  simp only [fetch, fetchBytes, hop, hrest, busBind_ok, instrOfBytes, hdecode]

/-- Settles O7: at such a boundary the step is the instruction slot, and its fetch reads the given bytes. -/
theorem stepRunsDecodedInstruction : Obligations.StepRunsDecodedInstruction := by
  intro s s1 i bs hb hn hread hdecode
  have hexec : executeInstruction (consumeIrq s) = exec i s1 := by
    rw [executeInstruction, fetch_of_readBytes (s := consumeIrq s) hread hdecode]
  rw [step_eq_executeInstruction hb hn, hexec]
  exact ⟨fun t ht => by rw [ht]; rfl, fun f hf => by rw [hf]; rfl⟩

/-! ## The countdown -/

/-- What dots leave alone: everything but the PPU and the NMI latch, which they may only set; and of the PPU the registers a
program writes (but `v`), the toggle, the read buffer and the memories a program writes (R252). -/
structure DotsOnly (s u : State) : Prop where
  rest       : u = { s with cpu := u.cpu, ppu := u.ppu }
  cpu        : u.cpu = { s.cpu with nmiPending := u.cpu.nmiPending }
  nmi        : s.cpu.nmiPending = true → u.cpu.nmiPending = true
  ctrl       : u.ppu.ctrl = s.ppu.ctrl
  mask       : u.ppu.mask = s.ppu.mask
  t          : u.ppu.t = s.ppu.t
  fineX      : u.ppu.fineX = s.ppu.fineX
  w          : u.ppu.w = s.ppu.w
  readBuffer : u.ppu.readBuffer = s.ppu.readBuffer
  oam        : u.ppu.oam = s.ppu.oam
  oamAddr    : u.ppu.oamAddr = s.ppu.oamAddr
  vram       : u.ppu.vram = s.ppu.vram
  palette    : u.ppu.palette = s.ppu.palette

theorem DotsOnly.trans {s t u : State} (h : DotsOnly s t) (g : DotsOnly t u) : DotsOnly s u where
  rest := by rw [g.rest, h.rest]
  cpu := by rw [g.cpu, h.cpu]
  nmi := g.nmi ∘ h.nmi
  ctrl := g.ctrl.trans h.ctrl
  mask := g.mask.trans h.mask
  t := g.t.trans h.t
  fineX := g.fineX.trans h.fineX
  w := g.w.trans h.w
  readBuffer := g.readBuffer.trans h.readBuffer
  oam := g.oam.trans h.oam
  oamAddr := g.oamAddr.trans h.oamAddr
  vram := g.vram.trans h.vram
  palette := g.palette.trans h.palette

theorem dotsOnly_tickDot (s : State) : DotsOnly s (tickDot s) := by
  obtain ⟨-, hrender⟩ := renderDot_frame s
  have hframe := tickDot_frame s
  have hdrawn := tickDot_drawn s
  exact {
    rest := by rw [hframe]
    cpu := by rw [hframe]
    nmi := fun h => by rw [hframe]; simp [h]
    ctrl := by rw [hdrawn]; exact hrender.ctrl
    mask := by rw [hdrawn]; exact hrender.mask
    t := by rw [hdrawn]; exact hrender.t
    fineX := by rw [hdrawn]; exact hrender.fineX
    w := by rw [hdrawn]; exact hrender.w
    readBuffer := by rw [hdrawn]; exact hrender.readBuffer
    oam := by rw [hdrawn]; exact hrender.oam
    oamAddr := by rw [hdrawn]; exact hrender.oamAddr
    vram := by rw [hdrawn]; exact hrender.vram
    palette := by rw [hdrawn]; exact hrender.palette }

/-- The end of a tick is the counter's decrement and dots. -/
theorem dotsOnly_endTick (s : State) : DotsOnly (setCycles (s.cpu.cyclesRemaining - 1) s) (endTick s) :=
  ((dotsOnly_tickDot _).trans (dotsOnly_tickDot _)).trans (dotsOnly_tickDot _)

theorem step_eq_countdown {s : State} (hreset : s.resetDone = true) (hfault : s.fault = none)
    (hcycles : s.cpu.cyclesRemaining ≠ 0) : step s = .next (endTick (consumeIrq s)) := by
  simp only [step, hostStep, if_pos hreset, hfault, tick, if_neg hcycles]

/-- Settles O8: with a counter above zero the tick is its end alone, and dots reach neither the CPU's registers nor what a
program writes. -/
theorem countdownTick : Obligations.CountdownTick := by
  intro s n hreset hfault hcycles
  refine ⟨_, step_eq_countdown hreset hfault (hcycles ▸ Nat.succ_ne_zero n), ?_⟩
  have h := dotsOnly_endTick (consumeIrq s)
  have hcpu : (setCycles ((consumeIrq s).cpu.cyclesRemaining - 1) (consumeIrq s)).cpu =
      { s.cpu with cyclesRemaining := n } := by
    show { s.cpu with cyclesRemaining := s.cpu.cyclesRemaining - 1 } = { s.cpu with cyclesRemaining := n }
    rw [hcycles, Nat.add_sub_cancel]
  exact ⟨h.cpu.trans (by rw [hcpu]), h.nmi, h.rest, h.ctrl, h.mask, h.t, h.fineX, h.w, h.readBuffer, h.oam, h.oamAddr,
    h.vram, h.palette⟩

end Sys2Proof.Proofs
end

section
/-! Frames of an instruction: the memories. An instruction that stores nothing is register writes and bus reads; a storing one
makes one bus write, at its effective address. -/

namespace Sys2Proof.Proofs

open Sys2Proof.Machine Sys2Proof.Laws

section

variable {s : State}

/-! ## Instructions that store nothing -/

/-- Registers are no memory. -/
theorem sameMemory_setCpu (c : Cpu) (u : State) (h : SameMemory s u) : SameMemory s (setCpu c u) := h

theorem sameMemory_read (a : Addr) (u : State) (h : SameMemory s u) : SameMemory s (busValue a u).2 :=
  SameMemory.trans h (sameMemory_busValue a u)

/-- A pull is a RAM read. -/
theorem sameMemory_pull {u : State} (h : SameMemory s u) : Leaves (SameMemory s) (pull u) := by
  rw [pull_eq]
  exact h

theorem sameMemory_returnFromSubroutine {u : State} (h : SameMemory s u) :
    Leaves (SameMemory s) (returnFromSubroutine u) :=
  leaves_bind (sameMemory_pull h) fun _ _ h => leaves_bind (sameMemory_pull h) fun _ _ h => h

theorem sameMemory_returnFromInterrupt {u : State} (h : SameMemory s u) :
    Leaves (SameMemory s) (returnFromInterrupt u) :=
  leaves_bind (sameMemory_pull h) fun _ _ h => leaves_bind (sameMemory_pull h) fun _ _ h =>
    leaves_bind (sameMemory_pull h) fun _ _ h => h

theorem sameMemory_jump {o : Operand} {t : State} (h : execJmp o s = .next t) : SameMemory s t := by
  obtain ⟨l, u, hu, rfl⟩ := jump_next h
  have hmem : SameMemory s u := hu.sameMemory
  cases l with
  | memory ea => exact hmem
  | value d => exact hmem
  | accumulator => exact hmem

/-- The instructions that store nothing are made of register writes, bus reads and pulls; a store to the accumulator is a
register write. -/
theorem sameMemory_exec {i : Instr} {t : State} (h : exec i s = .next t) (hi : storesNothing i = true) :
    SameMemory s t := by
  cases i with
  | lda o | ldx o | ldy o | adc o | sbc o | and o | ora o | eor o | bit o | cmp o | cpx o | cpy o =>
    exact keeps_readShape sameMemory_setCpu sameMemory_read (fun m u => ⟨_, rfl⟩) (SameMemory.refl s) h
  | sta o | stx o | sty o | inc o | dec o | asl o | lsr o | rol o | ror o =>
    cases o with
    | acc => cases h; exact SameMemory.refl s
    | _ => cases hi
  | tax | tay | tsx | txa | txs | tya | inx | iny | dex | dey | clc | cld | cli | clv | sec | sed | sei | nop =>
    exact keeps_impliedShape sameMemory_setCpu (fun u => ⟨_, rfl⟩) (SameMemory.refl s) h
  | bcc d | bcs d | beq d | bmi d | bne d | bpl d | bvc d | bvs d =>
    exact keeps_branchShape sameMemory_setCpu (SameMemory.refl s) h
  | jmp o => exact sameMemory_jump h
  | rts => exact keeps_stackShape sameMemory_setCpu (fun _ => sameMemory_returnFromSubroutine) (SameMemory.refl s) h
  | rti => exact keeps_stackShape sameMemory_setCpu (fun _ => sameMemory_returnFromInterrupt) (SameMemory.refl s) h
  | pla | plp =>
    simp only [exec, execPla, execPlp] at h
    refine keeps_stackShape sameMemory_setCpu (fun _ hu => ?_) (SameMemory.refl s) h
    exact leaves_bind (sameMemory_pull hu) fun _ _ h => h
  | jsr target | brk | pha | php => cases hi
  | illegal op => cases h

/-! ## Instructions that store -/

variable {i : Instr} {o : Operand} {t : State} {a : Addr}

/-- The advance of PC and the end of the slot reach no memory. -/
theorem sameMemoryBut_slot {v : BitVec 16} {n : Nat} {p : Byte} {u : State} (h : SameMemoryBut a v (advance i s) u) :
    SameMemoryBut a v s (finish i n u) ∧ SameMemoryBut a v s (finish i n (setP p u)) := ⟨h, h⟩

theorem sameMemoryBut_storeShape {v : Byte} (ha : effectiveAddr o s = some a) (h : storeShape i o v s = .next t) :
    SameMemoryBut a s.ppu.v s t := by
  obtain ⟨n, u, -, rfl, ⟨b, hb, hok, rfl⟩ | ⟨hnone, -⟩⟩ := storeShape_next h
  · cases ha.symm.trans hb
    exact (sameMemoryBut_slot (p := 0) (sameMemoryBut_busStore a v (advance i s) hok)).1
  · cases ha.symm.trans hnone

theorem sameMemoryBut_modifyShape {f g : Byte → Cpu → Byte} (ha : effectiveAddr o s = some a)
    (h : modifyShape i o f g s = .next t) : SameMemoryBut a (busValue a s).2.ppu.v s t := by
  obtain ⟨n, m, u, -, rfl, ⟨rfl, -⟩ | ⟨b, hb, hok, -, rfl⟩ | ⟨hnone, -⟩⟩ := modifyShape_next h
  · cases ha
  · cases ha.symm.trans hb
    have hv : (busValue a (advance i s)).2.ppu.v = (busValue a s).2.ppu.v := by
      rw [advance_eq, busValue_setCpu, setCpu_ppu]
    rw [← hv]
    exact (sameMemoryBut_slot (sameMemoryBut_modify (s := advance i s) hok)).2
  · cases ha.symm.trans hnone

theorem sameMemoryBut_exec (hi : storeOperand i = some o) (h : exec i s = .next t) (ha : effectiveAddr o s = some a) :
    SameMemoryBut a (storeV i a s) s t := by
  cases i with
  | sta o | stx o | sty o => cases hi; exact sameMemoryBut_storeShape ha h
  | inc o | dec o | asl o | lsr o | rol o | ror o =>
    cases hi
    simp only [exec, execInc, execDec, execAsl, execLsr, execRol, execRor] at h
    exact sameMemoryBut_modifyShape ha h
  | _ => cases hi

end

/-- Settles O36: an instruction reaches a memory by a store alone. -/
theorem loadFrame : Obligations.LoadFrame :=
  fun _ _ _ hexec hi => sameMemory_exec hexec hi

/-- Settles O37: the one bus write is made at the effective address, for a read-modify-write in the state its read left. -/
theorem storeFrame : Obligations.StoreFrame :=
  fun _ _ _ _ hi hexec _ ha => sameMemoryBut_exec hi hexec ha

end Sys2Proof.Proofs
end

section
/-! Loads, stores and transfers: a read instruction changes the CPU on the state its one read left, a store is its one write, a
transfer touches the CPU alone. -/

namespace Sys2Proof.Proofs

open Sys2Proof.Machine Sys2Proof.Laws

/-- Settles O4: each word is the encoding of its instruction, which is well formed, with what follows it (`decode_eq_ok_iff`). -/
theorem sampleWordsDecode : Obligations.SampleWordsDecode := by
  simp only [Obligations.SampleWordsDecode, decode_eq_ok_iff]
  decide

/-! ## The status byte at the end of an instruction -/

/-- The end of a slot sets U and no other flag (R33, R141). -/
theorem getFlag_setUnused (p : Byte) (f : Flag) : getFlag (setFlag p .unused true) f = sameFlags p f := by
  rw [getFlag_setFlag]
  cases f <;> rfl

/-- Bit 7 is the sign of a byte. -/
theorem getLsbD_seven (v : Byte) : v.getLsbD 7 = decide (128 ≤ v.toNat) :=
  (BitVec.msb_eq_getLsbD_last v).symm.trans (BitVec.msb_eq_decide v)

theorem getFlag_setUnused_setNZ (p v : Byte) (f : Flag) :
    getFlag (setFlag (setNZ p v) .unused true) f = nzFlags p v f := by
  rw [getFlag_setUnused]
  cases f with
  | unused => rfl
  | negative => exact (getFlag_setNZ p v .negative).trans (getLsbD_seven v)
  | _ => exact getFlag_setNZ p v _

/-! ## Read instructions -/

/-- An effect that reads and writes the CPU's registers alone: on any other state with the same CPU it gives the same CPU. -/
def ActsOnCpu (f : State → State) : Prop := ∀ s u : State, f (setCpu s.cpu u) = setCpu (f s).cpu u

section

variable {i : Instr} {o : Operand} {s : State}

/-- A well-formed read instruction has no JMP pointer for its operand (R113). -/
theorem readOperand_ne_ind (hw : i.wellFormed = true) (hi : readOperand i = some o) (w : Addr) : o ≠ .ind w := by
  rintro rfl
  cases i with
  | lda o | ldx o | ldy o | adc o | sbc o | and o | ora o | eor o | bit o | cmp o | cpx o | cpy o => cases hi; cases hw
  | _ => cases hi

theorem crossExtra_of_accepts (h : acceptsExtra i = true) : crossExtra i (operandCrossed o s) = crossCycle o s := by
  rw [crossExtra, h, Bool.and_true, crossCycle]

theorem crossExtra_of_not_accepts (h : acceptsExtra i = false) (b : Bool) : crossExtra i b = 0 := by
  rw [crossExtra, h, Bool.and_false]
  rfl

/-- A read instruction whose operand access is taken leaves the state of its one read, with the CPU its effect gives on the
operand byte. -/
theorem readShape_eq_setCpu {f : Byte → State → State} (hf : ∀ m, ActsOnCpu (f m)) (ho : ∀ w, o ≠ .ind w)
    (hm : OperandMapped o s) :
    readShape i o f s =
      .next (setCpu (finish i (crossExtra i (operandCrossed o s)) (f (operandRead o s).1 (advance i s))).cpu
        (operandRead o s).2) := by
  have hadvance : advance i (operandRead o s).2 = setCpu (advance i s).cpu (operandRead o s).2 := by
    rw [advance_eq, operandRead_cpu, advance_eq, setCpu_cpu]
  rw [readShape_eq i o f s ho hm, hadvance, hf]
  rfl

/-- A read instruction that accepts the page-cross cycle completes with the CPU and the flags of its effect (R142). -/
theorem completes_read {f : Byte → State → State} {c : Cpu} {p : Byte} {flags : Flag → Bool}
    (hexec : exec i s = readShape i o f s) (hf : ∀ m, ActsOnCpu (f m)) (hx : acceptsExtra i = true)
    (hi : readOperand i = some o) (hw : i.wellFormed = true) (hm : OperandMapped o s)
    (hc : (finish i (crossCycle o s) (f (operandRead o s).1 (advance i s))).cpu = { c with p := p })
    (hflags : ∀ g, getFlag p g = flags g) : Completes i s (operandRead o s).2 c flags :=
  ⟨p, by rw [hexec, readShape_eq_setCpu hf (readOperand_ne_ind hw hi) hm, crossExtra_of_accepts hx, hc], hflags⟩

/-! ## Instructions without a bus access -/

/-- An instruction without a bus access completes in every state, on the CPU its effect gives. -/
theorem completes_implied {f : State → State} {c : Cpu} {p : Byte} {flags : Flag → Bool}
    (hexec : exec i s = impliedShape i f s) (hf : ActsOnCpu f)
    (hc : (finish i 0 (f (advance i s))).cpu = { c with p := p }) (hflags : ∀ g, getFlag p g = flags g) :
    Completes i s s c flags := by
  have hcpu : f (advance i s) = setCpu (f (advance i s)).cpu s := hf (advance i s) s
  refine ⟨p, ?_, hflags⟩
  rw [hexec, impliedShape, ← hc, hcpu]
  rfl

/-! ## Store instructions -/

/-- A store that accepts no page-cross cycle completes with its one write; the write alone sets the NMI latch (R119). -/
theorem completes_store {v : Byte} {a : Addr} (hexec : exec i s = storeShape i o v s) (hx : acceptsExtra i = false)
    (ha : effectiveAddr o s = some a) (hm : Mapped s a) :
    Completes i s (busStore a v s)
      { nextCpu i 0 s.cpu with nmiPending := s.cpu.nmiPending || storeNmi a v s } (sameFlags s.cpu.p) := by
  refine ⟨_, ?_, getFlag_setUnused s.cpu.p⟩
  rw [hexec, storeShape_eq i o v s a ha hm, crossExtra_of_not_accepts hx, advance_eq, busStore_setCpu]
  rfl

end

/-- Settles O15: each load writes its register and the flags on the state its read left (`completes_read`). -/
theorem loadsComplete : Obligations.LoadsComplete := by
  intro o s hm
  have hnz := getFlag_setUnused_setNZ s.cpu.p (operandRead o s).1
  refine ⟨fun hw => ?lda, fun hw => ?ldx, fun hw => ?ldy⟩
  case lda =>
    exact completes_read (f := fun m u => setP (setNZ u.cpu.p m) (setA m u)) rfl (fun _ _ _ => rfl) rfl rfl hw hm rfl hnz
  case ldx =>
    exact completes_read (f := fun m u => setP (setNZ u.cpu.p m) (setX m u)) rfl (fun _ _ _ => rfl) rfl rfl hw hm rfl hnz
  case ldy =>
    exact completes_read (f := fun m u => setP (setNZ u.cpu.p m) (setY m u)) rfl (fun _ _ _ => rfl) rfl rfl hw hm rfl hnz

/-- Settles O16: a form with an effective address is a store's one write there (`completes_store`). -/
theorem storesComplete : Obligations.StoresComplete :=
  fun _ _ _ ha hm =>
    ⟨fun _ => completes_store rfl rfl ha hm, fun _ => completes_store rfl rfl ha hm, fun _ => completes_store rfl rfl ha hm⟩

/-- Settles O17: a transfer's slot is register writes alone, and only TXS computes no flag (`completes_implied`). -/
theorem transfersComplete : Obligations.TransfersComplete := by
  intro s
  have hnz := getFlag_setUnused_setNZ s.cpu.p
  refine ⟨⟨⟨rfl, rfl⟩, ?tax⟩, ⟨⟨rfl, rfl⟩, ?tay⟩, ⟨⟨rfl, rfl⟩, ?tsx⟩, ⟨⟨rfl, rfl⟩, ?txa⟩, ⟨⟨rfl, rfl⟩, ?txs⟩,
    ⟨⟨rfl, rfl⟩, ?tya⟩⟩
  case tax =>
    exact completes_implied (f := fun u => setP (setNZ u.cpu.p u.cpu.a) (setX u.cpu.a u)) rfl (fun _ _ => rfl) rfl (hnz _)
  case tay =>
    exact completes_implied (f := fun u => setP (setNZ u.cpu.p u.cpu.a) (setY u.cpu.a u)) rfl (fun _ _ => rfl) rfl (hnz _)
  case tsx =>
    exact completes_implied (f := fun u => setP (setNZ u.cpu.p u.cpu.sp) (setX u.cpu.sp u)) rfl (fun _ _ => rfl) rfl (hnz _)
  case txa =>
    exact completes_implied (f := fun u => setP (setNZ u.cpu.p u.cpu.x) (setA u.cpu.x u)) rfl (fun _ _ => rfl) rfl (hnz _)
  case txs =>
    exact completes_implied (f := fun u => setSp u.cpu.x u) rfl (fun _ _ => rfl) rfl (getFlag_setUnused s.cpu.p)
  case tya =>
    exact completes_implied (f := fun u => setP (setNZ u.cpu.p u.cpu.y) (setA u.cpu.y u)) rfl (fun _ _ => rfl) rfl (hnz _)

end Sys2Proof.Proofs
end

section
/-! Arithmetic and logic: the model's flag computations as truth tables on numbers, the two shapes of instruction that charge no
page-cross cycle, and the instructions of 42_arithmetic_logic.md assembled from them. -/

namespace Sys2Proof.Proofs

open Sys2Proof.Machine Sys2Proof.Laws

/-! ## The adder (R171) -/

/-- The intermediate sum does not overflow its 16 bits. -/
theorem toNat_adderSum (a b : Byte) (c : Bool) : (adderSum a b c).toNat = a.toNat + b.toNat + c.toNat := by
  cases c <;> simp [adderSum] <;> omega

theorem adderResult_eq (a b : Byte) (c : Bool) : adderResult a b c = BitVec.ofNat 8 (a.toNat + b.toNat + c.toNat) := by
  apply BitVec.eq_of_toNat_eq
  rw [adderResult, BitVec.toNat_setWidth, toNat_adderSum, BitVec.toNat_ofNat]

theorem toNat_adderResult (a b : Byte) (c : Bool) :
    (adderResult a b c).toNat = (a.toNat + b.toNat + c.toNat) % 256 := by
  rw [adderResult_eq, BitVec.toNat_ofNat]

/-- Bit 8 of the intermediate sum is the carry out of eight bits: the sum is below 512. -/
theorem getLsbD_eight_adderSum (a b : Byte) (c : Bool) :
    (adderSum a b c).getLsbD 8 = decide (256 ≤ a.toNat + b.toNat + c.toNat) := by
  have hc : c.toNat ≤ 1 := c.toNat_le
  rw [BitVec.getLsbD, Nat.testBit_eq_decide_div_mod_eq, toNat_adderSum, decide_eq_decide]
  omega

/-- Both operands have one sign and the result the other exactly when the signed sum leaves -128..127. -/
theorem getLsbD_seven_overflow (a b : Byte) (c : Bool) :
    ((a ^^^ adderResult a b c) &&& (b ^^^ adderResult a b c)).getLsbD 7 =
      decide (a.toInt + b.toInt + c.toNat < -128 ∨ 127 < a.toInt + b.toInt + c.toNat) := by
  have hc : c.toNat ≤ 1 := c.toNat_le
  rw [BitVec.getLsbD_and, BitVec.getLsbD_xor, BitVec.getLsbD_xor, getLsbD_seven, getLsbD_seven, getLsbD_seven,
    toNat_adderResult, Bool.eq_iff_iff]
  simp only [Bool.and_eq_true, bne_iff_ne, ne_eq, decide_eq_decide, decide_eq_true_eq, BitVec.toInt_eq_toNat_cond]
  omega

theorem getFlag_adderFlags (p a b : Byte) (c : Bool) (f : Flag) :
    getFlag (adderFlags p a b c) f =
      match f with
      | .carry => (adderSum a b c).getLsbD 8
      | .overflow => ((a ^^^ adderResult a b c) &&& (b ^^^ adderResult a b c)).getLsbD 7
      | f => getFlag (setNZ p (adderResult a b c)) f := by
  cases f <;> simp [adderFlags]

/-- The adder's status byte is the truth table of the addition. -/
theorem getFlag_setUnused_adderFlags (p a b : Byte) (c : Bool) (f : Flag) :
    getFlag (setFlag (adderFlags p a b c) .unused true) f = addFlags p a b c f := by
  have hnz := getFlag_setUnused_setNZ p (adderResult a b c) f
  rw [getFlag_setUnused] at hnz ⊢
  cases f with
  | unused => rfl
  | carry => exact (getFlag_adderFlags p a b c .carry).trans (getLsbD_eight_adderSum a b c)
  | overflow => exact (getFlag_adderFlags p a b c .overflow).trans (getLsbD_seven_overflow a b c)
  | zero =>
    refine (getFlag_adderFlags p a b c .zero).trans (hnz.trans (decide_eq_decide.2 ?_))
    rw [BitVec.toNat_eq, toNat_adderResult]
    rfl
  | negative =>
    refine (getFlag_adderFlags p a b c .negative).trans (hnz.trans ?_)
    rw [nzFlags, toNat_adderResult]
    rfl
  | interrupt | decimal | brk => exact (getFlag_adderFlags p a b c _).trans hnz

/-! ## Subtraction is addition of the inverted operand (R174) -/

theorem toInt_not_byte (m : Byte) : (~~~m).toInt = -m.toInt - 1 := by
  rw [BitVec.toInt_eq_toNat_cond, BitVec.toInt_eq_toNat_cond, BitVec.toNat_not]
  split <;> split <;> omega

/-- With the operand inverted, the adder's sum is the difference in nine bits. -/
theorem sum_not_eq_difference (a m : Byte) (c : Bool) :
    a.toNat + (~~~m).toNat + c.toNat = a.toNat + 256 - m.toNat - (!c).toNat := by
  rw [BitVec.toNat_not]
  cases c <;> simp <;> omega

theorem addFlags_not (p a m : Byte) (c : Bool) (f : Flag) : addFlags p a (~~~m) c f = subtractFlags p a m c f := by
  have hsum := sum_not_eq_difference a m c
  cases f with
  | carry =>
    simp only [addFlags, subtractFlags, hsum, decide_eq_decide]
    omega
  | zero | negative => simp only [addFlags, subtractFlags, hsum]
  | overflow =>
    have hborrow : (c.toNat : Int) = 1 - (!c).toNat := by cases c <;> rfl
    simp only [addFlags, subtractFlags, toInt_not_byte, hborrow, decide_eq_decide]
    omega
  | _ => rfl

/-! ## The comparator and BIT (R172, R178) -/

theorem getFlag_compareFlags (p reg m : Byte) (f : Flag) :
    getFlag (compareFlags p reg m) f =
      match f with
      | .carry => m.ule reg
      | .zero => reg == m
      | .negative => (reg - m).getLsbD 7
      | f => getFlag p f := by
  cases f <;> simp [compareFlags]

theorem getFlag_setUnused_compareFlags (p reg m : Byte) (f : Flag) :
    getFlag (setFlag (compareFlags p reg m) .unused true) f = compareTable p reg m f := by
  rw [getFlag_setUnused]
  cases f with
  | unused => rfl
  | negative =>
    have hdiff : (reg - m).toNat = (reg.toNat + 256 - m.toNat) % 256 := by
      rw [BitVec.toNat_sub]; omega
    refine (getFlag_compareFlags p reg m .negative).trans ((getLsbD_seven _).trans ?_)
    rw [hdiff]
    rfl
  | _ => exact getFlag_compareFlags p reg m _

/-- Bit 6 of a byte, below its sign. -/
theorem getLsbD_six (m : Byte) : m.getLsbD 6 = decide (64 ≤ m.toNat % 128) := by
  rw [BitVec.getLsbD, Nat.testBit_eq_decide_div_mod_eq, decide_eq_decide]
  omega

theorem getFlag_bitFlags (p a m : Byte) (f : Flag) :
    getFlag (bitFlags p a m) f =
      match f with
      | .zero => a &&& m == 0#8
      | .negative => m.getLsbD 7
      | .overflow => m.getLsbD 6
      | f => getFlag p f := by
  cases f <;> simp [bitFlags]

theorem getFlag_setUnused_bitFlags (p a m : Byte) (f : Flag) :
    getFlag (setFlag (bitFlags p a m) .unused true) f = bitTable p a m f := by
  rw [getFlag_setUnused]
  cases f with
  | unused => rfl
  | negative => exact (getFlag_bitFlags p a m .negative).trans (getLsbD_seven m)
  | overflow => exact (getFlag_bitFlags p a m .overflow).trans (getLsbD_six m)
  | _ => exact getFlag_bitFlags p a m _

/-! ## Instructions that charge base cycles only (R119) -/

section

variable {i : Instr} {o : Operand} {s : State}

/-- A read instruction that accepts no page-cross cycle completes with the CPU and the flags of its effect. -/
theorem completes_read_base {f : Byte → State → State} {c : Cpu} {p : Byte} {flags : Flag → Bool}
    (hexec : exec i s = readShape i o f s) (hf : ∀ m, ActsOnCpu (f m)) (hx : acceptsExtra i = false)
    (hi : readOperand i = some o) (hw : i.wellFormed = true) (hm : OperandMapped o s)
    (hc : (finish i 0 (f (operandRead o s).1 (advance i s))).cpu = { c with p := p })
    (hflags : ∀ g, getFlag p g = flags g) : Completes i s (operandRead o s).2 c flags :=
  ⟨p, by rw [hexec, readShape_eq_setCpu hf (readOperand_ne_ind hw hi) hm, crossExtra_of_not_accepts hx, hc], hflags⟩

/-- A read-modify-write of memory whose access is taken completes with one read and one write, of the byte `v` computed from
the one read; the write alone sets the NMI latch (R116, decision D3). -/
theorem completes_modify {f g : Byte → Cpu → Byte} {a : Addr} {v : Byte} {flags : Flag → Bool}
    (hexec : exec i s = modifyShape i o f g s) (hx : acceptsExtra i = false) (ha : effectiveAddr o s = some a)
    (hm : Mapped s a) (hv : f (busValue a s).1 (advance i s).cpu = v)
    (hflags : ∀ h, getFlag (setFlag (g (busValue a s).1 (advance i s).cpu) .unused true) h = flags h) :
    Completes i s (busStore a v (busValue a s).2)
      { nextCpu i 0 s.cpu with nmiPending := s.cpu.nmiPending || storeNmi a v (busValue a s).2 } flags := by
  refine ⟨_, ?_, hflags⟩
  rw [hexec, modifyShape_memory i o f g s a ha hm, hv, crossExtra_of_not_accepts hx, advance_eq i (busValue a s).2,
    busStore_setCpu, busValue_cpu]
  rfl

end

/-! ## The instructions -/

/-- Settles O18: ADC is the adder on the operand (`getFlag_setUnused_adderFlags`), and SBC the adder on its inverse, whose sum
is the difference (`sum_not_eq_difference`, `addFlags_not`). -/
theorem addSubtractComplete : Obligations.AddSubtractComplete := by
  intro o s hm hw
  refine ⟨?adc, ?sbc⟩
  case adc =>
    rw [← adderResult_eq]
    exact completes_read
      (f := fun m u => setP (adderFlags u.cpu.p u.cpu.a m (getFlag u.cpu.p .carry))
        (setA (adderResult u.cpu.a m (getFlag u.cpu.p .carry)) u))
      rfl (fun _ _ _ => rfl) rfl rfl hw hm rfl (getFlag_setUnused_adderFlags s.cpu.p s.cpu.a _ _)
  case sbc =>
    rw [← sum_not_eq_difference, ← adderResult_eq]
    exact completes_read
      (f := fun m u => setP (adderFlags u.cpu.p u.cpu.a (~~~m) (getFlag u.cpu.p .carry))
        (setA (adderResult u.cpu.a (~~~m) (getFlag u.cpu.p .carry)) u))
      rfl (fun _ _ _ => rfl) rfl rfl hw hm rfl
      (fun f => (getFlag_setUnused_adderFlags s.cpu.p s.cpu.a _ _ f).trans (addFlags_not s.cpu.p s.cpu.a _ _ f))

/-- Settles O19: AND, ORA and EOR write A and its Z and N (`completes_read`); BIT writes flags alone and charges no page-cross
cycle (`completes_read_base`). -/
theorem logicComplete : Obligations.LogicComplete := by
  intro o s hm
  have hnz := getFlag_setUnused_setNZ s.cpu.p
  refine ⟨fun hw => ⟨?and, ?ora, ?eor⟩, fun hw => ?bit⟩
  case and =>
    exact completes_read (f := fun m u => setP (setNZ u.cpu.p (u.cpu.a &&& m)) (setA (u.cpu.a &&& m) u))
      rfl (fun _ _ _ => rfl) rfl rfl hw hm rfl (hnz _)
  case ora =>
    exact completes_read (f := fun m u => setP (setNZ u.cpu.p (u.cpu.a ||| m)) (setA (u.cpu.a ||| m) u))
      rfl (fun _ _ _ => rfl) rfl rfl hw hm rfl (hnz _)
  case eor =>
    exact completes_read (f := fun m u => setP (setNZ u.cpu.p (u.cpu.a ^^^ m)) (setA (u.cpu.a ^^^ m) u))
      rfl (fun _ _ _ => rfl) rfl rfl hw hm rfl (hnz _)
  case bit =>
    exact completes_read_base (f := fun m u => setP (bitFlags u.cpu.p u.cpu.a m) u)
      rfl (fun _ _ _ => rfl) rfl rfl hw hm rfl (getFlag_setUnused_bitFlags s.cpu.p s.cpu.a _)

/-- Settles O20: a compare writes the comparator's flags alone; CMP alone accepts the page-cross cycle. -/
theorem comparesComplete : Obligations.ComparesComplete := by
  intro o s hm
  have hcompare := getFlag_setUnused_compareFlags s.cpu.p
  refine ⟨fun hw => ?cmp, fun hw => ?cpx, fun hw => ?cpy⟩
  case cmp =>
    exact completes_read (f := fun m u => setP (compareFlags u.cpu.p u.cpu.a m) u)
      rfl (fun _ _ _ => rfl) rfl rfl hw hm rfl (hcompare s.cpu.a _)
  case cpx =>
    exact completes_read_base (f := fun m u => setP (compareFlags u.cpu.p u.cpu.x m) u)
      rfl (fun _ _ _ => rfl) rfl rfl hw hm rfl (hcompare s.cpu.x _)
  case cpy =>
    exact completes_read_base (f := fun m u => setP (compareFlags u.cpu.p u.cpu.y m) u)
      rfl (fun _ _ _ => rfl) rfl rfl hw hm rfl (hcompare s.cpu.y _)

/-- Settles O21: INC and DEC are read-modify-writes whose flags are their result's Z and N (`completes_modify`). -/
theorem incDecMemoryComplete : Obligations.IncDecMemoryComplete := by
  intro o s a ha hm _
  have hnz := getFlag_setUnused_setNZ s.cpu.p
  refine ⟨?inc, ?dec⟩
  case inc =>
    exact completes_modify (f := fun m _ => m + 1#8) (g := fun m c => setNZ c.p (m + 1#8)) rfl rfl ha hm rfl (hnz _)
  case dec =>
    exact completes_modify (f := fun m _ => m - 1#8) (g := fun m c => setNZ c.p (m - 1#8)) rfl rfl ha hm rfl (hnz _)

/-- Settles O22: an index step's slot is register writes alone (`completes_implied`). -/
theorem incDecIndexComplete : Obligations.IncDecIndexComplete := by
  intro s
  have hnz := getFlag_setUnused_setNZ s.cpu.p
  refine ⟨⟨⟨rfl, rfl⟩, ?inx⟩, ⟨⟨rfl, rfl⟩, ?iny⟩, ⟨⟨rfl, rfl⟩, ?dex⟩, ⟨⟨rfl, rfl⟩, ?dey⟩⟩
  case inx =>
    exact completes_implied (f := fun u => setP (setNZ u.cpu.p (u.cpu.x + 1#8)) (setX (u.cpu.x + 1#8) u))
      rfl (fun _ _ => rfl) rfl (hnz _)
  case iny =>
    exact completes_implied (f := fun u => setP (setNZ u.cpu.p (u.cpu.y + 1#8)) (setY (u.cpu.y + 1#8) u))
      rfl (fun _ _ => rfl) rfl (hnz _)
  case dex =>
    exact completes_implied (f := fun u => setP (setNZ u.cpu.p (u.cpu.x - 1#8)) (setX (u.cpu.x - 1#8) u))
      rfl (fun _ _ => rfl) rfl (hnz _)
  case dey =>
    exact completes_implied (f := fun u => setP (setNZ u.cpu.p (u.cpu.y - 1#8)) (setY (u.cpu.y - 1#8) u))
      rfl (fun _ _ => rfl) rfl (hnz _)

end Sys2Proof.Proofs
end

section
/-! Shifts and rotates: the four results and the bit shifted out as arithmetic on the operand's number, and the instructions of
43_shift_rotate.md assembled from them on the accumulator and on memory. -/

namespace Sys2Proof.Proofs

open Sys2Proof.Machine Sys2Proof.Laws

/-! ## The results (R201 to R204) -/

theorem aslResult_eq (m : Byte) : aslResult m = BitVec.ofNat 8 (2 * m.toNat) := by
  apply BitVec.eq_of_toNat_eq
  rw [aslResult, BitVec.toNat_shiftLeft, Nat.shiftLeft_eq, BitVec.toNat_ofNat, Nat.mul_comm, pow_one]

theorem lsrResult_eq (m : Byte) : lsrResult m = BitVec.ofNat 8 (m.toNat / 2) := by
  apply BitVec.eq_of_toNat_eq
  rw [lsrResult, BitVec.toNat_ushiftRight, Nat.shiftRight_eq_div_pow, BitVec.toNat_ofNat]
  omega

/-- The old carry enters bit 0, which the shift leaves clear: the disjunction is a sum. -/
theorem rolResult_eq (m : Byte) (c : Bool) : rolResult m c = BitVec.ofNat 8 (2 * m.toNat + c.toNat) := by
  have hdisjoint := Nat.two_pow_add_eq_or_of_lt (i := 1) (show c.toNat < 2 ^ 1 from c.toNat_lt) (m.toNat % 128)
  have hlow : (if c then 1#8 else 0#8).toNat = c.toNat := by cases c <;> rfl
  have hshift : m.toNat <<< 1 % 2 ^ 8 = 2 ^ 1 * (m.toNat % 128) := by rw [Nat.shiftLeft_eq]; omega
  apply BitVec.eq_of_toNat_eq
  rw [rolResult, BitVec.toNat_or, BitVec.toNat_shiftLeft, hlow, hshift, ← hdisjoint, BitVec.toNat_ofNat]
  have hc := c.toNat_lt
  omega

/-- The old carry enters bit 7, which the shift leaves clear: the disjunction is a sum. -/
theorem rorResult_eq (m : Byte) (c : Bool) : rorResult m c = BitVec.ofNat 8 (m.toNat / 2 + 128 * c.toNat) := by
  have hdisjoint := Nat.two_pow_add_eq_or_of_lt (i := 7) (show m.toNat / 2 < 2 ^ 7 by omega) c.toNat
  have hhigh : (if c then 0x80#8 else 0#8).toNat = 2 ^ 7 * c.toNat := by cases c <;> rfl
  apply BitVec.eq_of_toNat_eq
  rw [rorResult, BitVec.toNat_or, BitVec.toNat_ushiftRight, Nat.shiftRight_eq_div_pow, hhigh, pow_one, ← hdisjoint,
    BitVec.toNat_ofNat]
  have hc := c.toNat_lt
  omega

/-! ## The flags -/

/-- Bit 0 of a byte is its parity. -/
theorem getLsbD_zero (m : Byte) : m.getLsbD 0 = decide (m.toNat % 2 = 1) :=
  Nat.testBit_zero m.toNat

/-- Z and N come from the result and C from the bit that was written before them. -/
theorem getFlag_setUnused_setNZ_carry (p r : Byte) (b : Bool) (f : Flag) :
    getFlag (setFlag (setNZ (setFlag p .carry b) r) .unused true) f = shiftFlags p r b f := by
  rw [getFlag_setUnused_setNZ]
  cases f with
  | unused | zero | negative => rfl
  | _ => exact getFlag_setFlag p .carry b _

theorem getFlag_setUnused_shiftLeftFlags (p m r : Byte) (f : Flag) :
    getFlag (setFlag (shiftLeftFlags p m r) .unused true) f = shiftFlags p r (decide (128 ≤ m.toNat)) f := by
  rw [shiftLeftFlags, getFlag_setUnused_setNZ_carry, getLsbD_seven]

theorem getFlag_setUnused_shiftRightFlags (p m r : Byte) (f : Flag) :
    getFlag (setFlag (shiftRightFlags p m r) .unused true) f = shiftFlags p r (decide (m.toNat % 2 = 1)) f := by
  rw [shiftRightFlags, getFlag_setUnused_setNZ_carry, getLsbD_zero]

/-! ## The instructions -/

theorem exec_asl (o : Operand) (s : State) :
    exec (.asl o) s =
      modifyShape (.asl o) o (fun m _ => aslResult m) (fun m c => shiftLeftFlags c.p m (aslResult m)) s := rfl

theorem exec_lsr (o : Operand) (s : State) :
    exec (.lsr o) s =
      modifyShape (.lsr o) o (fun m _ => lsrResult m) (fun m c => shiftRightFlags c.p m (lsrResult m)) s := rfl

theorem exec_rol (o : Operand) (s : State) :
    exec (.rol o) s =
      modifyShape (.rol o) o (fun m c => rolResult m (getFlag c.p .carry))
        (fun m c => shiftLeftFlags c.p m (rolResult m (getFlag c.p .carry))) s := rfl

theorem exec_ror (o : Operand) (s : State) :
    exec (.ror o) s =
      modifyShape (.ror o) o (fun m c => rorResult m (getFlag c.p .carry))
        (fun m c => shiftRightFlags c.p m (rorResult m (getFlag c.p .carry))) s := rfl

/-- A read-modify-write of the accumulator completes in every state without a bus access, on the byte `v` computed from A. -/
theorem completes_modify_acc {i : Instr} {s : State} {f g : Byte → Cpu → Byte} {v : Byte} {flags : Flag → Bool}
    (hexec : exec i s = modifyShape i .acc f g s) (hv : f s.cpu.a (advance i s).cpu = v)
    (hflags : ∀ h, getFlag (setFlag (g s.cpu.a (advance i s).cpu) .unused true) h = flags h) :
    Completes i s s { nextCpu i 0 s.cpu with a := v } flags := by
  refine ⟨_, ?_, hflags⟩
  rw [hexec, modifyShape_acc, hv]
  rfl

/-- Settles O23: the four results are arithmetic on A (`rolResult_eq` and its companions), and the slot writes A and the flags
alone (`completes_modify_acc`). -/
theorem accumulatorShiftsComplete : Obligations.AccumulatorShiftsComplete := by
  rintro s n c rfl rfl
  simp only [← aslResult_eq, ← lsrResult_eq, ← rolResult_eq, ← rorResult_eq]
  have hleft := getFlag_setUnused_shiftLeftFlags s.cpu.p s.cpu.a
  have hright := getFlag_setUnused_shiftRightFlags s.cpu.p s.cpu.a
  refine ⟨⟨⟨rfl, rfl⟩, ?asl⟩, ⟨⟨rfl, rfl⟩, ?lsr⟩, ⟨⟨rfl, rfl⟩, ?rol⟩, ⟨⟨rfl, rfl⟩, ?ror⟩⟩
  case asl => exact completes_modify_acc (exec_asl .acc s) rfl (hleft _)
  case lsr => exact completes_modify_acc (exec_lsr .acc s) rfl (hright _)
  case rol => exact completes_modify_acc (exec_rol .acc s) rfl (hleft _)
  case ror => exact completes_modify_acc (exec_ror .acc s) rfl (hright _)

/-- Settles O24: the same results and flags, of the byte the one read gives (`completes_modify`). -/
theorem memoryShiftsComplete : Obligations.MemoryShiftsComplete := by
  rintro o s s1 a m n c ha hm - hread rfl rfl
  obtain ⟨rfl, rfl⟩ : (busValue a s).1 = m ∧ (busValue a s).2 = s1 := Prod.ext_iff.1 hread
  simp only [← aslResult_eq, ← lsrResult_eq, ← rolResult_eq, ← rorResult_eq]
  have hleft := getFlag_setUnused_shiftLeftFlags s.cpu.p (busValue a s).1
  have hright := getFlag_setUnused_shiftRightFlags s.cpu.p (busValue a s).1
  refine ⟨?asl, ?lsr, ?rol, ?ror⟩
  case asl => exact completes_modify (exec_asl o s) rfl ha hm rfl (hleft _)
  case lsr => exact completes_modify (exec_lsr o s) rfl ha hm rfl (hright _)
  case rol => exact completes_modify (exec_rol o s) rfl ha hm rfl (hleft _)
  case ror => exact completes_modify (exec_ror o s) rfl ha hm rfl (hright _)

end Sys2Proof.Proofs
end

section
/-! Control transfer: the two bytes of a word as numbers, the branch and jump shapes, what each stack effect does to RAM, SP and
PC, and the instructions of 44_control_transfer.md assembled from them. -/

namespace Sys2Proof.Proofs

open Sys2Proof.Machine Sys2Proof.Laws

/-! ## The bytes of a word -/

theorem toNat_loByte (w : Addr) : (loByte w).toNat = w.toNat % 256 := by
  rw [loByte, BitVec.extractLsb'_toNat, Nat.shiftRight_zero]

theorem toNat_hiByte (w : Addr) : (hiByte w).toNat = w.toNat / 256 := by
  rw [hiByte, BitVec.extractLsb'_toNat, Nat.shiftRight_eq_div_pow]
  omega

/-- Two addresses have the same high byte when they lie in the same page. -/
theorem hiByte_eq_iff (a b : Addr) : hiByte a = hiByte b ↔ a.toNat / 256 = b.toNat / 256 := by
  rw [← BitVec.toNat_inj, toNat_hiByte, toNat_hiByte]

/-! ## Branches (R210) -/

theorem branchTarget_eq (next : Addr) (d : Byte) : branchTarget next d = next + BitVec.ofInt 16 d.toInt := rfl

/-- A taken branch charges 3 cycles, or 4 when its target's high byte differs, which is another page (decision D6). -/
theorem takenCycles_eq (target next : Addr) :
    2 + (1 + if hiByte target != hiByte next then 1 else 0) =
      3 + if target.toNat / 256 = next.toNat / 256 then 0 else 1 := by
  by_cases h : hiByte target = hiByte next
  · simp [h, (hiByte_eq_iff target next).1 h]
  · simp [h, mt (hiByte_eq_iff target next).2 h]

/-- A branch completes on its condition alone: its two bytes are skipped, and PC and the cycles are `branchCpu`'s. -/
theorem completes_branch {i : Instr} {d : Byte} {cond : Bool} {s : State} (hexec : exec i s = branchShape i d cond s)
    (hsize : instrSize i = 2) (hbase : baseCycles i = 2) :
    Completes i s s (branchCpu d cond s.cpu) (sameFlags s.cpu.p) := by
  refine ⟨_, ?_, getFlag_setUnused s.cpu.p⟩
  rw [hexec]
  cases cond with
  | false =>
    simp only [branchShape, advance_eq, finish_eq, hsize, hbase]
    rfl
  | true =>
    simp only [branchShape, advance_eq, finish_eq, hsize, hbase, setCpu_cpu, branchTarget_eq, takenCycles_eq]
    rfl

/-- Settles O25: the eight branches are one shape, each on its own flag (`completes_branch`). -/
theorem branchesComplete : Obligations.BranchesComplete := by
  rintro d s c z n v rfl rfl rfl rfl
  refine ⟨⟨rfl, ?bcc⟩, ⟨rfl, ?bcs⟩, ⟨rfl, ?beq⟩, ⟨rfl, ?bmi⟩, ⟨rfl, ?bne⟩, ⟨rfl, ?bpl⟩, ⟨rfl, ?bvc⟩, ⟨rfl, ?bvs⟩⟩
  all_goals exact completes_branch rfl rfl rfl

/-! ## Jumps (R113, R219) -/

/-- The second byte of a JMP pointer: the low byte wraps inside the page. -/
theorem pointerHigh_eq {w w' : Addr} (h : w'.toNat = w.toNat / 256 * 256 + (w.toNat + 1) % 256) : pointerHigh w = w' := by
  have hlo : loByte w' = loByte w + 1#8 := by
    apply BitVec.eq_of_toNat_eq
    rw [BitVec.toNat_add, toNat_loByte, toNat_loByte, h, BitVec.toNat_ofNat]
    omega
  have hhi : hiByte w' = hiByte w := by
    rw [hiByte_eq_iff]
    omega
  rw [pointerHigh, ← hlo, ← hhi, leWord_bytes]

/-- Two reads that are taken give a word, low byte first; the CPU's registers have no part in them. -/
theorem readPair_setCpu {a b : Addr} {s s1 s2 : State} {l h : Byte} (c : Cpu) (ha : Mapped s a) (hb : Mapped s b)
    (hl : busValue a s = (l, s1)) (hh : busValue b s1 = (h, s2)) :
    readPair a b (setCpu c s) = .ok (leWord l h) (setCpu c s2) := by
  have hb1 : Mapped s1 b := by
    have hmapped := mapped_busValue (b := a) hb
    rwa [hl] at hmapped
  rw [readPair, cpuRead_mapped ((mapped_setCpu s c a).2 ha), busValue_setCpu, hl, busBind_ok,
    cpuRead_mapped ((mapped_setCpu s1 c b).2 hb1), busValue_setCpu, hh, busBind_ok]

/-- A JMP whose operand form resolves to an address continues there, on the state the resolution left. -/
theorem execJmp_eq {o : Operand} {s u : State} {ea : Addr} {crossed : Bool}
    (h : resolve o (advance (.jmp o) s) = .ok ⟨.memory ea, crossed⟩ u) :
    execJmp o s = .next (finish (.jmp o) 0 (setPc ea u)) := by
  rw [execJmp, h]
  rfl

/-- Settles O26: an absolute operand resolves without a read, a pointer with the two of `readPair_setCpu`. -/
theorem jumpCompletes : Obligations.JumpCompletes := by
  refine ⟨fun w s => ⟨rfl, rfl, ?abs⟩, fun w w' s s1 s2 l h hw ha hb hl hh => ⟨rfl, rfl, ?ind⟩⟩
  case abs =>
    exact ⟨_, execJmp_eq (u := advance (.jmp (.abs w)) s) (crossed := false) rfl, getFlag_setUnused s.cpu.p⟩
  case ind =>
    have hresolve : resolve (.ind w) (advance (.jmp (.ind w)) s) =
        .ok ⟨.memory (leWord l h), false⟩ (setCpu (advance (.jmp (.ind w)) s).cpu s2) := by
      rw [resolve, pointerHigh_eq hw, advance_eq, readPair_setCpu _ ha hb hl hh]
      rfl
    exact ⟨_, execJmp_eq hresolve, getFlag_setUnused s.cpu.p⟩

/-! ## Stack instructions -/

/-- A stack instruction whose effect succeeds ends its slot there. -/
theorem stackShape_eq {i : Instr} {f : State → Bus Unit} {s u : State} (h : f (advance i s) = .ok () u) :
    stackShape i f s = .next (finish i 0 u) := by
  rw [stackShape, h]
  rfl

/-- JSR's effect: two pushes, the high byte of the return address first, then PC (R220). -/
theorem callSubroutine_eq (target : Addr) (s : State) :
    callSubroutine target s = .ok () { s with
      ram := (s.ram.write (stackSlot s.cpu.sp) (hiByte (s.cpu.pc - 1#16))).write (stackSlot (s.cpu.sp - 1#8))
        (loByte (s.cpu.pc - 1#16))
      cpu := { s.cpu with sp := s.cpu.sp - 2#8, pc := target } } := by
  have hsp : s.cpu.sp - 1#8 - 1#8 = s.cpu.sp - 2#8 := BitVec.sub_sub _ _ _
  simp only [callSubroutine, push_eq, busBind_ok, hsp]
  rfl

/-- RTS's effect: two pulls, then PC one past the word they give (R221). -/
theorem returnFromSubroutine_eq (s : State) :
    returnFromSubroutine s = .ok () (setCpu { s.cpu with
      sp := s.cpu.sp + 2#8
      pc := leWord (s.ram.read (stackSlot (s.cpu.sp + 1#8))) (s.ram.read (stackSlot (s.cpu.sp + 2#8))) + 1#16 } s) := by
  have hsp : s.cpu.sp + 1#8 + 1#8 = s.cpu.sp + 2#8 := BitVec.add_assoc _ _ _
  simp only [returnFromSubroutine, pull_eq, busBind_ok, hsp]
  rfl

/-- RTI's effect: P, then the two bytes of PC (R223). -/
theorem returnFromInterrupt_eq (s : State) :
    returnFromInterrupt s = .ok () (setCpu { s.cpu with
      sp := s.cpu.sp + 3#8
      p := pulledStatus (s.ram.read (stackSlot (s.cpu.sp + 1#8)))
      pc := leWord (s.ram.read (stackSlot (s.cpu.sp + 2#8))) (s.ram.read (stackSlot (s.cpu.sp + 3#8))) } s) := by
  have hsp2 : s.cpu.sp + 1#8 + 1#8 = s.cpu.sp + 2#8 := BitVec.add_assoc _ _ _
  have hsp3 : s.cpu.sp + 2#8 + 1#8 = s.cpu.sp + 3#8 := BitVec.add_assoc _ _ _
  simp only [returnFromInterrupt, pull_eq, busBind_ok, setP_sp, setP_ram, hsp2, hsp3]
  rfl

/-- Settles O27: each effect never fails (`callSubroutine_eq`, `returnFromSubroutine_eq`); JSR pushes the PC past its three
bytes less 1. -/
theorem callAndReturnComplete : Obligations.CallAndReturnComplete := by
  refine ⟨fun target s => ⟨rfl, rfl, _, ?jsr, getFlag_setUnused s.cpu.p⟩,
    fun s => ⟨⟨rfl, rfl⟩, _, stackShape_eq (returnFromSubroutine_eq _), getFlag_setUnused s.cpu.p⟩⟩
  case jsr =>
    have hreturn : (advance (.jsr target) s).cpu.pc - 1#16 = s.cpu.pc + 2#16 := add_sub_assoc s.cpu.pc 3#16 1#16
    rw [← hreturn]
    exact stackShape_eq (callSubroutine_eq target _)

/-- Different stack pointers have different slots. -/
theorem stackSlot_inj {a b : Byte} : stackSlot a = stackSlot b ↔ a = b := by
  rw [stackSlot, stackSlot, Nat.add_left_cancel_iff, BitVec.toNat_inj]

theorem stackSlot_sub_ne {sp k : Byte} (hk : k ≠ 0#8) : stackSlot (sp - k) ≠ stackSlot sp := by
  rw [Ne, stackSlot_inj, sub_eq_self]
  exact hk

theorem sameFlags_of_ne_unused {f : Flag} (p : Byte) (h : f ≠ .unused) : sameFlags p f = getFlag p f := by
  cases f with
  | unused => exact absurd rfl h
  | _ => rfl

/-- Settles O28: RTS reads the two slots that JSR wrote, so the word it pulls is the one pushed. -/
theorem callThenReturn : Obligations.CallThenReturn := by
  intro target s
  obtain ⟨hcall, hreturn⟩ := callAndReturnComplete
  obtain ⟨-, -, p, hjsr, hp⟩ := hcall target s
  obtain ⟨-, q, hrts, hq⟩ := hreturn _
  have hsp : s.cpu.sp - 2#8 + 2#8 = s.cpu.sp := BitVec.sub_add_cancel _ _
  refine ⟨_, _, hjsr, hrts, rfl, ?pc, rfl, rfl, rfl, hsp, fun f hf => ?flags⟩
  case pc =>
    have hlow : s.cpu.sp - 2#8 + 1#8 = s.cpu.sp - 1#8 := sub_add s.cpu.sp 2#8 1#8
    simp only [setCpu_cpu, setCpu_ram, nextCpu, hlow, hsp, read_write_same,
      read_write_other _ _ (stackSlot_sub_ne (show (1#8 : Byte) ≠ 0#8 by decide)), leWord_bytes]
    exact BitVec.add_assoc _ _ _
  case flags =>
    calc
      getFlag q f = getFlag p f := (hq f).trans (sameFlags_of_ne_unused p hf)
      _ = getFlag s.cpu.p f := (hp f).trans (sameFlags_of_ne_unused s.cpu.p hf)

/-! ## BRK and RTI (R222, R223, R388) -/

theorem getFlag_pushedStatus (p : Byte) (b : Bool) (f : Flag) : getFlag (pushedStatus p b) f = pushedFlags p b f := by
  rw [pushedStatus, getFlag_setFlag, getFlag_setFlag]
  cases f <;> rfl

theorem getFlag_enteredStatus (p : Byte) (b : Bool) (f : Flag) : getFlag (enteredStatus p b) f = entryFlags p b f := by
  rw [enteredStatus, getFlag_setFlag, getFlag_setFlag]
  cases f <;> rfl

/-- An interrupt sequence whose vector lies in a cartridge with a PRG bank succeeds: three pushes, then PC from the vector
(R388, R389). -/
theorem interruptSequence_eq_ok {vec : Addr} (b : Bool) {s : State} (hv : 0x8000 ≤ vec.toNat ∧ vec.toNat < 0xFFFF)
    (hp : 0 < s.cart.header.prgBanks) :
    interruptSequence vec b s = .ok () { s with
      ram := threePushes s.ram s.cpu.sp s.cpu.pc (pushedStatus s.cpu.p b)
      cpu := { s.cpu with
        sp := s.cpu.sp - 3#8
        pc := leWord (cartByte s vec) (cartByte s (vec + 1#16))
        p := enteredStatus s.cpu.p b } } := by
  have hsp2 : s.cpu.sp - 1#8 - 1#8 = s.cpu.sp - 2#8 := BitVec.sub_sub _ _ _
  have hsp3 : s.cpu.sp - 2#8 - 1#8 = s.cpu.sp - 3#8 := BitVec.sub_sub _ _ _
  rw [interruptSequence_eq, readVector_eq vec (pushedFrame b s) hv hp, busBind_ok]
  simp only [pushedFrame, hsp2, hsp3]
  rfl

/-- The three pushes of an entry, with any CPU that has the entry's SP and PC, are what `Entered` describes. -/
theorem entered_threePushes {vec : Addr} (b : Bool) (returnPc : Addr) {s : State} {c : Cpu}
    (hkept : c.a = s.cpu.a ∧ c.x = s.cpu.x ∧ c.y = s.cpu.y) (hsp : c.sp = s.cpu.sp - 3#8)
    (hpc : c.pc = leWord (cartByte s vec) (cartByte s (vec + 1#16))) :
    Entered vec b returnPc s
      { s with ram := threePushes s.ram s.cpu.sp returnPc (pushedStatus s.cpu.p b), cpu := c } := by
  have h10 : stackSlot (s.cpu.sp - 1#8) ≠ stackSlot s.cpu.sp := stackSlot_sub_ne (by decide)
  have h20 : stackSlot (s.cpu.sp - 2#8) ≠ stackSlot s.cpu.sp := stackSlot_sub_ne (by decide)
  have h21 : stackSlot (s.cpu.sp - 2#8) ≠ stackSlot (s.cpu.sp - 1#8) := by
    rw [Ne, stackSlot_inj, BitVec.sub_right_inj]
    decide
  refine ⟨rfl, hkept, hsp, hpc, ?high, ?low, fun f => ?status, fun k h0 h1 h2 => ?ram⟩
  case high => exact (read_write_other _ _ h20).trans ((read_write_other _ _ h10).trans (read_write_same _ _ _))
  case low => exact (read_write_other _ _ h21).trans (read_write_same _ _ _)
  case status => rw [threePushes, read_write_same, getFlag_pushedStatus]
  case ram =>
    exact (read_write_other _ _ h2.symm).trans ((read_write_other _ _ h1.symm).trans (read_write_other _ _ h0.symm))

/-- BRK's effect: the entry of vector 0xFFFE with the address past its padding byte to return to (R222). -/
theorem breakSequence_eq {s : State} (hp : 0 < s.cart.header.prgBanks) :
    breakSequence s = .ok () { s with
      ram := threePushes s.ram s.cpu.sp (s.cpu.pc + 1#16) (pushedStatus s.cpu.p true)
      cpu := { s.cpu with
        sp := s.cpu.sp - 3#8
        pc := leWord (cartByte s vectorIrq) (cartByte s (vectorIrq + 1#16))
        p := enteredStatus s.cpu.p true } } :=
  interruptSequence_eq_ok (s := setPc (s.cpu.pc + 1#16) s) true (by decide) hp

/-- Settles O29: BRK's effect is an entry (`breakSequence_eq`, `entered_threePushes`), and the end of the slot adds U to the
status the entry left. -/
theorem breakCompletes : Obligations.BreakCompletes := by
  refine ⟨⟨rfl, rfl⟩, fun s hbanks => ⟨_, stackShape_eq (breakSequence_eq (s := advance .brk s) hbanks), ?entered,
    fun f => ?flags, rfl, rfl⟩⟩
  case entered =>
    have hreturn : (advance .brk s).cpu.pc + 1#16 = s.cpu.pc + 2#16 := BitVec.add_assoc s.cpu.pc 1#16 1#16
    rw [hreturn]
    exact entered_threePushes true _ ⟨rfl, rfl, rfl⟩ rfl rfl
  case flags =>
    refine (getFlag_setUnused (enteredStatus s.cpu.p true) f).trans ?_
    by_cases hf : f = .unused
    · rw [if_pos hf, hf]
      rfl
    · rw [if_neg hf, sameFlags_of_ne_unused _ hf, getFlag_enteredStatus]

/-- A pulled status byte has U set already when the slot ends. -/
theorem getFlag_setUnused_pulledStatus (p : Byte) (f : Flag) :
    getFlag (setFlag (pulledStatus p) .unused true) f = pulledFlags p f := by
  rw [getFlag_setUnused]
  cases f with
  | unused => rfl
  | _ => exact getFlag_setUnused p _

/-- Settles O30: RTI's three pulls never fail, and P is the first of them with U set (`returnFromInterrupt_eq`). -/
theorem returnFromInterruptCompletes : Obligations.ReturnFromInterruptCompletes :=
  fun _ => ⟨⟨rfl, rfl⟩, _, stackShape_eq (returnFromInterrupt_eq _), getFlag_setUnused_pulledStatus _⟩

end Sys2Proof.Proofs
end

section
/-! Stack, flag and no-operation instructions: the byte PHP pushes, the one pull of PLA and PLP, what writing one flag leaves of the
status byte, and the instructions of 45_stack_flag_misc.md assembled from them. -/

namespace Sys2Proof.Proofs

open Sys2Proof.Machine Sys2Proof.Laws

/-! ## Pushes (R230, R231) -/

/-- PHP's byte is P with bits 4 and 5 set (decision D9). -/
theorem pushedStatus_true (p : Byte) : pushedStatus p true = p ||| 0x30#8 :=
  BitVec.or_assoc p 0x10#8 0x20#8

/-- Settles O31: each instruction is one push, which never fails (`push_eq`), and the end of the slot sets U alone. -/
theorem pushesComplete : Obligations.PushesComplete := by
  intro s
  refine ⟨⟨⟨rfl, rfl⟩, _, ?pha, getFlag_setUnused s.cpu.p⟩, ⟨⟨rfl, rfl⟩, _, ?php, getFlag_setUnused s.cpu.p⟩⟩
  case pha => exact stackShape_eq (push_eq s.cpu.a _)
  case php =>
    rw [← pushedStatus_true]
    exact stackShape_eq (push_eq (pushedStatus s.cpu.p true) _)

/-! ## Pulls (R232, R233) -/

/-- A pull never fails, so an instruction that does no more than write registers with its byte always completes. -/
theorem pullShape_eq (i : Instr) (f : Byte → State → State) (s : State) :
    stackShape i (fun u => busBind (pull u) fun v u => .ok () (f v u)) s =
      .next (finish i 0 (f (s.ram.read (stackSlot (s.cpu.sp + 1#8))) (setSp (s.cpu.sp + 1#8) (advance i s)))) :=
  stackShape_eq (by rw [pull_eq, busBind_ok]; rfl)

/-- Settles O32: each instruction is one pull, which never fails (`pullShape_eq`); PLA's flags come from the byte, PLP's are the
byte's. -/
theorem pullsComplete : Obligations.PullsComplete := by
  intro s
  refine ⟨⟨⟨rfl, rfl⟩, _, ?pla, getFlag_setUnused_setNZ s.cpu.p _⟩, ⟨⟨rfl, rfl⟩, _, ?plp, getFlag_setUnused_pulledStatus _⟩⟩
  case pla => exact pullShape_eq .pla (fun v u => setP (setNZ u.cpu.p v) (setA v u)) s
  case plp => exact pullShape_eq .plp (fun v u => setP (pulledStatus v) u) s

/-! ## Flag instructions and NOP (R234 to R241) -/

/-- Writing a flag other than U and then ending the slot changes that flag and U. -/
theorem getFlag_setUnused_setFlag {g : Flag} (hg : g ≠ .unused) (p : Byte) (b : Bool) (f : Flag) :
    getFlag (setFlag (setFlag p g b) .unused true) f = oneFlag p g b f := by
  rw [getFlag_setUnused, oneFlag]
  by_cases hf : f = .unused
  · rw [hf, if_neg hg.symm]
    rfl
  · rw [sameFlags_of_ne_unused _ hf, sameFlags_of_ne_unused _ hf, getFlag_setFlag]
    simp only [eq_comm]

/-- An instruction that writes one flag other than U completes in every state with that flag and U written. -/
theorem completes_setFlag {i : Instr} {g : Flag} {b : Bool} {s : State}
    (hexec : exec i s = impliedShape i (fun u => setP (setFlag u.cpu.p g b) u) s) (hg : g ≠ .unused) :
    Completes i s s (nextCpu i 0 s.cpu) (oneFlag s.cpu.p g b) :=
  completes_implied hexec (fun _ _ => rfl) rfl (getFlag_setUnused_setFlag hg s.cpu.p b)

/-- Settles O33: the seven flag instructions are one shape, each on its own flag (`completes_setFlag`), and NOP has no effect
before the end of its slot. -/
theorem flagInstructionsComplete : Obligations.FlagInstructionsComplete := by
  intro s
  refine ⟨⟨⟨rfl, rfl⟩, ?clc⟩, ⟨⟨rfl, rfl⟩, ?cld⟩, ⟨⟨rfl, rfl⟩, ?cli⟩, ⟨⟨rfl, rfl⟩, ?clv⟩, ⟨⟨rfl, rfl⟩, ?sec⟩,
    ⟨⟨rfl, rfl⟩, ?sed⟩, ⟨⟨rfl, rfl⟩, ?sei⟩, ⟨⟨rfl, rfl⟩, ?nop⟩⟩
  case nop => exact completes_implied (f := fun u => u) rfl (fun _ _ => rfl) rfl (getFlag_setUnused s.cpu.p)
  all_goals exact completes_setFlag rfl (by decide)

end Sys2Proof.Proofs
end

section
/-! The PPU's registers (50_ppu_registers.md): an access in the register window is its register's, a write of the scroll registers is a
new arrangement of their fields, and the data port is an access of the PPU bus at `v` followed by the step of `v`. -/

namespace Sys2Proof.Proofs

open Sys2Proof.Machine Sys2Proof.Laws

/-! ## The register window (R250) -/

theorem busValue_window {a : Addr} (h : InPpuWindow a) (s : State) : busValue a s = ppuRegRead s (a.toNat % 8) := by
  simp only [busValue, (inPpuWindow_iff a).1 h]

theorem busStore_window {a : Addr} (h : InPpuWindow a) (d : Byte) (s : State) :
    busStore a d s = ppuRegWrite s (a.toNat % 8) d := by
  simp only [busStore, (inPpuWindow_iff a).1 h]

theorem mapped_window {a : Addr} (h : InPpuWindow a) (s : State) : Mapped s a :=
  .inl (h.2.trans (by decide))

/-- A read in the window is a read of the register that the address names modulo 8. -/
theorem cpuRead_window {a : Addr} {r : Nat} (h : InPpuWindow a) (hr : a.toNat % 8 = r) (s : State) :
    cpuRead a s = .ok (ppuRegRead s r).1 (ppuRegRead s r).2 := by
  rw [cpuRead_mapped (mapped_window h s), busValue_window h, hr]

/-- A write in the window is a write of the register that the address names modulo 8. -/
theorem cpuWrite_window {a : Addr} {r : Nat} (h : InPpuWindow a) (hr : a.toNat % 8 = r) (d : Byte) (s : State) :
    cpuWrite a d s = .ok () (ppuRegWrite s r d) := by
  rw [cpuWrite_mapped d (mapped_window h s), busStore_window h, hr]

/-! ## PPUSTATUS (R260) and the write-only registers (R251) -/

/-- The status byte's flags are its bits 7 to 5, and the undriven bits show below them: for each of the eight values of the flags the
bits above the mask are constants. -/
theorem statusByte_bits (p : Ppu) (u : Byte) :
    (statusByte p u).getLsbD 7 = p.vblank ∧ (statusByte p u).getLsbD 6 = p.spriteZeroHit ∧
    (statusByte p u).getLsbD 5 = p.spriteOverflow ∧ statusByte p u &&& 0x1F#8 = u &&& 0x1F#8 := by
  unfold statusByte
  cases p.vblank <;> cases p.spriteZeroHit <;> cases p.spriteOverflow <;>
    simp [BitVec.and_or_distrib_right, BitVec.and_assoc]

/-- Settles O40: a PPUSTATUS read gives `statusByte`, whose bits `statusByte_bits` reads off; a write-only register gives a draw. -/
theorem statusAndOpenBusReads : Obligations.StatusAndOpenBusReads := by
  intro s a ha
  refine ⟨fun h2 => ?status, fun hr => ?writeOnly⟩
  case status => exact ⟨_, cpuRead_window ha h2 s, statusByte_bits s.ppu (Config.openBus s.draws)⟩
  case writeOnly => rcases hr with hr | hr | hr | hr | hr <;> exact cpuRead_window ha hr s

/-! ## OAMADDR and OAMDATA (R261 to R263) -/

/-- Settles O45: an OAMDATA write is one write of OAM (`read_write`) and a step of OAMADDR. -/
theorem oamPort : Obligations.OamPort := by
  intro s a d ha h4
  refine ⟨cpuRead_window ha h4 s, s.ppu.oam.write s.ppu.oamAddr.toNat d, ?_, fun k => ?_⟩
  · have hstep : BitVec.ofNat 8 (s.ppu.oamAddr.toNat + 1) = s.ppu.oamAddr + 1#8 := by
      rw [BitVec.ofNat_add, BitVec.ofNat_toNat, BitVec.setWidth_eq]
    rw [cpuWrite_window ha h4, hstep]
    rfl
  · rw [read_write]
    simp only [eq_comm]

/-! ## The scroll registers as fields (R41) -/

theorem toNat_append_add {m n : Nat} (x : BitVec m) (y : BitVec n) : (x ++ y).toNat = x.toNat * 2 ^ n + y.toNat := by
  rw [BitVec.toNat_append, ← Nat.shiftLeft_add_eq_or_of_lt y.isLt, Nat.shiftLeft_eq]

theorem toNat_field {m : Nat} (x : BitVec m) (start len : Nat) :
    (x.extractLsb' start len).toNat = x.toNat / 2 ^ start % 2 ^ len := by
  rw [BitVec.extractLsb'_toNat, Nat.shiftRight_eq_div_pow]

/-- Masking with the `n` low ones is the remainder modulo `2 ^ n`. -/
theorem toNat_and_lowMask {w : Nat} {x : BitVec w} (mask : BitVec w) (n : Nat) (h : mask.toNat = 2 ^ n - 1) :
    (x &&& mask).toNat = x.toNat % 2 ^ n := by
  rw [BitVec.toNat_and, h, Nat.and_two_pow_sub_one_eq_mod]

theorem toNat_leWord (l h : Byte) : (leWord l h).toNat = h.toNat * 256 + l.toNat :=
  toNat_append_add h l

/-- A PPUCTRL write puts the nametable select into t[11:10] (R258). -/
theorem writeCtrl_t (s : State) (d : Byte) :
    (writeCtrl s d).ppu.t = s.ppu.t.extractLsb' 12 4 ++ d.extractLsb' 0 2 ++ s.ppu.t.extractLsb' 0 10 := by
  show (s.ppu.t &&& ~~~0x0C00#16) ||| ((d &&& 0x03#8).setWidth 16 <<< 10) = _
  apply BitVec.eq_of_getLsbD_eq
  intro i hi
  simp only [BitVec.getLsbD_append, BitVec.getLsbD_extractLsb']
  interval_cases i <;> simp

/-- The first PPUSCROLL write puts coarse X into t[4:0] (R264). -/
theorem writeScroll_first {p : Ppu} (hw : p.w = false) (d : Byte) :
    writeScroll p d =
      { p with t := p.t.extractLsb' 5 11 ++ d.extractLsb' 3 5, fineX := BitVec.ofNat 3 d.toNat, w := true } := by
  have ht : (p.t &&& ~~~0x001F#16) ||| (d >>> 3).setWidth 16 = p.t.extractLsb' 5 11 ++ d.extractLsb' 3 5 := by
    apply BitVec.eq_of_getLsbD_eq
    intro i hi
    simp only [BitVec.getLsbD_append, BitVec.getLsbD_extractLsb']
    interval_cases i <;> simp
  simp [writeScroll, hw, ← ht]

/-- The second PPUSCROLL write puts fine Y into t[14:12] and coarse Y into t[9:5] (R264). -/
theorem writeScroll_second {p : Ppu} (hw : p.w = true) (h15 : p.t.getLsbD 15 = false) (d : Byte) :
    writeScroll p d =
      { p with
        t := 0#1 ++ d.extractLsb' 0 3 ++ p.t.extractLsb' 10 2 ++ d.extractLsb' 3 5 ++ p.t.extractLsb' 0 5
        w := false } := by
  have ht : (p.t &&& ~~~0x73E0#16) ||| ((d &&& 0x07#8).setWidth 16 <<< 12) ||| ((d >>> 3).setWidth 16 <<< 5) =
      0#1 ++ d.extractLsb' 0 3 ++ p.t.extractLsb' 10 2 ++ d.extractLsb' 3 5 ++ p.t.extractLsb' 0 5 := by
    apply BitVec.eq_of_getLsbD_eq
    intro i hi
    simp only [BitVec.getLsbD_append, BitVec.getLsbD_extractLsb']
    interval_cases i <;> simp_all
  simp [writeScroll, hw, ← ht]

/-- The first PPUADDR write replaces the high byte of `t` (R265). -/
theorem writeAddr_first {p : Ppu} (hw : p.w = false) (d : Byte) :
    writeAddr p d = { p with t := leWord (loByte p.t) (d &&& 0x3F#8), w := true } := by
  have ht : (p.t &&& 0x00FF#16) ||| ((d &&& 0x3F#8).setWidth 16 <<< 8) = leWord (loByte p.t) (d &&& 0x3F#8) := by
    apply BitVec.eq_of_getLsbD_eq
    intro i hi
    simp only [leWord, loByte, BitVec.getLsbD_append, BitVec.getLsbD_extractLsb']
    interval_cases i <;> simp
  simp only [writeAddr, hw, ← ht]
  rfl

/-- The second PPUADDR write replaces the low byte of `t` and loads `v` (R265). -/
theorem writeAddr_second {p : Ppu} (hw : p.w = true) (d : Byte) :
    writeAddr p d =
      { p with t := leWord d (hiByte p.t &&& 0x7F#8), v := leWord d (hiByte p.t &&& 0x7F#8), w := false } := by
  have ht : (p.t &&& 0x7F00#16) ||| d.setWidth 16 = leWord d (hiByte p.t &&& 0x7F#8) := by
    apply BitVec.eq_of_getLsbD_eq
    intro i hi
    simp only [leWord, hiByte, BitVec.getLsbD_append]
    interval_cases i <;> simp
  simp only [writeAddr, hw, ← ht]
  rfl

/-- Settles O41: each write is its register's; the new `t` is three fields (`writeCtrl_t`), which are read off bit by bit. -/
theorem controlWrites : Obligations.ControlWrites := by
  intro s a d ha
  refine ⟨fun h => ⟨(writeCtrl s d).ppu.t, cpuWrite_window ha h d s, fun i => ?ctrlBit⟩, fun h => cpuWrite_window ha h d s,
    fun h => cpuWrite_window ha h d s, fun h => cpuWrite_window ha h d s⟩
  case ctrlBit =>
    rw [writeCtrl_t, BitVec.getLsbD_append, BitVec.getLsbD_append]
    simp only [BitVec.getLsbD_extractLsb']
    rcases (by omega : i < 10 ∨ i = 10 ∨ i = 11 ∨ 12 ≤ i) with hlow | rfl | rfl | hhigh
    · simp [hlow, show i ≠ 10 by omega, show i ≠ 11 by omega]
    · rfl
    · rfl
    · have hin : 12 + (i - 10 - 2) = i := by omega
      have hfield (hbit : s.ppu.t.getLsbD i = true) : i - 10 - 2 < 4 := by
        have := BitVec.lt_of_getLsbD hbit
        omega
      simpa [hin, show ¬ i < 10 by omega, show ¬ i - 10 < 2 by omega, show i ≠ 10 by omega, show i ≠ 11 by omega]
        using hfield

/-- Settles O42: each write is its field lemma (`writeScroll_first` and its companions), and the fields add up to `t`. -/
theorem scrollAddressWrites : Obligations.ScrollAddressWrites := by
  intro s a d ha h15
  have htop : s.ppu.t.toNat < 2 ^ 15 := BitVec.toNat_lt_of_msb_false h15
  refine ⟨fun h hw => ?scrollX, fun h hw => ?scrollY, fun h hw => ?addrHigh, fun h hw => ?addrLow⟩
  case scrollX =>
    refine ⟨_, (cpuWrite_window ha h d s).trans (by rw [ppuRegWrite, writeScroll_first hw]), ?_⟩
    rw [toNat_append_add, toNat_field, toNat_field]
    omega
  case scrollY =>
    refine ⟨_, (cpuWrite_window ha h d s).trans (by rw [ppuRegWrite, writeScroll_second hw h15]), ?_⟩
    simp only [toNat_append_add, toNat_field, BitVec.toNat_ofNat]
    omega
  case addrHigh =>
    refine ⟨_, (cpuWrite_window ha h d s).trans (by rw [ppuRegWrite, writeAddr_first hw]), ?_⟩
    rw [toNat_leWord, toNat_loByte, toNat_and_lowMask 0x3F#8 6 rfl]
    rfl
  case addrLow =>
    refine ⟨_, (cpuWrite_window ha h d s).trans (by rw [ppuRegWrite, writeAddr_second hw]), ?_⟩
    rw [toNat_leWord, toNat_and_lowMask 0x7F#8 7 rfl, toNat_hiByte]
    omega

/-! ## The PPU bus (R254, R276, R277) -/

theorem toNat_ppuMask (a : Addr) : (ppuMask a).toNat = a.toNat % 0x4000 :=
  toNat_and_lowMask 0x3FFF#16 14 rfl

theorem ppuMask_of_lt {a : Addr} (h : a.toNat < 0x4000) : ppuMask a = a :=
  BitVec.eq_of_toNat_eq (by rw [toNat_ppuMask, Nat.mod_eq_of_lt h])

theorem ppuMask_ppuMask (a : Addr) : ppuMask (ppuMask a) = ppuMask a :=
  ppuMask_of_lt (ppuMask_lt a)

theorem ppuBusRead_ppuMask (s : State) (a : Addr) : ppuBusRead s (ppuMask a) = ppuBusRead s a := by
  simp only [ppuBusRead, ppuMask_ppuMask]

/-- The palette entry depends on the address modulo 32 alone. -/
theorem palIndex_ofNat_mod (a : Addr) : palIndex a = palIndex (BitVec.ofNat 16 (a.toNat % 32)) := by
  have hlow : a &&& 0x1F#16 = BitVec.ofNat 16 (a.toNat % 32) &&& 0x1F#16 := by
    apply BitVec.eq_of_toNat_eq
    rw [toNat_and_lowMask 0x1F#16 5 rfl, toNat_and_lowMask 0x1F#16 5 rfl, BitVec.toNat_ofNat]
    omega
  simp only [palIndex, hlow]

/-- The palette's mirrors, entry by entry. -/
theorem palIndex_entry : ∀ i < 32, palIndex (BitVec.ofNat 16 i) = if i < 16 ∨ i % 4 ≠ 0 then i else i - 16 := by
  decide

/-- Settles O46: the nametable clauses are arithmetic on the offset in nametable space, and the palette has 32 entries
(`palIndex_entry`). -/
theorem nametableAndPaletteMirrors : Obligations.NametableAndPaletteMirrors := by
  refine ⟨fun m q o hq ho => ?tables, fun m a h1 h2 => ?mirror, fun a _ _ => ?palette⟩
  case tables =>
    have hoffset : ((BitVec.ofNat 16 (0x2000 + q * 0x400 + o)).toNat - 0x2000) % 0x1000 = q * 0x400 + o := by
      rw [BitVec.toNat_ofNat]
      omega
    simp only [ntIndex, hoffset]
    cases m <;> simp only [physicalTable] <;> omega
  case mirror =>
    have hoffset : ((a - 0x1000#16).toNat - 0x2000) % 0x1000 = (a.toNat - 0x2000) % 0x1000 := by
      rw [BitVec.toNat_sub_of_le (by rw [BitVec.le_def]; exact Nat.le_trans (by decide) h1)]
      show (a.toNat - 0x1000 - 0x2000) % 0x1000 = _
      omega
    simp only [ntIndex, hoffset]
  case palette =>
    rw [palIndex_ofNat_mod, palIndex_entry _ (Nat.mod_lt _ (by decide)), Nat.mod_mod_of_dvd _ (by decide)]

/-- What a PPU bus write stored in nametable RAM or CHR RAM is read back (R254, R352). -/
theorem ppuBusRead_ppuBusWrite {s : State} {a : Addr} (d : Byte) (h : (ppuMask a).toNat < 0x3F00)
    (hram : 0x2000 ≤ (ppuMask a).toNat ∨ s.cart.header.chrBanks = 0) : ppuBusRead (ppuBusWrite s a d) a = d := by
  by_cases hchr : (ppuMask a).toNat < 0x2000
  · have hbanks : s.cart.header.chrBanks = 0 := hram.resolve_left (Nat.not_le.2 hchr)
    simp [ppuBusRead, ppuBusWrite, chrWrite, chrRead, hchr, hbanks]
  · have hvram : ppuBusWrite s a d =
        { s with ppu := { s.ppu with vram := s.ppu.vram.write (ntIndex (mirroringOf s) (ppuMask a)) d } } := by
      simp only [ppuBusWrite, if_neg hchr, if_pos h]
    rw [hvram]
    simp only [ppuBusRead, if_neg hchr, if_pos h]
    exact read_write_same _ _ d

theorem ppuBusRead_palette {s : State} {a : Addr} (h : 0x3F00 ≤ (ppuMask a).toNat) :
    ppuBusRead s a = (s.ppu.palette.read (palIndex a)).setWidth 8 := by
  rw [← palIndex_ppuMask]
  exact (if_neg (by omega)).trans (if_neg (by omega))

/-- A palette entry keeps the low six bits of what was stored (R278). -/
theorem ppuBusRead_ppuBusWrite_palette {s : State} {a : Addr} (d : Byte) (h : 0x3F00 ≤ (ppuMask a).toNat) :
    ppuBusRead (ppuBusWrite s a d) a = (d.setWidth 6).setWidth 8 := by
  simp [ppuBusRead, ppuBusWrite, show ¬ (ppuMask a).toNat < 0x2000 by omega, show ¬ (ppuMask a).toNat < 0x3F00 by omega]

/-! ## The data port (R266 to R268) -/

theorem toNat_incrementV (p : Ppu) :
    (incrementV p).toNat = (p.v.toNat + (if p.ctrl.getLsbD 2 then 32 else 1)) % 0x8000 := by
  rw [incrementV, toNat_and_lowMask 0x7FFF#16 15 rfl, BitVec.toNat_add]
  split <;> simp only [BitVec.toNat_ofNat] <;> omega

/-- A PPUDATA read below palette space gives the buffer and refills it. -/
theorem readData_buffered {s : State} (h : (ppuMask s.ppu.v).toNat < 0x3F00) :
    readData s =
      (s.ppu.readBuffer, { s with ppu := { s.ppu with readBuffer := ppuBusRead s s.ppu.v, v := incrementV s.ppu } }) := by
  rw [← ppuBusRead_ppuMask s s.ppu.v]
  exact if_pos h

/-- A PPUDATA read in palette space gives the entry under two undriven bits and refills the buffer from 0x1000 below. -/
theorem readData_palette {s : State} (h : 0x3F00 ≤ (ppuMask s.ppu.v).toNat) :
    readData s =
      ((Config.openBus s.draws &&& 0xC0#8) ||| ppuBusRead s s.ppu.v,
        { s with
          draws := s.draws + 1
          ppu := { s.ppu with
            readBuffer := ppuBusRead s (ppuMask s.ppu.v - 0x1000#16)
            v := incrementV s.ppu } }) := by
  rw [← ppuBusRead_ppuMask s s.ppu.v]
  exact if_neg (Nat.not_lt.2 h)

/-- A PPUDATA write is a PPU bus write and the step of `v` from where it stood. -/
theorem writeData_eq (s : State) (d : Byte) :
    writeData s d =
      { ppuBusWrite s s.ppu.v d with ppu := { (ppuBusWrite s s.ppu.v d).ppu with v := incrementV s.ppu } } := by
  have hstep : incrementV (ppuBusWrite s s.ppu.v d).ppu = incrementV s.ppu := by
    rw [ppuBusWrite_frame]
    rfl
  rw [← hstep]
  rfl

/-- A palette read is the entry's six bits under two undriven ones. -/
theorem palette_read_bits (u : Byte) (e : BitVec 6) :
    ((u &&& 0xC0#8) ||| e.setWidth 8).setWidth 6 = e ∧ ((u &&& 0xC0#8) ||| e.setWidth 8) &&& 0xC0#8 = u &&& 0xC0#8 := by
  constructor
  all_goals
    apply BitVec.eq_of_getLsbD_eq
    intro i hi
    interval_cases i <;> simp

/-- Settles O43: the reads are `readData_buffered` and `readData_palette`, the write is `writeData_eq`, and each steps `v` by
`incrementV`. -/
theorem dataPortAccesses : Obligations.DataPortAccesses := by
  intro s a ha h7
  refine ⟨incrementV s.ppu, toNat_incrementV s.ppu, fun h => ?buffered, fun h => ?palette, fun d => ?write⟩
  case buffered => rw [cpuRead_window ha h7, ppuRegRead, readData_buffered h]
  case palette =>
    refine ⟨_, by rw [cpuRead_window ha h7, ppuRegRead, readData_palette h], ?_⟩
    rw [ppuBusRead_palette h]
    exact palette_read_bits _ _
  case write =>
    exact ⟨writeData s d, cpuWrite_window ha h7 d s, by rw [writeData_eq], writeData_eq s d⟩

/-! ## Through the data port and back (R280) -/

theorem busStore_ppuAddr (d : Byte) (s : State) : busStore 0x2006#16 d s = { s with ppu := writeAddr s.ppu d } := rfl

theorem busStore_ppuData (d : Byte) (s : State) : busStore 0x2007#16 d s = writeData s d := rfl

theorem busValue_ppuData (s : State) : busValue 0x2007#16 s = readData s := rfl

/-- The machine once two PPUADDR writes have given the PPU address `a`. -/
def pointAt (a : Addr) (s : State) : State := { s with ppu := { s.ppu with t := a, v := a, w := false } }

/-- Two PPUADDR writes set the PPU address whatever `t` was (R265). -/
theorem busStore_ppuAddr_twice {s : State} (hw : s.ppu.w = false) (h l : Byte) :
    busStore 0x2006#16 l (busStore 0x2006#16 h s) = pointAt (leWord l (h &&& 0x3F#8)) s := by
  have hmask : h &&& 0x3F#8 &&& 0x7F#8 = h &&& 0x3F#8 := BitVec.and_assoc h 0x3F#8 0x7F#8
  rw [busStore_ppuAddr, busStore_ppuAddr, writeAddr_first hw, writeAddr_second rfl, hiByte_leWord, hmask]
  rfl

theorem writeData_ctrl (s : State) (d : Byte) : (writeData s d).ppu.ctrl = s.ppu.ctrl := by
  rw [writeData_eq, ppuBusWrite_frame]

theorem writeData_w (s : State) (d : Byte) : (writeData s d).ppu.w = s.ppu.w := by
  rw [writeData_eq, ppuBusWrite_frame]

/-- The machine once `d` has been written at the PPU address `a` and the data port points at `a` again. -/
def wroteAt (a : Addr) (d : Byte) (s : State) : State := pointAt a (writeData (pointAt a s) d)

theorem busStore_wroteAt {s : State} (hw : s.ppu.w = false) (h l d : Byte) :
    busStore 0x2006#16 l (busStore 0x2006#16 h
      (busStore 0x2007#16 d (busStore 0x2006#16 l (busStore 0x2006#16 h s)))) =
      wroteAt (leWord l (h &&& 0x3F#8)) d s := by
  rw [busStore_ppuAddr_twice hw, busStore_ppuData, busStore_ppuAddr_twice (writeData_w _ d), wroteAt]

/-- The PPU bus does not see where the data port points. -/
theorem ppuBusRead_wroteAt (a b : Addr) (d : Byte) (s : State) :
    ppuBusRead (wroteAt a d s) b = ppuBusRead (ppuBusWrite (pointAt a s) a d) b := by
  rw [wroteAt, writeData_eq]
  rfl

/-- The step from `a`, while it does not wrap. -/
theorem toNat_incrementV_wroteAt {a : Addr} (ha : a.toNat < 0x4000) (d : Byte) (s : State) :
    (incrementV (wroteAt a d s).ppu).toNat = a.toNat + (if s.ppu.ctrl.getLsbD 2 then 32 else 1) := by
  rw [toNat_incrementV]
  simp only [wroteAt, pointAt, writeData_ctrl]
  exact Nat.mod_eq_of_lt (by split <;> omega)

/-- The second of two reads gives the byte behind the first one's address, both being buffered: the stepped address is still below
palette space (R266). -/
theorem readData_twice_wroteAt {a : Addr} {s : State} (d : Byte)
    (h : a.toNat + (if s.ppu.ctrl.getLsbD 2 then 32 else 1) < 0x3F00) :
    (readData (readData (wroteAt a d s)).2).1 = ppuBusRead (ppuBusWrite (pointAt a s) a d) a := by
  have ha : a.toNat < 0x3F00 := by omega
  have hfirst : (ppuMask (wroteAt a d s).ppu.v).toNat < 0x3F00 := by
    show (ppuMask a).toNat < 0x3F00
    rwa [ppuMask_of_lt (by omega)]
  have hstep := toNat_incrementV_wroteAt (a := a) (by omega) d s
  have hsecond : (ppuMask (incrementV (wroteAt a d s).ppu)).toNat < 0x3F00 := by
    rwa [ppuMask_of_lt (by omega), hstep]
  rw [readData_buffered hfirst, readData_buffered hsecond]
  exact ppuBusRead_wroteAt a a d s

/-- The low six bits of a byte come back from a palette entry, whatever the two above them read as. -/
theorem palette_readBack_bits (u d : Byte) :
    ((u &&& 0xC0#8) ||| (d.setWidth 6).setWidth 8) &&& 0x3F#8 = d &&& 0x3F#8 := by
  apply BitVec.eq_of_getLsbD_eq
  intro i hi
  interval_cases i <;> simp

/-- The first read in palette space gives the low six bits written. -/
theorem readData_wroteAt_palette {a : Addr} (h : 0x3F00 ≤ (ppuMask a).toNat) (d : Byte) (s : State) :
    (readData (wroteAt a d s)).1 &&& 0x3F#8 = d &&& 0x3F#8 := by
  have hentry : ppuBusRead (wroteAt a d s) a = (d.setWidth 6).setWidth 8 := by
    rw [ppuBusRead_wroteAt, ppuBusRead_ppuBusWrite_palette d h]
  rw [readData_palette h, show (wroteAt a d s).ppu.v = a from rfl, hentry]
  exact palette_readBack_bits _ d

/-- CHR ROM reads the same after a PPU bus write. -/
theorem ppuBusRead_ppuBusWrite_chrRom {s : State} {a : Addr} (b : Addr) (d : Byte) (h : (ppuMask a).toNat < 0x2000)
    (hrom : 0 < s.cart.header.chrBanks) : ppuBusRead (ppuBusWrite s b d) a = chrRead s (ppuMask a) := by
  have hmem := ppuBusWrite_chrRom hrom b d
  rw [ppuBusWrite_frame, hmem]
  exact if_pos h

/-- Settles O44: the stores leave `wroteAt`, and its reads give what the PPU bus write left behind the address
(`readData_twice_wroteAt`, `readData_wroteAt_palette`). -/
theorem dataPortRoundTrip : Obligations.DataPortRoundTrip := by
  rintro s r1 r2 h l d b1 b2 a hw rfl hread1 hread2
  have ha : (leWord l (h &&& 0x3F#8)).toNat < 0x4000 := by
    rw [toNat_leWord, toNat_and_lowMask 0x3F#8 6 rfl]
    omega
  rw [busStore_wroteAt hw, busValue_ppuData] at hread1
  rw [busValue_ppuData] at hread2
  obtain ⟨rfl, rfl⟩ := Prod.ext_iff.1 hread1
  obtain ⟨rfl, -⟩ := Prod.ext_iff.1 hread2
  generalize leWord l (h &&& 0x3F#8) = a at ha ⊢
  have hmask : ppuMask a = a := ppuMask_of_lt ha
  refine ⟨fun hlt hram => ?ram, fun hlt hrom => ?rom, fun hpal => ?palette⟩
  case ram =>
    rw [readData_twice_wroteAt d hlt]
    exact ppuBusRead_ppuBusWrite d (by rw [hmask]; omega) (by rwa [hmask])
  case rom =>
    have hread := ppuBusRead_ppuBusWrite_chrRom (s := pointAt a s) a d (by rwa [hmask]) hrom
    rw [hmask] at hread
    exact (readData_twice_wroteAt d (by split <;> omega)).trans hread
  case palette => exact readData_wroteAt_palette (by rwa [hmask]) d s

end Sys2Proof.Proofs
end

section
/-! The two increments of `v` as arithmetic on its fields (R296, R297). -/

namespace Sys2Proof.Proofs

open Sys2Proof.Machine Sys2Proof.Laws

/-! ## Bits of a word from its number -/

/-- Words that agree above their low `k` bits agree in every bit from `k` on. -/
theorem getLsbD_eq_of_div_eq {w : Nat} {x y : BitVec w} {k i : Nat} (h : x.toNat / 2 ^ k = y.toNat / 2 ^ k) (hi : k ≤ i) :
    x.getLsbD i = y.getLsbD i := by
  obtain ⟨j, rfl⟩ := Nat.exists_eq_add_of_le' hi
  rw [BitVec.getLsbD, BitVec.getLsbD, ← Nat.testBit_div_two_pow, h, Nat.testBit_div_two_pow]

/-- Words that agree in their low `k` bits as numbers agree in every bit below `k`. -/
theorem getLsbD_eq_of_mod_eq {w : Nat} {x y : BitVec w} {k i : Nat} (h : x.toNat % 2 ^ k = y.toNat % 2 ^ k) (hi : i < k) :
    x.getLsbD i = y.getLsbD i := by
  have hbit := congrArg (·.testBit i) h
  simpa only [BitVec.getLsbD, Nat.testBit_mod_two_pow, hi, decide_true, Bool.true_and] using hbit

/-! ## Coarse X (R296) -/

theorem coarseX_eq_iff (v : BitVec 16) : v &&& 0x001F#16 = 31#16 ↔ v.toNat % 32 = 31 := by
  rw [← BitVec.toNat_inj, toNat_and_lowMask 0x001F#16 5 rfl]
  rfl

/-- At 31 coarse X becomes 0 and bit 10 flips. -/
theorem incrementCoarseX_wrap {v : BitVec 16} (h : v.toNat % 32 = 31) :
    incrementCoarseX v = v.extractLsb' 11 5 ++ ~~~v.extractLsb' 10 1 ++ v.extractLsb' 5 5 ++ 0#5 := by
  rw [incrementCoarseX, if_pos ((coarseX_eq_iff v).2 h)]
  apply BitVec.eq_of_getLsbD_eq
  intro i hi
  simp only [BitVec.getLsbD_append, BitVec.getLsbD_extractLsb', BitVec.getLsbD_not]
  interval_cases i <;> simp

/-- Below 31 coarse X counts without a carry out of its five bits. -/
theorem toNat_incrementCoarseX {v : BitVec 16} (h : v.toNat % 32 ≠ 31) :
    (incrementCoarseX v).toNat = v.toNat + 1 := by
  rw [incrementCoarseX, if_neg (mt (coarseX_eq_iff v).1 h), BitVec.toNat_add]
  exact Nat.mod_eq_of_lt (by have := v.isLt; simp only [BitVec.toNat_ofNat]; omega)

theorem incrementCoarseX_fields (v : BitVec 16) :
    (incrementCoarseX v).toNat % 32 = (v.toNat + 1) % 32 ∧
    (incrementCoarseX v).getLsbD 10 = (v.getLsbD 10 ^^ decide (v.toNat % 32 = 31)) ∧
    ∀ i, 5 ≤ i → i ≠ 10 → (incrementCoarseX v).getLsbD i = v.getLsbD i := by
  by_cases h : v.toNat % 32 = 31
  case pos =>
    rw [incrementCoarseX_wrap h]
    refine ⟨?_, ?_, fun i h5 h10 => ?_⟩
    · rw [toNat_append_add]
      simp only [BitVec.toNat_ofNat]
      omega
    · rw [decide_eq_true h, Bool.xor_true]
      simp only [BitVec.getLsbD_append, BitVec.getLsbD_extractLsb', BitVec.getLsbD_not]
      rfl
    · by_cases hi : i < 16
      · simp only [BitVec.getLsbD_append, BitVec.getLsbD_extractLsb', BitVec.getLsbD_not]
        interval_cases i <;> simp at h10 ⊢
      · rw [BitVec.getLsbD_of_ge _ _ (by omega), BitVec.getLsbD_of_ge _ _ (by omega)]
  case neg =>
    have hnat := toNat_incrementCoarseX h
    have hkeep (i : Nat) (hi : 5 ≤ i) : (incrementCoarseX v).getLsbD i = v.getLsbD i :=
      getLsbD_eq_of_div_eq (by rw [hnat]; omega) hi
    exact ⟨by rw [hnat], by rw [hkeep 10 (by omega), decide_eq_false h, Bool.xor_false], fun i hi _ => hkeep i hi⟩

/-! ## The vertical position (R297) -/

theorem fineY_eq_iff {v : BitVec 16} (h15 : v.getLsbD 15 = false) :
    v &&& 0x7000#16 = 0x7000#16 ↔ v.toNat / 4096 = 7 := by
  have htop := lt_of_bit15 h15
  refine ⟨fun h => ?_, fun h => fineY_of_le h15 (by omega)⟩
  have hle : (v &&& 0x7000#16).toNat ≤ v.toNat := by
    rw [BitVec.toNat_and]
    exact Nat.and_le_left
  rw [h] at hle
  simp only [BitVec.toNat_ofNat] at hle
  omega

/-- The coarse Y after `cy`: 0 after row 29 and, by the width, after row 31. -/
def nextRow (cy : BitVec 5) : BitVec 5 := if cy = 29#5 then 0#5 else cy + 1#5

theorem toNat_nextRow : ∀ cy : BitVec 5,
    (nextRow cy).toNat = if cy.toNat = 29 then 0 else (cy.toNat + 1) % 32 := by
  decide

/-- The rows as `incrementY` computes them, in sixteen bits. -/
theorem setWidth_nextRow : ∀ cy : BitVec 5,
    (nextRow cy).setWidth 16 =
      if cy = 29#5 ∨ cy.setWidth 16 = 31#16 then 0#16 else cy.setWidth 16 + 1#16 := by
  decide

theorem setWidth_eq_row : ∀ cy : BitVec 5, cy.setWidth 16 = 29#16 ↔ cy = 29#5 := by
  decide

/-- At fine Y 7, fine Y becomes 0, coarse Y steps and bit 11 flips after row 29. -/
theorem incrementY_carry {v : BitVec 16} (h15 : v.getLsbD 15 = false) (h : v.toNat / 4096 = 7) :
    incrementY v =
      0#4 ++ (v.extractLsb' 11 1 ^^^ BitVec.ofBool (decide (v.extractLsb' 5 5 = 29#5))) ++ v.extractLsb' 10 1 ++
        nextRow (v.extractLsb' 5 5) ++ v.extractLsb' 0 5 := by
  have hrow : ((v &&& ~~~0x7000#16) >>> 5) &&& 31#16 = (v.extractLsb' 5 5).setWidth 16 := by
    apply BitVec.eq_of_getLsbD_eq
    intro i hi
    simp only [BitVec.getLsbD_setWidth, BitVec.getLsbD_extractLsb', BitVec.getLsbD_and, BitVec.getLsbD_ushiftRight]
    interval_cases i <;> simp
  have hbit : v[15] = false := h15
  unfold incrementY
  simp only [hrow, ← setWidth_nextRow, setWidth_eq_row, if_neg (not_not.2 ((fineY_eq_iff h15).2 h))]
  generalize nextRow (v.extractLsb' 5 5) = row
  generalize v.extractLsb' 5 5 = cy
  apply BitVec.eq_of_getLsbD_eq
  intro i hi
  simp only [BitVec.getLsbD_append, BitVec.getLsbD_xor, BitVec.getLsbD_extractLsb', BitVec.getLsbD_or,
    BitVec.getLsbD_and, BitVec.getLsbD_shiftLeft, BitVec.getLsbD_setWidth]
  by_cases hc : cy = 29#5
  · simp only [hc, if_true]
    interval_cases i <;> simp [hbit]
  · simp only [hc, if_false]
    interval_cases i <;> simp [hbit]

/-- Below 7 fine Y counts without a carry. -/
theorem toNat_incrementY {v : BitVec 16} (h15 : v.getLsbD 15 = false) (h : v.toNat / 4096 ≠ 7) :
    (incrementY v).toNat = v.toNat + 4096 := by
  rw [incrementY, if_pos (mt (fineY_eq_iff h15).1 h), BitVec.toNat_add]
  exact Nat.mod_eq_of_lt (by have := lt_of_bit15 h15; simp only [BitVec.toNat_ofNat]; omega)

theorem incrementY_fields {v : BitVec 16} (h15 : v.getLsbD 15 = false) :
    (incrementY v).toNat / 4096 = (v.toNat / 4096 + 1) % 8 ∧
    (incrementY v).toNat / 32 % 32 =
      (if v.toNat / 4096 = 7 then
        (if v.toNat / 32 % 32 = 29 then 0 else (v.toNat / 32 % 32 + 1) % 32)
      else v.toNat / 32 % 32) ∧
    (incrementY v).getLsbD 11 =
      (v.getLsbD 11 ^^ (decide (v.toNat / 4096 = 7) && decide (v.toNat / 32 % 32 = 29))) ∧
    (incrementY v).toNat % 32 = v.toNat % 32 ∧ (incrementY v).getLsbD 10 = v.getLsbD 10 := by
  by_cases h : v.toNat / 4096 = 7
  case pos =>
    have hrow : (v.extractLsb' 5 5).toNat = v.toNat / 32 % 32 := toNat_field v 5 5
    rw [incrementY_carry h15 h, if_pos h, decide_eq_true h, Bool.true_and, ← hrow]
    refine ⟨?_, ?_, ?_, ?_, ?_⟩
    · simp only [toNat_append_add, toNat_field, BitVec.toNat_ofNat]
      omega
    · rw [← toNat_nextRow]
      simp only [toNat_append_add, toNat_field]
      omega
    · simp only [BitVec.getLsbD_append, BitVec.getLsbD_xor, BitVec.getLsbD_extractLsb', BitVec.getLsbD_ofBool,
        ← BitVec.toNat_inj]
      rfl
    · simp only [toNat_append_add, toNat_field]
      omega
    · simp only [BitVec.getLsbD_append, BitVec.getLsbD_extractLsb']
      rfl
  case neg =>
    have htop := lt_of_bit15 h15
    have hnat := toNat_incrementY h15 h
    have hkeep (i : Nat) (hi : i < 12) : (incrementY v).getLsbD i = v.getLsbD i :=
      getLsbD_eq_of_mod_eq (by rw [hnat]; omega) hi
    rw [hnat, if_neg h, decide_eq_false h, Bool.false_and, Bool.xor_false]
    exact ⟨by omega, by omega, hkeep 11 (by omega), by omega, hkeep 10 (by omega)⟩

/-- Settles O47: the coarse X and the vertical increment, each with its wrap and without. -/
theorem scrollIncrements : Obligations.ScrollIncrements :=
  fun v h15 => ⟨incrementCoarseX_fields v, incrementY_fields h15⟩

end Sys2Proof.Proofs
end

section
/-! The raster and the flag events of a dot (R318 to R325): which dot changes vblank and the NMI latch, and how many dots a frame
takes. -/

namespace Sys2Proof.Proofs

open Sys2Proof.Machine Sys2Proof.Laws

/-! ## Flag events (R318, R319) -/

/-- The dot advance leaves every flag of the status register. -/
theorem advanceDot_status (p : Ppu) (skip : Bool) :
    (advanceDot p skip).vblank = p.vblank ∧ (advanceDot p skip).spriteZeroHit = p.spriteZeroHit ∧
    (advanceDot p skip).spriteOverflow = p.spriteOverflow := by
  simp only [advanceDot]
  repeat' split
  all_goals exact ⟨rfl, rfl, rfl⟩

/-- The status flags and the CPU after a dot are what the flag events make of those rendering left. -/
theorem tickDot_flagEvents (s : State) :
    (tickDot s).ppu.vblank = (flagEvents (renderDot s).ppu).1.vblank ∧
    (tickDot s).ppu.spriteZeroHit = (flagEvents (renderDot s).ppu).1.spriteZeroHit ∧
    (tickDot s).ppu.spriteOverflow = (flagEvents (renderDot s).ppu).1.spriteOverflow ∧
    (tickDot s).cpu =
      { s.cpu with nmiPending := s.cpu.nmiPending || (flagEvents (renderDot s).ppu).2 } := by
  obtain ⟨hvblank, hzero, hoverflow⟩ := advanceDot_status (flagEvents (renderDot s).ppu).1 s.oddSkipNeedsRendering
  rw [tickDot_frame]
  exact ⟨hvblank, hzero, hoverflow, rfl⟩

theorem flagEvents_vblank {p : Ppu} (h : p.scanline = 241 ∧ p.dot = 1) :
    flagEvents p = ({ p with vblank := true }, p.ctrl.getLsbD 7) := if_pos h

theorem flagEvents_prerender {p : Ppu} (h : p.scanline = 261 ∧ p.dot = 1) :
    flagEvents p = ({ p with vblank := false, spriteZeroHit := false, spriteOverflow := false }, false) := by
  rw [flagEvents, if_neg (by omega), if_pos h]

theorem flagEvents_other {p : Ppu} (h : ¬ ((p.scanline = 241 ∨ p.scanline = 261) ∧ p.dot = 1)) :
    flagEvents p = (p, false) := by
  rw [flagEvents, if_neg (by omega), if_neg (by omega)]

/-- Settles O48: rendering leaves the raster position, so the three cases are those of the flag events. -/
theorem vblankEvents : Obligations.VblankEvents := by
  intro s
  obtain ⟨-, hrender⟩ := renderDot_frame s
  obtain ⟨hvblank, hzero, hoverflow, hcpu⟩ := tickDot_flagEvents s
  rw [hvblank, hzero, hoverflow, hcpu, ← hrender.scanline, ← hrender.dot, ← hrender.ctrl]
  refine ⟨fun h => ?vblank, fun h => ?prerender, fun h => ?other⟩
  case vblank => rw [flagEvents_vblank h]; exact ⟨rfl, rfl⟩
  case prerender => rw [flagEvents_prerender h]; simp
  case other => rw [flagEvents_other h]; exact ⟨hrender.vblank, by simp⟩

/-! ## The frame (R321 to R325) -/

/-- Whether this frame skips dot 340 of its pre-render line (R322, R325). -/
def skips (s : State) : Bool := s.ppu.oddFrame && (!s.oddSkipNeedsRendering || renderingEnabled s.ppu)

/-- The frame's parity and flag and all that decides on the skip are the same in two states. -/
structure SameFrame (s u : State) : Prop where
  mask       : u.ppu.mask = s.ppu.mask
  parameter  : u.oddSkipNeedsRendering = s.oddSkipNeedsRendering
  oddFrame   : u.ppu.oddFrame = s.ppu.oddFrame
  frameReady : u.ppu.frameReady = s.ppu.frameReady

theorem SameFrame.trans {s t u : State} (h : SameFrame s t) (g : SameFrame t u) : SameFrame s u where
  mask := g.mask.trans h.mask
  parameter := g.parameter.trans h.parameter
  oddFrame := g.oddFrame.trans h.oddFrame
  frameReady := g.frameReady.trans h.frameReady

theorem SameFrame.skips {s u : State} (h : SameFrame s u) : skips u = skips s := by
  simp only [Proofs.skips, renderingEnabled, h.mask, h.parameter, h.oddFrame]

theorem nextDot_eq (s : State) :
    nextDot s.ppu s.oddSkipNeedsRendering =
      if s.ppu.scanline = 261 ∧ s.ppu.dot = 339 ∧ skips s = true then 341 else s.ppu.dot + 1 := by
  simp only [nextDot, skips, Bool.and_eq_true]

theorem advanceDot_sameLine {p : Ppu} {skip : Bool} (h : nextDot p skip ≠ 341) :
    advanceDot p skip = { p with dot := nextDot p skip } := if_neg h

theorem advanceDot_nextLine {p : Ppu} {skip : Bool} (h : nextDot p skip = 341) (hline : p.scanline ≠ 261) :
    advanceDot p skip = { p with dot := 0, scanline := p.scanline + 1 } := by
  simp only [advanceDot, if_pos h, if_neg (show p.scanline + 1 ≠ 262 by omega)]

theorem advanceDot_nextFrame {p : Ppu} {skip : Bool} (h : nextDot p skip = 341) (hline : p.scanline = 261) :
    advanceDot p skip = { p with dot := 0, scanline := 0, frameReady := true, oddFrame := !p.oddFrame } := by
  simp only [advanceDot, if_pos h, hline]
  rfl

/-- Inside a frame a dot moves to the next dot, at the end of a line to the next line. -/
theorem tickDot_inFrame {s : State}
    (hin : s.ppu.scanline < 261 ∨ s.ppu.dot < 339 ∨ (s.ppu.dot = 339 ∧ skips s = false)) :
    (tickDot s).ppu.scanline = (if s.ppu.dot = 340 then s.ppu.scanline + 1 else s.ppu.scanline) ∧
    (tickDot s).ppu.dot = (if s.ppu.dot = 340 then 0 else s.ppu.dot + 1) ∧ SameFrame s (tickDot s) := by
  obtain ⟨hline', hdot', hodd', hready', hmask', -⟩ := tickDot_raster s
  have hparameter : (tickDot s).oddSkipNeedsRendering = s.oddSkipNeedsRendering := by rw [tickDot_frame]
  have hnext : nextDot s.ppu s.oddSkipNeedsRendering = s.ppu.dot + 1 := by
    rw [nextDot_eq, if_neg]
    rintro ⟨hline, hlast, hskip⟩
    simp [hline, hlast, hskip] at hin
  by_cases h : s.ppu.dot = 340
  case pos =>
    have hline : s.ppu.scanline ≠ 261 := by omega
    rw [advanceDot_nextLine (hnext.trans (by rw [h])) hline] at hline' hdot' hodd' hready'
    rw [if_pos h, if_pos h]
    exact ⟨hline', hdot', hmask', hparameter, hodd', hready'⟩
  case neg =>
    rw [advanceDot_sameLine (by rw [hnext]; omega)] at hline' hdot' hodd' hready'
    rw [if_neg h, if_neg h, ← hnext]
    exact ⟨hline', hdot', hmask', hparameter, hodd', hready'⟩

/-- The frame's last dot, which is 339 of the pre-render line where the skip applies and else 340, starts the next frame. -/
theorem tickDot_lastDot {s : State} (hline : s.ppu.scanline = 261)
    (hlast : s.ppu.dot = if skips s then 339 else 340) :
    (tickDot s).ppu.scanline = 0 ∧ (tickDot s).ppu.dot = 0 ∧
    (tickDot s).ppu.oddFrame = (!s.ppu.oddFrame) ∧ (tickDot s).ppu.frameReady = true := by
  obtain ⟨hline', hdot', hodd', hready', -⟩ := tickDot_raster s
  have hnext : nextDot s.ppu s.oddSkipNeedsRendering = 341 := by
    rw [nextDot_eq]
    split at hlast <;> simp [*]
  rw [advanceDot_nextFrame hnext hline] at hline' hdot' hodd' hready'
  exact ⟨hline', hdot', hodd', hready'⟩

/-- The number of dots of the frame (R321, R322). -/
def frameDots (s : State) : Nat := if skips s then 89341 else 89342

/-- Before its last dot the raster has counted the frame's dots in lines of 341. -/
theorem iterate_tickDot_inFrame {s : State} (hline : s.ppu.scanline = 0) (hdot : s.ppu.dot = 0) :
    ∀ k, k < frameDots s →
      (tickDot^[k] s).ppu.scanline = k / 341 ∧ (tickDot^[k] s).ppu.dot = k % 341 ∧ SameFrame s (tickDot^[k] s)
  | 0, _ => ⟨hline, hdot, rfl, rfl, rfl, rfl⟩
  | k + 1, hk => by
    obtain ⟨hline', hdot', hsame⟩ := iterate_tickDot_inFrame hline hdot k (Nat.lt_of_succ_lt hk)
    rw [Function.iterate_succ_apply']
    generalize tickDot^[k] s = u at hline' hdot' hsame ⊢
    have hin : u.ppu.scanline < 261 ∨ u.ppu.dot < 339 ∨ (u.ppu.dot = 339 ∧ skips u = false) := by
      rw [hsame.skips, hline', hdot']
      unfold frameDots at hk
      cases hskip : skips s <;> simp [hskip] at hk ⊢ <;> omega
    obtain ⟨hline'', hdot'', hsame'⟩ := tickDot_inFrame hin
    rw [hline'', hdot'', hline', hdot']
    exact ⟨by split <;> omega, by split <;> omega, hsame.trans hsame'⟩

/-- Settles O49: inside the frame only its start is at line 0, dot 0 (`iterate_tickDot_inFrame`), and its last dot starts the
next frame (`tickDot_lastDot`). -/
theorem frameCadence : Obligations.FrameCadence := by
  intro s n hline hdot hn
  have hcount := iterate_tickDot_inFrame hline hdot
  have hframe : frameDots s = n := hn.symm
  rw [hframe] at hcount
  obtain ⟨m, hm⟩ : ∃ m, m = 261 * 341 + if skips s then 339 else 340 := ⟨_, rfl⟩
  have hlast : n = m + 1 := by
    rw [← hframe, hm, frameDots]
    split <;> rfl
  subst hlast
  obtain ⟨hline', hdot', hsame⟩ := hcount m (Nat.lt_succ_self m)
  rw [Function.iterate_succ_apply', ← hsame.oddFrame]
  have hend : m / 341 = 261 ∧ m % 341 = if skips s then 339 else 340 := by
    rw [hm]
    split <;> exact ⟨rfl, rfl⟩
  obtain ⟨hstart, hstart', hodd, hready⟩ :=
    tickDot_lastDot (hline'.trans hend.1) (by rw [hdot', hsame.skips, hend.2])
  refine ⟨hstart, hstart', hodd, hready, fun k hpos hk => ?_⟩
  obtain ⟨hline, hdot, hsame⟩ := hcount k hk
  exact ⟨by omega, hsame.frameReady⟩

end Sys2Proof.Proofs
end

section
/-! A dot in its parts: what the sprite evaluation and the pixel output in front of the background pipeline change, and when each
part runs (R290 to R292). -/

namespace Sys2Proof.Proofs

open Sys2Proof.Machine Sys2Proof.Laws

theorem fetchLine_iff (p : Ppu) : fetchLine p = true ↔ OnFetchLine p := by
  simp [fetchLine, OnFetchLine]

theorem pipelineDot_iff (p : Ppu) : pipelineDot p = true ↔ AtPipelineDot p := by
  simp [pipelineDot, AtPipelineDot, fetchLine_iff]

/-- Sprite evaluation runs at dot 0 of a visible line with rendering enabled (R290). -/
def EvaluatesAt (p : Ppu) : Prop := p.dot = 0 ∧ p.scanline < 240 ∧ renderingEnabled p = true

theorem evaluated_of_evaluatesAt {s : State} (h : EvaluatesAt s.ppu) : evaluated s = evaluateSprites s := by
  obtain ⟨hdot, hline, henabled⟩ := h
  exact if_pos (by simp [hdot, visibleLine, hline, henabled])

theorem evaluated_of_not {s : State} (h : ¬ EvaluatesAt s.ppu) : evaluated s = s :=
  if_neg fun hc => h (by simpa [visibleLine, EvaluatesAt, and_assoc] using hc)

/-- The pixel is output at dots 0-255 of a visible line (R290). -/
theorem drawn_visible {s : State} (hline : s.ppu.scanline < 240) (hdot : s.ppu.dot < 256) :
    drawn s = outputPixel (evaluated s).ppu :=
  if_pos (by simp [visibleLine, hline, hdot])

theorem drawn_other {s : State} (h : ¬ (s.ppu.dot < 256 ∧ s.ppu.scanline < 240)) : drawn s = (evaluated s).ppu :=
  if_neg fun hc => h (by simpa [visibleLine, and_comm] using hc)

/-- Before the background pipeline runs, a dot has changed no more than what it draws and the sprite flags. -/
theorem drawn_eq (s : State) :
    drawn s = { s.ppu with
      spr := (drawn s).spr
      spriteOverflow := (drawn s).spriteOverflow
      spriteZeroHit := (drawn s).spriteZeroHit
      frame := (drawn s).frame } := by
  rw [drawn_frame, evaluated_frame]

/-- The frame and the sprite buffers after a dot are those of its first two steps. -/
theorem tickDot_frame_spr (s : State) :
    (tickDot s).ppu.frame = (drawn s).frame ∧ (tickDot s).ppu.spr = (evaluated s).ppu.spr := by
  obtain ⟨hframe, hspr, -, -⟩ := renderDot_drawn s
  rw [tickDot_drawn]
  exact ⟨hframe, hspr.trans (by rw [drawn_frame])⟩

/-- The sprite flags after a dot are those of its first two steps, but at line 261, dot 1. -/
theorem tickDot_flags {s : State} (h : ¬ (s.ppu.scanline = 261 ∧ s.ppu.dot = 1)) :
    (tickDot s).ppu.spriteZeroHit = (drawn s).spriteZeroHit ∧
    (tickDot s).ppu.spriteOverflow = (evaluated s).ppu.spriteOverflow := by
  obtain ⟨hzero, hoverflow⟩ := tickDot_spriteFlags s h
  obtain ⟨-, -, hzero', hoverflow'⟩ := renderDot_drawn s
  exact ⟨hzero.trans hzero', (hoverflow.trans hoverflow').trans (by rw [drawn_frame])⟩

end Sys2Proof.Proofs
end

section
/-! The background pipeline and the scroll updates of a dot (R292 to R302). -/

namespace Sys2Proof.Proofs

open Sys2Proof.Machine Sys2Proof.Laws

/-! ## The scroll copies (R298, R299) -/

theorem getLsbD_masked (v t mask : BitVec 16) (i : Nat) :
    ((v &&& ~~~mask) ||| (t &&& mask)).getLsbD i = if mask.getLsbD i then t.getLsbD i else v.getLsbD i := by
  rw [BitVec.getLsbD_or, BitVec.getLsbD_and, BitVec.getLsbD_and, BitVec.getLsbD_not]
  by_cases hi : i < 16
  · cases mask.getLsbD i <;> simp [hi]
  · have hout (x : BitVec 16) : x.getLsbD i = false := BitVec.getLsbD_of_ge x i (Nat.not_lt.1 hi)
    simp [hout]

theorem copiedBits_eq (horizontal : Bool) (i : Nat) :
    copiedBits horizontal i = (if horizontal then 0x041F#16 else 0x7BE0#16).getLsbD i := by
  by_cases hi : i < 16
  · cases horizontal <;> interval_cases i <;> rfl
  · have hout : ¬ (i < 5 ∨ i = 10) ∧ ¬ ((5 ≤ i ∧ i < 10) ∨ (11 ≤ i ∧ i < 15)) := by omega
    rw [BitVec.getLsbD_of_ge _ _ (Nat.not_lt.1 hi), copiedBits, decide_eq_false hout.1, decide_eq_false hout.2]
    split <;> rfl

theorem copies_copyHorizontal (p : Ppu) : Copies true p.v p.t (copyHorizontal p) := by
  intro i
  rw [copyHorizontal, getLsbD_masked, copiedBits_eq, if_pos rfl]

theorem copies_copyVertical (p : Ppu) : Copies false p.v p.t (copyVertical p) := by
  intro i
  rw [copyVertical, getLsbD_masked, copiedBits_eq, if_neg Bool.false_ne_true]

/-! ## The shifters (R294, R302) -/

/-- A shifter after the shift and, where a byte is loaded, the load. -/
theorem toNat_shifted_loaded (x : BitVec 16) (b : Byte) (c : Prop) [Decidable c] :
    (if c then ((x <<< 1) &&& 0xFF00#16) ||| b.setWidth 16 else x <<< 1).toNat =
      shiftedIn x (if c then some b else none) := by
  have hshift : (x <<< 1).toNat = x.toNat * 2 % 0x10000 := by
    rw [BitVec.toNat_shiftLeft, Nat.shiftLeft_eq]
  split
  · have hload : ((x <<< 1) &&& 0xFF00#16) ||| b.setWidth 16 = (x <<< 1).extractLsb' 8 8 ++ b := by
      apply BitVec.eq_of_getLsbD_eq
      intro i hi
      simp only [BitVec.getLsbD_append, BitVec.getLsbD_extractLsb']
      interval_cases i <;> simp
    rw [hload, toNat_append_add, toNat_field, hshift, shiftedIn]
    omega
  · exact hshift

/-- A palette shifter, whose load is eight copies of a bit. -/
theorem toNat_shifted_spread (x : BitVec 16) (b : Bool) (c : Prop) [Decidable c] :
    (if c then ((x <<< 1) &&& 0xFF00#16) ||| (if b then 0xFF#16 else 0#16) else x <<< 1).toNat =
      shiftedIn x (if c then some (spread b) else none) := by
  rw [← toNat_shifted_loaded]
  cases b <;> rfl

/-! ## The addresses of the fetches (R293, R300, R301) -/

theorem tileAddr_eq (v : BitVec 16) :
    0x2000#16 ||| (v &&& 0x0FFF#16) = BitVec.ofNat 16 (0x2000 + v.toNat % 0x1000) := by
  have hfields : 0x2000#16 ||| (v &&& 0x0FFF#16) = 2#4 ++ v.extractLsb' 0 12 := by
    apply BitVec.eq_of_getLsbD_eq
    intro i hi
    simp only [BitVec.getLsbD_append, BitVec.getLsbD_extractLsb']
    interval_cases i <;> simp
  rw [hfields, ← BitVec.toNat_inj, toNat_append_add, toNat_field, BitVec.toNat_ofNat, BitVec.toNat_ofNat]
  omega

theorem attributeAddr_eq (v : BitVec 16) :
    attributeAddr v = BitVec.ofNat 16
      (0x23C0 + v.toNat / 0x400 % 4 * 0x400 + v.toNat / 128 % 8 * 8 + v.toNat / 4 % 8) := by
  have hfields : attributeAddr v =
      2#4 ++ v.extractLsb' 10 2 ++ 0xF#4 ++ v.extractLsb' 7 3 ++ v.extractLsb' 2 3 := by
    apply BitVec.eq_of_getLsbD_eq
    intro i hi
    simp only [attributeAddr, BitVec.getLsbD_append, BitVec.getLsbD_extractLsb']
    interval_cases i <;> simp
  rw [hfields, ← BitVec.toNat_inj]
  simp only [toNat_append_add, toNat_field, BitVec.toNat_ofNat, Nat.reducePow]
  omega

theorem attributeShift_eq (v : BitVec 16) :
    attributeShift v = v.toNat / 64 % 2 * 4 + v.toNat / 2 % 2 * 2 := by
  have hfields : ((v >>> 4) &&& 0x04#16) ||| (v &&& 0x02#16) = 0#13 ++ v.extractLsb' 6 1 ++ v.extractLsb' 1 1 ++ 0#1 := by
    apply BitVec.eq_of_getLsbD_eq
    intro i hi
    simp only [BitVec.getLsbD_append, BitVec.getLsbD_extractLsb']
    interval_cases i <;> simp
  rw [attributeShift, hfields]
  simp only [toNat_append_add, toNat_field, BitVec.toNat_ofNat]
  omega

theorem bgPatternAddr_eq (p : Ppu) :
    bgPatternAddr p = BitVec.ofNat 16
      ((if p.ctrl.getLsbD 4 then 0x1000 else 0) + p.ntLatch.toNat * 16 + p.v.toNat / 4096 % 8) := by
  have htile : p.ntLatch.setWidth 16 <<< 4 = BitVec.ofNat 16 (p.ntLatch.toNat * 16) := by
    rw [← BitVec.toNat_inj, BitVec.toNat_shiftLeft, Nat.shiftLeft_eq, BitVec.toNat_setWidth, BitVec.toNat_ofNat]
    omega
  have hfine : (p.v >>> 12) &&& 7#16 = BitVec.ofNat 16 (p.v.toNat / 4096 % 8) := by
    rw [← BitVec.toNat_inj, toNat_and_lowMask 7#16 3 rfl, BitVec.toNat_ushiftRight, Nat.shiftRight_eq_div_pow,
      BitVec.toNat_ofNat]
    omega
  rw [bgPatternAddr, htile, hfine, BitVec.ofNat_add, BitVec.ofNat_add]
  split <;> rfl

theorem toNat_quadrant (b : Byte) (n : Nat) : ((b >>> n).setWidth 2).toNat = b.toNat / 2 ^ n % 4 := by
  rw [BitVec.toNat_setWidth, BitVec.toNat_ushiftRight, Nat.shiftRight_eq_div_pow]

/-! ## The fetch phases (R293, R294) -/

/-- What the fetch or the load of a phase does to each shifter and latch and to `v`. -/
theorem fetchPhase_eq (u : State) :
    fetchPhase u = { u.ppu with
      ntLatch :=
        if u.ppu.dot % 8 = 0 then ppuBusRead u (0x2000#16 ||| (u.ppu.v &&& 0x0FFF#16)) else u.ppu.ntLatch
      atLatch :=
        if u.ppu.dot % 8 = 2 then (ppuBusRead u (attributeAddr u.ppu.v) >>> attributeShift u.ppu.v).setWidth 2
        else u.ppu.atLatch
      patLoLatch := if u.ppu.dot % 8 = 4 then ppuBusRead u (bgPatternAddr u.ppu) else u.ppu.patLoLatch
      patHiLatch := if u.ppu.dot % 8 = 6 then ppuBusRead u (bgPatternAddr u.ppu + 8#16) else u.ppu.patHiLatch
      bgPatLo := if u.ppu.dot % 8 = 7 then (loadShifters u.ppu).bgPatLo else u.ppu.bgPatLo
      bgPatHi := if u.ppu.dot % 8 = 7 then (loadShifters u.ppu).bgPatHi else u.ppu.bgPatHi
      bgAttLo := if u.ppu.dot % 8 = 7 then (loadShifters u.ppu).bgAttLo else u.ppu.bgAttLo
      bgAttHi := if u.ppu.dot % 8 = 7 then (loadShifters u.ppu).bgAttHi else u.ppu.bgAttHi
      v := if u.ppu.dot % 8 = 7 then incrementCoarseX u.ppu.v else u.ppu.v } := by
  unfold fetchPhase
  simp only
  split
  case h_6 h0 h2 h4 h6 h7 =>
    simp only [if_neg h0, if_neg h2, if_neg h4, if_neg h6, if_neg h7]
  all_goals simp [*, loadShifters]

/-- The scroll updates change `v` alone. -/
theorem scrollUpdates_eq (p : Ppu) : scrollUpdates p = { p with v := (scrollUpdates p).v } := by
  unfold scrollUpdates
  repeat' split
  all_goals rfl

theorem scrollUpdates_v (p : Ppu) :
    (scrollUpdates p).v =
      if p.dot = 248 then incrementY p.v
      else if p.dot = 256 then copyHorizontal p
      else if p.scanline = 261 ∧ 280 ≤ p.dot ∧ p.dot ≤ 304 then copyVertical p
      else p.v := by
  unfold scrollUpdates
  repeat' split
  all_goals rfl

/-! ## A dot with rendering disabled and enabled (R292) -/

/-- Shifters and latches that rest after the pixel output rest in the whole dot. -/
theorem pipelineRests_of_drawn {s : State} (h : PipelineRests (drawn s) (renderDot s).ppu) :
    PipelineRests s.ppu (tickDot s).ppu := by
  rw [drawn_eq] at h
  rw [tickDot_drawn]
  exact ⟨h.patLo, h.patHi, h.attLo, h.attHi, h.tile, h.palette, h.lowByte, h.highByte⟩

theorem pipelineRests_refl (p : Ppu) : PipelineRests p p := ⟨rfl, rfl, rfl, rfl, rfl, rfl, rfl, rfl⟩

theorem pipelineRests_scrollUpdates (p : Ppu) : PipelineRests p (scrollUpdates p) := by
  rw [scrollUpdates_eq]
  exact ⟨rfl, rfl, rfl, rfl, rfl, rfl, rfl, rfl⟩

/-- The pipeline rests with rendering disabled and at every dot it does not run at. -/
theorem pipelineRests_tickDot {s : State} (h : ¬ (renderingEnabled s.ppu = true ∧ AtPipelineDot s.ppu)) :
    PipelineRests s.ppu (tickDot s).ppu := by
  refine pipelineRests_of_drawn ?_
  obtain ⟨-, e⟩ | ⟨-, -, e⟩ | ⟨-, -, -, e⟩ | ⟨henabled, -, hdot, -⟩ := renderDot_cases s
  · rw [e]; exact pipelineRests_refl _
  · rw [e]; exact pipelineRests_refl _
  · rw [e]; exact pipelineRests_scrollUpdates _
  · exact absurd ⟨henabled, (pipelineDot_iff _).1 hdot⟩ h

/-- The machine the fetch of a dot sees: the pixel is output and the background shifted. -/
def shifted (s : State) : State := { evaluated s with ppu := shiftBackground (drawn s) }

/-- The PPU bus is the same for the fetch as before the dot. -/
theorem ppuBusRead_shifted (s : State) (a : Addr) : ppuBusRead (shifted s) a = ppuBusRead s a := by
  rw [shifted, drawn_eq, evaluated_frame]
  rfl

theorem renderDot_pipeline {s : State} (henabled : renderingEnabled s.ppu = true) (hdot : AtPipelineDot s.ppu) :
    (renderDot s).ppu = scrollUpdates (fetchPhase (shifted s)) := by
  obtain ⟨h, -⟩ | ⟨-, h, -⟩ | ⟨-, -, h, -⟩ | ⟨-, -, -, e⟩ := renderDot_cases s
  · simp [henabled] at h
  · simp [(fetchLine_iff _).2 hdot.1] at h
  · simp [(pipelineDot_iff _).2 hdot] at h
  · exact e

/-- Where the pipeline runs, the shifters and latches after a dot are its fetch phase's. -/
theorem tickDot_pipeline {s : State} (henabled : renderingEnabled s.ppu = true) (hdot : AtPipelineDot s.ppu) :
    PipelineRests (fetchPhase (shifted s)) (tickDot s).ppu := by
  rw [tickDot_drawn, renderDot_pipeline henabled hdot, scrollUpdates_eq]
  exact ⟨rfl, rfl, rfl, rfl, rfl, rfl, rfl, rfl⟩

theorem shifted_ppu (s : State) :
    (shifted s).ppu = { shiftBackground s.ppu with
      spr := (drawn s).spr
      spriteOverflow := (drawn s).spriteOverflow
      spriteZeroHit := (drawn s).spriteZeroHit
      frame := (drawn s).frame } :=
  congrArg shiftBackground (drawn_eq s)

theorem pipelineRuns_fetchPhase (s : State) : PipelineRuns s (fetchPhase (shifted s)) := by
  rw [fetchPhase_eq]
  simp only [ppuBusRead_shifted, tileAddr_eq, attributeAddr_eq, attributeShift_eq, bgPatternAddr_eq, ← BitVec.ofNat_add]
  rw [shifted_ppu]
  exact {
    patLo := toNat_shifted_loaded _ _ _
    patHi := toNat_shifted_loaded _ _ _
    attLo := toNat_shifted_spread _ _ _
    attHi := toNat_shifted_spread _ _ _
    tile := rfl
    palette := (apply_ite BitVec.toNat _ _ _).trans (by rw [toNat_quadrant]; rfl)
    lowByte := rfl
    highByte := rfl }

theorem pipelineRuns_of_rests {s : State} {q q' : Ppu} (h : PipelineRuns s q) (g : PipelineRests q q') :
    PipelineRuns s q' where
  patLo := g.patLo ▸ h.patLo
  patHi := g.patHi ▸ h.patHi
  attLo := g.attLo ▸ h.attLo
  attHi := g.attHi ▸ h.attHi
  tile := g.tile.trans h.tile
  palette := g.palette ▸ h.palette
  lowByte := g.lowByte.trans h.lowByte
  highByte := g.highByte.trans h.highByte

/-! ## `v` (R296 to R299) -/

theorem tickDot_v (s : State) : (tickDot s).ppu.v = (renderDot s).ppu.v := by
  rw [tickDot_drawn]

theorem drawn_v (s : State) : (drawn s).v = s.ppu.v := by
  rw [drawn_eq]

theorem sameControl_drawn (s : State) : SameControl s.ppu (drawn s) := by
  rw [drawn_eq]
  constructor <;> rfl

theorem sameControl_fetchPhase_shifted (s : State) : SameControl s.ppu (fetchPhase (shifted s)) := by
  refine .trans ?_ (sameControl_fetchPhase (shifted s))
  rw [shifted_ppu]
  constructor <;> rfl

theorem fetchPhase_shifted_v (s : State) :
    (fetchPhase (shifted s)).v = if s.ppu.dot % 8 = 7 then incrementCoarseX s.ppu.v else s.ppu.v := by
  rw [fetchPhase_eq, shifted_ppu]
  rfl

/-- The scroll updates see of the PPU the raster position, `t` and `v`. -/
theorem scrollUpdates_v_congr {p q : Ppu} (h : SameControl p q) (hv : q.v = p.v) :
    (scrollUpdates q).v = (scrollUpdates p).v := by
  simp only [scrollUpdates_v, copyHorizontal, copyVertical, hv, h.dot, h.scanline, h.t]

theorem tickDot_v_of_not {s : State} (h : ¬ (renderingEnabled s.ppu = true ∧ OnFetchLine s.ppu)) :
    (tickDot s).ppu.v = s.ppu.v := by
  rw [tickDot_v]
  obtain ⟨-, e⟩ | ⟨-, -, e⟩ | ⟨henabled, hline, -⟩ | ⟨henabled, hline, -⟩ := renderDot_cases s
  · rw [e, drawn_v]
  · rw [e, drawn_v]
  · exact absurd ⟨henabled, (fetchLine_iff _).1 hline⟩ h
  · exact absurd ⟨henabled, (fetchLine_iff _).1 hline⟩ h

/-- At a dot without a coarse X increment `v` takes its scroll update alone. -/
theorem tickDot_v_scroll {s : State} (henabled : renderingEnabled s.ppu = true) (hline : OnFetchLine s.ppu)
    (h : ¬ (AtPipelineDot s.ppu ∧ s.ppu.dot % 8 = 7)) : (tickDot s).ppu.v = (scrollUpdates s.ppu).v := by
  rw [tickDot_v]
  obtain ⟨hc, -⟩ | ⟨-, hc, -⟩ | ⟨-, -, -, e⟩ | ⟨-, -, hdot, e⟩ := renderDot_cases s
  · simp [henabled] at hc
  · simp [(fetchLine_iff _).2 hline] at hc
  · rw [e]
    exact scrollUpdates_v_congr (sameControl_drawn s) (drawn_v s)
  · have hphase : s.ppu.dot % 8 ≠ 7 := fun h7 => h ⟨(pipelineDot_iff _).1 hdot, h7⟩
    rw [e]
    exact scrollUpdates_v_congr (sameControl_fetchPhase_shifted s) ((fetchPhase_shifted_v s).trans (if_neg hphase))

/-- No scroll update falls on a phase 7 of the pipeline. -/
theorem tickDot_v_coarseX {s : State} (henabled : renderingEnabled s.ppu = true) (hdot : AtPipelineDot s.ppu)
    (h7 : s.ppu.dot % 8 = 7) : (tickDot s).ppu.v = incrementCoarseX s.ppu.v := by
  have hrange := hdot.2
  rw [tickDot_v, renderDot_pipeline henabled hdot, scrollUpdates_v, (sameControl_fetchPhase_shifted s).dot,
    if_neg (by omega), if_neg (by omega), if_neg (by omega), fetchPhase_shifted_v, if_pos h7]

/-! ## The statement -/

/-- A dot with rendering disabled sets no sprite flag (R292). -/
theorem tickDot_flags_of_disabled {s : State} (hoff : renderingEnabled s.ppu = false) :
    ((tickDot s).ppu.spriteZeroHit = true → s.ppu.spriteZeroHit = true) ∧
    ((tickDot s).ppu.spriteOverflow = true → s.ppu.spriteOverflow = true) := by
  have heval : evaluated s = s := evaluated_of_not (by simp [EvaluatesAt, hoff])
  by_cases hpre : s.ppu.scanline = 261 ∧ s.ppu.dot = 1
  · obtain ⟨-, hzero, hoverflow, -⟩ := (vblankEvents s).2.1 hpre
    simp [hzero, hoverflow]
  · obtain ⟨hzero, hoverflow⟩ := tickDot_flags hpre
    rw [hzero, hoverflow, heval, drawn, heval]
    refine ⟨?_, id⟩
    split <;> simp [outputPixel, hoff]

/-- Settles O50: with rendering disabled no part of a dot but the pixel output runs; with rendering enabled the pipeline runs at its
dots (`pipelineRuns_fetchPhase`) and `v` takes a coarse X increment, a scroll update or neither. -/
theorem renderingOffQuiet : Obligations.RenderingOffQuiet := by
  intro s
  have ht := (dotsOnly_tickDot s).t
  refine ⟨fun hoff => ?disabled, fun hon => ⟨ht, fun hdot => ?runs, fun hdot => ?rests, tickDot_v_coarseX hon,
    fun hline h248 => ?y, fun hline h256 => ?horizontal, fun h261 hlo hhi => ?vertical, fun hphase hscroll hcopy => ?stays⟩⟩
  case disabled =>
    have hno (P : Prop) : ¬ (renderingEnabled s.ppu = true ∧ P) := by simp [hoff]
    have hspr : (tickDot s).ppu.spr = s.ppu.spr := by
      rw [(tickDot_frame_spr s).2, evaluated_of_not (by simp [EvaluatesAt, hoff])]
    exact ⟨tickDot_v_of_not (hno _), ht, pipelineRests_tickDot (hno _), hspr, tickDot_flags_of_disabled hoff⟩
  case runs => exact pipelineRuns_of_rests (pipelineRuns_fetchPhase s) (tickDot_pipeline hon hdot)
  case rests => exact pipelineRests_tickDot fun h => hdot h.2
  case y => rw [tickDot_v_scroll hon hline (by omega), scrollUpdates_v, if_pos h248]
  case horizontal =>
    rw [tickDot_v_scroll hon hline (by omega), scrollUpdates_v, if_neg (by omega), if_pos h256]
    exact copies_copyHorizontal s.ppu
  case vertical =>
    have hdot : ¬ AtPipelineDot s.ppu := fun ⟨_, h⟩ => by omega
    rw [tickDot_v_scroll hon (.inr h261) (fun h => hdot h.1), scrollUpdates_v, if_neg (by omega), if_neg (by omega),
      if_pos ⟨h261, hlo, hhi⟩]
    exact copies_copyVertical s.ppu
  case stays =>
    by_cases hline : OnFetchLine s.ppu
    · have h248 : s.ppu.dot ≠ 248 := fun h => hscroll ⟨hline, .inl h⟩
      have h256 : s.ppu.dot ≠ 256 := fun h => hscroll ⟨hline, .inr h⟩
      rw [tickDot_v_scroll hon hline hphase, scrollUpdates_v, if_neg h248, if_neg h256, if_neg hcopy]
    · exact tickDot_v_of_not fun h => hline h.2

end Sys2Proof.Proofs
end

section
/-! The pixel of a dot (R303, R309 to R316): which palette entry it shows, and when it is a sprite-zero hit. -/

namespace Sys2Proof.Proofs

open Sys2Proof.Machine Sys2Proof.Laws

/-! ## The two layers (R303, R309) -/

/-- A layer shows at a column: it is enabled, and so is its clip bit in the eight leftmost columns. -/
theorem shown_iff (layer left : Bool) (c : Nat) :
    ¬ ((!layer || (decide (c < 8) && !left)) = true) ↔ layer = true ∧ (8 ≤ c ∨ left = true) := by
  cases layer <;> cases left <;> simp

theorem spritePixel_eq (p : Ppu) (c : Nat) :
    spritePixel p c =
      if p.mask.getLsbD 4 = true ∧ (8 ≤ c ∨ p.mask.getLsbD 2 = true) then p.spr.pix.read c else 0#2 := by
  unfold spritePixel
  rw [← ite_not]
  exact if_congr (shown_iff _ _ _) rfl rfl

theorem bgPixel_eq (p : Ppu) (c : Nat) :
    bgPixel p c =
      if p.mask.getLsbD 3 = true ∧ (8 ≤ c ∨ p.mask.getLsbD 1 = true) then
        twoBits (p.bgPatHi.getLsbD (15 - p.fineX.toNat)) (p.bgPatLo.getLsbD (15 - p.fineX.toNat))
      else 0#2 := by
  unfold bgPixel
  rw [← ite_not]
  exact if_congr (shown_iff _ _ _) rfl rfl

/-! ## The palette entry (R311 to R313) -/

theorem palIndex_spriteColour : ∀ x y : BitVec 2, y ≠ 0#2 →
    palIndex (0x3F10#16 + (x ++ y).setWidth 16) = 16 + 4 * x.toNat + y.toNat := by
  decide

theorem palIndex_bgColour : ∀ x y : BitVec 2, y ≠ 0#2 →
    palIndex (0x3F00#16 + (x ++ y).setWidth 16) = 4 * x.toNat + y.toNat := by
  decide

section
variable {p : Ppu} {c : Nat}

/-- The sprite shows where it is opaque and in front or the background is transparent. -/
theorem palIndex_compositeAddr_sprite (hs : spritePixel p c ≠ 0#2)
    (hfront : p.spr.behind.read c = 0#1 ∨ bgPixel p c = 0#2) :
    palIndex (compositeAddr p c) = 16 + 4 * (p.spr.pal.read c).toNat + (spritePixel p c).toNat := by
  simp only [compositeAddr, if_pos (And.intro hs hfront)]
  exact palIndex_spriteColour _ _ hs

/-- The background shows where it is opaque and the sprite is not or stands behind it. -/
theorem palIndex_compositeAddr_background (hs : spritePixel p c = 0#2 ∨ p.spr.behind.read c = 1#1)
    (hb : bgPixel p c ≠ 0#2) :
    palIndex (compositeAddr p c) = 4 * (bgPalette p).toNat + (bgPixel p c).toNat := by
  have hbehind : ¬ (spritePixel p c ≠ 0#2 ∧ (p.spr.behind.read c = 0#1 ∨ bgPixel p c = 0#2)) := by
    rintro ⟨hopaque, hfront | htransparent⟩
    · rw [hfront] at hs
      exact hs.elim hopaque (by decide)
    · exact hb htransparent
  simp only [compositeAddr, if_neg hbehind, if_pos hb]
  exact palIndex_bgColour _ _ hb

/-- The backdrop shows where both layers are transparent. -/
theorem palIndex_compositeAddr_backdrop (hs : spritePixel p c = 0#2) (hb : bgPixel p c = 0#2) :
    palIndex (compositeAddr p c) = 0 := by
  have haddr : compositeAddr p c = 0x3F00#16 := by simp [compositeAddr, hs, hb]
  rw [haddr]
  rfl

theorem palIndex_disabledAddr :
    palIndex (disabledAddr p) = if 0x3F00 ≤ p.v.toNat % 0x4000 then palIndex p.v else 0 := by
  rw [disabledAddr, toNat_ppuMask, apply_ite palIndex, palIndex_ppuMask]
  rfl

end

theorem zeroHitAt_iff (p : Ppu) (c : Nat) :
    zeroHitAt p c = true ↔ p.spr.zero.read c = 1#1 ∧ spritePixel p c ≠ 0#2 ∧ bgPixel p c ≠ 0#2 := by
  simp [zeroHitAt, and_assoc]

/-- A dot of the picture writes its own pixel of the frame, and sets the sprite-zero hit where it shows one. -/
theorem tickDot_pixel {s : State} (hline : s.ppu.scanline < 240) (hdot : s.ppu.dot < 256) :
    (tickDot s).ppu.frame = s.ppu.frame.write (256 * s.ppu.scanline + s.ppu.dot)
      (pixelColour s.ppu
        (if renderingEnabled s.ppu then compositeAddr (evaluated s).ppu s.ppu.dot else disabledAddr s.ppu)) ∧
    (tickDot s).ppu.spriteZeroHit =
      (s.ppu.spriteZeroHit || (renderingEnabled s.ppu && zeroHitAt (evaluated s).ppu s.ppu.dot)) := by
  rw [(tickDot_frame_spr s).1, (tickDot_flags (by omega)).1, drawn_visible hline hdot]
  have heval := evaluated_frame s
  generalize evaluated s = e at heval ⊢
  rw [heval]
  exact ⟨rfl, rfl⟩

theorem tickDot_noPixel {s : State} (h : ¬ (s.ppu.dot < 256 ∧ s.ppu.scanline < 240)) :
    (tickDot s).ppu.frame = s.ppu.frame ∧
    (¬ (s.ppu.scanline = 261 ∧ s.ppu.dot = 1) → (tickDot s).ppu.spriteZeroHit = s.ppu.spriteZeroHit) := by
  have hdrawn : drawn s = s.ppu := by
    rw [drawn_other h, evaluated_of_not fun ⟨hdot, hline, _⟩ => h ⟨by omega, hline⟩]
  exact ⟨(tickDot_frame_spr s).1.trans (by rw [hdrawn]), fun hpre => (tickDot_flags hpre).1.trans (by rw [hdrawn])⟩

/-- Settles O51: the pixel is that of the composite address of the buffers as evaluation leaves them (`tickDot_pixel`), whose
palette entry is one of three (`palIndex_compositeAddr_sprite` and its companions). -/
theorem pixelPriority : Obligations.PixelPriority := by
  intro s e grey sp bp c at' pal hc hat he hgrey hsp hbp hpal
  subst hc hat
  refine ⟨fun hdot hline => ?_, tickDot_noPixel⟩
  have heval : evaluated s = e := by
    rw [he]
    split
    case isTrue h => exact evaluated_of_evaluatesAt ⟨h.1, hline, h.2⟩
    case isFalse h => exact evaluated_of_not fun ⟨hzero, _, hon⟩ => h ⟨hzero, hon⟩
  obtain ⟨hframe, hhit⟩ := tickDot_pixel hline hdot
  have hppu := congrArg State.ppu (evaluated_frame s)
  rw [heval] at hframe hhit hppu
  have hsp' : spritePixel e.ppu s.ppu.dot = sp := by
    rw [hsp, spritePixel_eq, hppu]
  have hbp' : bgPixel e.ppu s.ppu.dot = bp := by
    rw [hbp, bgPixel_eq, hppu]
  have hpal' : (bgPalette e.ppu).toNat = pal := by
    rw [hpal, bgPalette, hppu]
  have hcolour (addr : Addr) : pixelColour s.ppu addr = s.ppu.palette.read (palIndex addr) &&& grey := by
    rw [hgrey, pixelColour]
  rw [hframe, hhit, read_write_same, hcolour, ← hsp', ← hbp', ← hpal']
  refine ⟨fun k hk => read_write_other _ _ hk.symm, fun hon hs hfront => ?sprite, fun hon hs hb => ?background,
    fun hon hs hb => ?backdrop, fun hoff => ?disabled, ?hit⟩
  case sprite => rw [if_pos hon, palIndex_compositeAddr_sprite hs hfront]
  case background => rw [if_pos hon, palIndex_compositeAddr_background hs hb]
  case backdrop => rw [if_pos hon, palIndex_compositeAddr_backdrop hs hb]
  case disabled => rw [hoff, if_neg Bool.false_ne_true, palIndex_disabledAddr]
  case hit => rw [Bool.eq_iff_iff]; simp [zeroHitAt_iff]

end Sys2Proof.Proofs
end

section
/-! The sprite buffers (R305 to R308): what one OAM entry puts into a column, and which entry of those in range shows there. -/

namespace Sys2Proof.Proofs

open Sys2Proof.Machine Sys2Proof.Laws

/-! ## One pixel of a sprite (R307) -/

/-- What the sprite buffers hold at a column: the colour, the palette, the priority and whether it is OAM entry 0. -/
def column (b : SpriteBuffers) (c : Nat) : BitVec 2 × BitVec 2 × BitVec 1 × BitVec 1 :=
  (b.pix.read c, b.pal.read c, b.behind.read c, b.zero.read c)

theorem pix_of_column {b b' : SpriteBuffers} {c : Nat} (h : column b c = column b' c) :
    b.pix.read c = b'.pix.read c :=
  congrArg Prod.fst h

/-- The colour of pixel `k` of a sprite row. -/
def rowColour (attr lo hi : Byte) (k : Nat) : BitVec 2 :=
  twoBits (hi.getLsbD (if attr.getLsbD 6 then k else 7 - k)) (lo.getLsbD (if attr.getLsbD 6 then k else 7 - k))

/-- What a sprite's opaque pixel of a colour puts into its column. -/
def spriteColumn (attr : Byte) (isZero : Bool) (colour : BitVec 2) : BitVec 2 × BitVec 2 × BitVec 1 × BitVec 1 :=
  (colour, attr.extractLsb' 0 2, attr.extractLsb' 5 1, BitVec.ofBool isZero)

section
variable (attr lo hi : Byte) (x : Nat) (isZero : Bool)

theorem column_fillPixel_other (b : SpriteBuffers) {k c : Nat} (h : c ≠ x + k) :
    column (fillPixel attr lo hi x isZero b k) c = column b c := by
  obtain ⟨hpix, hpal, hbehind, hzero⟩ := fillPixel_other attr lo hi x isZero b h
  simp only [column, hpix, hpal, hbehind, hzero]

theorem fillPixel_eq (b : SpriteBuffers) (k : Nat) :
    fillPixel attr lo hi x isZero b k =
      if x + k ≤ 255 ∧ rowColour attr lo hi k ≠ 0#2 ∧ b.pix.read (x + k) = 0#2 then
        { pix := b.pix.write (x + k) (rowColour attr lo hi k)
          pal := b.pal.write (x + k) (attr.extractLsb' 0 2)
          behind := b.behind.write (x + k) (attr.extractLsb' 5 1)
          zero := b.zero.write (x + k) (BitVec.ofBool isZero) }
      else b := rfl

theorem column_fillPixel_same (b : SpriteBuffers) {k : Nat} (hc : x + k < 256) :
    column (fillPixel attr lo hi x isZero b k) (x + k) =
      if b.pix.read (x + k) = 0#2 ∧ rowColour attr lo hi k ≠ 0#2 then
        spriteColumn attr isZero (rowColour attr lo hi k)
      else column b (x + k) := by
  have hcond : (x + k ≤ 255 ∧ rowColour attr lo hi k ≠ 0#2 ∧ b.pix.read (x + k) = 0#2) ↔
      (b.pix.read (x + k) = 0#2 ∧ rowColour attr lo hi k ≠ 0#2) := by
    rw [and_iff_right (by omega), and_comm]
  rw [← if_congr hcond rfl rfl, fillPixel_eq]
  split
  · simp only [column, read_write_same, spriteColumn]
  · rfl

theorem column_foldl_fillPixel_other (b : SpriteBuffers) {c : Nat} (l : List Nat) (h : ∀ k ∈ l, c ≠ x + k) :
    column (l.foldl (fillPixel attr lo hi x isZero) b) c = column b c := by
  induction l generalizing b with
  | nil => rfl
  | cons k l ih =>
    rw [List.foldl_cons, ih _ fun j hj => h j (List.mem_cons_of_mem k hj)]
    exact column_fillPixel_other attr lo hi x isZero b (h k List.mem_cons_self)

/-- A row of eight pixels changes a column where one of them lies there, is opaque and comes first. -/
theorem column_foldl_fillPixel (b : SpriteBuffers) {c : Nat} (hc : c < 256) :
    column ((List.range 8).foldl (fillPixel attr lo hi x isZero) b) c =
      if b.pix.read c = 0#2 ∧ (x ≤ c ∧ c < x + 8) ∧ rowColour attr lo hi (c - x) ≠ 0#2 then
        spriteColumn attr isZero (rowColour attr lo hi (c - x))
      else column b c := by
  by_cases hin : x ≤ c ∧ c < x + 8
  case pos =>
    obtain ⟨k, rfl⟩ := Nat.exists_eq_add_of_le hin.1
    obtain ⟨l, r, hsplit⟩ := List.append_of_mem (List.mem_range.2 (show k < 8 by omega))
    have hother : ∀ j, j ∈ l ∨ j ∈ r → x + k ≠ x + j := by
      have hnodup := List.nodup_range (n := 8)
      rw [hsplit, List.nodup_middle, List.nodup_cons, List.mem_append] at hnodup
      rintro j hj h
      obtain rfl : k = j := Nat.add_left_cancel h
      exact hnodup.1 hj
    have hl := column_foldl_fillPixel_other attr lo hi x isZero b l fun j hj => hother j (.inl hj)
    rw [hsplit, List.foldl_append, List.foldl_cons,
      column_foldl_fillPixel_other _ _ _ _ _ _ r fun j hj => hother j (.inr hj), column_fillPixel_same _ _ _ _ _ _ hc, hl,
      Nat.add_sub_cancel_left]
    exact if_congr (by rw [pix_of_column hl, and_iff_right hin]) rfl rfl
  case neg =>
    rw [if_neg fun h => hin h.2.1]
    exact column_foldl_fillPixel_other _ _ _ _ _ _ _ fun k hk => by have := List.mem_range.1 hk; omega

end

/-! ## One OAM entry (R306) -/

section
variable (ctrl attr tile : Byte) (row : Nat)

/-- An 8x8 sprite takes its table from PPUCTRL bit 3. -/
theorem spritePatternAddr_eight :
    spritePatternAddr ctrl attr tile 8 row = BitVec.ofNat 16
      ((if ctrl.getLsbD 3 then 0x1000 else 0) + tile.toNat * 16 + if attr.getLsbD 7 then 8 - 1 - row else row) := by
  rw [Nat.add_assoc, BitVec.ofNat_add]
  unfold spritePatternAddr
  cases ctrl.getLsbD 3 <;> rfl

/-- An 8x16 sprite takes its table from bit 0 of the tile. -/
theorem spritePatternAddr_sixteen {r : Nat} (hr : r = if attr.getLsbD 7 then 16 - 1 - row else row) :
    spritePatternAddr ctrl attr tile 16 row = BitVec.ofNat 16
      (tile.toNat % 2 * 0x1000 + (tile.toNat / 2 * 2 + r / 8) * 16 + r % 8) := by
  rw [Nat.add_assoc, BitVec.ofNat_add]
  unfold spritePatternAddr
  rw [getLsbD_zero, ← hr]
  rcases Nat.mod_two_eq_zero_or_one tile.toNat with h | h <;> rw [h] <;> rfl

end

/-- The colour of a sprite's pixel on a line, from the two bytes that evaluation reads for its row. -/
theorem rowColour_eq_spriteColour (s : State) (line i c : Nat) {addr : Addr}
    (haddr : addr = spritePatternAddr s.ppu.ctrl (oamByte s.ppu i 2) (oamByte s.ppu i 1) (spriteHeight s.ppu)
      (line - 1 - (oamByte s.ppu i 0).toNat)) :
    rowColour (oamByte s.ppu i 2) (ppuBusRead s addr) (ppuBusRead s (addr + 8#16)) (c - (oamByte s.ppu i 3).toNat) =
      spriteColour s line i c := by
  unfold spriteColour
  cases h : s.ppu.ctrl.getLsbD 5
  · rw [spriteHeight, h, if_neg Bool.false_ne_true, spritePatternAddr_eight] at haddr
    rw [haddr, ← BitVec.ofNat_add]
    rfl
  · rw [spriteHeight, h, if_pos rfl, spritePatternAddr_sixteen _ _ _ _ rfl] at haddr
    rw [haddr, ← BitVec.ofNat_add]
    rfl

/-- An entry has an opaque pixel at a column of the line. -/
def opaqueAt (s : State) (line c i : Nat) : Bool :=
  decide ((s.ppu.oam.read (4 * i + 3)).toNat ≤ c ∧ c < (s.ppu.oam.read (4 * i + 3)).toNat + 8) &&
    spriteColour s line i c != 0#2

theorem spriteColour_ne_zero {s : State} {line c i : Nat} (h : opaqueAt s line c i = true) :
    spriteColour s line i c ≠ 0#2 := by
  simpa using (Bool.and_eq_true_iff.1 h).2

/-- What an entry's pixel puts into a column of the line. -/
def entryColumn (s : State) (line c i : Nat) : BitVec 2 × BitVec 2 × BitVec 1 × BitVec 1 :=
  spriteColumn (s.ppu.oam.read (4 * i + 2)) (i == 0) (spriteColour s line i c)

theorem column_fillSprite (s : State) (b : SpriteBuffers) (line i : Nat) {c : Nat} (hc : c < 256) :
    column (fillSprite s b i (line - 1 - (oamByte s.ppu i 0).toNat)) c =
      if b.pix.read c = 0#2 ∧ opaqueAt s line c i = true then entryColumn s line c i else column b c := by
  unfold fillSprite
  simp only [column_foldl_fillPixel _ _ _ _ _ _ hc, rowColour_eq_spriteColour s line i c rfl]
  refine if_congr (and_congr_right fun _ => ?_) rfl rfl
  simp [opaqueAt, oamByte]

/-! ## The first opaque entry (R307) -/

/-- The buffers after a list of entries is filled in, the earliest first. -/
def filled (s : State) (line : Nat) (l : List Nat) (b : SpriteBuffers) : SpriteBuffers :=
  l.foldl (fun b i => fillSprite s b i (line - 1 - (oamByte s.ppu i 0).toNat)) b

section
variable (s : State) (line : Nat) {c : Nat} (hc : c < 256)
include hc

/-- A column that is opaque stays as it is. -/
theorem column_filled_opaque (l : List Nat) {b : SpriteBuffers} (hb : b.pix.read c ≠ 0#2) :
    column (filled s line l b) c = column b c := by
  induction l generalizing b with
  | nil => rfl
  | cons i l ih =>
    have hkeep := column_fillSprite s b line i hc
    rw [if_neg fun h => hb h.1] at hkeep
    have hb' := pix_of_column hkeep ▸ hb
    exact (ih hb').trans hkeep

/-- A transparent column takes the first entry that is opaque there. -/
theorem column_filled_transparent (l : List Nat) {b : SpriteBuffers} (hb : b.pix.read c = 0#2) :
    column (filled s line l b) c =
      (l.find? (opaqueAt s line c)).elim (column b c) (entryColumn s line c) := by
  induction l generalizing b with
  | nil => rfl
  | cons i l ih =>
    have hfill := column_fillSprite s b line i hc
    cases hi : opaqueAt s line c i
    case false =>
      rw [if_neg (by simp [hi])] at hfill
      rw [List.find?_cons_of_neg (by simp [hi]), ← hfill]
      exact ih (pix_of_column hfill ▸ hb)
    case true =>
      rw [if_pos ⟨hb, hi⟩] at hfill
      rw [List.find?_cons_of_pos hi]
      have hpix : _ = spriteColour s line i c := congrArg Prod.fst hfill
      exact (column_filled_opaque s line hc l (hpix.trans_ne (spriteColour_ne_zero hi))).trans hfill

end

/-! ## Evaluation (R305) -/

/-- The entries a line shows: of those in range the first eight. -/
def shownEntries (s : State) (line : Nat) : List Nat := ((List.range 64).filter (spriteInRange s line)).take 8

theorem spriteAt_eq (s : State) (line c : Nat) :
    spriteAt s line c = (shownEntries s line).find? (opaqueAt s line c) := rfl

theorem evaluateSprites_eq (s : State) :
    (evaluateSprites s).ppu.spr = filled s s.ppu.scanline (shownEntries s s.ppu.scanline) ⟨[], [], [], []⟩ ∧
    (evaluateSprites s).ppu.spriteOverflow =
      (s.ppu.spriteOverflow || decide (9 ≤ ((List.range 64).filter (spriteInRange s s.ppu.scanline)).length)) := by
  unfold evaluateSprites
  rw [scanSprites_eq _ _ _ _ _ (Nat.zero_le 8), Nat.zero_add]
  exact ⟨rfl, rfl⟩

/-- The column of the sprite buffers after evaluation. -/
theorem column_evaluateSprites (s : State) {c : Nat} (hc : c < 256) :
    column (evaluateSprites s).ppu.spr c =
      (spriteAt s s.ppu.scanline c).elim (0#2, 0#2, 0#1, 0#1) (entryColumn s s.ppu.scanline c) := by
  rw [(evaluateSprites_eq s).1, spriteAt_eq]
  exact column_filled_transparent s _ hc _ rfl

theorem shownEntries_zero (s : State) : shownEntries s 0 = [] := by
  simp [shownEntries, spriteInRange]

/-- Settles O52: evaluation fills in the first eight entries in range (`column_evaluateSprites`), and a dot runs it exactly at
dot 0 of a visible line with rendering enabled. -/
theorem spriteOverflow : Obligations.SpriteOverflow := by
  rintro s b overflow rfl rfl
  obtain ⟨hspr, hoverflow⟩ := evaluateSprites_eq s
  refine ⟨hoverflow, fun hline => ?first, fun c hc hnone => ?none, fun c i hc hsome => ?some, fun hdot => ?runs,
    fun hdot => ?rests⟩
  case first =>
    rw [hspr, hline, shownEntries_zero]
    rfl
  case none =>
    have hcolumn := column_evaluateSprites s hc
    rw [hnone] at hcolumn
    simpa [column] using hcolumn
  case some =>
    have hcolumn := column_evaluateSprites s hc
    rw [hsome] at hcolumn
    obtain ⟨hpix, hpal, hbehind, hzero⟩ : _ ∧ _ ∧ _ ∧ _ := by
      simpa only [column, Option.elim_some, entryColumn, spriteColumn, Prod.mk.injEq] using hcolumn
    refine ⟨hpix, hpal, hbehind, hzero.trans ?_⟩
    cases i <;> rfl
  case runs =>
    have heval : evaluated s = evaluateSprites s := evaluated_of_evaluatesAt hdot
    rw [(tickDot_frame_spr s).2, (tickDot_flags (by omega)).2, heval]
    exact ⟨rfl, hoverflow⟩
  case rests =>
    have heval : evaluated s = s := evaluated_of_not hdot
    exact ⟨(tickDot_frame_spr s).2.trans (by rw [heval]), fun hpre => (tickDot_flags hpre).2.trans (by rw [heval])⟩

end Sys2Proof.Proofs
end

section
/-! The mappers (55_cartridge_mappers.md R353 to R368): the PRG bank in each half of 0x8000-0xFFFF, the CHR bank behind each pattern
table, the mirroring, and what stores to 0x8000-0xFFFF do to the bank registers. -/

namespace Sys2Proof.Proofs

open Sys2Proof.Machine Sys2Proof.Laws

/-! ## PRG banks (R354, R355, R362, R367) -/

/-- Both readings of an odd bank count at once: only the number of the 32 KiB bank differs (log 12). -/
theorem mmc1Bank32_eq (pb n : Nat) :
    mmc1Bank32 pb n = (if n % 2 = 1 ∧ Config.mmc1Reduces32K = true then pb / 2 % max (n / 2) 1 else pb / 2) * 2 :=
  (ite_mul _ _ _ _).symm

section
variable {a : Addr} {half o : Nat} (ha : a.toNat = 0x8000 + half * 0x4000 + o) (hhalf : half < 2) (ho : o < 0x4000)
include ha ho

theorem toNat_mod_prgBank : a.toNat % 16384 = o := by omega

include hhalf

/-- Bit 14 of the address is the half of 0x8000-0xFFFF it lies in. -/
theorem toNat_getLsbD_fourteen : (a.getLsbD 14).toNat = half :=
  (Nat.toNat_testBit a.toNat 14).trans (by omega)

theorem getLsbD_fourteen_iff : a.getLsbD 14 = true ↔ half ≠ 0 := by
  rw [← toNat_getLsbD_fourteen ha hhalf ho]
  cases a.getLsbD 14 <;> decide

theorem prgOffset_nrom :
    prgOffset .nrom 1 a = o ∧ prgOffset .nrom 2 a = half * 0x4000 + o := by
  simp only [prgOffset]
  omega

theorem prgOffset_uxrom (n : Nat) (b : Byte) :
    prgOffset (.uxrom b) n a = (if half = 0 then b.toNat % 16 % n else n - 1) * 0x4000 + o := by
  simp only [prgOffset, toNat_mod_prgBank ha ho, getLsbD_fourteen_iff ha hhalf ho, toNat_and_lowMask 0x0F#8 4 rfl, ite_not,
    Nat.reducePow]

/-- The bank MMC1 puts in a half, by its PRG mode, control bits 3:2. -/
theorem prgOffset_mmc1 (n : Nat) (r : Mmc1) :
    prgOffset (.mmc1 r) n a =
      (if r.control.toNat / 4 % 4 = 3 then (if half = 0 then r.prgBank.toNat % 16 else n - 1)
      else if r.control.toNat / 4 % 4 = 2 then (if half = 0 then 0 else r.prgBank.toNat % 16)
      else mmc1Bank32 (r.prgBank.toNat % 16) n + half) % n * 0x4000 + o := by
  simp only [prgOffset, mmc1PrgBank, toNat_mod_prgBank ha ho, toNat_getLsbD_fourteen ha hhalf ho, toNat_field,
    toNat_and_lowMask 0x0F#5 4 rfl, Nat.reducePow]

end

/-! ## CHR banks (R356, R363, R368) -/

section
variable {a : Addr} {n half o : Nat} (ha : a.toNat = half * 0x1000 + o) (hhalf : half < 2) (ho : o < 0x1000)
include ha hhalf ho

/-- Bit 12 of the address is the pattern table it lies in. -/
theorem toNat_getLsbD_twelve : (a.getLsbD 12).toNat = half :=
  (Nat.toNat_testBit a.toNat 12).trans (by omega)

/-- The 4 KiB bank MMC1 puts behind a pattern table: one of two banks, or a half of one 8 KiB bank. -/
theorem chrOffset_mmc1 (r : Mmc1) :
    chrOffset (.mmc1 r) (n * 0x2000) a =
      (if r.control.getLsbD 4 then (if half = 0 then r.chrBank0.toNat else r.chrBank1.toNat)
      else r.chrBank0.toNat / 2 * 2 + half) % (2 * n) * 0x1000 + o := by
  have hoffset : a.toNat % 4096 = o := by omega
  have hbanks : n * 0x2000 / 4096 = 2 * n := by omega
  simp only [chrOffset, toNat_getLsbD_twelve ha hhalf ho, hoffset, hbanks]

/-- A half of an 8 KiB bank stays in it when its 4 KiB number is reduced. -/
theorem chrOffset_mmc1_8K {r : Mmc1} (hmode : r.control.getLsbD 4 = false) :
    chrOffset (.mmc1 r) (n * 0x2000) a = r.chrBank0.toNat / 2 % n * 0x2000 + a.toNat := by
  have hbank : (r.chrBank0.toNat / 2 * 2 + half) % (2 * n) = r.chrBank0.toNat / 2 % n * 2 + half := by
    rw [Nat.mod_mul, show (r.chrBank0.toNat / 2 * 2 + half) / 2 = r.chrBank0.toNat / 2 by omega]
    omega
  rw [chrOffset_mmc1 ha hhalf ho, hmode, if_neg Bool.false_ne_true, hbank]
  omega

end

/-! ## Mirroring (R353, R361, R364) -/

/-- MMC1's mirroring, by its control bits 1:0. -/
theorem mirroringOf_mmc1 {s : State} {r : Mmc1} (h : s.mapper = .mmc1 r) :
    mirroringOf s =
      if r.control.toNat % 4 = 0 then .oneScreenLower
      else if r.control.toNat % 4 = 1 then .oneScreenUpper
      else if r.control.toNat % 4 = 2 then .vertical
      else .horizontal := by
  have hbits : (r.control.extractLsb' 0 2).toNat = r.control.toNat % 4 :=
    by
    rw [toNat_field, pow_zero, Nat.div_one]
    rfl
  have hlt : r.control.toNat % 4 < 4 := Nat.mod_lt _ (by decide)
  simp only [mirroringOf, h, hbits]
  generalize r.control.toNat % 4 = bits at hlt
  interval_cases bits <;> rfl

/-- Settles O53: the bank of each mapper in each half (`prgOffset_mmc1`, `chrOffset_mmc1` for MMC1), and the mirroring. -/
theorem prgBankMaps : Obligations.PrgBankMaps := by
  refine ⟨fun a n half o hn ha hhalf ho => ?prg, fun a n half o hn ha hhalf ho => ?chr, fun s => ?mirroring⟩
  case prg =>
    obtain ⟨hone, htwo⟩ := prgOffset_nrom ha hhalf ho
    refine ⟨hone, htwo, prgOffset_uxrom ha hhalf ho n, fun r => ⟨fun hmode => ?_, fun hmode => ?_, fun hmode => ?_⟩⟩
    · rw [prgOffset_mmc1 ha hhalf ho, if_neg (by omega), if_neg (by omega), mmc1Bank32_eq]
    · rw [prgOffset_mmc1 ha hhalf ho, if_neg (by omega), if_pos hmode]
    · rw [prgOffset_mmc1 ha hhalf ho, if_pos hmode]
  case chr =>
    have hfixed : a.toNat % 8192 = a.toNat := by omega
    refine ⟨hfixed, fun b => hfixed, fun r => ⟨chrOffset_mmc1_8K ha hhalf ho, fun hmode => ?_⟩⟩
    rw [chrOffset_mmc1 ha hhalf ho, if_pos hmode]
  case mirroring =>
    exact ⟨fun h => by rw [mirroringOf, h], fun b h => by rw [mirroringOf, h], fun r => mirroringOf_mmc1⟩

/-! ## Stores to the bank registers (R357 to R360, R366) -/

/-- The MMC1 shift register after one more bit. -/
def mmc1Shifted (shift : BitVec 5) (d : Byte) : BitVec 5 := (shift >>> 1) ||| (if d.getLsbD 0 then 0x10#5 else 0#5)

/-- The bit enters at the top and the others move down. -/
theorem toNat_mmc1Shifted (shift : BitVec 5) (d : Byte) :
    (mmc1Shifted shift d).toNat = shift.toNat / 2 + 16 * (d.toNat % 2) := by
  have hlow : shift.toNat >>> 1 < 2 ^ 4 := by rw [Nat.shiftRight_eq_div_pow]; omega
  have hbit : (if d.getLsbD 0 then 0x10#5 else 0#5).toNat = 2 ^ 4 * (d.toNat % 2) := by
    rw [getLsbD_zero]
    rcases Nat.mod_two_eq_zero_or_one d.toNat with h | h <;> rw [h] <;> rfl
  rw [mmc1Shifted, BitVec.toNat_or, BitVec.toNat_ushiftRight, hbit, Nat.or_comm, ← Nat.two_pow_add_eq_or_of_lt hlow,
    Nat.shiftRight_eq_div_pow]
  omega

section
variable {d : Byte} (hd : d.getLsbD 7 = false) (r : Mmc1) (shift : BitVec 5) (a : Addr)
include hd

/-- A serial store before the fifth, with `count` bits stored. -/
theorem mmc1Write_shifts {count : Nat} (hcount : count ≠ 4) :
    mmc1Write { r with shift := shift, shiftCount := count } a d =
      { r with shift := mmc1Shifted shift d, shiftCount := count + 1 } := by
  rw [mmc1Write, hd, if_neg Bool.false_ne_true]
  exact if_neg (show count + 1 ≠ 5 by omega)

/-- The fifth serial store. -/
theorem mmc1Write_commits :
    mmc1Write { r with shift := shift, shiftCount := 4 } a d =
      { mmc1Commit { r with shift := shift, shiftCount := 4 } a (mmc1Shifted shift d) with
        shift := 0#5, shiftCount := 0 } := by
  rw [mmc1Write, hd, if_neg Bool.false_ne_true]
  exact if_pos rfl

end

/-- The register a fifth store commits to, by bits 14:13 of its address. -/
theorem mmc1Commit_eq (r : Mmc1) (a : Addr) (value : BitVec 5) :
    mmc1Commit r a value =
      if a.toNat / 0x2000 % 4 = 0 then { r with control := value }
      else if a.toNat / 0x2000 % 4 = 1 then { r with chrBank0 := value }
      else if a.toNat / 0x2000 % 4 = 2 then { r with chrBank1 := value }
      else { r with prgBank := value } := by
  have hlt : a.toNat / 0x2000 % 4 < 4 := Nat.mod_lt _ (by decide)
  have hbits : (a.extractLsb' 13 2).toNat = a.toNat / 0x2000 % 4 := toNat_field a 13 2
  rw [mmc1Commit, hbits]
  generalize a.toNat / 0x2000 % 4 = target at hlt
  interval_cases target <;> rfl

/-- Five bits shifted in leave none of what the shift register held before. -/
theorem mmc1Shifted_five (shift : BitVec 5) {d1 d2 d3 d4 d5 : Byte} {value : BitVec 5}
    (hvalue : value.toNat =
      d1.toNat % 2 + 2 * (d2.toNat % 2) + 4 * (d3.toNat % 2) + 8 * (d4.toNat % 2) + 16 * (d5.toNat % 2)) :
    mmc1Shifted (mmc1Shifted (mmc1Shifted (mmc1Shifted (mmc1Shifted shift d1) d2) d3) d4) d5 = value := by
  apply BitVec.eq_of_toNat_eq
  simp only [toNat_mmc1Shifted]
  have hshift : shift.toNat < 32 := shift.isLt
  omega

/-- Settles O54: four serial stores shift (`mmc1Write_shifts`), the fifth commits the five bits (`mmc1Write_commits`). -/
theorem mmc1Serial : Obligations.Mmc1Serial := by
  refine ⟨fun r a1 a2 a3 a4 a5 d1 d2 d3 d4 d5 value hempty h1 h2 h3 h4 h5 hvalue => ?serial, fun r a d hd => ?reset,
    fun b a d => rfl, fun a d => rfl⟩
  case serial =>
    have hr : r = { r with shift := r.shift, shiftCount := 0 } := by rw [← hempty]
    have hfirst := mmc1Write_shifts h1 r r.shift a1 (show 0 ≠ 4 by decide)
    rw [← hr] at hfirst
    simp only [mapperWrite]
    rw [hfirst, mmc1Write_shifts h2 _ _ _ (by decide), mmc1Write_shifts h3 _ _ _ (by decide),
      mmc1Write_shifts h4 _ _ _ (by decide), mmc1Write_commits h5, mmc1Shifted_five r.shift hvalue, mmc1Commit_eq]
    split_ifs <;> simp only [hempty]
  case reset =>
    exact congrArg Mapper.mmc1 (if_pos hd)

end Sys2Proof.Proofs
end

section
/-! The host interface at construction (55_cartridge_mappers.md R340 to R346, R371; 60_exceptions.md R399): what the header's bytes
say, which files load and why another does not, and what the constructed machine holds. -/

namespace Sys2Proof.Proofs

open Sys2Proof.Machine Sys2Proof.Laws

/-! ## The header (R341, R343) -/

/-- The mapper number's low byte: the high halves of bytes 7 and 6. -/
theorem toNat_mapperLow (b6 b7 : Byte) :
    ((b7 &&& 0xF0#8) ||| (b6 >>> 4)).toNat = b7.toNat / 16 * 16 + b6.toNat / 16 := by
  have happend : (b7 &&& 0xF0#8) ||| (b6 >>> 4) = b7.extractLsb' 4 4 ++ b6.extractLsb' 4 4 := by
    apply BitVec.eq_of_getLsbD_eq
    intro i hi
    simp only [BitVec.getLsbD_append, BitVec.getLsbD_extractLsb']
    interval_cases i <;> simp
  rw [happend, toNat_append_add, toNat_field, toNat_field]
  omega

theorem headerMapper_eq (f : List Byte) :
    headerMapper f =
      (if (fileByte f 7).toNat / 4 % 4 = 2 then (fileByte f 8).toNat % 16 * 256 else 0) +
        (fileByte f 7).toNat / 16 * 16 + (fileByte f 6).toNat / 16 := by
  have hextended : (fileByte f 7).extractLsb' 2 2 = 2#2 ↔ (fileByte f 7).toNat / 4 % 4 = 2 := by
    rw [← BitVec.toNat_inj, toNat_field]
    rfl
  simp only [headerMapper, hextended, toNat_mapperLow, toNat_and_lowMask 0x0F#8 4 rfl, Nat.reducePow]
  split <;> omega

theorem headerSays_parseHeader (f : List Byte) : HeaderSays f (parseHeader f) where
  prgBanks := rfl
  chrBanks := rfl
  mirroring := by simp only [parseHeader, getLsbD_zero, decide_eq_true_eq]; rfl
  hasNvram := Nat.testBit_eq_decide_div_mod_eq
  hasTrainer := Nat.testBit_eq_decide_div_mod_eq
  mapper := headerMapper_eq f

/-! ## Which files load (R344) -/

/-- The mapper of a supported number, as it is at construction (R365). -/
theorem mapperOfNumber_of_le {n : Nat} (h : n ≤ 2) :
    mapperOfNumber n = some (if n = 0 then .nrom else if n = 1 then .mmc1 mmc1Initial else .uxrom 0#8) := by
  interval_cases n <;> rfl

theorem mapperOfNumber_eq_none_iff (n : Nat) : mapperOfNumber n = none ↔ 2 < n := by
  match n with
  | 0 | 1 | 2 => decide
  | n + 3 => exact iff_of_true rfl (by omega)

theorem mapperNumber_mapperOfNumber {n : Nat} {m : Mapper} (h : mapperOfNumber n = some m) : mapperNumber m = n := by
  match n with
  | 0 | 1 | 2 => cases h; rfl
  | n + 3 => cases h

/-- A file without a defect: complete, with a PRG bank, a supported mapper, and a bank count that mapper 0 allows. -/
def Loads (f : List Byte) : Prop :=
  16 ≤ f.length ∧ f.take 4 = [0x4E#8, 0x45#8, 0x53#8, 0x1A#8] ∧ sizeAsked (parseHeader f) ≤ f.length ∧
    0 < (parseHeader f).prgBanks ∧ (parseHeader f).mapper ≤ 2 ∧
    ((parseHeader f).mapper = 0 → (parseHeader f).prgBanks ≤ 2)

section
variable {f : List Byte}

/-- A header with its signature goes on to the checks of the sizes and the mapper. -/
theorem loadCause_of_magic (hlen : 16 ≤ f.length) (hmagic : f.take 4 = [0x4E#8, 0x45#8, 0x53#8, 0x1A#8]) :
    loadCause (some f) =
      if f.length < sizeAsked (parseHeader f) then some .fileTooShort
      else if (parseHeader f).prgBanks = 0 then some .noPrgBanks
      else if 2 < (parseHeader f).mapper then some (.unsupportedMapper (parseHeader f).mapper)
      else if (parseHeader f).mapper = 0 ∧ (parseHeader f).prgBanks ≠ 1 ∧ (parseHeader f).prgBanks ≠ 2 then
        some (.nromBankCount (parseHeader f).prgBanks)
      else none := by
  have hhas : hasMagic f = true := beq_iff_eq.2 hmagic
  simp only [loadCause, if_neg (not_lt.2 hlen), hhas, mapperOfNumber_eq_none_iff]
  rfl

/-- Each defect is found by its own check, after those before it in R344's order found none. -/
theorem loadCause_of_loadFails {c : LoadCause} (h : LoadFails f c) : loadCause (some f) = some c := by
  cases c with
  | fileMissing => exact h.elim
  | truncatedHeader => exact if_pos h
  | badMagic =>
    obtain ⟨hlen, hmagic⟩ := h
    have hhas : (!hasMagic f) = true := by simpa [hasMagic] using hmagic
    exact (if_neg (not_lt.2 hlen)).trans (if_pos hhas)
  | fileTooShort =>
    obtain ⟨hlen, hmagic, hshort⟩ := h
    rw [loadCause_of_magic hlen hmagic, if_pos hshort]
  | noPrgBanks =>
    obtain ⟨⟨hlen, hmagic, hsize⟩, hprg⟩ := h
    rw [loadCause_of_magic hlen hmagic, if_neg (not_lt.2 hsize), if_pos hprg]
  | unsupportedMapper n =>
    obtain ⟨⟨hlen, hmagic, hsize⟩, hprg, hmapper, rfl⟩ := h
    rw [loadCause_of_magic hlen hmagic, if_neg (not_lt.2 hsize), if_neg hprg.ne', if_pos hmapper]
  | nromBankCount n =>
    obtain ⟨⟨hlen, hmagic, hsize⟩, hmapper, hprg, rfl⟩ := h
    rw [loadCause_of_magic hlen hmagic, if_neg (not_lt.2 hsize), if_neg (by omega), if_neg (by omega), if_pos (by omega)]

theorem loadCause_of_loads (h : Loads f) : loadCause (some f) = none := by
  obtain ⟨hlen, hmagic, hsize, hprg, hmapper, hnrom⟩ := h
  rw [loadCause_of_magic hlen hmagic, if_neg (not_lt.2 hsize), if_neg hprg.ne', if_neg (by omega), if_neg (by omega)]

variable (f)

/-- A file has a defect or loads: the checks of R344 leave no third case. -/
theorem loadFails_or_loads : (∃ c, LoadFails f c) ∨ Loads f := by
  by_cases hlen : f.length < 16
  · exact .inl ⟨.truncatedHeader, hlen⟩
  by_cases hmagic : f.take 4 = [0x4E#8, 0x45#8, 0x53#8, 0x1A#8]
  case neg => exact .inl ⟨.badMagic, not_lt.1 hlen, hmagic⟩
  by_cases hshort : f.length < sizeAsked (parseHeader f)
  · exact .inl ⟨.fileTooShort, not_lt.1 hlen, hmagic, hshort⟩
  have hcomplete : Complete f := ⟨not_lt.1 hlen, hmagic, not_lt.1 hshort⟩
  by_cases hprg : (parseHeader f).prgBanks = 0
  · exact .inl ⟨.noPrgBanks, hcomplete, hprg⟩
  by_cases hmapper : 2 < (parseHeader f).mapper
  · exact .inl ⟨.unsupportedMapper _, hcomplete, Nat.pos_of_ne_zero hprg, hmapper, rfl⟩
  by_cases hnrom : (parseHeader f).mapper = 0 ∧ 2 < (parseHeader f).prgBanks
  · exact .inl ⟨.nromBankCount _, hcomplete, hnrom.1, hnrom.2, rfl⟩
  · exact .inr ⟨not_lt.1 hlen, hmagic, not_lt.1 hshort, Nat.pos_of_ne_zero hprg, by omega, by omega⟩

end

/-! ## Construction (R399) -/

section
variable {p : Params}

theorem construct_of_loadCause {c : LoadCause} (h : loadCause p.file = some c) :
    construct p = .error { cause := .load c, pc := none } := by
  simp only [construct, h]
  rfl

/-- The wirings never fail, so a file that loads gives a machine at power-on. -/
theorem construct_of_loads {f : List Byte} (hf : p.file = some f) (h : Loads f) :
    ∃ m, mapperOfNumber (parseHeader f).mapper = some m ∧
      construct p = .ok { machine := powerOn p (parseHeader f) m f, logged := saveLog (parseHeader f) p.save } := by
  have hcause := loadCause_of_loads h
  obtain ⟨-, -, -, -, hmapper, -⟩ := h
  refine ⟨_, mapperOfNumber_of_le hmapper, ?_⟩
  simp only [construct, hf, Option.getD_some, hcause, mapperOfNumber_of_le hmapper, wireCpuBus_ok, wirePpuBus_ok]

variable (p)

/-- What a construction answers: the load fault of the missing file or of the file's defect, or the machine of a file that
loads. -/
theorem construct_cases :
    (∃ c, construct p = .error { cause := .load c, pc := none } ∧
      ((p.file = none ∧ c = .fileMissing) ∨ ∃ f, p.file = some f ∧ LoadFails f c)) ∨
    ∃ f m, p.file = some f ∧ Loads f ∧ mapperOfNumber (parseHeader f).mapper = some m ∧
      construct p = .ok { machine := powerOn p (parseHeader f) m f, logged := saveLog (parseHeader f) p.save } := by
  cases hf : p.file with
  | none => exact .inl ⟨.fileMissing, construct_of_loadCause (by rw [hf]; rfl), .inl ⟨rfl, rfl⟩⟩
  | some f =>
    rcases loadFails_or_loads f with ⟨c, hc⟩ | h
    · exact .inl ⟨c, construct_of_loadCause (by rw [hf, loadCause_of_loadFails hc]), .inr ⟨f, rfl, hc⟩⟩
    · obtain ⟨m, hm, hok⟩ := construct_of_loads hf h
      exact .inr ⟨f, m, rfl, h, hm, hok⟩

end

/-! ## The constructed machine (R340, R345, R346, R371, R425) -/

/-- A memory made from the first `n` of a list's values. -/
theorem holds_ofList_take {w : Nat} (l : List (BitVec w)) (n : Nat) : Holds (Memory.ofList 0 (l.take n)) n l := by
  intro k
  rw [read_ofList, List.getD_eq_getElem?_getD, List.getElem?_take, List.getD_eq_getElem?_getD]
  split <;> rfl

theorem holds_nil {w : Nat} : Holds ([] : Memory w) 0 [] := fun k => (if_neg (Nat.not_lt_zero k)).symm

theorem saveUsable_eq_false {save : Option (List Byte)} (h : ∀ bytes, save = some bytes → bytes.length ≠ 8192) :
    saveUsable save = false := by
  cases save with
  | none => rfl
  | some bytes => exact beq_false_of_ne (h bytes rfl)

/-- PRG RAM and the save fault with a usable save image (R371). -/
theorem initialPrgRam_saved {h : Header} {bytes : List Byte} (hnvram : h.hasNvram = true) (hlen : bytes.length = 8192) :
    Holds (initialPrgRam h (some bytes)) 8192 bytes ∧ saveLog h (some bytes) = none := by
  have husable : saveUsable (some bytes) = true := beq_iff_eq.2 hlen
  have hholds : Holds (Memory.ofList 0 bytes) 8192 bytes := by
    simpa only [List.take_of_length_le hlen.le] using holds_ofList_take bytes 8192
  simp only [initialPrgRam, saveLog, hnvram, husable]
  exact ⟨hholds, rfl⟩

theorem builtFrom_powerOn {p : Params} {f : List Byte} {m : Mapper} (hmapper : (parseHeader f).mapper ≤ 2)
    (hm : mapperOfNumber (parseHeader f).mapper = some m) :
    BuiltFrom p f { machine := powerOn p (parseHeader f) m f, logged := saveLog (parseHeader f) p.save } where
  header := rfl
  prgRom := holds_ofList_take _ _
  chrRom := fun h => by
    simp only [powerOn, initialChr, if_neg h.ne']
    exact holds_ofList_take _ _
  chrRam := fun h => by
    simp only [powerOn, initialChr, if_pos h]
    exact holds_ofList_take _ _
  saved := fun bytes hnvram hsave hlen => by
    simp only [powerOn, hsave]
    exact initialPrgRam_saved hnvram hlen
  unsaved := fun hnvram hsave => by
    simp only [powerOn, initialPrgRam, saveLog, hnvram, saveUsable_eq_false hsave]
    exact ⟨holds_nil, rfl⟩
  noNvram := fun hnvram => by
    simp only [powerOn, initialPrgRam, saveLog, hnvram]
    exact ⟨holds_nil, rfl⟩
  mapper := (Option.some.inj ((mapperOfNumber_of_le hmapper).symm.trans hm)).symm
  ram := holds_ofList_take _ _
  vram := holds_ofList_take _ _
  palette := holds_ofList_take _ _
  oam := holds_ofList_take _ _
  oddSkip := rfl
  fault := rfl

/-- Settles O55: a construction answers a load fault or the machine at power-on (`construct_cases`), the fault of the one defect
R344's order finds first (`loadCause_of_loadFails`), and that machine holds what `builtFrom_powerOn` says. -/
theorem loadAdmits : Obligations.LoadAdmits := by
  refine ⟨fun f _ => headerSays_parseHeader f, fun p => ⟨⟨?loads, ?admits⟩, fun hf => ?missing, fun f c hf hc => ?defect,
    fun r hr => ?other, fun b f hb hf => ?built⟩⟩
  case loads =>
    rintro ⟨b, hb⟩
    rcases construct_cases p with ⟨c, herror, -⟩ | ⟨f, m, hf, hloads, -, -⟩
    · cases herror.symm.trans hb
    · exact ⟨f, hf, hloads⟩
  case admits =>
    rintro ⟨f, hf, hloads⟩
    obtain ⟨m, -, hok⟩ := construct_of_loads hf hloads
    exact ⟨_, hok⟩
  case missing =>
    exact construct_of_loadCause (by rw [hf]; rfl)
  case defect =>
    exact construct_of_loadCause (by rw [hf, loadCause_of_loadFails hc])
  case other =>
    rcases construct_cases p with ⟨c, herror, hc⟩ | ⟨f, m, -, -, -, hok⟩
    · cases herror.symm.trans hr
      exact ⟨c, rfl, hc⟩
    · cases hok.symm.trans hr
  case built =>
    rcases construct_cases p with ⟨c, herror, -⟩ | ⟨f', m, hf', ⟨-, -, -, hprg, hmapper, -⟩, hm, hok⟩
    · cases herror.symm.trans hb
    · cases hok.symm.trans hb
      cases hf'.symm.trans hf
      exact ⟨builtFrom_powerOn hmapper hm, mapperNumber_mapperOfNumber hm, hprg, rfl⟩

end Sys2Proof.Proofs
end

section
/-! Interrupts and reset (60_exceptions.md, 70_reset_and_hazards.md): what a step does first, what an interrupt entry leaves and what
RTI makes of it, and the host's reset(). -/

namespace Sys2Proof.Proofs

open Sys2Proof.Machine Sys2Proof.Laws

/-! ## What a step does first (R34, R384, R391, R425) -/

theorem step_beforeReset {s : State} (h : s.resetDone = false) : step s = .refused .beforeReset := by
  simp only [step, hostStep, h, Bool.false_eq_true, if_false]

theorem step_alreadyStopped {s : State} {r : FaultRecord} (hreset : s.resetDone = true) (hfault : s.fault = some r) :
    step s = .fault (.alreadyStopped r) := by
  simp only [step, hostStep, if_pos hreset, hfault]

/-- At a boundary a step is its slot, carried to the end of the tick. -/
theorem step_eq_boundary {s : State} (hb : AtBoundary s) :
    step s = thenEndTick (boundary (irqLevel s) (consumeIrq s)) := by
  obtain ⟨hreset, hfault, hcycles⟩ := hb
  simp only [step, hostStep, if_pos hreset, hfault, tick, if_pos hcycles]

theorem boundary_eq_enterNmi {s : State} (irq : Bool) (hnmi : s.cpu.nmiPending = true) : boundary irq s = enterNmi s :=
  if_pos hnmi

theorem boundary_eq_enterIrq {s : State} (hnmi : s.cpu.nmiPending = false) (hi : getFlag s.cpu.p .interrupt = false) :
    boundary true s = enterIrq s := by
  simp only [boundary, hnmi, hi, Bool.not_false, Bool.and_true, Bool.false_eq_true, if_false, if_true]

/-- Settles O9: before reset() and after a fault a step makes no tick; at a boundary the slot asks for the NMI latch first, then
for the IRQ line and I. -/
theorem stepOrder : Obligations.StepOrder := by
  refine fun s => ⟨step_beforeReset, fun r => step_alreadyStopped, fun hb hnmi => ?nmi, fun hb hnmi hi hirq => ?irq,
    step_eq_executeInstruction⟩
  case nmi => rw [step_eq_boundary hb, boundary_eq_enterNmi (s := consumeIrq s) _ hnmi]
  case irq => rw [step_eq_boundary hb, hirq, boundary_eq_enterIrq (s := consumeIrq s) hnmi hi]

/-! ## Entering (R385, R386, R388, R389) -/

/-- The state after an interrupt entry through `vec` that charges `cycles`. -/
def enteredState (vec : Addr) (cycles : Nat) (s : State) : State :=
  { s with
    ram := threePushes s.ram s.cpu.sp s.cpu.pc (pushedStatus s.cpu.p false)
    cpu := { s.cpu with
      sp := s.cpu.sp - 3#8
      pc := leWord (cartByte s vec) (cartByte s (vec + 1#16))
      p := enteredStatus s.cpu.p false
      cyclesRemaining := cycles } }

theorem enterIrq_eq {s : State} (hbanks : 0 < s.cart.header.prgBanks) :
    enterIrq s = .next (enteredState vectorIrq 7 s) := by
  rw [enterIrq, interruptSequence_eq_ok false (by decide) hbanks]
  rfl

/-- An NMI entry is an entry on the state with the latch cleared. -/
theorem enterNmi_eq {s : State} (hbanks : 0 < s.cart.header.prgBanks) :
    enterNmi s = .next (enteredState vectorNmi 8 (setNmiPending false s)) := by
  rw [enterNmi, interruptSequence_eq_ok (s := setNmiPending false s) false (by decide) hbanks]
  rfl

/-- Settles O10: both entries succeed (`enterIrq_eq`, `enterNmi_eq`) with the three pushes that `entered_threePushes` describes. -/
theorem interruptEntry : Obligations.InterruptEntry := fun s hbanks =>
  ⟨⟨_, enterIrq_eq hbanks, entered_threePushes false s.cpu.pc ⟨rfl, rfl, rfl⟩ rfl rfl, getFlag_enteredStatus s.cpu.p false,
      rfl, rfl⟩,
    ⟨_, enterNmi_eq hbanks, entered_threePushes false s.cpu.pc ⟨rfl, rfl, rfl⟩ rfl rfl, getFlag_enteredStatus s.cpu.p false,
      rfl, rfl⟩⟩

/-! ## Returning (R223, R387, R393, R394) -/

/-- RTI pulls the three bytes that an entry pushed: it resumes at the address pushed, with SP and the flags of before. -/
theorem rti_of_entered {vec returnPc : Addr} {b : Bool} {s t : State} (h : Entered vec b returnPc s t) :
    ∃ u, exec .rti t = .next u ∧ u.cpu.pc = returnPc ∧ u.cpu.sp = s.cpu.sp ∧
      ∀ f, getFlag u.cpu.p f = pushedFlags s.cpu.p b f := by
  obtain ⟨-, p, hrti, hp⟩ := returnFromInterruptCompletes t
  have h1 : t.cpu.sp + 1#8 = s.cpu.sp - 2#8 := by rw [h.sp]; exact sub_add s.cpu.sp 3#8 1#8
  have h2 : t.cpu.sp + 2#8 = s.cpu.sp - 1#8 := by rw [h.sp]; exact sub_add s.cpu.sp 3#8 2#8
  have h3 : t.cpu.sp + 3#8 = s.cpu.sp := by rw [h.sp]; exact BitVec.sub_add_cancel _ _
  refine ⟨_, hrti, ?pc, h3, fun f => (hp f).trans ?flags⟩
  case pc =>
    show leWord (t.ram.read (stackSlot (t.cpu.sp + 2#8))) (t.ram.read (stackSlot (t.cpu.sp + 3#8))) = returnPc
    rw [h2, h3, h.low, h.high, leWord_bytes]
  case flags =>
    rw [h1]
    cases f with
    | unused => rfl
    | _ => exact h.status _

/-- Settles O11: each of the three entries leaves a state that `Entered` describes, and RTI undoes it (`rti_of_entered`). -/
theorem interruptReturnResumes : Obligations.InterruptReturnResumes := by
  intro s hbanks
  obtain ⟨⟨t, hirq, htIrq, -⟩, u, hnmi, huNmi, -⟩ := interruptEntry s hbanks
  obtain ⟨v, hbrk, hvBrk, -⟩ := breakCompletes.2 s hbanks
  obtain ⟨t', hrtiIrq⟩ := rti_of_entered htIrq
  obtain ⟨u', hrtiNmi⟩ := rti_of_entered huNmi
  obtain ⟨v', hrtiBrk⟩ := rti_of_entered hvBrk
  exact ⟨⟨t, t', hirq, hrtiIrq⟩, ⟨u, u', hnmi, hrtiNmi⟩, ⟨v, v', hbrk, hrtiBrk⟩⟩

/-! ## reset() (R420 to R424) -/

/-- Settles O56: reading the reset vector is two ROM reads without a side effect, and the rest of reset() is constants. -/
theorem resetCall : Obligations.ResetCall := by
  intro s hbanks
  rw [hostReset, readVector_eq vectorReset s (by decide) hbanks]
  rfl

end Sys2Proof.Proofs
end

section
/-! Faults (60_exceptions.md R395 to R400): what a slot that faults leaves whatever it was doing, and the fault of each access that is
not taken: a fetched byte, the byte at an effective address, a JMP pointer's, a vector's. -/

namespace Sys2Proof.Proofs

open Sys2Proof.Machine Sys2Proof.Laws

/-! ## ILLEGAL (R123, R396) -/

/-- Settles O13: the one byte read decodes to ILLEGAL, whose fault touches nothing but `fault`. -/
theorem illegalStops : Obligations.IllegalStops := by
  refine ⟨fun _ _ => rfl, fun s s1 op hb hn hread hop => ?_⟩
  have hbytes : readBytes (instrSize (.illegal op)) s.cpu.pc (consumeIrq s) = .ok [op] s1 := by
    rw [show instrSize (.illegal op) = 1 from rfl, readBytes, hread]
    rfl
  have hdecode : decode [op] = .ok (.illegal op, []) := (illegalOpcodesDecode.2.2 op []).2 hop
  have hcpu : s1.cpu = s.cpu := by
    obtain ⟨-, -, rfl⟩ := cpuRead_next hread
    exact busValue_cpu _ _
  obtain ⟨-, hfault⟩ := stepRunsDecodedInstruction s s1 _ _ hb hn hbytes hdecode
  rw [hfault _ rfl, stopState, hcpu]

/-! ## What a slot that faults leaves -/

/-- Where a bus operation fails, the state that the accesses before the failed one left has a property. -/
def FaultLeaves (Inv : State → Prop) {α : Type} : Bus α → Prop
  | .ok _ _ => True
  | .fault _ _ _ u => Inv u

/-- A fault of a slot that began at `start`: the cause it names, and the state left is one with the property, stopped (R400). -/
def Stops (Inv : State → Prop) (start : State) (f : Fault) : Prop :=
  ∃ c u, stopped f = some (c, stopState start c u) ∧ Inv u

/-- A branch makes no access, so it cannot fault. -/
theorem branchShape_ne_fault (i : Instr) (d : Byte) (cond : Bool) (s : State) (f : Fault) :
    branchShape i d cond s ≠ .fault f := by
  cases cond <;> exact fun h => nomatch h

section

variable {Inv : State → Prop}

theorem faultLeaves_bind {α β : Type} {x : Bus α} {g : α → State → Bus β} (hx : Leaves Inv x)
    (hg : ∀ v u, Inv u → FaultLeaves Inv (g v u)) : FaultLeaves Inv (busBind x g) := by
  cases x with
  | ok v u => exact hg v u hx
  | fault => exact hx

/-- A bus operation that succeeds leaves no fault. -/
theorem faultLeaves_ok {α : Type} (v : α) (u : State) : FaultLeaves Inv (.ok v u) := trivial

theorem stops_busStop {start u : State} {e : BusFault} {a : Addr} {k : Access} {f : Fault} (hu : Inv u)
    (h : busStop start e a k u = .fault f) : Stops Inv start f := by
  cases e with
  | unmapped => cases h; exact ⟨_, u, rfl, hu⟩
  | deviceRange => cases h; exact ⟨_, u, rfl, hu⟩

theorem stops_endSlot {start : State} {r : Bus Unit} {f : Fault} (hr : FaultLeaves Inv r)
    (h : endSlot start r = .fault f) : Stops Inv start f := by
  cases r with
  | ok v u => cases h
  | fault e a k u => exact stops_busStop hr h

/-- Of the slot's start the fault keeps the registers alone. -/
theorem stops_congr {start start' : State} {f : Fault} (hcpu : start.cpu = start'.cpu) (h : Stops Inv start f) :
    Stops Inv start' f := by
  obtain ⟨c, u, hstop, hu⟩ := h
  refine ⟨c, u, ?_, hu⟩
  rw [hstop, stopState, stopState, hcpu]

variable (K : Kept Inv) {s : State} {f : Fault} (hs : Inv s)
include K hs

theorem stops_readShape {i : Instr} {o : Operand} {g : Byte → State → State} (h : readShape i o g s = .fault f) :
    Stops Inv s f :=
  stops_endSlot (faultLeaves_bind (leaves_resolve K.read o (keeps_advance K.cpu i hs)) fun r _ hu =>
    faultLeaves_bind (leaves_loadPlace K.read r.place hu) fun _ _ _ => faultLeaves_ok _ _) h

theorem stops_storeShape {i : Instr} {o : Operand} {v : Byte} (h : storeShape i o v s = .fault f) : Stops Inv s f :=
  stops_endSlot (faultLeaves_bind (leaves_resolve K.read o (keeps_advance K.cpu i hs)) fun r _ hu =>
    faultLeaves_bind (leaves_storePlace K r.place v hu) fun _ _ _ => faultLeaves_ok _ _) h

theorem stops_modifyShape {i : Instr} {o : Operand} {g g' : Byte → Cpu → Byte} (h : modifyShape i o g g' s = .fault f) :
    Stops Inv s f :=
  stops_endSlot (faultLeaves_bind (leaves_resolve K.read o (keeps_advance K.cpu i hs)) fun r _ hu =>
    faultLeaves_bind (leaves_loadPlace K.read r.place hu) fun _ _ hu' =>
      faultLeaves_bind (leaves_storePlace K r.place _ hu') fun _ _ _ => faultLeaves_ok _ _) h

theorem stops_jump {o : Operand} (h : execJmp o s = .fault f) : Stops Inv s f :=
  stops_endSlot (faultLeaves_bind (leaves_resolve K.read o (keeps_advance K.cpu _ hs)) fun _ _ _ => faultLeaves_ok _ _) h

theorem stops_break (h : execBrk s = .fault f) : Stops Inv s f :=
  stops_endSlot (faultLeaves_bind
    (leaves_interruptSequence K vectorIrq true
      (K.cpu { s.cpu with pc := (advance .brk s).cpu.pc + 1#16 } s hs)) fun _ _ _ => faultLeaves_ok _ _) h

theorem stops_enterIrq (h : enterIrq s = .fault f) : Stops Inv s f :=
  stops_endSlot (faultLeaves_bind (leaves_interruptSequence K vectorIrq false hs) fun _ _ _ => faultLeaves_ok _ _) h

theorem stops_enterNmi (h : enterNmi s = .fault f) : Stops Inv s f :=
  stops_endSlot (faultLeaves_bind
    (leaves_interruptSequence K vectorNmi false (K.cpu { s.cpu with nmiPending := false } s hs)) fun _ _ _ =>
      faultLeaves_ok _ _) h

/-- What register writes and bus accesses keep holds of the state that an instruction's fault leaves, but for its registers and
its fault record. The stack instructions but BRK, the implied ones and the branches never fault. -/
theorem stops_exec {i : Instr} (h : exec i s = .fault f) : Stops Inv s f := by
  cases i with
  | lda o | ldx o | ldy o | adc o | sbc o | and o | ora o | eor o | bit o | cmp o | cpx o | cpy o =>
    exact stops_readShape K hs h
  | sta o | stx o | sty o => exact stops_storeShape K hs h
  | inc o | dec o | asl o | lsr o | rol o | ror o =>
    simp only [exec, execInc, execDec, execAsl, execLsr, execRol, execRor] at h
    exact stops_modifyShape K hs h
  | jmp o => exact stops_jump K hs h
  | brk => exact stops_break K hs h
  | illegal op => cases h; exact ⟨_, s, rfl, hs⟩
  | jsr target => cases (stackShape_eq (callSubroutine_eq target _)).symm.trans h
  | rts => cases (stackShape_eq (returnFromSubroutine_eq _)).symm.trans h
  | rti => cases (stackShape_eq (returnFromInterrupt_eq _)).symm.trans h
  | pha => cases (stackShape_eq (push_eq s.cpu.a _)).symm.trans h
  | php => cases (stackShape_eq (push_eq (pushedStatus s.cpu.p true) _)).symm.trans h
  | pla => cases (pullShape_eq .pla (fun v u => setP (setNZ u.cpu.p v) (setA v u)) s).symm.trans h
  | plp => cases (pullShape_eq .plp (fun v u => setP (pulledStatus v) u) s).symm.trans h
  | bcc d | bcs d | beq d | bmi d | bne d | bpl d | bvc d | bvs d =>
    simp only [exec, execBcc, execBcs, execBeq, execBmi, execBne, execBpl, execBvc, execBvs] at h
    exact absurd h (branchShape_ne_fault _ _ _ _ _)
  | _ => cases h

theorem stops_executeInstruction (h : executeInstruction s = .fault f) : Stops Inv s f := by
  have hInv := leaves_fetch K.read hs
  have hreads := leaves_fetch (Inv := ReadsFrom s) (fun a _ => readsFrom_busValue a) (ReadsFrom.refl s)
  unfold executeInstruction at h
  cases hfetch : fetch s with
  | ok i u =>
    rw [hfetch] at h hInv hreads
    exact stops_congr hreads.cpu (stops_exec K hInv h)
  | fault e a k u =>
    rw [hfetch] at h hInv
    exact stops_busStop hInv h

theorem stops_boundary {irq : Bool} (h : boundary irq s = .fault f) : Stops Inv s f := by
  unfold boundary at h
  split at h
  · exact stops_enterNmi K hs h
  · split at h
    · exact stops_enterIrq K hs h
    · exact stops_executeInstruction K hs h

end

theorem thenEndTick_fault {r : StepOutcome} {f : Fault} (h : thenEndTick r = .fault f) : r = .fault f := by
  cases r with
  | next s => cases h
  | fault g => cases h; rfl
  | refused e => cases h

/-- A step of a machine without a fault can only fault in a slot, so at a boundary. -/
theorem step_fault {s : State} {f : Fault} (hfault : s.fault = none) (h : step s = .fault f) :
    AtBoundary s ∧ boundary (irqLevel s) (consumeIrq s) = .fault f := by
  by_cases hreset : s.resetDone = true
  · by_cases hcycles : s.cpu.cyclesRemaining = 0
    · have hb : AtBoundary s := ⟨hreset, hfault, hcycles⟩
      rw [step_eq_boundary hb] at h
      exact ⟨hb, thenEndTick_fault h⟩
    · cases (step_eq_countdown hreset hfault hcycles).symm.trans h
  · cases (step_beforeReset (Bool.eq_false_of_not_eq_true hreset)).symm.trans h

/-! ## The access that fails -/

/-- A slot whose bus operation fails at an address that is not taken: the accesses made before keep their effects, the registers
are the slot's start's. -/
theorem endSlot_fault {start : State} {a : Addr} (k : Access) (u : State) (h : ¬ Mapped start a) :
    endSlot start (.fault (busFaultAt a) a k u) =
      .fault (faultAt start.cpu.pc a k { u with cpu := { start.cpu with nmiPending := u.cpu.nmiPending } }) :=
  busStop_eq start u a k fun hlt => h (.inl hlt)

/-! ### A byte of the instruction -/

/-- A read past bytes that were read fails the reading of all of them. -/
theorem readBytes_fault {n m : Nat} {a b : Addr} {s u : State} {bs : List Byte} (h : readBytes n a s = .ok bs u)
    (hb : b = a + BitVec.ofNat 16 n) (hnot : ¬ Mapped u b) (hlt : n < m) :
    readBytes m a s = .fault (busFaultAt b) b .read u := by
  obtain ⟨m, rfl⟩ : ∃ m', m = m' + 1 := ⟨m - 1, by omega⟩
  induction n generalizing m a s bs with
  | zero =>
    cases h
    rw [BitVec.add_zero] at hb
    subst hb
    rw [readBytes, cpuRead_unmapped hnot, busBind_fault]
  | succ n ih =>
    obtain ⟨v, s1, hv, h⟩ := busBind_next h
    obtain ⟨vs, s2, hvs, h⟩ := busBind_next h
    cases h
    have hb' : b = a + 1#16 + BitVec.ofNat 16 n := by
      rw [hb, BitVec.add_assoc, Nat.add_comm n 1, BitVec.ofNat_add]
    obtain ⟨m, rfl⟩ : ∃ m', m = m' + 1 := ⟨m - 1, by omega⟩
    rw [readBytes, hv, busBind_ok, ih hvs hb' m (by omega), busBind_fault]

/-- A fetch fails at the first of the instruction's bytes that is not taken. -/
theorem fetch_fault {n : Nat} {a : Addr} {s u : State} {bs : List Byte} (h : readBytes n s.cpu.pc s = .ok bs u)
    (ha : a = s.cpu.pc + BitVec.ofNat 16 n) (hnot : ¬ Mapped u a)
    (hn : n = 0 ∨ ∃ op, bs.head? = some op ∧ n ≤ descriptorOperands (descriptorOf op)) :
    fetch s = .fault (busFaultAt a) a .read u := by
  cases n with
  | zero =>
    cases h
    rw [BitVec.add_zero] at ha
    subst ha
    rw [fetch, fetchBytes, cpuRead_unmapped hnot, busBind_fault, busBind_fault]
  | succ n =>
    obtain ⟨op, s1, hop, h⟩ := busBind_next h
    obtain ⟨rest, s2, hrest, h⟩ := busBind_next h
    cases h
    obtain hn | ⟨op', hop', hn⟩ := hn
    · exact absurd hn (Nat.succ_ne_zero n)
    cases hop'
    have ha' : a = s.cpu.pc + 1#16 + BitVec.ofNat 16 n := by
      rw [ha, BitVec.add_assoc, Nat.add_comm n 1, BitVec.ofNat_add]
    rw [fetch, fetchBytes, hop, busBind_ok, readBytes_fault hrest ha' hnot hn, busBind_fault, busBind_fault]

/-- A slot whose fetch fails changes nothing but what the reads before did. -/
theorem executeInstruction_fault {s u : State} {a : Addr} (hfetch : fetch s = .fault (busFaultAt a) a .read u)
    (hnot : ¬ Mapped s a) (hcpu : u.cpu = s.cpu) : executeInstruction s = .fault (faultAt s.cpu.pc a .read u) := by
  rw [executeInstruction, hfetch]
  refine (endSlot_fault .read u hnot).trans ?_
  rw [← hcpu]

/-! ### The byte at an effective address -/

/-- An operand form with an effective address resolves to it without a side effect. -/
theorem resolve_effectiveAddr {o : Operand} {s : State} {a : Addr} (h : effectiveAddr o s = some a) :
    resolve o s = .ok { place := .memory a, crossed := operandCrossed o s } s := by
  have hind : ∀ w, o ≠ .ind w := by rintro w rfl; cases h
  have hplace : placeOf o s = .memory a := by
    cases o <;> cases h <;> rfl
  rw [resolve_eq o s hind, hplace]

theorem effectiveAddr_advance (i : Instr) (o : Operand) (s : State) : effectiveAddr o (advance i s) = effectiveAddr o s :=
  effectiveAddr_setCpu o s _ rfl rfl

section

variable {i : Instr} {o : Operand} {s : State} {a : Addr} (ha : effectiveAddr o s = some a) (hnot : ¬ Mapped s a)
include ha hnot

theorem readShape_fault (g : Byte → State → State) :
    readShape i o g s = .fault (faultAt s.cpu.pc a .read s) := by
  rw [readShape, resolve_effectiveAddr ((effectiveAddr_advance i o s).trans ha), busBind_ok, loadPlace,
    cpuRead_unmapped (s := advance i s) hnot, busBind_fault, endSlot_fault .read (advance i s) hnot]
  rfl

theorem modifyShape_fault (g g' : Byte → Cpu → Byte) :
    modifyShape i o g g' s = .fault (faultAt s.cpu.pc a .read s) := by
  rw [modifyShape, resolve_effectiveAddr ((effectiveAddr_advance i o s).trans ha), busBind_ok, loadPlace,
    cpuRead_unmapped (s := advance i s) hnot, busBind_fault, endSlot_fault .read (advance i s) hnot]
  rfl

theorem storeShape_fault (v : Byte) (hlow : a.toNat < 0x8000) :
    storeShape i o v s = .fault (faultAt s.cpu.pc a .write s) := by
  rw [storeShape, resolve_effectiveAddr ((effectiveAddr_advance i o s).trans ha), busBind_ok, storePlace,
    cpuWrite_unmapped (s := advance i s) v hnot hlow, busBind_fault, endSlot_fault .write (advance i s) hnot]
  rfl

/-- The read at an effective address that is not taken: the instruction has had no effect. -/
theorem exec_read_fault (h : readOperand i = some o ∨ (storeOperand i = some o ∧ readsFirst i = true)) :
    exec i s = .fault (faultAt s.cpu.pc a .read s) := by
  obtain h | ⟨h, hfirst⟩ := h
  · cases i with
    | lda o | ldx o | ldy o | adc o | sbc o | and o | ora o | eor o | bit o | cmp o | cpx o | cpy o =>
      cases h; exact readShape_fault ha hnot _
    | _ => cases h
  · cases i with
    | inc o | dec o | asl o | lsr o | rol o | ror o =>
      cases h
      simp only [exec, execInc, execDec, execAsl, execLsr, execRol, execRor]
      exact modifyShape_fault ha hnot _ _
    | sta o | stx o | sty o => cases hfirst
    | _ => cases h

/-- The write at an effective address that is not taken, without a read before it. -/
theorem exec_write_fault (h : storeOperand i = some o) (hfirst : readsFirst i = false) (hlow : a.toNat < 0x8000) :
    exec i s = .fault (faultAt s.cpu.pc a .write s) := by
  cases i with
  | sta o | stx o | sty o => cases h; exact storeShape_fault ha hnot _ hlow
  | inc o | dec o | asl o | lsr o | rol o | ror o => cases hfirst
  | _ => cases h

end

/-! ### A JMP pointer -/

/-- A JMP whose pointer cannot be read faults there, on the state the pointer's reads left. -/
theorem execJmp_fault {w a : Addr} {s u : State} (hnot : ¬ Mapped s a) (hcpu : u.cpu = s.cpu)
    (h : readPair w (pointerHigh w) (advance (.jmp (.ind w)) s) =
      .fault (busFaultAt a) a .read (setCpu (advance (.jmp (.ind w)) s).cpu u)) :
    exec (.jmp (.ind w)) s = .fault (faultAt s.cpu.pc a .read u) := by
  show execJmp (.ind w) s = _
  rw [execJmp, resolve, h, busBind_fault, busBind_fault, endSlot_fault .read _ hnot]
  show Host.Outcome.fault (faultAt s.cpu.pc a .read (setCpu s.cpu u)) = _
  rw [← hcpu, setCpu_self]

theorem execJmp_fault_low {w : Addr} {s : State} (hnot : ¬ Mapped s w) :
    exec (.jmp (.ind w)) s = .fault (faultAt s.cpu.pc w .read s) := by
  refine execJmp_fault hnot rfl ?_
  rw [readPair, cpuRead_unmapped (s := advance (.jmp (.ind w)) s) hnot, busBind_fault]
  rfl

theorem execJmp_fault_high {w : Addr} {s : State} (hlow : Mapped s w) (hnot : ¬ Mapped s (pointerHigh w)) :
    exec (.jmp (.ind w)) s = .fault (faultAt s.cpu.pc (pointerHigh w) .read (busValue w s).2) := by
  refine execJmp_fault hnot (busValue_cpu w s) ?_
  have hnot' : ¬ Mapped (busValue w s).2 (pointerHigh w) := mt (mapped_congr (busValue_cart w s) _).1 hnot
  rw [readPair, cpuRead_mapped (s := advance (.jmp (.ind w)) s) hlow, busBind_ok, advance_eq, busValue_setCpu,
    cpuRead_unmapped ((mapped_setCpu _ _ _).not.2 hnot'), busBind_fault]
  rfl

/-! ### A vector -/

theorem pushedFrame_eq (b : Bool) (s : State) :
    pushedFrame b s = { s with
      ram := threePushes s.ram s.cpu.sp s.cpu.pc (pushedStatus s.cpu.p b)
      cpu := { s.cpu with sp := s.cpu.sp - 3#8, p := enteredStatus s.cpu.p b } } := by
  have hsp2 : s.cpu.sp - 1#8 - 1#8 = s.cpu.sp - 2#8 := BitVec.sub_sub _ _ _
  have hsp3 : s.cpu.sp - 2#8 - 1#8 = s.cpu.sp - 3#8 := BitVec.sub_sub _ _ _
  simp only [pushedFrame, hsp2, hsp3]
  rfl

theorem not_mapped_of_no_banks {s : State} {a : Addr} (hbanks : s.cart.header.prgBanks = 0) (ha : 0x8000 ≤ a.toNat) :
    ¬ Mapped s a := by
  rintro (h | ⟨-, h, -⟩ | ⟨-, h⟩) <;> omega

/-- A slot that enters through a vector with no PRG bank behind it faults after its three pushes. -/
theorem endSlot_interruptSequence_fault {start s : State} {vec : Addr} {b : Bool} (g : Unit → State → Bus Unit)
    (hcart : start.cart = s.cart) (hbanks : s.cart.header.prgBanks = 0) (hvec : 0x8000 ≤ vec.toNat) :
    endSlot start (busBind (interruptSequence vec b s) g) =
      .fault (faultAt start.cpu.pc vec .read { s with
        ram := threePushes s.ram s.cpu.sp s.cpu.pc (pushedStatus s.cpu.p b)
        cpu := { start.cpu with nmiPending := s.cpu.nmiPending } }) := by
  have hnot : ¬ Mapped s vec := not_mapped_of_no_banks hbanks hvec
  rw [interruptSequence_eq, readVector, readPair, cpuRead_unmapped (s := pushedFrame b s) hnot, busBind_fault,
    busBind_fault, busBind_fault, endSlot_fault .read _ (mt (mapped_congr hcart _).1 hnot), pushedFrame_eq]

/-! ## The statement (R400) -/

/-- Settles O12: a fault of any slot is `Stops` for whatever bus accesses keep, here what only a dot changes (`SameRaster`); the
fault of each kind of access is the failed access's, recorded on the state the accesses before it left. -/
theorem faultKeepsRegisters : Obligations.FaultKeepsRegisters := by
  refine ⟨fun s f hfault hstep => ?any, fun s s1 bs n a hb hn hread ha hnot hlen => ?fetched,
    fun i o s a ha hnot => ⟨exec_read_fault ha hnot, fun ⟨h, hfirst⟩ hlow => exec_write_fault ha hnot h hfirst hlow⟩,
    fun w w' s s1 l hw hread => ⟨execJmp_fault_low, fun hlow hnot => ?pointer⟩,
    fun s hbanks => ⟨⟨pushedStatus s.cpu.p false, getFlag_pushedStatus s.cpu.p false,
        endSlot_interruptSequence_fault _ rfl hbanks (by decide),
        endSlot_interruptSequence_fault (s := setNmiPending false s) _ rfl hbanks (by decide)⟩,
      pushedStatus s.cpu.p true, getFlag_pushedStatus s.cpu.p true, ?padded⟩⟩
  case any =>
    obtain ⟨⟨hreset, -, -⟩, hslot⟩ := step_fault hfault hstep
    obtain ⟨c, u, hstop, hu⟩ :=
      stops_boundary (sameRaster_kept (consumeIrq s)) (show SameRaster (consumeIrq s) (consumeIrq s) from rfl) hslot
    have hresetU : u.resetDone = true := by rw [hu]; exact hreset
    have hraster : u.ppu.scanline = s.ppu.scanline ∧ u.ppu.dot = s.ppu.dot ∧ u.ppu.frame = s.ppu.frame := by
      rw [hu]
      exact ⟨rfl, rfl, rfl⟩
    obtain ⟨hscanline, hdot, hframe⟩ := hraster
    exact ⟨c, _, hstop, rfl, rfl, hscanline, hdot, hframe, step_alreadyStopped hresetU rfl⟩
  case fetched =>
    have hreads := leaves_readBytes (Inv := ReadsFrom (consumeIrq s)) (fun b _ => readsFrom_busValue b) n s.cpu.pc
      (ReadsFrom.refl _)
    rw [hread] at hreads
    have hnot1 : ¬ Mapped s1 a := mt (mapped_congr (s := s) hreads.cart a).1 hnot
    rw [step_eq_executeInstruction hb hn,
      executeInstruction_fault (fetch_fault (s := consumeIrq s) hread ha hnot1 hlen) hnot hreads.cpu]
    rfl
  case pointer =>
    rw [← pointerHigh_eq hw] at hnot ⊢
    rw [execJmp_fault_high hlow hnot, hread]
  case padded =>
    have hreturn : (advance .brk s).cpu.pc + 1#16 = s.cpu.pc + 2#16 := BitVec.add_assoc s.cpu.pc 1#16 1#16
    rw [← hreturn]
    exact endSlot_interruptSequence_fault (s := setPc ((advance .brk s).cpu.pc + 1#16) (advance .brk s)) _ rfl hbanks (by decide)

end Sys2Proof.Proofs
end

section
/-! The CPU bus range by range (20_memory.md R64 to R68, R77; 55_cartridge_mappers.md R349, R350; 60_exceptions.md R397, R398): which
accesses no device takes, and what the others outside the PPU window read and write. -/

namespace Sys2Proof.Proofs

open Sys2Proof.Machine Sys2Proof.Laws

/-! ## The devices (R65) -/

theorem cpuDevice_none {a : Addr} (h : 0x4018 ≤ a.toNat) (h' : a.toNat ≤ 0x401F) : cpuDevice a = none := by
  rw [cpuDevice, if_neg (by omega), if_neg (by omega), if_neg (by omega), if_pos (by omega)]

theorem cpuDevice_io {a : Addr} (h : 0x4000 ≤ a.toNat) (h' : a.toNat ≤ 0x4017) : cpuDevice a = some .io := by
  rw [cpuDevice, if_neg (by omega), if_neg (by omega), if_pos (by omega)]

theorem cpuDevice_of_cartridge {a : Addr} (h : 0x4020 ≤ a.toNat) : cpuDevice a = some .cartridge := by
  rw [cpuDevice, if_neg (by omega), if_neg (by omega), if_neg (by omega), if_neg (by omega)]

/-! ## Accesses that no device takes (R397, R398) -/

theorem busFaultAt_unmapped {a : Addr} (h : 0x4018 ≤ a.toNat) (h' : a.toNat ≤ 0x401F) : busFaultAt a = .unmapped := by
  rw [busFaultAt, cpuDevice_none h h']

theorem busFaultAt_deviceRange {a : Addr} (h : 0x4020 ≤ a.toNat) : busFaultAt a = .deviceRange := by
  rw [busFaultAt, cpuDevice_of_cartridge h]

theorem faultAt_unmapped {a : Addr} (h : 0x4018 ≤ a.toNat) (h' : a.toNat ≤ 0x401F) (pc : Addr) (k : Access) (u : State) :
    ∃ left, faultAt pc a k u = .unmappedAccess a k left :=
  ⟨_, if_pos ⟨h, h'⟩⟩

theorem faultAt_deviceRange {a : Addr} (h : 0x4020 ≤ a.toNat) (pc : Addr) (k : Access) (u : State) :
    ∃ left, faultAt pc a k u = .deviceRange a k left :=
  ⟨_, if_neg (by omega)⟩

section

variable {s : State} {a : Addr} (hnot : ¬ Mapped s a)
include hnot

theorem lda_abs_fault : exec (.lda (.abs a)) s = .fault (faultAt s.cpu.pc a .read s) :=
  exec_read_fault (o := .abs a) rfl hnot (.inl rfl)

theorem sta_abs_fault (hlow : a.toNat < 0x8000) : exec (.sta (.abs a)) s = .fault (faultAt s.cpu.pc a .write s) :=
  exec_write_fault (o := .abs a) rfl hnot rfl rfl hlow

/-- An address of no device: the bus, and an LDA or STA there, stop with the unmapped access. -/
theorem unmapped_access_faults (h : 0x4018 ≤ a.toNat) (h' : a.toNat ≤ 0x401F) :
    cpuRead a s = .fault .unmapped a .read s ∧ (∀ v, cpuWrite a v s = .fault .unmapped a .write s) ∧
      (∃ left, exec (.lda (.abs a)) s = .fault (.unmappedAccess a .read left)) ∧
      (∃ left, exec (.sta (.abs a)) s = .fault (.unmappedAccess a .write left)) := by
  have hlow : a.toNat < 0x8000 := by omega
  obtain ⟨left, hread⟩ := faultAt_unmapped h h' s.cpu.pc .read s
  obtain ⟨left', hwrite⟩ := faultAt_unmapped h h' s.cpu.pc .write s
  rw [lda_abs_fault hnot, sta_abs_fault hnot hlow, hread, hwrite, cpuRead_unmapped hnot, ← busFaultAt_unmapped h h']
  exact ⟨rfl, fun v => cpuWrite_unmapped v hnot hlow, ⟨left, rfl⟩, ⟨left', rfl⟩⟩

/-- An address the cartridge refuses: the bus, and an LDA or STA there, stop with the device range fault. -/
theorem deviceRange_access_faults (h : 0x4020 ≤ a.toNat) (hlow : a.toNat < 0x8000) :
    cpuRead a s = .fault .deviceRange a .read s ∧ (∀ v, cpuWrite a v s = .fault .deviceRange a .write s) ∧
      (∃ left, exec (.lda (.abs a)) s = .fault (.deviceRange a .read left)) ∧
      (∃ left, exec (.sta (.abs a)) s = .fault (.deviceRange a .write left)) := by
  obtain ⟨left, hread⟩ := faultAt_deviceRange h s.cpu.pc .read s
  obtain ⟨left', hwrite⟩ := faultAt_deviceRange h s.cpu.pc .write s
  rw [lda_abs_fault hnot, sta_abs_fault hnot hlow, hread, hwrite, cpuRead_unmapped hnot, ← busFaultAt_deviceRange h]
  exact ⟨rfl, fun v => cpuWrite_unmapped v hnot hlow, ⟨left, rfl⟩, ⟨left', rfl⟩⟩

end

/-! ## The I/O window (R68) -/

section

variable {a : Addr} (h : 0x4000 ≤ a.toNat) (h' : a.toNat ≤ 0x4017) (s : State)
include h h'

theorem cpuRead_io : cpuRead a s = .ok (ioRead a s).1 (ioRead a s).2 := by
  rw [cpuRead_mapped (.inl (by omega)), busValue, cpuDevice_io h h']

theorem cpuWrite_io (v : Byte) : cpuWrite a v s = .ok () { s with ioLog := .write a v :: s.ioLog } := by
  rw [cpuWrite_mapped v (.inl (by omega)), busStore, cpuDevice_io h h']

end

theorem ioRead_answered {s : State} {v : Byte} {rest : List Byte} (a : Addr) (h : s.ioAnswers = v :: rest) :
    ioRead a s = (v, { s with ioAnswers := rest, ioLog := .read a v :: s.ioLog }) := by
  simp only [ioRead, h]

theorem ioRead_free {s : State} (a : Addr) (h : s.ioAnswers = []) :
    ioRead a s = (Config.ioAnswer s.ioLog a, { s with ioLog := .read a (Config.ioAnswer s.ioLog a) :: s.ioLog }) := by
  simp only [ioRead, h]

/-! ## The cartridge (R349, R350) -/

section

variable {s : State} {a : Addr} (hm : Mapped s a)
include hm

theorem cpuRead_cartridge (h : 0x4020 ≤ a.toNat) : cpuRead a s = .ok (cartByte s a) s := by
  rw [cpuRead_mapped hm, busValue, cpuDevice_of_cartridge h]

theorem cpuWrite_cartridge (h : 0x4020 ≤ a.toNat) (v : Byte) : cpuWrite a v s = .ok () (cartWrite s a v) := by
  rw [cpuWrite_mapped v hm, busStore, cpuDevice_of_cartridge h]

theorem cpuRead_prgRam (h : 0x6000 ≤ a.toNat) (h' : a.toNat < 0x8000) :
    cpuRead a s = .ok (s.prgRam.read (a.toNat - 0x6000)) s := by
  rw [cpuRead_cartridge hm (by omega), cartByte, if_pos h']

theorem cpuWrite_prgRam (h : 0x6000 ≤ a.toNat) (h' : a.toNat < 0x8000) (v : Byte) :
    cpuWrite a v s = .ok () { s with prgRam := s.prgRam.write (a.toNat - 0x6000) v } := by
  rw [cpuWrite_cartridge hm (by omega), cartWrite, if_pos h']

theorem cpuRead_prgRom (h : 0x8000 ≤ a.toNat) :
    cpuRead a s = .ok (s.cart.prgRom.read (prgOffset s.mapper s.cart.header.prgBanks a)) s := by
  rw [cpuRead_cartridge hm (by omega), cartByte, if_neg (by omega)]

theorem cpuWrite_prgRom (h : 0x8000 ≤ a.toNat) (v : Byte) :
    cpuWrite a v s = .ok () { s with mapper := mapperWrite s.mapper a v } := by
  rw [cpuWrite_cartridge hm (by omega), cartWrite, if_neg (by omega)]

end

/-! ## The statement -/

/-- Settles O14: an access outside `Mapped` faults, every other is taken, and what it does is its device's. -/
theorem unownedAccessFaults : Obligations.UnownedAccessFaults := by
  refine fun s a hbanks => ⟨fun ⟨h, h'⟩ => ?unmapped, fun h => ?refused, fun h => ?taken,
    fun h => ⟨cpuRead_ram h, fun v => ⟨_, cpuWrite_ram v h, rfl, fun k hk => ?ramOther, fun b hb hmirror => ?ramBack⟩⟩,
    fun ⟨h, h'⟩ => ⟨cpuWrite_io h h' s, fun v rest hans => ?answered, fun hans => ?free⟩,
    fun ⟨h, h', hnvram⟩ => ?prgRam, fun h => ?rom⟩
  case unmapped =>
    exact unmapped_access_faults (by rintro (h1 | ⟨h1, -⟩ | ⟨h1, -⟩) <;> omega) h h'
  case refused =>
    have hnot : ¬ Mapped s a := by
      rintro (h1 | ⟨h1, h2, h3⟩ | ⟨h1, -⟩)
      · omega
      · obtain h | ⟨-, -, h⟩ := h
        · omega
        · cases h.symm.trans h3
      · omega
    exact deviceRange_access_faults hnot (by omega) (by omega)
  case taken =>
    have hm : Mapped s a := by
      obtain h | ⟨h, h', hnvram⟩ | h := h
      · exact .inl h
      · exact .inr (.inl ⟨h, by omega, hnvram⟩)
      · exact .inr (.inr ⟨h, hbanks⟩)
    exact ⟨⟨_, _, cpuRead_mapped hm⟩, fun v => ⟨_, cpuWrite_mapped v hm⟩⟩
  case ramOther => exact read_write_other _ v hk.symm
  case ramBack => rw [cpuRead_ram hb, hmirror, read_write_same]
  case answered => rw [cpuRead_io h h', ioRead_answered a hans]
  case free => rw [cpuRead_io h h', ioRead_free a hans]
  case prgRam =>
    have hlt : a.toNat < 0x8000 := by omega
    have hm : Mapped s a := .inr (.inl ⟨h, hlt, hnvram⟩)
    refine ⟨cpuRead_prgRam hm h hlt, fun v => ⟨_, cpuWrite_prgRam hm h hlt v, rfl, fun k hk => ?_, ?_⟩⟩
    · exact read_write_other _ v hk.symm
    · rw [cpuRead_prgRam (s := { s with prgRam := s.prgRam.write (a.toNat - 0x6000) v }) hm h hlt, read_write_same]
  case rom =>
    have hm : Mapped s a := .inr (.inr ⟨h, hbanks⟩)
    exact ⟨cpuRead_prgRom hm h, cpuWrite_prgRom hm h⟩

end Sys2Proof.Proofs
end
